-- ==== Sys2Proof/Word.lean ====
section
/-!
DEFINITION. The widths the T420's buses and layouts use (00_scope, Conventions; 13).
-/
namespace Sys2Proof

/-- One byte of a bus or of a layout. -/
abbrev Byte := BitVec 8

/-- A two-byte field: a notice's detail, a format marker, an image check. -/
abbrev Half := BitVec 16

/-- A bus address is always the 7-bit address (00_scope, Conventions). -/
abbrev Addr := BitVec 7

end Sys2Proof
end

