-- ==== Sys2Proof/Syntax.lean ====
section
/-!
DEFINITION. The commands the T420 takes: one constructor of `Instr` for each row of spec/opcode_table.json, in the
table's order, with the operands the row's event carries. The names of ports, segments and levels they use stand first.
-/
namespace Sys2Proof

/-- The two upstream ports. -/
inductive Port where
  | u0
  | u1
  deriving DecidableEq, Repr

/-- The four downstream segments. -/
inductive Seg where
  | s0
  | s1
  | s2
  | s3
  deriving DecidableEq, Repr

/-- The direction bit of an address byte: 0 write, 1 read (R21). -/
inductive Dir where
  | write
  | read
  deriving DecidableEq, Repr

/-- The acknowledge bit after a byte: ACK is SDA low in the ninth clock, NACK is SDA high (R21). -/
inductive Ack where
  | ack
  | nack
  deriving DecidableEq, Repr

/-- The two wires of a bus. -/
inductive Wire where
  | scl
  | sda
  deriving DecidableEq, Repr

/-- The levels of a segment's two lines; true is high. -/
structure Lines where
  scl : Bool
  sda : Bool
  deriving DecidableEq, Repr

/-- Both lines seen high (R109, R118 step 4, R122). -/
def Lines.bothHigh (l : Lines) : Bool := l.scl && l.sda

/-- One value for each segment. -/
structure PerSeg (α : Type) where
  s0 : α
  s1 : α
  s2 : α
  s3 : α
  deriving DecidableEq, Repr

/-- One value for each upstream port. -/
structure PerPort (α : Type) where
  u0 : α
  u1 : α
  deriving DecidableEq, Repr

/-- What a foreign condition is seen as on a watched segment (R114). -/
inductive ForeignKind where
  /-- SDA falls while SCL is high -/
  | start
  /-- an SCL falling edge without a START: another controller's transaction already under way -/
  | sclEdge
  deriving DecidableEq, Repr

/-- The input levels a reset samples: the strap pins (R9) and the lines of each segment (R122). -/
structure ResetPins where
  adsel1 : Bool
  adsel0 : Bool
  lines : PerSeg Lines
  deriving DecidableEq, Repr

/-- The commands: one constructor per row of spec/opcode_table.json. The rows of the management commands (`identify` to
`restart`, and `errorEntry`) are the executor's taking of the head entry of the Command Queue when it is such an
entry (R159); port, tag and arguments stand in the entry. -/
inductive Instr where
  | powerOn (pins : ResetPins)
  | resetLineLow
  | resetLineRelease (pins : ResetPins)
  | start (p : Port)
  | repeatedStart (p : Port)
  | stop (p : Port)
  | midByteStop (p : Port)
  | midByteStart (p : Port)
  | addressByte (p : Port) (address : Addr) (dir : Dir)
  | writeByte (p : Port) (byte : Byte)
  | drainByte (p : Port)
  | readByteAck (p : Port) (answer : Ack)
  | mgmtWriteByte (p : Port) (byte : Byte)
  | mgmtReadAck (p : Port) (answer : Ack)
  | holdExpired (p : Port)
  | stall (p : Port)
  | legOpen (g : Seg) (lines : Lines)
  | targetAck (g : Seg) (answer : Ack)
  | bytePlaced (g : Seg)
  | deviceAck (g : Seg) (answer : Ack)
  | readByteFetched (g : Seg) (byte : Byte)
  | checkByteFetched (g : Seg) (byte : Byte)
  | stopPlaced (g : Seg)
  | arbLoss (g : Seg)
  | foreignStart (g : Seg) (kind : ForeignKind)
  | foreignStop (g : Seg)
  | clockLimitExpiry (g : Seg)
  | quietTimerExpiry (g : Seg) (lines : Lines)
  | recoveryAttemptEnd (g : Seg) (lines : Lines)
  | editLapsed
  | errorEntry
  | identify
  | getStatus
  | readEntry
  | readParams
  | takeNotices
  | openEdit
  | putEntry
  | dropEntry
  | putParam
  | commit
  | abandon
  | loadBank
  | saveBank
  | protectBank
  | unprotectBank (svcHigh : Bool)
  | segmentReset
  | segmentDisable
  | segmentEnable
  | restart (pins : ResetPins)
  | erasingComplete
  | writingComplete
  | verifyingComplete (readBack : List Byte)
  | headerComplete
  | cellWriteComplete
  | readAddressAckEnd (p : Port)
  | upstreamSclEdge (p : Port)
  | segmentLineEdge (g : Seg) (wire : Wire) (high : Bool)
  | supplyLoss
  deriving DecidableEq, Repr

end Sys2Proof
end

