-- ==== Sys2Proof/Config.lean ====
section
/-!
DEFINITION. What is fixed for the part (13.4) and the values the manual leaves free (R151). A free value is a constant with
no body: no proof can see what it is. Each takes the state's counter, so that each use is a fresh value.
-/
namespace Sys2Proof.Config

/-- IDENTIFY's vendor code (13.4). -/
def vendorCode : Half := 0x5744#16
/-- IDENTIFY's part code (13.4). -/
def partCode : Half := 0x0420#16
/-- IDENTIFY's revision (13.4). -/
def revision : Byte := 0x01#8
/-- The format marker of a bank header (R194). -/
def formatMarker : Half := 0x7E42#16
/-- Slots of a table (R1). -/
def slotCount : Nat := 32
/-- Bytes of a bank image: 16 of parameters and 32 entries of 10 (13.3). -/
def imageSize : Nat := 336
/-- The most notices the Notice Queue holds (R188). -/
def noticeMax : Nat := 32
/-- The credits of a port (R155). -/
def creditMax : Nat := 4
/-- The highest generation a header may carry, and the last a SAVE may reach (R139, R144). -/
def generationMax : Nat := 0xFFFFFFFE
/-- What an erased cell of a bank reads as: stated of the header (R138, R194), taken for the image too (log 8). -/
def erasedByte : Byte := 0xFF#8

/-- FREE VALUE (log 7): byte i of an image that an interrupted SAVE left partly erased or partly written (R151). -/
opaque freeImageByte : Nat → Nat → Byte
/-- FREE VALUE (log 7): the format marker an interrupted SAVE left, but for the value that would make the header good (R151). -/
opaque freeMarker : Nat → Half
/-- FREE VALUE (log 7): whether the marker had begun to be written when a SAVE was interrupted in HEADER (R194). -/
opaque freeMarkerBegun : Nat → Bool
/-- FREE VALUE (log 7): the generation field an interrupted SAVE left (R151). -/
opaque freeGeneration : Nat → BitVec 32
/-- FREE VALUE (log 7): the image check field an interrupted SAVE left (R151). -/
opaque freeCheck : Nat → Half
/-- FREE VALUE (log 7): whether an interrupted cell write left the new value (R151: either its old or its new value). -/
opaque freeCellIsNew : Nat → Bool

end Sys2Proof.Config
end

