-- ==== Sys2Proof/Machine/State.lean ====
section
/-!
DEFINITION. The state of the T420, as plain data: every field a chapter gives a block, and the few the text only implies
(each says so). INVENTORY.md lists them with their rules and reset values.
-/
namespace Sys2Proof

/-! ### Access by port and by segment -/

/-- The value held for a port. -/
def PerPort.get {α : Type} (v : PerPort α) : Port → α
  | .u0 => v.u0
  | .u1 => v.u1

/-- The value held for a port, replaced. -/
def PerPort.set {α : Type} (v : PerPort α) (p : Port) (x : α) : PerPort α :=
  match p with
  | .u0 => { v with u0 := x }
  | .u1 => { v with u1 := x }

/-- The value held for a segment. -/
def PerSeg.get {α : Type} (v : PerSeg α) : Seg → α
  | .s0 => v.s0
  | .s1 => v.s1
  | .s2 => v.s2
  | .s3 => v.s3

/-- The value held for a segment, replaced. -/
def PerSeg.set {α : Type} (v : PerSeg α) (g : Seg) (x : α) : PerSeg α :=
  match g with
  | .s0 => { v with s0 := x }
  | .s1 => { v with s1 := x }
  | .s2 => { v with s2 := x }
  | .s3 => { v with s3 := x }

/-- The same value for every segment. -/
def PerSeg.all {α : Type} (x : α) : PerSeg α := ⟨x, x, x, x⟩

/-- The same value for both ports. -/
def PerPort.all {α : Type} (x : α) : PerPort α := ⟨x, x⟩

/-- The segments in ascending number. -/
def Seg.list : List Seg := [.s0, .s1, .s2, .s3]

/-- The ports in ascending number. -/
def Port.list : List Port := [.u0, .u1]

/-- The two banks of the table store (R138). -/
inductive Bank where
  | bankA
  | bankB
  deriving DecidableEq, Repr

/-- One value for each bank. -/
structure PerBank (α : Type) where
  a : α
  b : α
  deriving DecidableEq, Repr

/-- The value held for a bank. -/
def PerBank.get {α : Type} (v : PerBank α) : Bank → α
  | .bankA => v.a
  | .bankB => v.b

/-- The value held for a bank, replaced. -/
def PerBank.set {α : Type} (v : PerBank α) (b : Bank) (x : α) : PerBank α :=
  match b with
  | .bankA => { v with a := x }
  | .bankB => { v with b := x }

namespace Machine

/-! ### The route table (chapter 1) -/

/-- The directions an entry allows (R2). -/
inductive Access where
  | read
  | write
  | readWrite
  deriving DecidableEq, Repr

/-- Whether a check byte is exchanged (R4). -/
inductive CheckMode where
  | none
  | regen
  deriving DecidableEq, Repr

/-- The offsets an entry's data may touch (R3). -/
structure Window where
  low : Byte
  high : Byte
  deriving DecidableEq, Repr

/-- One route (R2). -/
structure Entry where
  ports : PerPort Bool
  vaddr : Addr
  segs : PerSeg Bool
  target : Addr
  access : Access
  window : Option Window
  writeLimit : Option Nat
  readLen : Option Nat
  check : CheckMode
  deriving DecidableEq, Repr

/-- How the management address is formed (R5, R9). -/
inductive MgmtMode where
  | strap
  | fixed (a : Addr)
  deriving DecidableEq, Repr

/-- What a port may do through the management address (R6). -/
inductive Privilege where
  | none
  | read
  | full
  deriving DecidableEq, Repr

/-- Whether another controller shares a segment's wires (R5, chapter 7). -/
inductive SegMode where
  | exclusive
  | shared
  deriving DecidableEq, Repr

/-- The clock the part generates on a segment (R107). -/
inductive Speed where
  | standard
  | fast
  deriving DecidableEq, Repr

/-- The service parameter of a segment: IN or OUT (R8). -/
inductive Service where
  | inService
  | outOfService
  deriving DecidableEq, Repr

/-- The per-segment parameters (R5). -/
structure SegParams where
  mode : SegMode
  speed : Speed
  service : Service
  deriving DecidableEq, Repr

/-- A parameter block (R5). Limits in milliseconds, the edit lease in seconds. -/
structure Params where
  mgmt : MgmtMode
  priv : PerPort Privilege
  alert : PerPort Bool
  holdLimit : Nat
  stallLimit : Nat
  clockLimit : Nat
  retries : Nat
  lease : Nat
  segs : PerSeg SegParams
  deriving DecidableEq, Repr

/-- The defaults of R5. -/
def Params.default : Params where
  mgmt := .strap
  priv := ⟨.full, .read⟩
  alert := ⟨true, true⟩
  holdLimit := 30
  stallLimit := 50
  clockLimit := 12
  retries := 2
  lease := 5
  segs := PerSeg.all ⟨.exclusive, .standard, .inService⟩

/-- A table of 32 slots with the parameter block that travels with it (R1, R5). -/
structure Image where
  params : Params
  slots : List (Option Entry)
  deriving DecidableEq, Repr

/-- The empty table with default parameters, which a reset uses when no bank is valid (R18). -/
def Image.empty : Image := ⟨Params.default, List.replicate Config.slotCount Option.none⟩

/-- Where the working table came from (R10). -/
inductive Origin where
  | bank (b : Bank) (generation : Nat)
  | edited
  deriving DecidableEq, Repr

/-- Why validation fails (R14), or why a bank is not valid (R171). -/
inductive Reason where
  | reservedAddress
  | paramRange
  | segmentSet
  | windowOrder
  | readLenMissing
  | dupAddress
  | mgmtConflict
  | limitOrder
  | badHeader
  | notValid
  deriving DecidableEq, Repr

/-! ### Transaction Records (chapters 2 to 5) -/

/-- The port phases (R20). -/
inductive Phase where
  | idle
  | offBus
  | address
  | awaitGrant
  | awaitTarget
  | write
  | read
  | drain
  | mgmtWrite
  | mgmtRead
  deriving DecidableEq, Repr

/-- The copy of an entry, with its slot number, that governs a transaction (R12). -/
structure Snapshot where
  slot : Nat
  entry : Entry
  deriving DecidableEq, Repr

/-- What an address byte is found to be in the image that stands at it (R6, R9, R11): the management address, an address no
entry matches, or that of an entry. -/
inductive Found where
  | management
  | missed
  | matched (sn : Snapshot)
  deriving DecidableEq, Repr

/-- An address byte taken while a repeated START's confirmation is on the segments (R69; log 13), with what it was found to be. -/
structure EarlyAddr where
  addr : Addr
  dir : Dir
  found : Found
  deriving DecidableEq, Repr

/-- The states of a leg (R19). -/
inductive LegState where
  | claiming
  | active
  | ended
  | aborted
  deriving DecidableEq, Repr

/-- One leg of a Transaction Record (R19): `retries` counts arbitration losses against `retryLimit`, the figure read at the
first downstream attempt (R7, absent before it); `down` is the leg's downstream check value (R64). -/
structure Leg where
  seg : Seg
  state : LegState
  retries : Nat
  retryLimit : Option Nat
  marked : Bool
  down : Byte
  deriving DecidableEq, Repr

/-- What the join of a forwarded byte leads to (implied by R46, R67, R69). -/
inductive AfterJoin where
  /-- check mode NONE: the byte's own acknowledge slot is answered (R46, R84) -/
  | answer
  /-- REGEN: the arriving byte's slot is answered, and that byte is held next (R67, R88) -/
  | hold (arriving : Byte)
  /-- REGEN: a repeated START confirmed the byte, and R37 proceeds (R69) -/
  | repeatedStart
  deriving DecidableEq, Repr

/-- A byte handed to the legs and not yet joined (implied by R83, R84): `counted` once the first leg has placed it whole,
`lost` once a leg has NACKed it or been ABORTED. -/
structure InFlight where
  byte : Byte
  counted : Bool
  lost : Bool
  after : AfterJoin
  deriving DecidableEq, Repr

/-- Where a read data phase stands (implied by R49 to R53, R75, R76). -/
inductive ReadStage where
  /-- no read in progress -/
  | none
  /-- the address was ACKed and its ninth clock has not ended (R49) -/
  | addressAcked
  /-- a data byte is being fetched (R50) -/
  | fetching
  /-- the device's check byte is being fetched (R75) -/
  | fetchingCheck
  /-- a data byte is being supplied upstream (R50); `edges` counts the edges of the port's SCL since its first bit was offered, up
  to the sixteenth, the fall that ends the eighth bit (R63; log 39) -/
  | supplying (b : Byte) (edges : Nat)
  /-- the prepared check byte is being supplied upstream (R75) -/
  | supplyingCheck (b : Byte)
  /-- the read is over, and further bytes are 0xFF (R52, R76) -/
  | fill
  deriving DecidableEq, Repr

/-- A decided address byte whose answer waits until the record owns no segment (implied by R39). -/
inductive AddrWait where
  | mgmtWrite (addressByte : Byte)
  | mgmtRead (addressByte : Byte)
  | miss
  | denied (slot : Nat)
  | noOffset (slot : Nat)
  deriving DecidableEq, Repr

/-! ### Management Engine (chapters 10, 11) -/

/-- The management commands (R169). -/
inductive Command where
  | identify
  | getStatus
  | readEntry
  | readParams
  | takeNotices
  | openEdit
  | putEntry
  | dropEntry
  | putParam
  | commit
  | abandon
  | loadBank
  | saveBank
  | protectBank
  | unprotectBank
  | segmentReset
  | segmentDisable
  | segmentEnable
  | restart
  deriving DecidableEq, Repr

/-- The status codes (11.7). -/
inductive Status where
  | ok
  | empty
  | badCheck
  | badLength
  | frameShort
  | frameLong
  | unknown
  | notPermitted
  | badArg
  | noEdit
  | editHeld
  | editOpen
  | invalid
  | storeBusy
  | bankProtected
  | bankInvalid
  | storeFault
  | storeExhausted
  | notService
  | segBusy
  | segDisabled
  | segFaulted
  | recoveryFailed
  deriving DecidableEq, Repr

/-- A response as the Response Queue holds it: without a check (R153). Its length byte is that of the payload. -/
structure Response where
  status : Status
  tag : Byte
  payload : List Byte
  deriving DecidableEq, Repr

/-- A frame in assembly: the bytes received and ACKed, the running check, and the two marks (R154, R156). -/
structure Assembler where
  bytes : List Byte
  check : Byte
  lengthMark : Bool
  longMark : Bool
  deriving DecidableEq, Repr

/-- A response being supplied (R154, R163): `next` is the byte now supplied, `edges` counts the edges of the port's SCL told since
that byte began, up to the sixteenth (log 11), `checkDone` says the check byte has been supplied whole, `nacked` that the
controller has ended the read with a NACK. -/
structure ReadPos where
  frame : Response
  isEmpty : Bool
  next : Nat
  edges : Nat
  check : Byte
  checkDone : Bool
  nacked : Bool
  deriving DecidableEq, Repr

/-- An accepted entry of the Command Queue (R154, R157). -/
inductive QEntry where
  | frame (port : Port) (cmd : Command) (tag : Byte) (payload : List Byte)
  | error (port : Port) (status : Status) (tag : Byte)
  deriving DecidableEq, Repr

/-- A SEGMENT-RESET handed off and not yet answered (R154, R161). -/
structure SegReset where
  seg : Seg
  port : Port
  tag : Byte
  deriving DecidableEq, Repr

/-- A Transaction Record with its Upstream Port Engine and its share of the Management Engine (R19, R154). -/
structure PortState where
  phase : Phase
  isOpen : Bool
  snapshot : Option Snapshot
  dir : Dir
  legs : List Leg
  count : Nat
  pointer : Option Nat
  prevSlot : Option Nat
  up : Byte
  held : Option Byte
  readRemaining : Nat
  hold : Option Nat
  stall : Option Nat
  inFlight : Option InFlight
  readStage : ReadStage
  addrWait : Option AddrWait
  earlyAddr : Option EarlyAddr
  sclHeld : Bool
  ackOut : Option Ack
  sdaByte : Option Byte
  assembler : Option Assembler
  responses : List Response
  readPos : Option ReadPos
  deriving DecidableEq, Repr

/-- The values of R19's and R154's "after reset" columns. -/
def PortState.reset : PortState where
  phase := .idle
  isOpen := false
  snapshot := none
  dir := .write
  legs := []
  count := 0
  pointer := none
  prevSlot := none
  up := 0xFF#8
  held := none
  readRemaining := 0
  hold := none
  stall := none
  inFlight := none
  readStage := .none
  addrWait := none
  earlyAddr := none
  sclHeld := false
  ackOut := none
  sdaByte := none
  assembler := none
  responses := []
  readPos := none

/-! ### Segments (chapters 6, 7) -/

/-- A claimant of segments (R92). -/
inductive Claimant where
  | port (p : Port)
  | mgmt
  deriving DecidableEq, Repr

/-- The states of a segment (R105). -/
inductive SegCondition where
  | idle
  | foreign
  | owned
  | recovering
  | faulted
  | disabled
  deriving DecidableEq, Repr

/-- How far an ADDRESSING leg has got (R33, R109): waiting to place a fresh START, waiting to place a repeated START on a kept
segment (R38), or START placed and the address byte or its acknowledge in progress. -/
inductive Opening where
  | waitFresh
  | waitRepeated
  | placed
  deriving DecidableEq, Repr

/-- What a READING leg is doing (R50, R75): clocking a data byte, clocking the check byte, or giving the NACK of R52 or R75. -/
inductive Reading where
  | data
  | check
  | nackClock
  deriving DecidableEq, Repr

/-- The leg activities of R105, with what each is about. -/
inductive Activity where
  | addressing (o : Opening)
  | writing (b : Byte) (placed : Bool)
  | reading (r : Reading)
  | paused
  /-- CLOSING, with the check byte still to be placed before the STOP, if any (R70, R71) -/
  | closing (check : Option Byte)
  deriving DecidableEq, Repr

/-- A segment's arbiter record (R91) and Segment Controller (R105). `lines` are the levels last seen; `attemptLimit` is the clock
limit the recovery attempt in progress read (R118); `legSlot` is the slot of the snapshot that governs the leg on the segment,
while the record still holds that snapshot (R56, R113); `newWatch` says that the segment left DISABLED in SHARED mode and its
next SCL edge has not come (implied by R121). -/
structure SegState where
  owner : Option Claimant
  waiters : List Claimant
  cond : SegCondition
  activity : Option Activity
  foreignBusy : Bool
  newWatch : Bool
  pendingDisable : Bool
  attempts : Nat
  attemptLimit : Option Nat
  faults : Nat
  mode : SegMode
  speed : Speed
  clock : Option Nat
  quiet : Option Nat
  lines : Lines
  legSlot : Option Nat
  deriving DecidableEq, Repr

/-- R104's and R122's values before the loaded parameters decide the state, with the levels then seen. -/
def SegState.reset (l : Lines) : SegState where
  owner := none
  waiters := []
  cond := .idle
  activity := none
  foreignBusy := false
  newWatch := false
  pendingDisable := false
  attempts := 0
  attemptLimit := none
  faults := 0
  mode := .exclusive
  speed := .standard
  clock := none
  quiet := none
  lines := l
  legSlot := none

/-! ### Edit Buffer (chapter 8) -/

/-- An open session: its owner and the staging image (R124). -/
structure Session where
  owner : Port
  staging : Image
  deriving DecidableEq, Repr

/-! ### Table Store (chapter 9) -/

/-- A bank header (13.6). -/
structure Header where
  marker : Half
  generation : BitVec 32
  check : Half
  deriving DecidableEq, Repr

/-- An erased header reads as 0xFF in every byte (R138). -/
def Header.erased : Header := ⟨0xFFFF#16, 0xFFFFFFFF#32, 0xFFFF#16⟩

/-- A bank: image, header and protection cell (R138); `cell` is true for SET. -/
structure BankCells where
  image : List Byte
  header : Header
  cell : Bool
  deriving DecidableEq, Repr

/-- A bank the part has never written (R138; the image and the cell: log 2). -/
def BankCells.unwritten : BankCells :=
  ⟨List.replicate Config.imageSize Config.erasedByte, Header.erased, false⟩

/-- The Store Controller's record of a bank (R140). -/
structure BankRecord where
  valid : Bool
  generation : Option Nat
  protected_ : Bool
  deriving DecidableEq, Repr

/-- The states of the Store Controller (R143). -/
inductive StorePhase where
  | idle
  | erasing
  | writing
  | verifying
  | header
  | cellWrite
  deriving DecidableEq, Repr

/-- The kinds of an operation in flight (R143). -/
inductive StoreKind where
  | save
  | protect
  | unprotect
  deriving DecidableEq, Repr

/-- The operation in flight: its kind, its bank, the issuing port and the request's tag (R143). -/
structure StoreOp where
  kind : StoreKind
  bank : Bank
  port : Port
  tag : Byte
  deriving DecidableEq, Repr

/-- The causes of a reset (R142). -/
inductive ResetCause where
  | powerOn
  | resetLine
  | restart
  deriving DecidableEq, Repr

/-- The Table Store and the Store Controller (R138, R143). -/
structure Store where
  banks : PerBank BankCells
  phase : StorePhase
  op : Option StoreOp
  buffer : Option Image
  newGeneration : Option Nat
  originMark : Bool
  records : PerBank BankRecord
  cause : ResetCause
  deriving DecidableEq, Repr

/-! ### Notice Log (chapter 12) -/

/-- The kinds of notice (12.2). -/
inductive Kind where
  | accessDenied
  | policy
  | holdExpired
  | stall
  | segRefused
  | segTimeout
  | segRecovered
  | segFaulted
  | arbLost
  | checkUpstream
  | checkDownstream
  | upBusError
  | editLapsed
  | tableLoaded
  | tableEmpty
  | bankRejected
  deriving DecidableEq, Repr

/-- The port position of a notice: a port, or the reset cause of a load notice (R187). -/
inductive PortPos where
  | port (p : Port)
  | cause (c : ResetCause)
  deriving DecidableEq, Repr

/-- The segment position of a notice: a segment, or a bank (R187). -/
inductive SegPos where
  | seg (g : Seg)
  | bank (b : Bank)
  deriving DecidableEq, Repr

/-- A notice (R187). -/
structure Notice where
  seq : Nat
  kind : Kind
  port : Option PortPos
  seg : Option SegPos
  slot : Option Nat
  detail : Half
  deriving DecidableEq, Repr

/-! ### The whole part -/

/-- Whether the part runs, is held by the RESET line (R141), or has lost its supply (R151). -/
inductive RunState where
  | running
  | held
  | off
  deriving DecidableEq, Repr

/-- The state of the T420. `pending` is the model's queue of commands waiting, and `freeCtr` names its free values (log 26). -/
structure State where
  run : RunState
  strap : BitVec 2
  working : Image
  origin : Origin
  ports : PerPort PortState
  segs : PerSeg SegState
  session : Option Session
  lease : Option Nat
  store : Store
  cmdQueue : List QEntry
  executing : Option QEntry
  segResets : List SegReset
  notices : List Notice
  lost : Nat
  nextSeq : Nat
  freeCtr : Nat
  pending : List Instr
  deriving DecidableEq, Repr

/-- Why a command would stop the machine with a fault. The spec names no stop of the part (INVENTORY.md, Faults), so there is none. -/
inductive Fault where
  deriving DecidableEq, Repr

/-- Why a command would have no meaning. -/
inductive Refusal where
  /-- Raised by the dispatch for a command that has no meaning in the model yet. Safe: the model stops where the part goes on. -/
  | notModelled (mnemonic : String)
  deriving DecidableEq, Repr

/-- The machine right after a power-on with straps 0, all segment lines high and both banks never written (R18, R41, R104, R122,
R124, R142, R143, R168, R191; log 1, log 2): the empty table with default parameters, and TABLE_EMPTY in the Notice Queue. -/
def State.reset : State where
  run := .running
  strap := 0#2
  working := Image.empty
  origin := .edited
  ports := PerPort.all PortState.reset
  segs := PerSeg.all (SegState.reset ⟨true, true⟩)
  session := none
  lease := none
  store :=
    { banks := ⟨BankCells.unwritten, BankCells.unwritten⟩
      phase := .idle
      op := none
      buffer := none
      newGeneration := none
      originMark := false
      records := ⟨⟨false, none, false⟩, ⟨false, none, false⟩⟩
      cause := .powerOn }
  cmdQueue := []
  executing := none
  segResets := []
  notices := [⟨1, .tableEmpty, some (.cause .powerOn), none, none, 0#16⟩]
  lost := 0
  nextSeq := 2
  freeCtr := 0
  pending := []

end Machine
end Sys2Proof
end

