-- ==== Sys2Proof/Machine/Flags.lean ====
section
/-!
DEFINITION. The part's check values: the CRC-8 of check bytes and frames (R62, R152, R153) and the CRC-16 of bank images (R139),
and what they decide about a bank header (R139, R194).
-/
namespace Sys2Proof.Machine

/-- One of R62's eight shifts: shift left by one place within eight bits, and combine with 0x2F when the bit shifted out was 1. -/
def crc8Shift (v : Byte) : Byte :=
  if v.msb then (v <<< 1) ^^^ 0x2F#8 else v <<< 1

/-- `n` shifts of R62. -/
def crc8Shifts : Nat → Byte → Byte
  | 0, v => v
  | n + 1, v => crc8Shifts n (crc8Shift v)

/-- R62: a byte taken into a check value. -/
def crc8 (v b : Byte) : Byte := crc8Shifts 8 (v ^^^ b)

/-- R62: the figure a check value starts at. -/
def crc8Start : Byte := 0xFF#8

/-- A run of bytes taken into a check value, in order. -/
def crc8List (v : Byte) (bs : List Byte) : Byte := bs.foldl crc8 v

/-- One of R139's eight shifts within sixteen bits. -/
def crc16Shift (v : Half) : Half :=
  if v.msb then (v <<< 1) ^^^ 0x1021#16 else v <<< 1

/-- `n` shifts of R139. -/
def crc16Shifts : Nat → Half → Half
  | 0, v => v
  | n + 1, v => crc16Shifts n (crc16Shift v)

/-- R139: a byte combined into the high eight bits of the value, and eight shifts. -/
def crc16 (v : Half) (b : Byte) : Half := crc16Shifts 8 (v ^^^ (b.setWidth 16 <<< 8))

/-- R139: the image check of a run of bytes. -/
def crc16List (bs : List Byte) : Half := bs.foldl crc16 0xFFFF#16

/-- R139, R194: a header is good when its marker, its generation and its image check are. -/
def Header.good (h : Header) (image : List Byte) : Bool :=
  h.marker == Config.formatMarker && decide (1 ≤ h.generation.toNat) && decide (h.generation.toNat ≤ Config.generationMax)
    && h.check == crc16List image

end Sys2Proof.Machine
end

