-- ==== Sys2Proof/Machine/Operands.lean ====
section
/-!
DEFINITION. The byte layouts of chapter 13: the codes of single-byte values, the entry encoding (R192), the parameter encoding (R193),
PUT-PARAM's identifiers and values, and the notice encoding. A decoded field is `none` where its bytes give no value of its set.
-/
namespace Sys2Proof.Machine

/-! ### Numbers as bytes (Multi-byte fields are sent most significant byte first) -/

/-- A number's low eight bits. -/
def byteOf (n : Nat) : Byte := BitVec.ofNat 8 n

/-- A 16-bit number, most significant byte first. -/
def bytes2 (n : Nat) : List Byte := [byteOf (n / 0x100), byteOf n]

/-- A 32-bit number, most significant byte first. -/
def bytes4 (n : Nat) : List Byte := [byteOf (n / 0x1000000), byteOf (n / 0x10000), byteOf (n / 0x100), byteOf n]

/-- A list's byte at a position; positions beyond it do not arise in the layouts. -/
def byteAt (bs : List Byte) (i : Nat) : Byte := bs.getD i 0#8

/-- An address byte: seven address bits, then the direction bit, 0 for write and 1 for read (R21). -/
def addressByteOf (a : Addr) : Dir → Byte
  | .write => a ++ 0#1
  | .read => a ++ 1#1

/-- A yes/no value, SET/CLEAR or VALID/INVALID (13.1). -/
def boolByte (x : Bool) : Byte := if x then 0x01#8 else 0x00#8

/-- 0xFF marks an absent field (13). -/
def absentByte : Byte := 0xFF#8

/-! ### Single-byte codes (13.1) -/

/-- A port's code. -/
def portByte : Port → Byte
  | .u0 => 0x00#8
  | .u1 => 0x01#8

/-- A port's code, or none. -/
def portCode : Option Port → Byte
  | some p => portByte p
  | none => absentByte

/-- An owner's code. -/
def ownerCode : Option Claimant → Byte
  | some (.port .u0) => 0x00#8
  | some (.port .u1) => 0x01#8
  | some .mgmt => 0x02#8
  | none => absentByte

/-- A segment's number. -/
def segNumber : Seg → Nat
  | .s0 => 0
  | .s1 => 1
  | .s2 => 2
  | .s3 => 3

/-- A segment's code. -/
def segCode (g : Seg) : Byte := byteOf (segNumber g)

/-- The segment a byte names. -/
def segOfByte (b : Byte) : Option Seg :=
  if b = 0x00#8 then some .s0
  else if b = 0x01#8 then some .s1
  else if b = 0x02#8 then some .s2
  else if b = 0x03#8 then some .s3
  else none

/-- A bank's code. -/
def bankCode : Bank → Byte
  | .bankA => 0x00#8
  | .bankB => 0x01#8

/-- The bank a byte names. -/
def bankOfByte (b : Byte) : Option Bank :=
  if b = 0x00#8 then some .bankA else if b = 0x01#8 then some .bankB else none

/-- Whether a table byte names STAGING, if it names a table. -/
def stagingOfByte (b : Byte) : Option Bool :=
  if b = 0x00#8 then some false else if b = 0x01#8 then some true else none

/-- The slot a byte names (R170). -/
def slotOfByte (b : Byte) : Option Nat :=
  if b.toNat < Config.slotCount then some b.toNat else none

/-- A slot's code, or none. -/
def slotCode : Option Nat → Byte
  | some n => byteOf n
  | none => absentByte

/-- A reset cause's code. -/
def causeCode : ResetCause → Byte
  | .powerOn => 0x00#8
  | .resetLine => 0x01#8
  | .restart => 0x02#8

/-- A reason's code. -/
def reasonCode : Reason → Byte
  | .reservedAddress => 0x01#8
  | .paramRange => 0x02#8
  | .segmentSet => 0x03#8
  | .windowOrder => 0x04#8
  | .readLenMissing => 0x05#8
  | .dupAddress => 0x06#8
  | .mgmtConflict => 0x07#8
  | .limitOrder => 0x08#8
  | .badHeader => 0x10#8
  | .notValid => 0x11#8

/-- A port phase's code. -/
def phaseCode : Phase → Byte
  | .idle => 0x00#8
  | .offBus => 0x01#8
  | .address => 0x02#8
  | .awaitGrant => 0x03#8
  | .awaitTarget => 0x04#8
  | .write => 0x05#8
  | .read => 0x06#8
  | .drain => 0x07#8
  | .mgmtWrite => 0x08#8
  | .mgmtRead => 0x09#8

/-- A segment state's code. -/
def condCode : SegCondition → Byte
  | .idle => 0x00#8
  | .foreign => 0x01#8
  | .owned => 0x02#8
  | .recovering => 0x03#8
  | .faulted => 0x04#8
  | .disabled => 0x05#8

/-- A store state's code. -/
def storePhaseCode : StorePhase → Byte
  | .idle => 0x00#8
  | .erasing => 0x01#8
  | .writing => 0x02#8
  | .verifying => 0x03#8
  | .header => 0x04#8
  | .cellWrite => 0x05#8

/-- A status code. -/
def statusCode : Status → Byte
  | .ok => 0x00#8
  | .empty => 0x01#8
  | .badCheck => 0x10#8
  | .badLength => 0x11#8
  | .frameShort => 0x12#8
  | .frameLong => 0x13#8
  | .unknown => 0x14#8
  | .notPermitted => 0x20#8
  | .badArg => 0x21#8
  | .noEdit => 0x30#8
  | .editHeld => 0x31#8
  | .editOpen => 0x32#8
  | .invalid => 0x33#8
  | .storeBusy => 0x40#8
  | .bankProtected => 0x41#8
  | .bankInvalid => 0x42#8
  | .storeFault => 0x43#8
  | .storeExhausted => 0x44#8
  | .notService => 0x45#8
  | .segBusy => 0x50#8
  | .segDisabled => 0x51#8
  | .segFaulted => 0x52#8
  | .recoveryFailed => 0x53#8

/-- The command a code names (13.1). -/
def commandOfCode (b : Byte) : Option Command :=
  if b = 0x01#8 then some .identify
  else if b = 0x02#8 then some .getStatus
  else if b = 0x03#8 then some .readEntry
  else if b = 0x04#8 then some .readParams
  else if b = 0x05#8 then some .takeNotices
  else if b = 0x10#8 then some .openEdit
  else if b = 0x11#8 then some .putEntry
  else if b = 0x12#8 then some .dropEntry
  else if b = 0x13#8 then some .putParam
  else if b = 0x14#8 then some .commit
  else if b = 0x15#8 then some .abandon
  else if b = 0x20#8 then some .loadBank
  else if b = 0x21#8 then some .saveBank
  else if b = 0x22#8 then some .protectBank
  else if b = 0x23#8 then some .unprotectBank
  else if b = 0x30#8 then some .segmentReset
  else if b = 0x31#8 then some .segmentDisable
  else if b = 0x32#8 then some .segmentEnable
  else if b = 0x3F#8 then some .restart
  else none

/-- The payload length each command takes (R169). -/
def commandLength : Command → Nat
  | .putEntry => 11
  | .putParam => 3
  | .readEntry => 2
  | .readParams | .takeNotices | .dropEntry | .loadBank | .saveBank | .protectBank | .unprotectBank | .segmentReset
  | .segmentDisable | .segmentEnable => 1
  | .identify | .getStatus | .openEdit | .commit | .abandon | .restart => 0

/-- The commands READ privilege admits a port to (R160, R169); every other needs FULL. -/
def Command.needsFull : Command → Bool
  | .identify | .getStatus | .readEntry | .readParams | .takeNotices => false
  | .openEdit | .putEntry | .dropEntry | .putParam | .commit | .abandon | .loadBank | .saveBank | .protectBank
  | .unprotectBank | .segmentReset | .segmentDisable | .segmentEnable | .restart => true

/-! ### Fields of an entry (R192) -/

/-- The fields of an entry as its bytes give them: `none` where a field is outside its set. The write-limit byte is always in its
set, the segment set and the window decode from any byte. -/
structure EntryFields where
  ports : Option (PerPort Bool)
  vaddr : Option Addr
  segs : PerSeg Bool
  target : Option Addr
  access : Option Access
  check : Option CheckMode
  window : Option Window
  writeLimit : Option Nat
  readLen : Option (Option Nat)
  deriving DecidableEq, Repr

/-- A routable address, 0x08 to 0x77. -/
def addrOfByte (b : Byte) : Option Addr :=
  if 0x08 ≤ b.toNat ∧ b.toNat ≤ 0x77 then some (b.setWidth 7) else none

/-- Whether a 7-bit address lies in 0x08 to 0x77. -/
def routable (a : Addr) : Bool := decide (0x08 ≤ a.toNat) && decide (a.toNat ≤ 0x77)

/-- Bit 0 U0, bit 1 U1; bits 7 to 2 zero and at least one port bit set, else the port set is outside its set. -/
def portsOfByte (b : Byte) : Option (PerPort Bool) :=
  if 1 ≤ b.toNat ∧ b.toNat ≤ 3 then some ⟨b.getLsbD 0, b.getLsbD 1⟩ else none

/-- Bit n for Sn; bits 7 to 4 ignored. -/
def segSetOfByte (b : Byte) : PerSeg Bool := ⟨b.getLsbD 0, b.getLsbD 1, b.getLsbD 2, b.getLsbD 3⟩

/-- READ 0x01, WRITE 0x02, READ-WRITE 0x03. -/
def accessOfByte (b : Byte) : Option Access :=
  if b = 0x01#8 then some .read else if b = 0x02#8 then some .write else if b = 0x03#8 then some .readWrite else none

/-- Bits 1 to 0 of the options byte: NONE 0, REGEN 1. -/
def checkOfByte (b : Byte) : Option CheckMode :=
  if b.toNat % 4 = 0 then some .none else if b.toNat % 4 = 1 then some .regen else none

/-- 0 absent, 1 to 255. -/
def writeLimitOfByte (b : Byte) : Option Nat := if b.toNat = 0 then none else some b.toNat

/-- 0 absent, 1 to 64; 65 to 255 outside its set. -/
def readLenOfByte (b : Byte) : Option (Option Nat) :=
  if b.toNat = 0 then some none else if b.toNat ≤ 64 then some (some b.toNat) else none

/-- The fields ten bytes give (R192). -/
def entryFieldsOf (bs : List Byte) : EntryFields where
  ports := portsOfByte (byteAt bs 0)
  vaddr := addrOfByte (byteAt bs 1)
  segs := segSetOfByte (byteAt bs 2)
  target := addrOfByte (byteAt bs 3)
  access := accessOfByte (byteAt bs 4)
  check := checkOfByte (byteAt bs 5)
  window := if (byteAt bs 5).getLsbD 7 then some ⟨byteAt bs 6, byteAt bs 7⟩ else none
  writeLimit := writeLimitOfByte (byteAt bs 8)
  readLen := readLenOfByte (byteAt bs 9)

/-- R192: ten bytes of 0x00 are the empty slot, once the bits marked ignored, and the window bytes of an absent window, have been
taken as 0. -/
def isEmptySlot (bs : List Byte) : Bool :=
  byteAt bs 0 == 0#8 && byteAt bs 1 == 0#8 && (byteAt bs 2 &&& 0x0F#8) == 0#8 && byteAt bs 3 == 0#8
    && byteAt bs 4 == 0#8 && (byteAt bs 5 &&& 0x83#8) == 0#8 && byteAt bs 8 == 0#8 && byteAt bs 9 == 0#8

/-- The slot a record of a bank image gives (R192). -/
def slotFieldsOf (bs : List Byte) : Option EntryFields :=
  if isEmptySlot bs then none else some (entryFieldsOf bs)

/-- The fields of an entry the part holds. -/
def Entry.fields (e : Entry) : EntryFields where
  ports := some e.ports
  vaddr := some e.vaddr
  segs := e.segs
  target := some e.target
  access := some e.access
  check := some e.check
  window := e.window
  writeLimit := e.writeLimit
  readLen := some e.readLen

/-- The entry the fields give, each in its set (PUT-ENTRY's steps and validation see to that, R129, R15). -/
def EntryFields.toEntry (f : EntryFields) : Entry where
  ports := f.ports.getD ⟨false, false⟩
  vaddr := f.vaddr.getD 0#7
  segs := f.segs
  target := f.target.getD 0#7
  access := f.access.getD .read
  window := f.window
  writeLimit := f.writeLimit
  readLen := f.readLen.getD none
  check := f.check.getD .none

/-- Bit 0 U0, bit 1 U1. -/
def portsByte (v : PerPort Bool) : Byte := byteOf (v.u0.toNat + 2 * v.u1.toNat)

/-- Bit n for Sn. -/
def segSetByte (v : PerSeg Bool) : Byte := byteOf (v.s0.toNat + 2 * v.s1.toNat + 4 * v.s2.toNat + 8 * v.s3.toNat)

/-- READ 0x01, WRITE 0x02, READ-WRITE 0x03. -/
def accessByte : Access → Byte
  | .read => 0x01#8
  | .write => 0x02#8
  | .readWrite => 0x03#8

/-- Bits 1 to 0 check mode, bit 7 window present; ignored bits 0. -/
def optionsByte (c : CheckMode) (w : Option Window) : Byte :=
  byteOf ((match c with | .none => 0 | .regen => 1) + (match w with | none => 0 | some _ => 0x80))

/-- The 10-byte entry encoding (13.2), ignored bits and an absent window's bytes 0 (R192). -/
def Entry.bytes (e : Entry) : List Byte :=
  [ portsByte e.ports, 0#1 ++ e.vaddr, segSetByte e.segs, 0#1 ++ e.target, accessByte e.access,
    optionsByte e.check e.window,
    (match e.window with | none => 0#8 | some w => w.low),
    (match e.window with | none => 0#8 | some w => w.high),
    byteOf (e.writeLimit.getD 0), byteOf (e.readLen.getD 0) ]

/-- A slot in the entry encoding: ten bytes of 0x00 for an empty one. -/
def slotBytes : Option Entry → List Byte
  | none => List.replicate 10 0#8
  | some e => e.bytes

/-! ### Parameters (R193) -/

/-- A parameter block as its bytes give it: `none` where a value is outside its set; limits are judged by R16. -/
structure ParamFields where
  mgmt : Option MgmtMode
  priv : PerPort (Option Privilege)
  alert : PerPort (Option Bool)
  holdLimit : Nat
  stallLimit : Nat
  clockLimit : Nat
  retries : Nat
  lease : Nat
  segs : PerSeg SegParams
  deriving DecidableEq, Repr

/-- STRAP 0x00, FIXED 0x01 with its address; under STRAP the address byte is ignored. -/
def mgmtOfBytes (m a : Byte) : Option MgmtMode :=
  if m = 0x00#8 then some .strap else if m = 0x01#8 then (addrOfByte a).map .fixed else none

/-- NONE 0x00, READ 0x01, FULL 0x02. -/
def privOfByte (b : Byte) : Option Privilege :=
  if b = 0x00#8 then some .none else if b = 0x01#8 then some .read else if b = 0x02#8 then some .full else none

/-- off 0x00, on 0x01. -/
def boolOfByte (b : Byte) : Option Bool :=
  if b = 0x00#8 then some false else if b = 0x01#8 then some true else none

/-- Bit 0 mode, bit 1 speed, bit 2 service; bits 7 to 3 ignored. -/
def segParamsOfByte (b : Byte) : SegParams where
  mode := if b.getLsbD 0 then .shared else .exclusive
  speed := if b.getLsbD 1 then .fast else .standard
  service := if b.getLsbD 2 then .outOfService else .inService

/-- The parameter block sixteen bytes give (13.3). -/
def paramFieldsOf (bs : List Byte) : ParamFields where
  mgmt := mgmtOfBytes (byteAt bs 0) (byteAt bs 1)
  priv := ⟨privOfByte (byteAt bs 2), privOfByte (byteAt bs 3)⟩
  alert := ⟨boolOfByte (byteAt bs 4), boolOfByte (byteAt bs 5)⟩
  holdLimit := (byteAt bs 6).toNat
  stallLimit := (byteAt bs 7).toNat * 0x100 + (byteAt bs 8).toNat
  clockLimit := (byteAt bs 9).toNat
  retries := (byteAt bs 10).toNat
  lease := (byteAt bs 11).toNat
  segs := ⟨segParamsOfByte (byteAt bs 12), segParamsOfByte (byteAt bs 13), segParamsOfByte (byteAt bs 14),
    segParamsOfByte (byteAt bs 15)⟩

/-- The fields of a parameter block the part holds. -/
def Params.fields (p : Params) : ParamFields where
  mgmt := some p.mgmt
  priv := ⟨some p.priv.u0, some p.priv.u1⟩
  alert := ⟨some p.alert.u0, some p.alert.u1⟩
  holdLimit := p.holdLimit
  stallLimit := p.stallLimit
  clockLimit := p.clockLimit
  retries := p.retries
  lease := p.lease
  segs := p.segs

/-- The parameter block the fields give, each in its set. -/
def ParamFields.toParams (f : ParamFields) : Params where
  mgmt := f.mgmt.getD .strap
  priv := ⟨f.priv.u0.getD .none, f.priv.u1.getD .none⟩
  alert := ⟨f.alert.u0.getD false, f.alert.u1.getD false⟩
  holdLimit := f.holdLimit
  stallLimit := f.stallLimit
  clockLimit := f.clockLimit
  retries := f.retries
  lease := f.lease
  segs := f.segs

/-- NONE 0x00, READ 0x01, FULL 0x02. -/
def privByte : Privilege → Byte
  | .none => 0x00#8
  | .read => 0x01#8
  | .full => 0x02#8

/-- 13.3: bit 0 mode, bit 1 speed, bit 2 service. Bits 7 to 3, which the layout marks ignored, are sent and written as 0 (log 46). -/
def segParamsByte (p : SegParams) : Byte :=
  byteOf ((match p.mode with | .exclusive => 0 | .shared => 1) + (match p.speed with | .standard => 0 | .fast => 2)
    + (match p.service with | .inService => 0 | .outOfService => 4))

/-- The 16-byte parameter encoding (13.3); under STRAP byte 1 is 0x00. -/
def Params.bytes (p : Params) : List Byte :=
  [ (match p.mgmt with | .strap => 0x00#8 | .fixed _ => 0x01#8),
    (match p.mgmt with | .strap => 0x00#8 | .fixed a => 0#1 ++ a),
    privByte p.priv.u0, privByte p.priv.u1, boolByte p.alert.u0, boolByte p.alert.u1, byteOf p.holdLimit,
    byteOf (p.stallLimit / 0x100), byteOf p.stallLimit, byteOf p.clockLimit, byteOf p.retries, byteOf p.lease,
    segParamsByte p.segs.s0, segParamsByte p.segs.s1, segParamsByte p.segs.s2, segParamsByte p.segs.s3 ]

/-! ### Bank images (13.3) -/

/-- A complete image as its bytes give it, before validation. -/
structure ImageFields where
  params : ParamFields
  slots : List (Option EntryFields)
  deriving DecidableEq, Repr

/-- `n` entry records of ten bytes each. -/
def slotFieldsFrom : Nat → List Byte → List (Option EntryFields)
  | 0, _ => []
  | n + 1, bs => slotFieldsOf (bs.take 10) :: slotFieldsFrom n (bs.drop 10)

/-- The image 336 bytes give: the parameter block, then the 32 entry records in slot order. -/
def imageFieldsOf (bs : List Byte) : ImageFields :=
  ⟨paramFieldsOf (bs.take 16), slotFieldsFrom Config.slotCount (bs.drop 16)⟩

/-- The fields of an image the part holds. -/
def Image.fields (i : Image) : ImageFields := ⟨i.params.fields, i.slots.map (Option.map Entry.fields)⟩

/-- The image the fields give, each in its set. -/
def ImageFields.toImage (f : ImageFields) : Image := ⟨f.params.toParams, f.slots.map (Option.map EntryFields.toEntry)⟩

/-- The 336 bytes of an image (13.3). -/
def Image.bytes (i : Image) : List Byte := i.params.bytes ++ (i.slots.map slotBytes).flatten

/-! ### PUT-PARAM (R131, R193) -/

/-- The parameters PUT-PARAM names (13.3). -/
inductive ParamId where
  | mgmt
  | priv (p : Port)
  | alert (p : Port)
  | holdLimit
  | stallLimit
  | clockLimit
  | retries
  | lease
  | mode (g : Seg)
  | speed (g : Seg)
  | service (g : Seg)
  deriving DecidableEq, Repr

/-- The parameter an identifier byte names. -/
def paramIdOf (b : Byte) : Option ParamId :=
  if b = 0x01#8 then some .mgmt
  else if b = 0x02#8 then some (.priv .u0)
  else if b = 0x03#8 then some (.priv .u1)
  else if b = 0x04#8 then some (.alert .u0)
  else if b = 0x05#8 then some (.alert .u1)
  else if b = 0x06#8 then some .holdLimit
  else if b = 0x07#8 then some .stallLimit
  else if b = 0x08#8 then some .clockLimit
  else if b = 0x09#8 then some .retries
  else if b = 0x0A#8 then some .lease
  else if 0x10 ≤ b.toNat ∧ b.toNat ≤ 0x13 then (segOfByte (b - 0x10#8)).map .mode
  else if 0x14 ≤ b.toNat ∧ b.toNat ≤ 0x17 then (segOfByte (b - 0x14#8)).map .speed
  else if 0x18 ≤ b.toNat ∧ b.toNat ≤ 0x1B then (segOfByte (b - 0x18#8)).map .service
  else none

/-- A value within bounds. -/
def inRange (low high n : Nat) : Bool := decide (low ≤ n) && decide (n ≤ high)

/-- A segment's parameters with one of them set. -/
def Params.updSeg (p : Params) (g : Seg) (f : SegParams → SegParams) : Params :=
  { p with segs := p.segs.set g (f (p.segs.get g)) }

/-- PUT-PARAM: the parameter takes the two-byte value, or the value is outside its set (R131, R193). A one-byte parameter's nonzero
high byte puts the value outside its set; under STRAP the low byte is ignored. -/
def setParam (p : Params) (i : ParamId) (hi lo : Byte) : Option Params :=
  match i with
  | .mgmt => (mgmtOfBytes hi lo).map fun m => { p with mgmt := m }
  | .stallLimit =>
    let v := hi.toNat * 0x100 + lo.toNat
    if inRange 5 1000 v then some { p with stallLimit := v } else none
  | .priv q => if hi = 0#8 then (privOfByte lo).map fun v => { p with priv := p.priv.set q v } else none
  | .alert q => if hi = 0#8 then (boolOfByte lo).map fun v => { p with alert := p.alert.set q v } else none
  | .holdLimit => if hi = 0#8 ∧ inRange 2 250 lo.toNat = true then some { p with holdLimit := lo.toNat } else none
  | .clockLimit => if hi = 0#8 ∧ inRange 1 200 lo.toNat = true then some { p with clockLimit := lo.toNat } else none
  | .retries => if hi = 0#8 ∧ inRange 0 7 lo.toNat = true then some { p with retries := lo.toNat } else none
  | .lease => if hi = 0#8 ∧ inRange 1 60 lo.toNat = true then some { p with lease := lo.toNat } else none
  | .mode g =>
    if hi = 0#8 then
      (boolOfByte lo).map fun v => p.updSeg g fun q => { q with mode := if v then .shared else .exclusive }
    else none
  | .speed g =>
    if hi = 0#8 then
      (boolOfByte lo).map fun v => p.updSeg g fun q => { q with speed := if v then .fast else .standard }
    else none
  | .service g =>
    if hi = 0#8 then
      (boolOfByte lo).map fun v => p.updSeg g fun q => { q with service := if v then .outOfService else .inService }
    else none

/-! ### Notices (13.5) -/

/-- A notice kind's code. -/
def kindCode : Kind → Byte
  | .accessDenied => 0x01#8
  | .policy => 0x02#8
  | .holdExpired => 0x03#8
  | .stall => 0x04#8
  | .segRefused => 0x05#8
  | .segTimeout => 0x06#8
  | .segRecovered => 0x07#8
  | .segFaulted => 0x08#8
  | .arbLost => 0x09#8
  | .checkUpstream => 0x0A#8
  | .checkDownstream => 0x0B#8
  | .upBusError => 0x0C#8
  | .editLapsed => 0x0D#8
  | .tableLoaded => 0x0E#8
  | .tableEmpty => 0x0F#8
  | .bankRejected => 0x10#8

/-- The port position: a port or a reset cause. -/
def portPosCode : Option PortPos → Byte
  | some (.port p) => portByte p
  | some (.cause c) => causeCode c
  | none => absentByte

/-- The segment position: a segment or a bank. -/
def segPosCode : Option SegPos → Byte
  | some (.seg g) => segCode g
  | some (.bank b) => bankCode b
  | none => absentByte

/-- The 8-byte notice encoding. -/
def Notice.bytes (n : Notice) : List Byte :=
  bytes2 n.seq ++ [kindCode n.kind, portPosCode n.port, segPosCode n.seg, slotCode n.slot] ++ bytes2 n.detail.toNat

/-- POLICY details (13.5). -/
inductive PolicyDetail where
  | offsetLow
  | offsetHigh
  | noOffset
  | length
  | readBeyond
  deriving DecidableEq, Repr

/-- A POLICY detail's code. -/
def policyCode : PolicyDetail → Half
  | .offsetLow => 0x0001#16
  | .offsetHigh => 0x0002#16
  | .noOffset => 0x0003#16
  | .length => 0x0004#16
  | .readBeyond => 0x0005#16

/-- ACCESS_DENIED's detail: the refused direction, WRITE 0x0000 or READ 0x0001. -/
def dirDetail : Dir → Half
  | .write => 0x0000#16
  | .read => 0x0001#16

/-- SEG_TIMEOUT detail HELD. -/
def detailHeld : Half := 0x0001#16
/-- SEG_TIMEOUT detail LINES_LOW. -/
def detailLinesLow : Half := 0x0002#16
/-- ARB_LOST detail ADDRESS. -/
def detailAddress : Half := 0x0001#16
/-- ARB_LOST detail DATA. -/
def detailData : Half := 0x0002#16
/-- UP_BUS_ERROR detail START. -/
def detailStart : Half := 0x0001#16
/-- UP_BUS_ERROR detail STOP. -/
def detailStop : Half := 0x0002#16

end Sys2Proof.Machine
end

