-- ==== Sys2Proof/Machine/Validate.lean ====
section
/-!
DEFINITION. The effective management address (R9), lookup (R11), and the validation of an image (R14, R15, R16): one procedure, run on
the fields an image has, whether they come from the staging image or from the bytes of a bank.
-/
namespace Sys2Proof.Machine

/-- R9: the management address a mode produces, STRAP resolved from the held strap value. -/
def effectiveMgmt (strap : BitVec 2) : MgmtMode → Addr
  | .strap => 0x2C#7 + strap.setWidth 7
  | .fixed a => a

/-! ### Sets and directions -/

/-- The segments of a set, ascending. -/
def PerSeg.members (v : PerSeg Bool) : List Seg := Seg.list.filter v.get

/-- Two port sets intersect. -/
def portsIntersect (a b : PerPort Bool) : Bool := (a.u0 && b.u0) || (a.u1 && b.u1)

/-- A port set has a member. -/
def portsNonempty (a : PerPort Bool) : Bool := a.u0 || a.u1

/-- Access allows a direction (R2). -/
def Access.allows : Access → Dir → Bool
  | .read, .read => true
  | .read, .write => false
  | .write, .write => true
  | .write, .read => false
  | .readWrite, _ => true

/-! ### Lookup (R11) -/

/-- An entry is found by (port, address). -/
def Entry.found (e : Entry) (p : Port) (a : Addr) : Bool := e.ports.get p && e.vaddr == a

/-- The first slot from `n` on whose entry is found; by the law of R14 no other matches. -/
def lookupFrom (p : Port) (a : Addr) : Nat → List (Option Entry) → Option Snapshot
  | _, [] => none
  | n, none :: rest => lookupFrom p a (n + 1) rest
  | n, some e :: rest => if e.found p a then some ⟨n, e⟩ else lookupFrom p a (n + 1) rest

/-- R11: the working table looked up by the pair (port, address). -/
def lookup (slots : List (Option Entry)) (p : Port) (a : Addr) : Option Snapshot := lookupFrom p a 0 slots

/-! ### One entry (R15) -/

/-- Step 1: an address outside 0x08 to 0x77. -/
def addressOutside : Option Addr → Bool
  | none => true
  | some a => !routable a

/-- Step 2: a field of an entry other than its addresses outside its set. -/
def fieldOutside (f : EntryFields) : Bool :=
  (match f.ports with | none => true | some v => !portsNonempty v)
    || f.access.isNone || f.check.isNone
    || (match f.writeLimit with | none => false | some n => !inRange 1 255 n)
    || (match f.readLen with | none => true | some none => false | some (some n) => !inRange 1 64 n)

/-- Step 3: an empty segment set, or one of more than one member with access other than WRITE. -/
def segmentSetBad (f : EntryFields) : Bool :=
  (PerSeg.members f.segs).isEmpty || (decide (1 < (PerSeg.members f.segs).length) && f.access != some .write)

/-- Step 4: a window whose low is above its high. -/
def windowBad (f : EntryFields) : Bool :=
  match f.window with
  | none => false
  | some w => decide (w.high.toNat < w.low.toNat)

/-- Step 5: REGEN, access including READ, and no read length. -/
def readLenMissing (f : EntryFields) : Bool :=
  f.check == some .regen && (f.access == some .read || f.access == some .readWrite) && f.readLen == some none

/-- Step 6: two entries with intersecting port sets and the same virtual address. -/
def collides (f g : EntryFields) : Bool :=
  (match f.ports, g.ports with | some a, some b => portsIntersect a b | _, _ => false)
    && f.vaddr.isSome && f.vaddr == g.vaddr

/-- R15: the checks of one entry, in order, against the non-empty lower-numbered slots and the image's own management address
(`none` where step 7 is passed over). -/
def checkEntry (mgmt : Option Addr) (lower : List EntryFields) (f : EntryFields) : Option Reason :=
  if addressOutside f.vaddr || addressOutside f.target then some .reservedAddress
  else if fieldOutside f then some .paramRange
  else if segmentSetBad f then some .segmentSet
  else if windowBad f then some .windowOrder
  else if readLenMissing f then some .readLenMissing
  else if lower.any (collides f) then some .dupAddress
  else if mgmt.isSome && f.vaddr == mgmt then some .mgmtConflict
  else none

/-- R15: the entries in ascending slot order, empty slots passed over. -/
def checkSlots (mgmt : Option Addr) : Nat → List EntryFields → List (Option EntryFields) → Option (Reason × Option Nat)
  | _, _, [] => none
  | n, lower, none :: rest => checkSlots mgmt (n + 1) lower rest
  | n, lower, some f :: rest =>
    match checkEntry mgmt lower f with
    | some r => some (r, some n)
    | none => checkSlots mgmt (n + 1) (lower ++ [f]) rest

/-! ### The parameter block (R16) -/

/-- A management address mode within its set: STRAP, or FIXED with a value 0x08 to 0x77. -/
def mgmtInSet : Option MgmtMode → Bool
  | some .strap => true
  | some (.fixed a) => routable a
  | none => false

/-- R16: each parameter in its set of values; mode, speed and service of a segment decode from any byte. -/
def paramsInSet (f : ParamFields) : Bool :=
  mgmtInSet f.mgmt && f.priv.u0.isSome && f.priv.u1.isSome && f.alert.u0.isSome && f.alert.u1.isSome
    && inRange 2 250 f.holdLimit && inRange 5 1000 f.stallLimit && inRange 1 200 f.clockLimit && inRange 0 7 f.retries
    && inRange 1 60 f.lease

/-- R16: the parameter block's first failure. -/
def checkParams (f : ParamFields) : Option (Reason × Option Nat) :=
  if !paramsInSet f then some (.paramRange, none)
  else if f.holdLimit ≤ f.clockLimit then some (.limitOrder, none)
  else none

/-- The management address step 7 of R15 compares with: none where the image's mode is outside its set. -/
def imageMgmt (strap : BitVec 2) (f : ParamFields) : Option Addr :=
  if mgmtInSet f.mgmt then f.mgmt.map (effectiveMgmt strap) else none

/-- R14: validation passes the image (`none`) or reports its first failure as a reason and a slot. -/
def validate (strap : BitVec 2) (f : ImageFields) : Option (Reason × Option Nat) :=
  match checkSlots (imageMgmt strap f.params) 0 [] f.slots with
  | some r => some r
  | none => checkParams f.params

/-! ### Bank headers and the reading of a bank (R139, R140, R142, R148, R194) -/

/-- R139, R194: the header a SAVE writes. -/
def newHeader (i : Image) (n : Nat) : Header := ⟨Config.formatMarker, BitVec.ofNat 32 n, crc16List i.bytes⟩

/-- What a reading of a bank finds. -/
inductive BankReading where
  | badHeader
  | rejected (generation : Nat) (reason : Reason) (slot : Option Nat)
  | good (generation : Nat) (image : Image)
  deriving DecidableEq, Repr

/-- A bank's header and image read: the header good or not (R139), then validation over the image (R14). -/
def readBank (strap : BitVec 2) (b : BankCells) : BankReading :=
  if b.header.good b.image then
    match validate strap (imageFieldsOf b.image) with
    | some (r, n) => .rejected b.header.generation.toNat r n
    | none => .good b.header.generation.toNat (imageFieldsOf b.image).toImage
  else .badHeader

/-- The bank record a reading leaves (R140, R142, R148). -/
def recordOf (r : BankReading) (cell : Bool) : BankRecord :=
  match r with
  | .badHeader => ⟨false, none, cell⟩
  | .rejected n _ _ => ⟨false, some n, cell⟩
  | .good n _ => ⟨true, some n, cell⟩

end Sys2Proof.Machine
end

