-- ==== Sys2Proof/Machine/Ops.lean ====
section
/-!
DEFINITION. The named operations over the parts of the state that more than one command uses: access by port and segment, the arrival
of a notice, the placement of a response, the credits, the timers, the release and the recovery of a segment, and the
ending of a leg.
-/
namespace Sys2Proof.Machine

/-! ### Access -/

/-- A port's Transaction Record. -/
def State.port (s : State) (p : Port) : PortState := s.ports.get p

/-- A port's Transaction Record, changed. -/
def State.updPort (s : State) (p : Port) (f : PortState → PortState) : State :=
  { s with ports := s.ports.set p (f (s.ports.get p)) }

/-- A segment's arbiter record and controller. -/
def State.seg (s : State) (g : Seg) : SegState := s.segs.get g

/-- A segment's arbiter record and controller, changed. -/
def State.updSeg (s : State) (g : Seg) (f : SegState → SegState) : State :=
  { s with segs := s.segs.set g (f (s.segs.get g)) }

/-- The Store Controller and its banks, changed. -/
def State.updStore (s : State) (f : Store → Store) : State := { s with store := f s.store }

/-! ### The Notice Log (R188, R190) -/

/-- The next sequence number advances by one, from 0xFFFF to 1 (R188). -/
def nextSeqAfter (n : Nat) : Nat := if n < 0xFFFF then n + 1 else 1

/-- R188: a notice arrives. It takes the next sequence number, and joins the tail or is discarded and counted lost. A number is the
counter's alone: when discards on a full queue have taken the counter once round, an arrival can take a number that a queued
notice still has (log 42). -/
def note (k : Kind) (port : Option PortPos) (seg : Option SegPos) (slot : Option Nat) (detail : Half) (s : State) : State :=
  if s.notices.length < Config.noticeMax then
    { s with notices := s.notices ++ [⟨s.nextSeq, k, port, seg, slot, detail⟩], nextSeq := nextSeqAfter s.nextSeq }
  else
    { s with lost := if s.lost < 255 then s.lost + 1 else s.lost, nextSeq := nextSeqAfter s.nextSeq }

/-- A notice that names a port. -/
def notePort (k : Kind) (p : Port) (g : Option Seg) (slot : Option Nat) (detail : Half) (s : State) : State :=
  note k (some (.port p)) (g.map .seg) slot detail s

/-- R190: ALERTn is driven low while the Notice Queue holds a notice and the port's working alert enable is on; held and
unpowered parts release it (R141, R191). -/
def alertLow (s : State) (p : Port) : Bool :=
  s.run == .running && !s.notices.isEmpty && s.working.params.alert.get p

/-! ### Responses and credits (R153 to R155, R161) -/

/-- R161: a response joins the tail of a port's Response Queue. -/
def respond (p : Port) (status : Status) (tag : Byte) (payload : List Byte) (s : State) : State :=
  s.updPort p fun r => { r with responses := r.responses ++ [⟨status, tag, payload⟩] }

/-- The port an entry of the Command Queue came from. -/
def QEntry.port : QEntry → Port
  | .frame p _ _ _ => p
  | .error p _ _ => p

/-- The tag an entry's response returns. -/
def QEntry.tag : QEntry → Byte
  | .frame _ _ t _ => t
  | .error _ _ t => t

/-- A count of one or none. -/
def one (b : Bool) : Nat := if b then 1 else 0

/-- R155: a port's frames accepted and not yet answered: queued, executing, and handed off. -/
def accepted (s : State) (p : Port) : Nat :=
  (s.cmdQueue.filter fun e => e.port == p).length
    + one (s.executing.any fun e => e.port == p)
    + one (s.store.op.any fun o => o.port == p)
    + (s.segResets.filter fun r => r.port == p).length

/-- R154: a port's credits in use, by the sum the rule gives. -/
def creditsInUse (s : State) (p : Port) : Nat :=
  one (s.port p).assembler.isSome + accepted s p + (s.port p).responses.length

/-- R155: the test of a management write address. -/
def creditFree (s : State) (p : Port) : Bool :=
  decide (accepted s p + (s.port p).responses.length < Config.creditMax)

/-! ### Ownership and legs (R19, R91) -/

/-- A record owns a segment when the arbiter names its port owner. -/
def owns (s : State) (p : Port) (g : Seg) : Bool := (s.seg g).owner == some (.port p)

/-- The segments a record owns, ascending. -/
def ownedSegs (s : State) (p : Port) : List Seg := Seg.list.filter (owns s p)

/-- A record's leg on a segment. -/
def legOn (s : State) (p : Port) (g : Seg) : Option Leg := (s.port p).legs.find? fun l => l.seg == g

/-- A record's leg on a segment is ACTIVE. -/
def legActive (s : State) (p : Port) (g : Seg) : Bool :=
  (s.port p).legs.any fun l => l.seg == g && l.state == .active

/-- The segments of a record's ACTIVE legs, ascending. -/
def activeSegs (s : State) (p : Port) : List Seg := Seg.list.filter (legActive s p)

/-- The segments of a record's CLAIMING legs, ascending. -/
def claimingSegs (s : State) (p : Port) : List Seg :=
  Seg.list.filter fun g => (s.port p).legs.any fun l => l.seg == g && l.state == .claiming

/-- A record's leg on a segment, changed. -/
def updLeg (p : Port) (g : Seg) (f : Leg → Leg) (s : State) : State :=
  s.updPort p fun r => { r with legs := r.legs.map fun l => if l.seg == g then f l else l }

/-- An ENDED leg leaves the list when its segment has left the record (R19, R56). -/
def dropEndedLeg (p : Port) (g : Seg) (s : State) : State :=
  s.updPort p fun r => { r with legs := r.legs.filter fun l => !(l.seg == g && l.state == .ended) }

/-- R12, R56: the snapshot is discarded, and the segments the record still owns are governed by none. -/
def dropSnapshot (p : Port) (s : State) : State :=
  ((ownedSegs s p).foldl (fun t g => t.updSeg g fun c => { c with legSlot := none }) s).updPort p fun r =>
    { r with snapshot := none }

/-! ### Upstream SCL and the acknowledge slot (R22) -/

/-- R22, R59: the part begins to hold a port's SCL low; the stall timer stops. -/
def holdScl (p : Port) (s : State) : State :=
  s.updPort p fun r => { r with sclHeld := true, stall := none }

/-- R22: the part gives an acknowledge and releases SCL. -/
def giveAck (p : Port) (a : Ack) (s : State) : State :=
  s.updPort p fun r => { r with ackOut := some a, sclHeld := false }

/-- Eight clocks of SCL, of two edges each, from the part's release of SCL to the fall that ends the eighth bit (R21, R22). -/
def byteEdges : Nat := 16

/-- The edges of SCL counted for the byte now supplied, after one more, up to the sixteenth. -/
def nextEdge (n : Nat) : Nat := if n < byteEdges then n + 1 else n

/-- R50: the part supplies a byte upstream, releasing SCL for its first bit. -/
def supply (p : Port) (b : Byte) (s : State) : State :=
  s.updPort p fun r => { r with sdaByte := some b, sclHeld := false }

/-- The phase becomes DRAIN (R40). Nothing of the data phase is in progress any longer. -/
def toDrain (p : Port) (s : State) : State :=
  s.updPort p fun r => { r with phase := .drain, inFlight := none, held := none, readStage := .none }

/-! ### Timers (R7, R59, R111, R114) -/

/-- R111: the clock-limit timer starts, reading the working segment clock limit. -/
def startClock (g : Seg) (s : State) : State :=
  s.updSeg g fun c => { c with clock := some s.working.params.clockLimit }

/-- R59: the conditions under which a record's stall timer runs. -/
def stallRuns (s : State) (p : Port) : Bool :=
  !(ownedSegs s p).isEmpty && (s.port p).phase != .idle && (s.port p).phase != .offBus && !(s.port p).sclHeld

/-- R59: the stall timer runs exactly while its conditions hold; it reads the working limit when it starts. -/
def retimeStall (p : Port) (s : State) : State :=
  s.updPort p fun r =>
    { r with
      stall :=
        if stallRuns s p then
          (match r.stall with
          | some n => some n
          | none => some s.working.params.stallLimit)
        else none }

/-- OWNED and waiting to place a fresh START, or to begin MGMT's sequence (R114, R179). -/
def SegState.waiting (c : SegState) : Bool :=
  c.cond == .owned && (c.activity == some (.addressing .waitFresh) || (c.owner == some .mgmt && c.activity.isNone))

/-- R114: the states in which a SHARED segment's lines are watched. -/
def SegState.watched (c : SegState) : Bool :=
  c.mode == .shared && (c.cond == .idle || c.cond == .foreign || c.waiting)

/-- R114: the conditions under which a segment's quiet timer runs. -/
def SegState.quietRuns (c : SegState) : Bool :=
  c.watched && (!c.lines.bothHigh || c.cond == .foreign || c.foreignBusy)

/-- R114: the quiet timer runs exactly while its conditions hold; it reads the working segment clock limit when it starts. -/
def retimeQuiet (g : Seg) (s : State) : State :=
  s.updSeg g fun c =>
    { c with
      quiet :=
        if c.quietRuns then
          (match c.quiet with
          | some n => some n
          | none => some s.working.params.clockLimit)
        else none }

/-- The stall and quiet timers after an event (R59, R114). -/
def retime (s : State) : State :=
  retimeStall .u0 (retimeStall .u1 (retimeQuiet .s0 (retimeQuiet .s1 (retimeQuiet .s2 (retimeQuiet .s3 s)))))

/-! ### Release and recovery of a segment (R96, R97, R108, R118) -/

/-- R96, R108: the owner's release. The mode is taken; the segment is DISABLED when it was pending disable, else IDLE, or FOREIGN
when another controller has the bus of a SHARED segment. -/
def release (g : Seg) (foreign : Bool) (s : State) : State :=
  s.updSeg g fun c =>
    { c with
      owner := none
      activity := none
      legSlot := none
      foreignBusy := false
      newWatch := false
      clock := none
      mode := (s.working.params.segs.get g).mode
      pendingDisable := false
      cond :=
        if c.pendingDisable then .disabled
        else if foreign && (s.working.params.segs.get g).mode == .shared then .foreign else .idle }

/-- R118: a recovery attempt starts, reading the speed and the segment clock limit. -/
def startAttempt (g : Seg) (s : State) : State :=
  s.updSeg g fun c =>
    { c with
      speed := (s.working.params.segs.get g).speed
      attemptLimit := some s.working.params.clockLimit }

/-- R97, R108, R119: the segment enters RECOVERING under the owner it then has, and its first attempt begins. -/
def beginRecovery (g : Seg) (owner : Option Claimant) (s : State) : State :=
  startAttempt g (s.updSeg g fun c =>
    { c with
      owner := owner
      activity := none
      legSlot := none
      foreignBusy := false
      newWatch := false
      clock := none
      quiet := none
      attempts := 0
      mode := (s.working.params.segs.get g).mode
      cond := .recovering })

/-! ### Ending a leg (R33) -/

/-- R33, R36, R116: what the Segment Controller does with a leg the record ends. A leg that waits to place its fresh START has nothing
to close, and its segment is released at once, FOREIGN when a foreign transaction holds it. Any other completes what it is
at and places its STOP, after the check byte it is handed, if any (R70). R7, R111: a PAUSED leg's SCL is released for it, and the
clock-limit timer starts; a timer that runs over a device's hold goes on with the figure it began with (log 16). -/
def closeSegment (g : Seg) (check : Option Byte) (s : State) : State :=
  match (s.seg g).activity with
  | some (.addressing .waitFresh) => release g (s.seg g).foreignBusy s
  | some (.closing _) => s
  | some .paused => startClock g (s.updSeg g fun c => { c with activity := some (.closing check) })
  | _ => s.updSeg g fun c => { c with activity := some (.closing check) }

/-- R33: the record marks a leg ENDED, and its segment is closed. -/
def endLeg (p : Port) (check : Leg → Option Byte) (g : Seg) (s : State) : State :=
  let byte := (legOn s p g).bind check
  closeSegment g byte (updLeg p g (fun l => { l with state := .ended }) s)

/-- Every ACTIVE leg of a record is ended, lowest segment first. -/
def endActive (p : Port) (check : Leg → Option Byte) (s : State) : State :=
  (activeSegs s p).foldl (fun t g => endLeg p check g t) s

/-- No check byte is placed before the STOP. -/
def noCheck (_ : Leg) : Option Byte := none

/-- Every CLAIMING leg becomes ENDED without a claim (R31, R36). -/
def endClaiming (p : Port) (s : State) : State :=
  s.updPort p fun r =>
    { r with legs := r.legs.map fun l => if l.state == .claiming then { l with state := .ended } else l }

/-- The slot of the snapshot a record holds. -/
def slotOf (s : State) (p : Port) : Option Nat := (s.port p).snapshot.map (·.slot)

/-! ### SEGMENT-RESETs handed off (R161, R180) -/

/-- R180: the SEGMENT-RESET handed off for a segment, if there is one, receives its response. -/
def answerSegReset (g : Seg) (status : Status) (payload : List Byte) (s : State) : State :=
  match s.segResets.find? fun r => r.seg == g with
  | none => s
  | some r =>
    respond r.port status r.tag payload { s with segResets := s.segResets.filter fun x => !(x.seg == g) }

/-- A command that reaches a part that is held in reset or unpowered does nothing (R141, R151; log 5). -/
def whenRunning (s : State) (f : State → State) : State := if s.run = .running then f s else s

end Sys2Proof.Machine
end

