-- ==== Sys2Proof/Machine/Frames.lean ====
section
/-!
DEFINITION. Management frames (chapter 10): the assembly of a request frame, its judgement at its end, and the supply of a
response.
-/
namespace Sys2Proof.Machine

/-! ### Writing a frame (R156, R157) -/

/-- R152, R156: the assembler when a management write address has been ACKed: the check has taken in the address byte. -/
def Assembler.start (addressByte : Byte) : Assembler := ⟨[], crc8 crc8Start addressByte, false, false⟩

/-- R156: the answer to a byte offered, and the assembler after it. Byte numbers count from 1, so byte n + 1 is offered when n were
kept. -/
def Assembler.take (m : Assembler) (b : Byte) : Ack × Assembler :=
  if m.lengthMark then (.nack, m)
  else if m.bytes.length < 2 then (.ack, { m with bytes := m.bytes ++ [b], check := crc8 m.check b })
  else if m.bytes.length = 2 then
    if b.toNat ≤ 40 then (.ack, { m with bytes := m.bytes ++ [b], check := crc8 m.check b })
    else (.nack, { m with bytes := m.bytes ++ [b], lengthMark := true })
  else if m.bytes.length < (byteAt m.bytes 2).toNat + 3 then
    (.ack, { m with bytes := m.bytes ++ [b], check := crc8 m.check b })
  else if m.bytes.length = (byteAt m.bytes 2).toNat + 3 then (.ack, { m with bytes := m.bytes ++ [b] })
  else (.nack, { m with longMark := true })

/-- R157: the tag of the frame: byte 2 when it was taken, and 0 otherwise. -/
def Assembler.tag (m : Assembler) : Byte := byteAt m.bytes 1

/-- R157: the entry a frame with at least one byte makes. -/
def Assembler.judge (p : Port) (m : Assembler) : QEntry :=
  let len := (byteAt m.bytes 2).toNat
  if m.lengthMark then .error p .badLength m.tag
  else if m.longMark then .error p .frameLong m.tag
  else if m.bytes.length < 3 ∨ m.bytes.length < len + 4 then .error p .frameShort m.tag
  else if byteAt m.bytes (len + 3) ≠ m.check then .error p .badCheck m.tag
  else
    match commandOfCode (byteAt m.bytes 0) with
    | none => .error p .unknown m.tag
    | some c =>
      if len ≠ commandLength c then .error p .badLength m.tag
      else .frame p c m.tag ((m.bytes.drop 3).take len)

/-- R127: the lease restarts at the acceptance of a frame from the owner of the open session. -/
def renewLease (p : Port) (s : State) : State :=
  match s.session with
  | none => s
  | some e => if e.owner = p then { s with lease := some s.working.params.lease } else s

/-- R157: an entry joins the tail of the Command Queue. -/
def accept (p : Port) (e : QEntry) (s : State) : State := renewLease p { s with cmdQueue := s.cmdQueue ++ [e] }

/-- R157: the frame in assembly ends, is judged, and leaves the assembler empty. -/
def frameEnd (p : Port) (s : State) : State :=
  match (s.port p).assembler with
  | none => s
  | some m =>
    let t := s.updPort p fun r => { r with assembler := none }
    if m.bytes.isEmpty then t else accept p (m.judge p) t

/-! ### Reading a response (R153, R163, R164) -/

/-- R153: the EMPTY frame. -/
def Response.empty : Response := ⟨.empty, 0#8, []⟩

/-- The bytes of a response before its check. -/
def Response.bytes (r : Response) : List Byte :=
  statusCode r.status :: r.tag :: byteOf r.payload.length :: r.payload

/-- R163: the read position at a management read address. -/
def ReadPos.start (addressByte : Byte) (responses : List Response) : ReadPos :=
  match responses with
  | [] => ⟨Response.empty, true, 0, 0, crc8 crc8Start addressByte, false, false⟩
  | r :: _ => ⟨r, false, 0, 0, crc8 crc8Start addressByte, false, false⟩

/-- R163: the byte now supplied: a byte of the frame, the check byte, or 0xFF. -/
def ReadPos.current (m : ReadPos) : Byte :=
  if m.nacked then 0xFF#8
  else if m.next < m.frame.bytes.length then byteAt m.frame.bytes m.next
  else if m.next = m.frame.bytes.length then m.check
  else 0xFF#8

/-- R163: the byte now supplied has been supplied whole. -/
def ReadPos.whole (m : ReadPos) : ReadPos :=
  if m.nacked then m
  else if m.next < m.frame.bytes.length then
    { m with next := m.next + 1, check := crc8 m.check (byteAt m.frame.bytes m.next) }
  else if m.next = m.frame.bytes.length then { m with next := m.next + 1, checkDone := true }
  else m

/-- R163: the controller's acknowledge of a byte supplied whole. -/
def ReadPos.answer (m : ReadPos) (a : Ack) : ReadPos :=
  match a with
  | .ack => { m.whole with edges := 0 }
  | .nack => { m.whole with edges := 0, nacked := true }

/-- R163: an edge of the port's SCL while a byte is being supplied (log 11). -/
def ReadPos.edgeSeen (m : ReadPos) : ReadPos := { m with edges := nextEdge m.edges }

/-- R164: the read as a condition at a byte's boundary finds it: the byte is whole when its eighth bit has ended, so that the condition
stands in place of the acknowledge; before its first bit it is not (log 11). -/
def ReadPos.atBoundary (m : ReadPos) : ReadPos := if byteEdges ≤ m.edges then m.whole else m

/-- R164, R165: a management read ends, at the boundary of a byte or inside one. -/
def readEnd (p : Port) (boundary : Bool) (s : State) : State :=
  match (s.port p).readPos with
  | none => s
  | some m =>
    let done := (if boundary then m.atBoundary else m).checkDone
    s.updPort p fun r =>
      { r with
        readPos := none
        responses := if !m.isEmpty && done then r.responses.drop 1 else r.responses }

end Sys2Proof.Machine
end

