-- ==== Sys2Proof/Machine/Arbiter.lean ====
section
/-!
DEFINITION. The Segment Arbiter (chapter 6) and what one event sets off across the blocks before the next: refusals, grants, the next
claim of an acquisition, and the answer of an address byte that waited for closing segments.
-/
namespace Sys2Proof.Machine

/-! ### Grants (R95, R109, R179) -/

/-- A claimant leaves a segment's wait list. -/
def unwait (c : Claimant) (g : Seg) (s : State) : State :=
  s.updSeg g fun x => { x with waiters := x.waiters.filter fun w => !(w == c) }

/-- R95, R109: a segment granted to a Transaction Record: its leg becomes ACTIVE and waits to place its fresh START. -/
def grantPort (g : Seg) (p : Port) (s : State) : State :=
  updLeg p g (fun l => { l with state := .active, down := crc8Start })
    (s.updSeg g fun c =>
      { c with
        owner := some (.port p)
        cond := .owned
        activity := some (.addressing .waitFresh)
        foreignBusy := c.cond == .foreign
        mode := (s.working.params.segs.get g).mode
        speed := (s.working.params.segs.get g).speed
        legSlot := slotOf s p })

/-- R95, R179: a segment granted to MGMT. Its sequence begins at once, but in SHARED mode after another controller's transaction. -/
def grantMgmt (g : Seg) (s : State) : State :=
  if (s.seg g).cond == .foreign && (s.working.params.segs.get g).mode == .shared then
    s.updSeg g fun c =>
      { c with
        owner := some .mgmt
        cond := .owned
        activity := none
        foreignBusy := true
        mode := (s.working.params.segs.get g).mode
        speed := (s.working.params.segs.get g).speed }
  else beginRecovery g (some .mgmt) s

/-- R95: a grant makes the claimant owner and removes it from the wait list. -/
def grant (g : Seg) (c : Claimant) (s : State) : State :=
  match c with
  | .port p => grantPort g p (unwait c g s)
  | .mgmt => grantMgmt g (unwait c g s)

/-! ### Refusals (R31, R81, R98) -/

/-- R31, R81: a refused claim ends the address phase. -/
def failAddress (p : Port) (g : Seg) (s : State) : State :=
  toDrain p (notePort .segRefused p (some g) (slotOf s p) 0#16
    ((giveAck p .nack (endActive p noCheck (endClaiming p s))).updPort p fun r => { r with hold := none }))

/-- R180: how MGMT's claim is answered when it is refused. -/
def refuseMgmt (g : Seg) (s : State) : State :=
  if (s.seg g).cond = .faulted then answerSegReset g .recoveryFailed [segCode g, byteOf (s.seg g).faults] s
  else answerSegReset g .segDisabled [segCode g] s

/-- R98: a claimant is refused a segment. -/
def refuse (g : Seg) (c : Claimant) (s : State) : State :=
  match c with
  | .port p => failAddress p g (unwait c g s)
  | .mgmt => refuseMgmt g (unwait c g s)

/-- R93, R98: a segment that refuses every claim and keeps no waiter. -/
def SegState.refuses (c : SegState) : Bool := c.cond == .faulted || c.cond == .disabled || c.pendingDisable

/-- R93: a segment that is granted at once. -/
def SegState.free (c : SegState) : Bool := c.owner.isNone && (c.cond == .idle || c.cond == .foreign)

/-- R93: a claim joins the tail of a segment's wait list. -/
def joinWaiters (g : Seg) (c : Claimant) (s : State) : State :=
  s.updSeg g fun x => { x with waiters := x.waiters ++ [c] }

/-- R93: a claim is granted, refused, or joins the tail of the wait list. -/
def claim (g : Seg) (c : Claimant) (s : State) : State :=
  if (s.seg g).refuses then refuse g c s
  else if (s.seg g).free then grant g c s
  else joinWaiters g c s

/-! ### An address byte whose answer waited (R26 to R29, R39) -/

/-- R26, R27: a phase that holds no snapshot is entered. -/
def enterUnrouted (phase : Phase) (r : PortState) : PortState := { r with phase := phase, snapshot := none }

/-- R26: the answer to a management write address. -/
def answerMgmtWrite (p : Port) (addressByte : Byte) (s : State) : State :=
  if creditFree s p then
    giveAck p .ack (s.updPort p fun r =>
      { enterUnrouted .mgmtWrite r with assembler := some (Assembler.start addressByte) })
  else giveAck p .nack (s.updPort p (enterUnrouted .offBus))

/-- R26, R163: the answer to a management read address. The first byte of the response follows. -/
def answerMgmtRead (p : Port) (addressByte : Byte) (s : State) : State :=
  giveAck p .ack (s.updPort p fun r =>
    { enterUnrouted .mgmtRead r with
      readPos := some (ReadPos.start addressByte r.responses)
      sdaByte := some (ReadPos.start addressByte r.responses).current })

/-- R39: a decision other than a routed address is answered once the record owns no segment. -/
def answerAddress (p : Port) (w : AddrWait) (s : State) : State :=
  let t := s.updPort p fun r => { r with addrWait := none }
  match w with
  | .mgmtWrite b => answerMgmtWrite p b t
  | .mgmtRead b => answerMgmtRead p b t
  | .miss => giveAck p .nack (t.updPort p (enterUnrouted .offBus))
  | .denied n =>
    toDrain p (notePort .accessDenied p none (some n) (dirDetail (s.port p).dir) (giveAck p .nack t))
  | .noOffset n =>
    toDrain p (notePort .policy p none (some n) (policyCode .noOffset) (giveAck p .nack t))

/-! ### What one event sets off -/

/-- The waiter a segment refuses next: the oldest, on a segment that keeps none (R98). -/
def nextRefusal (s : State) (g : Seg) : Option (Seg × Claimant) :=
  match (s.seg g).waiters with
  | [] => none
  | c :: _ => if (s.seg g).refuses then some (g, c) else none

/-- The waiter a segment grants next: the oldest, on a free segment (R96, R97). -/
def nextGrant (s : State) (g : Seg) : Option (Seg × Claimant) :=
  match (s.seg g).waiters with
  | [] => none
  | c :: _ => if (s.seg g).free then some (g, c) else none

/-- The answer a port owes once it owns no segment (R39). -/
def nextAnswer (s : State) (p : Port) : Option (Port × AddrWait) :=
  match (s.port p).addrWait with
  | none => none
  | some w => if (ownedSegs s p).isEmpty then some (p, w) else none

/-- A port's claim stands in a wait list (R92). -/
def waits (s : State) (p : Port) : Bool := Seg.list.any fun g => (s.seg g).waiters.contains (.port p)

/-- The claim a record places next: its lowest CLAIMING leg's, once the claim before has been granted, and the first only when the
record owns no segment (R31, R94). -/
def nextClaim (s : State) (p : Port) : Option (Port × Seg) :=
  if (s.port p).phase == .awaitGrant && !waits s p
      && (!(activeSegs s p).isEmpty || (ownedSegs s p).isEmpty) then
    (claimingSegs s p).head?.bind fun g => if owns s p g then none else some (p, g)
  else none

/-- A port whose last CLAIMING leg has been granted (R31). -/
def acquired (s : State) (p : Port) : Bool := (s.port p).phase == .awaitGrant && (claimingSegs s p).isEmpty

/-- One step of what an event sets off: a refusal, else a grant, else an answer, else a claim, else the end of an acquisition. The
order among independent ones is the model's (log 14). -/
def micro (s : State) : Option State :=
  match Seg.list.findSome? (nextRefusal s) with
  | some (g, c) => some (refuse g c s)
  | none =>
  match Seg.list.findSome? (nextGrant s) with
  | some (g, c) => some (grant g c s)
  | none =>
  match Port.list.findSome? (nextAnswer s) with
  | some (p, w) => some (answerAddress p w s)
  | none =>
  match Port.list.findSome? (nextClaim s) with
  | some (p, g) => some (claim g (.port p) s)
  | none =>
  match Port.list.find? (acquired s) with
  | some p => some (s.updPort p fun r => { r with phase := .awaitTarget })
  | none => none

/-- Steps of `micro` until none is left; more than one event can set off stand in `fuel` (log 14). -/
def settle : Nat → State → State
  | 0, s => s
  | n + 1, s =>
    match micro s with
    | none => s
    | some t => settle n t

/-- The steps one event may set off: above the number of waiters, claims and answers the part can hold at once. -/
def settleFuel : Nat := 64

/-- What an event sets off, and then the timers. -/
def finish (s : State) : State := retime (settle settleFuel s)

end Sys2Proof.Machine
end

