-- ==== Sys2Proof/Machine/Executor.lean ====
section
/-!
DEFINITION. The executor's taking of an entry (R159, R160, R170), the edit session's stages (R125), and the replacement of the
working image with the service it applies (R8, R17, R99, R100, R134).
-/
namespace Sys2Proof.Machine

/-! ### Taking the head entry (R159, R160) -/

/-- R160: the issuing port's working privilege admits the command. -/
def permitted (s : State) (p : Port) (c : Command) : Bool :=
  match s.working.params.priv.get p with
  | .full => true
  | .read => !c.needsFull
  | .none => false

/-- R159: the executor takes the entry: it leaves the queue and holds its credit while it executes. -/
def takeHead (e : QEntry) (rest : List QEntry) (s : State) : State := { s with cmdQueue := rest, executing := some e }

/-- R159: the executor is free again. -/
def freeExecutor (s : State) : State := { s with executing := none }

/-- What a command does with its port, its tag and its payload. -/
abbrev Body := Port → Byte → List Byte → State → State

/-- R159, R160, R170: the executor takes the head entry when it is a frame with this command; privilege comes first (log 27). -/
def runFrame (c : Command) (body : Body) (s : State) : State :=
  match s.executing, s.cmdQueue with
  | none, .frame p c' tag payload :: rest =>
    if c' = c then
      let t := takeHead (.frame p c' tag payload) rest s
      freeExecutor (if permitted s p c then body p tag payload t else respond p .notPermitted tag [] t)
    else s
  | _, _ => s

/-- R159: an error entry is answered with its status and tag. -/
def runError (s : State) : State :=
  match s.executing, s.cmdQueue with
  | none, .error p status tag :: rest =>
    freeExecutor (respond p status tag [] (takeHead (.error p status tag) rest s))
  | _, _ => s

/-! ### Arguments (R170, R171) -/

/-- R170, R171: an argument out of its range, by its index. -/
def badArg (index : Nat) : Body := fun p tag _ s => respond p .badArg tag [byteOf index] s

/-- INVALID's and BANK_INVALID's detail (R171): the reason and the slot, or none. -/
def failureBytes (why : Reason × Option Nat) : List Byte := [reasonCode why.1, slotCode why.2]

/-! ### The edit session (R125, R135) -/

/-- R124: a session closes: the staging image is discarded and the lease timer stops. -/
def closeSession (s : State) : State := { s with session := none, lease := none }

/-- R125 stage 2: the session must be open and owned by the port. -/
def withSession (p : Port) (tag : Byte) (f : Session → State → State) (s : State) : State :=
  match s.session with
  | none => respond p .noEdit tag [] s
  | some e => if e.owner = p then f e s else respond p .editHeld tag [portByte e.owner] s

/-- The staging image, replaced. -/
def setStaging (e : Session) (i : Image) (s : State) : State := { s with session := some { e with staging := i } }

/-! ### Service and replacement -/

/-- R99: service OUT, or SEGMENT-DISABLE, on a segment. -/
def takeOut (c : SegState) : SegState :=
  if c.cond = .idle ∨ c.cond = .foreign then { c with cond := .disabled, foreignBusy := false, newWatch := false }
  else if c.cond = .owned ∨ c.cond = .recovering then { c with pendingDisable := true }
  else c

/-- R100, R108, R121: service IN, or SEGMENT-ENABLE, on a segment, with the working settings it takes. In SHARED mode the watch that
begins has the segment's next SCL edge before it. -/
def putIn (q : SegParams) (c : SegState) : SegState :=
  if c.cond = .disabled then
    { c with
      cond := .idle, pendingDisable := false, foreignBusy := false, newWatch := q.mode == .shared, mode := q.mode,
      speed := q.speed }
  else { c with pendingDisable := false }

/-- R8: the service parameter applied to a segment. -/
def applyService (q : SegParams) (c : SegState) : SegState :=
  match q.service with
  | .outOfService => takeOut c
  | .inService => putIn q c

/-- R108: a replacement event that finds a segment IDLE or FOREIGN gives it the new mode at once. -/
def applyMode (q : SegParams) (c : SegState) : SegState :=
  if c.cond = .idle ∨ c.cond = .foreign then
    match q.mode with
    | .shared => { c with mode := .shared }
    | .exclusive => { c with mode := .exclusive, cond := .idle, foreignBusy := false, newWatch := false }
  else c

/-- R17, R134: what a replacement event does to a segment. -/
def replaceSegment (q : SegParams) (c : SegState) : SegState := applyMode q (applyService q c)

/-- R17: the working image takes the incoming one, with its origin, and every segment applies its parameters. -/
def replaceImage (i : Image) (o : Origin) (s : State) : State :=
  { s with
    working := i
    origin := o
    segs := ⟨replaceSegment i.params.segs.s0 s.segs.s0, replaceSegment i.params.segs.s1 s.segs.s1,
      replaceSegment i.params.segs.s2 s.segs.s2, replaceSegment i.params.segs.s3 s.segs.s3⟩ }

end Sys2Proof.Machine
end

