-- ==== Sys2Proof/Machine/Commands.lean ====
section
/-!
DEFINITION. The management commands that report, that edit the table, and that act on segments (chapters 8 and 11), and the lapse of an
edit session (R128).
-/
namespace Sys2Proof.Machine

/-! ### ERROR_ENTRY and the reports (R159, R172 to R176) -/

/-- ERROR_ENTRY (R159). -/
def execErrorEntry (s : State) : Host.Outcome State Fault Refusal := .next (whenRunning s runError)

/-- The origin record in a payload: bank, or 0x02 for EDITED, and generation. -/
def originBytes : Origin → List Byte
  | .bank b n => bankCode b :: bytes4 n
  | .edited => 0x02#8 :: bytes4 0

/-- A bank record in a payload: validity, generation (0 when INVALID), protection. -/
def recordBytes (r : BankRecord) : List Byte :=
  boolByte r.valid :: (bytes4 (if r.valid then r.generation.getD 0 else 0) ++ [boolByte r.protected_])

/-- R172: IDENTIFY's payload. -/
def identifyPayload (s : State) : List Byte :=
  bytes2 Config.vendorCode.toNat ++ bytes2 Config.partCode.toNat
    ++ [Config.revision, causeCode s.store.cause, s.strap.setWidth 8,
        (effectiveMgmt s.strap s.working.params.mgmt).setWidth 8]
    ++ originBytes s.origin
    ++ [storePhaseCode s.store.phase, (match s.store.op with | none => absentByte | some o => bankCode o.bank)]
    ++ recordBytes s.store.records.a ++ recordBytes s.store.records.b

/-- IDENTIFY (R172). -/
def execIdentify (s : State) : Host.Outcome State Fault Refusal :=
  .next (whenRunning s (runFrame .identify fun p tag _ s => respond p .ok tag (identifyPayload s) s))

/-- R173: a port in GET-STATUS's payload. -/
def portStatus (s : State) (p : Port) : List Byte := [phaseCode (s.port p).phase, byteOf (creditsInUse s p)]

/-- R103, R173: a segment in GET-STATUS's payload. -/
def segStatus (c : SegState) : List Byte :=
  [condCode c.cond, ownerCode c.owner, byteOf c.waiters.length, byteOf c.faults, boolByte c.pendingDisable]

/-- R173: GET-STATUS's payload. -/
def statusPayload (s : State) : List Byte :=
  portStatus s .u0 ++ portStatus s .u1
    ++ segStatus s.segs.s0 ++ segStatus s.segs.s1 ++ segStatus s.segs.s2 ++ segStatus s.segs.s3
    ++ [portCode (s.session.map (·.owner)), byteOf s.notices.length, byteOf s.lost]

/-- GET_STATUS (R173). -/
def execGetStatus (s : State) : Host.Outcome State Fault Refusal :=
  .next (whenRunning s (runFrame .getStatus fun p tag _ s => respond p .ok tag (statusPayload s) s))

/-- R174: a slot of an image in a response. -/
def slotPayload (i : Image) (n : Nat) : List Byte := slotBytes (i.slots.getD n none)

/-- R174: READ-ENTRY's checks and answer. -/
def readEntry : Body := fun p tag payload s =>
  match stagingOfByte (byteAt payload 0) with
  | none => badArg 1 p tag payload s
  | some staging =>
    match slotOfByte (byteAt payload 1) with
    | none => badArg 2 p tag payload s
    | some n =>
      if staging then
        withSession p tag (fun e s =>
          respond p .ok tag (byteAt payload 0 :: byteAt payload 1 :: slotPayload e.staging n) s) s
      else respond p .ok tag (byteAt payload 0 :: byteAt payload 1 :: slotPayload s.working n) s

/-- READ_ENTRY (R174). -/
def execReadEntry (s : State) : Host.Outcome State Fault Refusal :=
  .next (whenRunning s (runFrame .readEntry readEntry))

/-- R175: READ-PARAMS's checks and answer. -/
def readParams : Body := fun p tag payload s =>
  match stagingOfByte (byteAt payload 0) with
  | none => badArg 1 p tag payload s
  | some staging =>
    if staging then
      withSession p tag (fun e s => respond p .ok tag (byteAt payload 0 :: e.staging.params.bytes) s) s
    else respond p .ok tag (byteAt payload 0 :: s.working.params.bytes) s

/-- READ_PARAMS (R175). -/
def execReadParams (s : State) : Host.Outcome State Fault Refusal :=
  .next (whenRunning s (runFrame .readParams readParams))

/-- R176: TAKE-NOTICES's payload for the notices taken. -/
def noticesPayload (taken : List Notice) (lost : Nat) : List Byte :=
  byteOf taken.length :: byteOf lost :: (taken.map Notice.bytes).flatten

/-- R176, R189: TAKE-NOTICES. -/
def takeNotices : Body := fun p tag payload s =>
  let n := (byteAt payload 0).toNat
  if 1 ≤ n ∧ n ≤ 4 then
    respond p .ok tag (noticesPayload (s.notices.take n) s.lost)
      { s with notices := s.notices.drop n, lost := 0 }
  else badArg 1 p tag payload s

/-- TAKE_NOTICES (R176). -/
def execTakeNotices (s : State) : Host.Outcome State Fault Refusal :=
  .next (whenRunning s (runFrame .takeNotices takeNotices))

/-! ### The edit commands (R126, R128 to R132, R135) -/

/-- R126: OPEN-EDIT. -/
def openEdit : Body := fun p tag _ s =>
  match s.session with
  | some e => respond p .editHeld tag [portByte e.owner] s
  | none =>
    respond p .ok tag []
      { s with session := some ⟨p, s.working⟩, lease := some s.working.params.lease }

/-- OPEN_EDIT (R126). -/
def execOpenEdit (s : State) : Host.Outcome State Fault Refusal :=
  .next (whenRunning s (runFrame .openEdit openEdit))

/-- R129 steps 2 to 8: the first field of an entry outside its set, as the number of its step. -/
def entryStep (f : EntryFields) : Option Nat :=
  if f.ports.isNone then some 2
  else if f.vaddr.isNone then some 3
  else if f.target.isNone then some 4
  else if f.access.isNone then some 5
  else if f.readLen.isNone then some 7
  else if f.check.isNone then some 8
  else none

/-- R129: PUT-ENTRY. Step 6, the write limit, cannot fail: every value of its byte is in its set (R192). -/
def putEntry : Body := fun p tag payload s =>
  withSession p tag (fun e s =>
    match slotOfByte (byteAt payload 0) with
    | none => badArg 1 p tag payload s
    | some n =>
      let f := entryFieldsOf (payload.drop 1)
      match entryStep f with
      | some k => badArg k p tag payload s
      | none =>
        respond p .ok tag []
          (setStaging e { e.staging with slots := e.staging.slots.set n (some f.toEntry) } s)) s

/-- PUT_ENTRY (R129). -/
def execPutEntry (s : State) : Host.Outcome State Fault Refusal :=
  .next (whenRunning s (runFrame .putEntry putEntry))

/-- R130: DROP-ENTRY. -/
def dropEntry : Body := fun p tag payload s =>
  withSession p tag (fun e s =>
    match slotOfByte (byteAt payload 0) with
    | none => badArg 1 p tag payload s
    | some n =>
      respond p .ok tag [] (setStaging e { e.staging with slots := e.staging.slots.set n none } s)) s

/-- DROP_ENTRY (R130). -/
def execDropEntry (s : State) : Host.Outcome State Fault Refusal :=
  .next (whenRunning s (runFrame .dropEntry dropEntry))

/-- R131, R183: PUT-PARAM. -/
def putParam : Body := fun p tag payload s =>
  withSession p tag (fun e s =>
    match paramIdOf (byteAt payload 0) with
    | none => badArg 1 p tag payload s
    | some i =>
      match setParam e.staging.params i (byteAt payload 1) (byteAt payload 2) with
      | none => badArg 2 p tag payload s
      | some q => respond p .ok tag [] (setStaging e { e.staging with params := q } s)) s

/-- PUT_PARAM (R131). -/
def execPutParam (s : State) : Host.Outcome State Fault Refusal :=
  .next (whenRunning s (runFrame .putParam putParam))

/-- R132: what a COMMIT that passes does: the working image is replaced, the origin is EDITED, a SAVE's origin mark is cleared and the
session closes. -/
def commitImage (i : Image) (s : State) : State :=
  finish (closeSession ((replaceImage i .edited s).updStore fun t => { t with originMark := false }))

/-- R132: COMMIT. -/
def commit : Body := fun p tag _ s =>
  withSession p tag (fun e s =>
    match validate s.strap e.staging.fields with
    | some why => respond p .invalid tag (failureBytes why) s
    | none => respond p .ok tag [] (commitImage e.staging s)) s

/-- COMMIT (R132). -/
def execCommit (s : State) : Host.Outcome State Fault Refusal :=
  .next (whenRunning s (runFrame .commit commit))

/-- R135: ABANDON. -/
def abandon : Body := fun p tag _ s =>
  withSession p tag (fun _ s => respond p .ok tag [] (closeSession s)) s

/-- ABANDON (R135). -/
def execAbandon (s : State) : Host.Outcome State Fault Refusal :=
  .next (whenRunning s (runFrame .abandon abandon))

/-- EDIT_LAPSED (R128): the lease of an open session expires. -/
def execEditLapsed (s : State) : Host.Outcome State Fault Refusal :=
  .next (whenRunning s fun s =>
    match s.session, s.lease with
    | some e, some _ => notePort .editLapsed e.owner none none 0#16 (closeSession s)
    | _, _ => s)

/-! ### Commands on segments (R178, R181, R182) -/

/-- A command on the segment its argument names. -/
def withSegment (f : Seg → Body) : Body := fun p tag payload s =>
  match segOfByte (byteAt payload 0) with
  | none => badArg 1 p tag payload s
  | some g => f g p tag payload s

/-- R178 check 2: MGMT owns the segment or stands in its wait list. -/
def mgmtHas (c : SegState) : Bool := c.owner == some .mgmt || c.waiters.contains .mgmt

/-- R178: the SEGMENT-RESET is handed off, and takes a FAULTED segment or places its claim. -/
def startSegReset (g : Seg) (p : Port) (tag : Byte) (s : State) : State :=
  let t := { s with segResets := s.segResets ++ [⟨g, p, tag⟩] }
  finish (if (s.seg g).cond = .faulted then beginRecovery g (some .mgmt) t else claim g .mgmt t)

/-- R178: SEGMENT-RESET. -/
def segmentReset (g : Seg) : Body := fun p tag _ s =>
  if mgmtHas (s.seg g) then respond p .segBusy tag [segCode g] s
  else if (s.seg g).cond = .disabled ∨ (s.seg g).pendingDisable = true then
    respond p .segDisabled tag [segCode g] s
  else startSegReset g p tag s

/-- SEGMENT_RESET (R178). -/
def execSegmentReset (s : State) : Host.Outcome State Fault Refusal :=
  .next (whenRunning s (runFrame .segmentReset (withSegment segmentReset)))

/-- R181, R182: the segment, its state and its pending-disable mark. -/
def segReport (s : State) (g : Seg) : List Byte :=
  [segCode g, condCode (s.seg g).cond, boolByte (s.seg g).pendingDisable]

/-- R181, R99: SEGMENT-DISABLE. The waiters are refused before the response is placed (log 37). -/
def segmentDisable (g : Seg) : Body := fun p tag _ s =>
  if (s.seg g).cond = .faulted then respond p .segFaulted tag [segCode g] s
  else
    let t := s.updSeg g takeOut
    respond p .ok tag (segReport t g) (finish t)

/-- SEGMENT_DISABLE (R181). -/
def execSegmentDisable (s : State) : Host.Outcome State Fault Refusal :=
  .next (whenRunning s (runFrame .segmentDisable (withSegment segmentDisable)))

/-- R182, R100: SEGMENT-ENABLE. -/
def segmentEnable (g : Seg) : Body := fun p tag _ s =>
  if (s.seg g).cond = .faulted then respond p .segFaulted tag [segCode g] s
  else
    let t := retime (s.updSeg g (putIn (s.working.params.segs.get g)))
    respond p .ok tag (segReport t g) t

/-- SEGMENT_ENABLE (R182). -/
def execSegmentEnable (s : State) : Host.Outcome State Fault Refusal :=
  .next (whenRunning s (runFrame .segmentEnable (withSegment segmentEnable)))

end Sys2Proof.Machine
end

