-- ==== Sys2Proof/Machine/Transaction.lean ====
section
/-!
DEFINITION. The Transaction Record (chapters 2 to 5): the address join, the judgement and the forwarding of a write byte, the data
join, the read request, the repeated START, the address decision and the close of a transaction.
-/
namespace Sys2Proof.Machine

/-! ### The address join (R33, R34, R80) -/

/-- A leg's segment waits with SCL held, after an acknowledge or a byte (R106). -/
def isPaused (s : State) (g : Seg) : Bool := (s.seg g).activity == some .paused

/-- The phase an acknowledged address leads to (R33). -/
def dataPhase : Dir → Phase
  | .write => .write
  | .read => .read

/-- A record's snapshot names this many segments. -/
def setSize (r : PortState) : Nat :=
  match r.snapshot with
  | none => 0
  | some sn => (PerSeg.members sn.entry.segs).length

/-- The hold timer stops (R35). -/
def stopHold (p : Port) (s : State) : State := s.updPort p fun r => { r with hold := none }

/-- R33, R80: the data phase is entered with the acknowledge joined from the legs. -/
def enterData (p : Port) (a : Ack) (s : State) : State :=
  giveAck p a (s.updPort p fun r =>
    { r with
      hold := none
      phase := dataPhase r.dir
      readStage := if r.dir = .read then .addressAcked else .none })

/-- R80: the address join, taken when no leg is CLAIMING and every ACTIVE leg has its target's acknowledge. A single leg joins alone
(R33). -/
def joinAddress (p : Port) (s : State) : State :=
  if (s.port p).phase = .awaitTarget ∧ (activeSegs s p).all (isPaused s) = true then
    if (activeSegs s p).isEmpty then toDrain p (giveAck p .nack (stopHold p s))
    else if (activeSegs s p).length = setSize (s.port p) then enterData p .ack s
    else enterData p .nack s
  else s

/-! ### The repeated START and the address decision (R25, R30, R37 to R39) -/

/-- R19: the legs a record keeps when an address phase begins: those ACTIVE, and those ENDED whose STOP has not been placed. -/
def keptLegs (s : State) (p : Port) : List Leg :=
  (s.port p).legs.filter fun l => l.state == .active || (l.state == .ended && owns s p l.seg)

/-- R37, R52, R58, R75: every leg marked for STOP is ended. -/
def endMarked (p : Port) (s : State) : State :=
  ((activeSegs s p).filter fun g => (legOn s p g).any (·.marked)).foldl (fun t g => endLeg p noCheck g t) s

/-- R38: a leg rebuilt on a kept segment continues its downstream value (R64). -/
def rebuiltLeg (l : Leg) : Leg := { l with retries := 0, retryLimit := none, marked := false }

/-- R38: every kept segment is to see a repeated START and the new address. -/
def reopen (p : Port) (slot : Nat) (s : State) : State :=
  (activeSegs s p).foldl (fun t g =>
    startClock g (t.updSeg g fun c =>
      { c with activity := some (.addressing .waitRepeated), legSlot := some slot })) s

/-- R30: a leg of a new segment set. -/
def newLeg (g : Seg) : Leg := ⟨g, .claiming, 0, none, false, crc8Start⟩

/-- R19, R30: the legs list built afresh, ascending: one CLAIMING leg for each segment of the set, and the ENDED legs still closing on
the others (log 15). -/
def freshLegs (segs : PerSeg Bool) (closing : List Leg) : List Leg :=
  Seg.list.filterMap fun g =>
    if segs.get g then some (newLeg g) else closing.find? fun l => l.seg == g

/-- R30, R38: what a routed address sets in the record: the phase, the snapshot, the hold timer, SCL held. -/
def takeRoute (p : Port) (sn : Snapshot) (phase : Phase) (s : State) : State :=
  s.updPort p fun r =>
    { r with
      phase := phase
      snapshot := some sn
      hold := some s.working.params.holdLimit
      sclHeld := true
      stall := none
      readRemaining :=
        if sn.entry.check = .regen ∧ r.dir = .read then sn.entry.readLen.getD 0 else r.readRemaining }

/-- R30, R38, R39: a routed address. Ownership is kept when the new segment set is that of the ACTIVE legs; otherwise the ACTIVE legs
are ended and the legs list is built afresh. -/
def route (p : Port) (sn : Snapshot) (s : State) : State :=
  if activeSegs s p ≠ [] ∧ PerSeg.members sn.entry.segs = activeSegs s p then
    let t := takeRoute p sn .awaitTarget s
    (reopen p sn.slot t).updPort p fun r =>
      { r with legs := r.legs.map fun l => if l.state == .active then rebuiltLeg l else l }
  else
    let t := takeRoute p sn .awaitGrant (endActive p noCheck s)
    t.updPort p fun r => { r with legs := freshLegs sn.entry.segs (keptLegs t p) }

/-- R39: any other decision ends the ACTIVE legs and is answered when the record owns no segment. -/
def awaitClosed (p : Port) (w : AddrWait) (s : State) : State :=
  (endActive p noCheck (holdScl p s)).updPort p fun r => { r with addrWait := some w, pointer := none }

/-- R25: what an address byte is decided as. -/
inductive Decision where
  | wait (w : AddrWait)
  | routed (sn : Snapshot)
  deriving DecidableEq, Repr

/-- R13, R37: the offset pointer as the decision finds it: kept when the lookup matches the previous slot. -/
def carriedPointer (r : PortState) (sn : Snapshot) : Option Nat :=
  if r.prevSlot = some sn.slot then r.pointer else none

/-- R25 steps 3 to 5 for a matched entry. -/
def decideEntry (r : PortState) (sn : Snapshot) (d : Dir) : Decision :=
  if !sn.entry.access.allows d then .wait (.denied sn.slot)
  else if d = .read ∧ sn.entry.window.isSome = true ∧ carriedPointer r sn = none then .wait (.noOffset sn.slot)
  else .routed sn

/-- R6, R9: the address byte is the effective management address of a port whose privilege admits it. -/
def isManagement (s : State) (p : Port) (a : Addr) : Bool :=
  a == effectiveMgmt s.strap s.working.params.mgmt && s.working.params.priv.get p != .none

/-- R25 steps 1 and 2: what an address byte is found to be in the image that stands at it (R11). -/
def find25 (s : State) (p : Port) (a : Addr) : Found :=
  if isManagement s p a then .management
  else
    match lookup s.working.slots p a with
    | none => .missed
    | some sn => .matched sn

/-- R25: the decision of an address byte by what it was found to be. -/
def decideFound (r : PortState) (a : Addr) (d : Dir) : Found → Decision
  | .management =>
    match d with
    | .write => .wait (.mgmtWrite (addressByteOf a d))
    | .read => .wait (.mgmtRead (addressByteOf a d))
  | .missed => .wait .miss
  | .matched sn => decideEntry r sn d

/-- R25: the decision of an address byte taken in ADDRESS. -/
def decide25 (s : State) (p : Port) (a : Addr) (d : Dir) : Decision := decideFound (s.port p) a d (find25 s p a)

/-- R19, R63: what every address byte sets in the record before its decision takes effect. -/
def takeAddress (p : Port) (a : Addr) (d : Dir) (s : State) : State :=
  s.updPort p fun r =>
    { r with
      dir := d
      count := 0
      held := none
      prevSlot := none
      earlyAddr := none
      up := crc8 r.up (addressByteOf a d) }

/-- R25: an address byte taken in ADDRESS, whole but for what its claims set off. -/
def addressTaken (p : Port) (a : Addr) (d : Dir) (found : Found) (s : State) : State :=
  match decideFound (s.port p) a d found with
  | .wait w => awaitClosed p w (takeAddress p a d s)
  | .routed sn =>
    route p sn ((takeAddress p a d s).updPort p fun r => { r with pointer := carriedPointer (s.port p) sn })

/-- R25, R31, R39: an address byte taken in ADDRESS, with what it was found to be (R11). -/
def decideAddress (p : Port) (a : Addr) (d : Dir) (found : Found) (s : State) : State :=
  settle settleFuel (addressTaken p a d found s)

/-- R37: the repeated START's own changes, once the phase has completed what it owes. -/
def beginAddress (p : Port) (s : State) : State :=
  let t := endMarked p s
  (dropSnapshot p t).updPort p fun r =>
    { r with
      phase := .address
      isOpen := true
      legs := keptLegs t p
      count := 0
      prevSlot := (s.port p).snapshot.map (·.slot)
      held := none
      inFlight := none
      readStage := .none
      addrWait := none
      sdaByte := none }

/-- R37, and the address byte that a confirmation kept waiting, if any: its decision is by the image that stood at it (R11; log 13). -/
def toAddress (p : Port) (s : State) : State :=
  match (s.port p).earlyAddr with
  | none => beginAddress p s
  | some e => decideAddress p e.addr e.dir e.found (beginAddress p s)

/-! ### Write bytes (R42 to R48, R66 to R69, R83, R84, R88) -/

/-- R43 to R45: the judgement of a write byte against the snapshot, the count and the pointer. -/
def judge (e : Entry) (count : Nat) (pointer : Option Nat) (b : Byte) : Option PolicyDetail :=
  if (match e.writeLimit with | none => false | some limit => decide (limit < count + 1)) then some .length
  else
    match e.window with
    | none => none
    | some w =>
      if count = 0 then
        if b.toNat < w.low.toNat then some .offsetLow
        else if w.high.toNat < b.toNat then some .offsetHigh
        else none
      else
        match pointer with
        | none => none
        | some n => if w.high.toNat < n then some .offsetHigh else none

/-- R46: the offset pointer after a forwarded byte. -/
def pointerAfter (e : Entry) (count : Nat) (pointer : Option Nat) (b : Byte) : Option Nat :=
  match e.window with
  | none => pointer
  | some _ => if count = 0 then some b.toNat else pointer.map (· + 1)

/-- The data byte count advances by one, up to 255 (R42, R51). -/
def countAfter (n : Nat) : Nat := if n < 255 then n + 1 else n

/-- R48, R68, R69: a byte that fails a policy test ends every leg with POLICY. -/
def refuseByte (p : Port) (d : PolicyDetail) (after : AfterJoin) (s : State) : State :=
  let t := notePort .policy p none (slotOf s p) (policyCode d) (endActive p noCheck s)
  match after with
  | .repeatedStart => toAddress p t
  | .answer => toDrain p (giveAck p .nack t)
  | .hold _ => toDrain p (giveAck p .nack t)

/-- R46, R83: a byte is handed to the Segment Controller of every ACTIVE leg. -/
def handOut (p : Port) (b : Byte) (after : AfterJoin) (s : State) : State :=
  let t := (activeSegs s p).foldl (fun t g =>
    startClock g (t.updSeg g fun c => { c with activity := some (.writing b false) })) s
  t.updPort p fun r => { r with held := none, inFlight := some ⟨b, false, false, after⟩ }

/-- R42, R67, R69: a byte of data is judged, and forwarded or refused. -/
def submit (p : Port) (b : Byte) (after : AfterJoin) (s : State) : State :=
  match (s.port p).snapshot with
  | none => s
  | some sn =>
    match judge sn.entry (s.port p).count (s.port p).pointer b with
    | some d => refuseByte p d after s
    | none => handOut p b after s

/-- R46, R63, R64, R83: a segment has placed the byte in flight whole: its leg's value takes it in, and the first such event counts it. -/
def bytePlaced (p : Port) (g : Seg) (b : Byte) (s : State) : State :=
  let t := updLeg p g (fun l => { l with down := crc8 l.down b })
    (startClock g (s.updSeg g fun c => { c with activity := some (.writing b true) }))
  match (s.port p).inFlight, (s.port p).snapshot with
  | some f, some sn =>
    if f.counted then t
    else
      t.updPort p fun r =>
        { r with
          inFlight := some { f with counted := true }
          count := countAfter r.count
          pointer := pointerAfter sn.entry r.count r.pointer b
          up := crc8 r.up b }
  | _, _ => t

/-- The acknowledge a data join gives (R84). -/
def joinedAck (f : InFlight) : Ack := if f.lost then .nack else .ack

/-- R84, R88: the data join, taken when every leg the byte was handed to has completed it. A byte that a repeated START confirmed has
no acknowledge slot, so ADDRESS follows with the legs that remain, after an abort of its single leg as after a NACK (R69, R55; log 43). -/
def joinData (p : Port) (s : State) : State :=
  match (s.port p).inFlight with
  | none => s
  | some f =>
    if (activeSegs s p).all (isPaused s) then
      let t := s.updPort p fun r => { r with inFlight := none }
      match f.after with
      | .repeatedStart => toAddress p t
      | .answer =>
        if (activeSegs s p).isEmpty then toDrain p (giveAck p .nack t) else giveAck p (joinedAck f) t
      | .hold b =>
        if (activeSegs s p).isEmpty then toDrain p (giveAck p .nack t)
        else giveAck p (joinedAck f) (t.updPort p fun r => { r with held := some b })
    else s

/-- R84: a leg has dropped out of the byte in flight. -/
def loseLeg (p : Port) (s : State) : State :=
  s.updPort p fun r => { r with inFlight := r.inFlight.map fun f => { f with lost := true } }

/-! ### Read bytes (R49 to R54, R74 to R76) -/

/-- R49: whether the requested byte lies beyond the window or, under NONE, beyond the read length. -/
def readBeyond (e : Entry) (count : Nat) (pointer : Option Nat) : Bool :=
  (match e.window with
    | none => false
    | some w =>
      match pointer with
      | none => true
      | some n => decide (n < w.low.toNat) || decide (w.high.toNat < n))
    || (e.check == .none && (match e.readLen with | none => false | some n => decide (n < count + 1)))

/-- R50, R75: a fetch begins on the leg. -/
def beginFetch (p : Port) (what : Reading) (stage : ReadStage) (s : State) : State :=
  let t := (activeSegs s p).foldl (fun t g =>
    startClock g (t.updSeg g fun c => { c with activity := some (.reading what) })) s
  t.updPort p fun r => { r with readStage := stage }

/-- R53: a requested byte beyond a bound. -/
def refuseRead (p : Port) (s : State) : State :=
  supply p 0xFF#8 (toDrain p
    (notePort .policy p none (slotOf s p) (policyCode .readBeyond) (endActive p noCheck s)))

/-- R49, R74, R75: a read request: SCL is held, and the byte is fetched, refused, or is the check byte. -/
def readRequest (p : Port) (s : State) : State :=
  let t := (holdScl p s).updPort p fun r => { r with sdaByte := none }
  match (s.port p).snapshot with
  | none => t
  | some sn =>
    if sn.entry.check = .regen ∧ (s.port p).readRemaining = 0 then beginFetch p .check .fetchingCheck t
    else if readBeyond sn.entry (s.port p).count (s.port p).pointer then refuseRead p t
    else beginFetch p .data .fetching t

/-- R51, R63, R74: a supplied read byte is counted. Its eighth bit took it into the upstream value (`edgeSeen`); where the edges of its
bits were not told, the acknowledge says that it went out whole (log 39). -/
def countRead (p : Port) (b : Byte) (edges : Nat) (s : State) : State :=
  s.updPort p fun r =>
    { r with
      count := countAfter r.count
      pointer :=
        match r.snapshot with
        | none => r.pointer
        | some sn => if sn.entry.window.isSome then r.pointer.map (· + 1) else r.pointer
      readRemaining :=
        match r.snapshot with
        | none => r.readRemaining
        | some sn => if sn.entry.check = .regen then r.readRemaining - 1 else r.readRemaining
      up := if edges < byteEdges then crc8 r.up b else r.up }

/-- R63: an edge of upstream SCL while a read byte is supplied; the fall that ends the eighth bit takes the byte into the upstream
value. -/
def edgeSeen (r : PortState) : PortState :=
  match r.readStage with
  | .supplying b n =>
    { r with
      readStage := .supplying b (nextEdge n)
      up := if n + 1 = byteEdges then crc8 r.up b else r.up }
  | .none | .addressAcked | .fetching | .fetchingCheck | .supplyingCheck _ | .fill => r

/-- R52, R58: the device's open acknowledge slot is answered NACK, and the leg is marked for STOP, unless it is already. -/
def markForStop (p : Port) (s : State) : State :=
  ((activeSegs s p).filter fun g => !(legOn s p g).any (·.marked)).foldl (fun t g =>
    updLeg p g (fun l => { l with marked := true })
      (startClock g (t.updSeg g fun c => { c with activity := some (.reading .nackClock) }))) s

/-- R52, R76: further bytes of the read are supplied as 0xFF. -/
def readFill (p : Port) (s : State) : State :=
  s.updPort p fun r => { r with readStage := .fill, sdaByte := some 0xFF#8 }

/-! ### Aborts (R34, R55, R56) -/

/-- The leg becomes ABORTED. -/
def abortLeg (p : Port) (g : Seg) (s : State) : State := updLeg p g (fun l => { l with state := .aborted }) s

/-- R55: the upstream answer to the abort of a reading leg: 0xFF for a byte awaited, and none once the controller has ended its read. -/
def abortRead (p : Port) (a : Reading) (s : State) : State :=
  match a with
  | .nackClock => toDrain p s
  | .data => supply p 0xFF#8 (toDrain p s)
  | .check => supply p 0xFF#8 (toDrain p s)

/-- R34, R55, R56, R80, R84: the record learns that its leg, which had the activity `a`, has been taken from it. -/
def tellAbort (p : Port) (g : Seg) (a : Option Activity) (s : State) : State :=
  match a with
  | some (.closing _) => dropEndedLeg p g s
  | some (.addressing _) => joinAddress p (abortLeg p g s)
  | some (.writing _ _) => joinData p (loseLeg p (abortLeg p g s))
  | some (.reading w) =>
    if (s.port p).phase = .read then abortRead p w (abortLeg p g s) else abortLeg p g s
  | some .paused => abortLeg p g s
  | none => abortLeg p g s

/-! ### The end of a transaction (R24, R70, R71) -/

/-- R24: the transaction closes: every ACTIVE leg is ended, after the check byte it is handed, if any. -/
def closeTransaction (p : Port) (check : Leg → Option Byte) (s : State) : State :=
  (dropSnapshot p (endActive p check s)).updPort p fun r =>
    { r with
      phase := .idle
      isOpen := false
      count := 0
      pointer := none
      prevSlot := none
      held := none
      hold := none
      stall := none
      inFlight := none
      readStage := .none
      addrWait := none
      earlyAddr := none
      sdaByte := none }

/-- R70: the regenerated check byte of a leg. -/
def regenerated (l : Leg) : Option Byte := some l.down

/-- R71: the poisoned check byte of a leg. -/
def poisoned (l : Leg) : Option Byte := some (~~~ l.down)

/-- R71: CHECK_UPSTREAM's detail: the byte received, then the value it was compared with. -/
def checkDetail (received value : Byte) : Half := received ++ value

/-- R70, R71, R89: the check decision, made at a STOP while a byte is held. -/
def checkDecision (p : Port) (h : Byte) (s : State) : State :=
  if h = (s.port p).up then closeTransaction p regenerated s
  else
    closeTransaction p poisoned
      (notePort .checkUpstream p none (slotOf s p) (checkDetail h (s.port p).up) s)

/-- The check mode of the snapshot a record holds (R77). -/
def underRegen (r : PortState) : Bool :=
  match r.snapshot with
  | none => false
  | some sn => sn.entry.check == .regen

end Sys2Proof.Machine
end

