-- ==== Sys2Proof/Machine/Segments.lean ====
section
/-!
DEFINITION. The commands of the downstream side: what the devices, another controller, the lines and the timers of a segment bring
(chapter 7). An event that a segment's state has no use for changes nothing (log 5).
-/
namespace Sys2Proof.Machine

/-- The port that owns a segment, if a port does. -/
def SegState.ownerPort (c : SegState) : Option Port :=
  match c.owner with
  | some (.port p) => some p
  | some .mgmt => none
  | none => none

/-! ### Opening a leg (R109, R110) -/

/-- R64, R109: the START and the target address are placed on the leg's segment. -/
def placeAddress (p : Port) (g : Seg) (from_ : Leg → Byte) (s : State) : State :=
  match (s.port p).snapshot with
  | none => s
  | some sn =>
    updLeg p g
      (fun l =>
        { l with
          down := crc8 (from_ l) (addressByteOf sn.entry.target (s.port p).dir)
          retryLimit := some (l.retryLimit.getD s.working.params.retries) })
      (startClock g (s.updSeg g fun c => { c with activity := some (.addressing .placed) }))

/-- R110, R34: lines found low before the START of a record's leg: SEG_TIMEOUT, the segment is seized for recovery, and the record is
told. -/
def linesLowAtStart (p : Port) (g : Seg) (s : State) : State :=
  tellAbort p g (s.seg g).activity
    (beginRecovery g none (notePort .segTimeout p (some g) (s.seg g).legSlot detailLinesLow s))

/-- The lines last seen on a segment. -/
def sampleLines (g : Seg) (l : Lines) (s : State) : State := s.updSeg g fun c => { c with lines := l }

/-- R109: the START check and the START, by mode, of a leg that waits to place a fresh START; with the foreign-busy mark set it goes on
waiting. -/
def openFresh (p : Port) (g : Seg) (lines : Lines) (s : State) : State :=
  let t := sampleLines g lines s
  if (s.seg g).mode = .shared then
    if (s.seg g).foreignBusy then s
    else if lines.bothHigh then retime (placeAddress p g (fun _ => crc8Start) t)
    else retime t
  else if lines.bothHigh then retime (placeAddress p g (fun _ => crc8Start) t)
  else finish (linesLowAtStart p g t)

/-- LEG_OPEN (R109, R110): a fresh START with its line check, or the repeated START of a kept leg, which makes none. -/
def execLegOpen (g : Seg) (lines : Lines) (s : State) : Host.Outcome State Fault Refusal :=
  .next (whenRunning s fun s =>
    match (s.seg g).ownerPort, (s.seg g).activity with
    | some p, some (.addressing .waitFresh) => openFresh p g lines s
    | some p, some (.addressing .waitRepeated) => retime (placeAddress p g (fun l => l.down) s)
    | _, _ => s)

/-- R106, R109: after an ACK the controller holds SCL low. -/
def pause (g : Seg) (s : State) : State :=
  s.updSeg g fun c => { c with activity := some .paused, clock := none }

/-- R33, R79: the target's acknowledge of the address; its clock has ended, with SCL low, before a NACKed leg is ended. -/
def targetAnswer (p : Port) (g : Seg) (a : Ack) (s : State) : State :=
  match a with
  | .ack => joinAddress p (pause g s)
  | .nack => joinAddress p (endLeg p noCheck g (pause g s))

/-- TARGET_ACK (R33). -/
def execTargetAck (g : Seg) (answer : Ack) (s : State) : Host.Outcome State Fault Refusal :=
  .next (whenRunning s fun s =>
    match (s.seg g).ownerPort, (s.seg g).activity with
    | some p, some (.addressing .placed) => retime (targetAnswer p g answer s)
    | _, _ => s)

/-! ### Data bytes (R46, R50, R75) -/

/-- BYTE_PLACED (R46): a forwarded byte placed whole on a segment. On a leg that has been ended meanwhile it changes nothing: after a
stall the byte is left out of the upstream value (R63; log 44). -/
def execBytePlaced (g : Seg) (s : State) : Host.Outcome State Fault Refusal :=
  .next (whenRunning s fun s =>
    match (s.seg g).ownerPort, (s.seg g).activity with
    | some p, some (.writing b false) => bytePlaced p g b s
    | _, _ => s)

/-- R46, R47, R84: the device's acknowledge of a forwarded byte. -/
def deviceAnswer (p : Port) (g : Seg) (a : Ack) (s : State) : State :=
  match a with
  | .ack => joinData p (pause g s)
  | .nack => joinData p (loseLeg p (endLeg p noCheck g (pause g s)))

/-- DEVICE_ACK (R46). -/
def execDeviceAck (g : Seg) (answer : Ack) (s : State) : Host.Outcome State Fault Refusal :=
  .next (whenRunning s fun s =>
    match (s.seg g).ownerPort, (s.seg g).activity with
    | some p, some (.writing _ true) => retime (deviceAnswer p g answer s)
    | _, _ => s)

/-- R50, R64: a fetched byte is taken into the leg's value and supplied upstream. -/
def byteFetched (p : Port) (g : Seg) (b : Byte) (s : State) : State :=
  supply p b
    ((updLeg p g (fun l => { l with down := crc8 l.down b }) (pause g s)).updPort p fun r =>
      { r with readStage := .supplying b 0 })

/-- READ_BYTE_FETCHED (R50). -/
def execReadByteFetched (g : Seg) (byte : Byte) (s : State) : Host.Outcome State Fault Refusal :=
  .next (whenRunning s fun s =>
    match (s.seg g).ownerPort, (s.seg g).activity with
    | some p, some (.reading .data) =>
      if (s.port p).readStage = .fetching then retime (byteFetched p g byte s) else s
    | _, _ => s)

/-- R75: the byte prepared for upstream: the upstream value, or its complement after a mismatch. -/
def preparedCheck (down device up : Byte) : Byte := if device = down then up else ~~~ up

/-- R75, R76: the fetch has ended with the NACK of the device's check byte, SCL held low after that clock and the leg marked for STOP;
the byte is compared with its leg's value (log 17). -/
def checkFetched (p : Port) (g : Seg) (b : Byte) (l : Leg) (s : State) : State :=
  let t := if b = l.down then s
    else notePort .checkDownstream p (some g) (slotOf s p) (checkDetail b l.down) s
  let byte := preparedCheck l.down b (s.port p).up
  supply p byte
    ((updLeg p g (fun l => { l with marked := true }) (pause g t)).updPort p fun r =>
      { r with readStage := .supplyingCheck byte })

/-- CHECK_BYTE_FETCHED (R75). -/
def execCheckByteFetched (g : Seg) (byte : Byte) (s : State) : Host.Outcome State Fault Refusal :=
  .next (whenRunning s fun s =>
    match (s.seg g).ownerPort, (s.seg g).activity with
    | some p, some (.reading .check) =>
      match legOn s p g with
      | some l =>
        if (s.port p).readStage = .fetchingCheck then retime (checkFetched p g byte l s) else s
      | none => s
    | _, _ => s)

/-! ### The closing STOP (R33, R96) -/

/-- STOP_PLACED (R96): the closing STOP, after the check byte if there is one, and the release. -/
def execStopPlaced (g : Seg) (s : State) : Host.Outcome State Fault Refusal :=
  .next (whenRunning s fun s =>
    match (s.seg g).ownerPort, (s.seg g).activity with
    | some p, some (.closing _) => finish (release g false (dropEndedLeg p g s))
    | _, _ => s)

/-! ### Arbitration (R115 to R117) -/

/-- R116: the leg waits for the foreign STOP and tries its address again. -/
def retryAddress (p : Port) (g : Seg) (s : State) : State :=
  updLeg p g (fun l => { l with retries := l.retries + 1, down := crc8Start })
    (s.updSeg g fun c =>
      { c with activity := some (.addressing .waitFresh), foreignBusy := true, clock := none })

/-- R116, R117: the leg is lost to the other controller: ARB_LOST, and the segment is released as FOREIGN. -/
def loseArbitration (p : Port) (g : Seg) (detail : Half) (s : State) : State :=
  tellAbort p g (s.seg g).activity
    (release g true (notePort .arbLost p (some g) (s.seg g).legSlot detail s))

/-- R116: the retries a leg has left (its figure was read at its first attempt, R7). -/
def retriesLeft (l : Leg) : Bool := decide (l.retries < l.retryLimit.getD 0)

/-- R115: whether a leg is at something in which the part leaves a bit high: a 1 bit of an address, of a forwarded byte not yet placed
whole or of a check byte, a NACK it gives the device, or the rise of SDA in its STOP. A byte of 0 bits has none, nor have the
clocks in which the device drives SDA: its acknowledge of a byte, and a data byte fetched after the part's ACK. The device's
check byte is fetched with the NACK after it (log 17), and an address byte is one stage with the acknowledge clock after it
(log 31). -/
def Activity.leavesHigh : Activity → Bool
  | .addressing .placed => true
  | .addressing .waitFresh => false
  | .addressing .waitRepeated => false
  | .writing b placed => !placed && b != 0x00#8
  | .reading .data => false
  | .reading .check => true
  | .reading .nackClock => true
  | .paused => false
  | .closing _ => true

/-- R116, R117: a loss in the address byte is retried while a retry is left, and is final otherwise; at any other bit it is final. -/
def arbitrationLost (p : Port) (g : Seg) (a : Activity) (s : State) : State :=
  if a = .addressing .placed then
    if (legOn s p g).any retriesLeft then retime (retryAddress p g s)
    else finish (loseArbitration p g detailAddress s)
  else finish (loseArbitration p g detailData s)

/-- ARB_LOSS (R115), on a SHARED segment, at a bit the part leaves high. -/
def execArbLoss (g : Seg) (s : State) : Host.Outcome State Fault Refusal :=
  .next (whenRunning s fun s =>
    if (s.seg g).mode = .shared then
      match (s.seg g).ownerPort, (s.seg g).activity with
      | some p, some a => if a.leavesHigh then arbitrationLost p g a s else s
      | _, _ => s
    else s)

/-! ### Another controller (R114) -/

/-- The levels a foreign condition shows: SDA low under a high SCL, or SCL low. The first SCL edge of a new watch is also a rise, where
SCL was low (R121). -/
def foreignLines (kind : ForeignKind) (new : Bool) (l : Lines) : Lines :=
  match kind with
  | .start => ⟨true, false⟩
  | .sclEdge => ⟨new && !l.scl, l.sda⟩

/-- R114, R121: another controller's transaction is seen on a watched segment: IDLE becomes FOREIGN, and an OWNED segment is marked
foreign-busy. -/
def foreignSeen (c : SegState) : SegState :=
  { c with
    newWatch := false
    cond := if c.cond = .idle then .foreign else c.cond
    foreignBusy := if c.cond = .owned then true else c.foreignBusy }

/-- R114: a foreign condition is an edge, so a running quiet timer restarts. -/
def foreignStart (kind : ForeignKind) (c : SegState) : SegState :=
  foreignSeen { c with lines := foreignLines kind c.newWatch c.lines, quiet := none }

/-- FOREIGN_START (R114), on a watched SHARED segment. -/
def execForeignStart (g : Seg) (kind : ForeignKind) (s : State) : Host.Outcome State Fault Refusal :=
  .next (whenRunning s fun s =>
    if (s.seg g).watched then retime (s.updSeg g (foreignStart kind)) else s)

/-- R114, R179: the other controller's transaction is over: a FOREIGN segment is IDLE, the foreign-busy mark is cleared, and MGMT's
sequence begins. -/
def foreignOver (g : Seg) (s : State) : State :=
  if (s.seg g).cond = .owned ∧ (s.seg g).owner = some .mgmt then beginRecovery g (some .mgmt) s
  else
    s.updSeg g fun c =>
      { c with
        quiet := none
        newWatch := false
        cond := if c.cond = .foreign then .idle else c.cond
        foreignBusy := false }

/-- FOREIGN_STOP (R114), on a watched SHARED segment. -/
def execForeignStop (g : Seg) (s : State) : Host.Outcome State Fault Refusal :=
  .next (whenRunning s fun s =>
    if (s.seg g).watched then finish (foreignOver g (sampleLines g ⟨true, true⟩ s)) else s)

/-! ### Recovery (R118, R119, R97, R180) -/

/-- R119, R97: a sequence ends in success at attempt k. -/
def recovered (g : Seg) (k : Nat) (s : State) : State :=
  let wasMgmt := (s.seg g).owner == some .mgmt
  let t := (note .segRecovered none (some (.seg g)) none (BitVec.ofNat 16 k) s).updSeg g fun c =>
    { c with
      owner := none
      attempts := 0
      attemptLimit := none
      foreignBusy := false
      mode := (s.working.params.segs.get g).mode
      lines := ⟨true, true⟩
      pendingDisable := false
      cond := if c.pendingDisable then .disabled else .idle }
  if wasMgmt then answerSegReset g .ok [segCode g, byteOf k] t else t

/-- The fault count increases by one, saturating at 255 (R119). -/
def faultsAfter (n : Nat) : Nat := if n < 255 then n + 1 else n

/-- R119, R97: a sequence ends at its third failure. -/
def faulted (g : Seg) (s : State) : State :=
  let wasMgmt := (s.seg g).owner == some .mgmt
  let k := faultsAfter (s.seg g).faults
  let t := (note .segFaulted none (some (.seg g)) none (BitVec.ofNat 16 k) s).updSeg g fun c =>
    { c with
      owner := none
      attempts := 0
      attemptLimit := none
      faults := k
      foreignBusy := false
      pendingDisable := false
      cond := .faulted }
  if wasMgmt then answerSegReset g .recoveryFailed [segCode g, byteOf k] t else t

/-- R119: a failed attempt is counted, and the next begins at once while fewer than three have failed. -/
def attemptFailed (g : Seg) (s : State) : State :=
  if (s.seg g).attempts + 1 < 3 then
    startAttempt g (s.updSeg g fun c => { c with attempts := c.attempts + 1 })
  else faulted g s

/-- R159, R181: whether a SEGMENT-DISABLE that would mark the segment stands at the head of the queue of a free executor, which takes
it at once: it falls together with an event taken while it stands there (log 40). -/
def disableDue (g : Seg) (s : State) : Bool :=
  match s.executing, s.cmdQueue with
  | none, .frame p .segmentDisable _ payload :: _ =>
    permitted s p .segmentDisable && segOfByte (byteAt payload 0) == some g && !(s.seg g).pendingDisable
  | _, _ => false

/-- R123: a disable that falls together with a final check sets the mark in either order, so it is taken before the check (log 40). -/
def takeDueDisable (g : Seg) (s : State) : State :=
  if disableDue g s then runFrame .segmentDisable (withSegment segmentDisable) s else s

/-- R118 step 4, R119: an attempt ends with its final line check. -/
def attemptEnded (g : Seg) (l : Lines) (s : State) : State :=
  if l.bothHigh then recovered g ((s.seg g).attempts + 1) s else attemptFailed g (sampleLines g l s)

/-- RECOVERY_ATTEMPT_END (R119, R123). -/
def execRecoveryAttemptEnd (g : Seg) (lines : Lines) (s : State) : Host.Outcome State Fault Refusal :=
  .next (whenRunning s fun s =>
    if (s.seg g).cond = .recovering then finish (attemptEnded g lines (takeDueDisable g s)) else s)

/-! ### The timers and the lines of a segment (R111 to R114) -/

/-- R112, R113: the clock limit expires on a record's leg: SEG_TIMEOUT HELD, the segment is seized for recovery, and the record is
told. -/
def clockExpired (p : Port) (g : Seg) (s : State) : State :=
  tellAbort p g (s.seg g).activity
    (beginRecovery g none (notePort .segTimeout p (some g) (s.seg g).legSlot detailHeld s))

/-- CLOCK_LIMIT_EXPIRY (R112, R113), of a timer that runs; in RECOVERING it fails the attempt (R118). -/
def execClockLimitExpiry (g : Seg) (s : State) : Host.Outcome State Fault Refusal :=
  .next (whenRunning s fun s =>
    if (s.seg g).cond = .recovering then finish (attemptFailed g s)
    else if (s.seg g).cond = .owned ∧ (s.seg g).clock.isSome = true then
      match (s.seg g).ownerPort with
      | some p => finish (clockExpired p g s)
      | none => s
    else s)

/-- R114, R110: the quiet timer finds a line low. -/
def quietLow (g : Seg) (s : State) : State :=
  match (s.seg g).owner with
  | none =>
    beginRecovery g none (note .segTimeout none (some (.seg g)) none detailLinesLow s)
  | some (.port p) => linesLowAtStart p g s
  | some .mgmt => beginRecovery g (some .mgmt) s

/-- QUIET_TIMER_EXPIRY (R114), of a timer that runs. -/
def execQuietTimerExpiry (g : Seg) (lines : Lines) (s : State) : Host.Outcome State Fault Refusal :=
  .next (whenRunning s fun s =>
    if (s.seg g).quiet.isSome then
      if lines.bothHigh then finish (foreignOver g (sampleLines g lines s))
      else finish (quietLow g (sampleLines g lines s))
    else s)

/-- A wire's level, changed. -/
def setWire (l : Lines) (w : Wire) (high : Bool) : Lines :=
  match w with
  | .scl => { l with scl := high }
  | .sda => { l with sda := high }

/-- R111, R52: what an SCL edge is to a leg's transfer: the rise stops the clock-limit timer, the fall ends a clock, whose next release
starts it again; after a NACK clock SCL is held (log 16, log 17). -/
def sclEdge (high : Bool) (limit : Nat) (c : SegState) : SegState :=
  if high then { c with clock := none }
  else
    match c.activity with
    | some (.reading .nackClock) => { c with activity := some .paused, clock := none }
    | some (.addressing .placed) => { c with clock := some limit }
    | some (.writing _ _) => { c with clock := some limit }
    | some (.reading _) => { c with clock := some limit }
    | some (.closing _) => { c with clock := some limit }
    | some .paused => c
    | some (.addressing .waitFresh) => c
    | some (.addressing .waitRepeated) => c
    | none => c

/-- R114, R121: an edge that shows another controller's transaction: SDA falls while SCL is high, SCL falls, or SCL moves either way for
the first time since a new watch began. -/
def edgeBegins (w : Wire) (high new : Bool) (l : Lines) : Bool :=
  match w with
  | .scl => !high || new
  | .sda => !high && l.scl

/-- R114: an edge that is a STOP: SDA rises while SCL is high. -/
def edgeEnds (w : Wire) (high : Bool) (l : Lines) : Bool :=
  match w with
  | .scl => false
  | .sda => high && l.scl

/-- R111, R114, R121: an edge on a segment's wire restarts a running quiet timer, and is a leg's or, on a watched segment, another
controller's. An edge of SCL is what a new watch waits for. -/
def lineEdge (w : Wire) (high : Bool) (limit : Nat) (c : SegState) : SegState :=
  let d := { c with lines := setWire c.lines w high, quiet := none }
  let e := if c.watched && edgeBegins w high c.newWatch c.lines then foreignSeen d else d
  match w with
  | .scl => sclEdge high limit { e with newWatch := false }
  | .sda => e

/-- SEGMENT_LINE_EDGE (R114, R111). On a watched segment an edge that forms a condition has the effect of that condition (log 24). -/
def execSegmentLineEdge (g : Seg) (wire : Wire) (high : Bool) (s : State) : Host.Outcome State Fault Refusal :=
  .next (whenRunning s fun s =>
    let t := s.updSeg g (lineEdge wire high s.working.params.clockLimit)
    if (s.seg g).watched && edgeEnds wire high (s.seg g).lines then finish (foreignOver g t) else retime t)

end Sys2Proof.Machine
end

