-- ==== Sys2Proof/Machine/Resets.lean ====
section
/-!
DEFINITION. The resets and the loss of supply: what an interrupted store operation leaves (R151), the values every block takes (R41,
R104, R122, R124, R143, R168, R191), and the reset load (R18, R142).
-/
namespace Sys2Proof.Machine

/-! ### An interrupted store operation (R151) -/

/-- FREE VALUE (log 7): an image left partly erased or partly written. -/
def freeImage (n : Nat) : List Byte := (List.range Config.imageSize).map (Config.freeImageByte n)

/-- FREE VALUE (log 7): a marker that does not stand (R145, R194). -/
def partMarker (n : Nat) : Half :=
  if Config.freeMarker n = Config.formatMarker then 0xFFFF#16 else Config.freeMarker n

/-- FREE VALUE (log 7): a header left in the middle of its erasure. -/
def freeHeader (n : Nat) : Header := ⟨partMarker n, Config.freeGeneration n, Config.freeCheck n⟩

/-- FREE VALUE (log 7): a header left in the middle of its writing. R194: the generation and the image check are written first and the
marker last, so a marker that has been begun stands over those of the new header, and one that has not is erased. -/
def partHeader (n : Nat) (new : Header) : Header :=
  if Config.freeMarkerBegun n then { new with marker := partMarker n }
  else { freeHeader n with marker := Header.erased.marker }

/-- The value a cell write writes: SET for PROTECT, CLEAR for UNPROTECT (R149, R150). -/
def cellTarget : StoreKind → Bool
  | .protect => true
  | .unprotect => false
  | .save => false

/-- The header the SAVE in flight is to write (R144, R194). -/
def headerToWrite (st : Store) : Header :=
  match st.buffer, st.newGeneration with
  | some i, some n => newHeader i n
  | _, _ => Header.erased

/-- R151: the bank an operation targets as the operation's phase leaves it. -/
def interrupted (n : Nat) (st : Store) (o : StoreOp) : BankCells :=
  let b := st.banks.get o.bank
  match st.phase with
  | .idle => b
  | .erasing => { b with image := freeImage n, header := freeHeader n }
  | .writing => { b with image := freeImage n, header := Header.erased }
  | .verifying => { b with header := Header.erased }
  | .header => { b with header := partHeader n (headerToWrite st) }
  | .cellWrite => { b with cell := if Config.freeCellIsNew n then cellTarget o.kind else b.cell }

/-- The banks after the operation in flight, if there is one, has been abandoned. -/
def abandonedBanks (n : Nat) (st : Store) : PerBank BankCells :=
  match st.op with
  | none => st.banks
  | some o => st.banks.set o.bank (interrupted n st o)

/-- R143, R151: the Store Controller's values after any reset; no response is produced. The bank records and the last reset cause keep
their values until the load sets them, which on a part held or without supply comes later (R141; log 9). -/
def abandonStore (s : State) : State :=
  { s with
    store :=
      { s.store with
        banks := abandonedBanks s.freeCtr s.store
        phase := .idle
        op := none
        buffer := none
        newGeneration := none
        originMark := false }
    freeCtr := s.freeCtr + 1 }

/-! ### The values every block takes -/

/-- R41, R104, R122, R124, R168, R191: every volatile block at its reset values, with the segments' lines as given. -/
def clearVolatile (run : RunState) (lines : PerSeg Lines) (s : State) : State :=
  { s with
    run := run
    ports := PerPort.all PortState.reset
    segs := ⟨SegState.reset lines.s0, SegState.reset lines.s1, SegState.reset lines.s2, SegState.reset lines.s3⟩
    session := none
    lease := none
    cmdQueue := []
    executing := none
    segResets := []
    notices := []
    lost := 0
    nextSeq := 1 }

/-- The lines last seen on the segments. -/
def seenLines (s : State) : PerSeg Lines := ⟨s.segs.s0.lines, s.segs.s1.lines, s.segs.s2.lines, s.segs.s3.lines⟩

/-! ### The reset load (R9, R18, R142) -/

/-- R9: the strap value: ADSEL1 is the high bit. -/
def strapOf (pins : ResetPins) : BitVec 2 := BitVec.ofBool pins.adsel1 ++ BitVec.ofBool pins.adsel0

/-- R142: BANK_REJECTED for a bank whose header is good and whose image fails. -/
def noteRejected (b : Bank) (r : BankReading) (s : State) : State :=
  match r with
  | .rejected _ why slot =>
    note .bankRejected none (some (.bank b)) slot ((reasonCode why).setWidth 16) s
  | .badHeader => s
  | .good _ _ => s

/-- R142: the selection: the valid bank with the higher generation. -/
def selectBank (a b : BankReading) : Option (Bank × Nat × Image) :=
  match a, b with
  | .good n i, .good m j => if n < m then some (.bankB, m, j) else some (.bankA, n, i)
  | .good n i, .badHeader => some (.bankA, n, i)
  | .good n i, .rejected _ _ _ => some (.bankA, n, i)
  | .badHeader, .good m j => some (.bankB, m, j)
  | .rejected _ _ _, .good m j => some (.bankB, m, j)
  | .badHeader, .badHeader => none
  | .badHeader, .rejected _ _ _ => none
  | .rejected _ _ _, .badHeader => none
  | .rejected _ _ _, .rejected _ _ _ => none

/-- R10, R18, R142: the working image and the origin record by the selection, and the load notice. -/
def loadSelected (cause : ResetCause) (sel : Option (Bank × Nat × Image)) (s : State) : State :=
  match sel with
  | some (b, n, i) =>
    note .tableLoaded (some (.cause cause)) (some (.bank b)) none (BitVec.ofNat 16 n)
      { s with working := i, origin := .bank b n }
  | none =>
    note .tableEmpty (some (.cause cause)) none none 0#16
      { s with working := Image.empty, origin := .edited }

/-- R122: a segment's state by the loaded service and its lines. -/
def resetSegment (p : Params) (g : Seg) (l : Lines) : SegState :=
  let c := { SegState.reset l with mode := (p.segs.get g).mode, speed := (p.segs.get g).speed }
  match (p.segs.get g).service with
  | .outOfService => { c with cond := .disabled }
  | .inService =>
    if l.bothHigh then c else { c with cond := .recovering, attemptLimit := some p.clockLimit }

/-- R122: every segment after the load. -/
def resetSegments (lines : PerSeg Lines) (s : State) : State :=
  let p := s.working.params
  { s with
    segs := ⟨resetSegment p .s0 lines.s0, resetSegment p .s1 lines.s1, resetSegment p .s2 lines.s2,
      resetSegment p .s3 lines.s3⟩ }

/-- R9, R18, R142: the load of a reset: the straps, the bank records, any BANK_REJECTED for A and then B, the working image with its load
notice, and the segments. -/
def resetLoad (cause : ResetCause) (pins : ResetPins) (s : State) : State :=
  let strap := strapOf pins
  let a := readBank strap (s.store.banks.get .bankA)
  let b := readBank strap (s.store.banks.get .bankB)
  let t := { s with
    strap := strap
    store :=
      { s.store with
        records := ⟨recordOf a s.store.banks.a.cell, recordOf b s.store.banks.b.cell⟩
        cause := cause } }
  resetSegments pins.lines
    (loadSelected cause (selectBank a b) (noteRejected .bankB b (noteRejected .bankA a t)))

/-- A reset that ends with the part running: power-on and RESTART, and the release of the RESET line (R141). -/
def resetAll (cause : ResetCause) (pins : ResetPins) (s : State) : State :=
  resetLoad cause pins (clearVolatile .running pins.lines (abandonStore s))

/-! ### The commands -/

/-- POWER_ON (R141). On a part that the RESET line holds it starts the part at once, and the line's release then does nothing
(log 41). -/
def execPowerOn (pins : ResetPins) (s : State) : Host.Outcome State Fault Refusal :=
  .next (resetAll .powerOn pins s)

/-- RESET_LINE_LOW (R141): every block takes its reset values and is held there; a part without supply has no line to see. -/
def execResetLineLow (s : State) : Host.Outcome State Fault Refusal :=
  .next (if s.run = .off then s else clearVolatile .held (seenLines s) (abandonStore s))

/-- RESET_LINE_RELEASE (R141), of a line that holds the part. -/
def execResetLineRelease (pins : ResetPins) (s : State) : Host.Outcome State Fault Refusal :=
  .next (if s.run = .held then resetAll .resetLine pins s else s)

/-- SUPPLY_LOSS (R151): a store operation in flight is abandoned, and what is volatile is lost (log 9). -/
def execSupplyLoss (s : State) : Host.Outcome State Fault Refusal :=
  .next (clearVolatile .off (seenLines s) (abandonStore s))

end Sys2Proof.Machine
end

