-- ==== Sys2Proof/Machine/StoreOps.lean ====
section
/-!
DEFINITION. The store commands, RESTART, and the completions of the Store Controller's operations (chapter 9, R184, R185).
-/
namespace Sys2Proof.Machine

/-- A command on the bank its argument names, refused while the Store Controller is not IDLE (R143). -/
def withBank (f : Bank → Body) : Body := fun p tag payload s =>
  match bankOfByte (byteAt payload 0) with
  | none => badArg 1 p tag payload s
  | some b => if s.store.phase = .idle then f b p tag payload s else respond p .storeBusy tag [] s

/-- A bank and a generation in a payload. -/
def bankBytes (b : Bank) (n : Nat) : List Byte := bankCode b :: bytes4 n

/-! ### LOAD-BANK (R148) -/

/-- R140, R148: a bank's record, set from a reading. -/
def setRecord (b : Bank) (r : BankRecord) (s : State) : State :=
  s.updStore fun t => { t with records := t.records.set b r }

/-- R148: the loaded image replaces the working image. -/
def loadImage (b : Bank) (n : Nat) (i : Image) (s : State) : State := finish (replaceImage i (.bank b n) s)

/-- R148 steps 3 to 5. -/
def loadBank (b : Bank) : Body := fun p tag _ s =>
  if s.session.isSome then respond p .editOpen tag [] s
  else
    let r := readBank s.strap (s.store.banks.get b)
    let t := setRecord b (recordOf r (s.store.records.get b).protected_) s
    match r with
    | .badHeader => respond p .bankInvalid tag [bankCode b, reasonCode .badHeader, absentByte] t
    | .rejected _ why slot => respond p .bankInvalid tag (bankCode b :: failureBytes (why, slot)) t
    | .good n i => respond p .ok tag (bankBytes b n) (loadImage b n i t)

/-- LOAD_BANK (R148). -/
def execLoadBank (s : State) : Host.Outcome State Fault Refusal :=
  .next (whenRunning s (runFrame .loadBank (withBank loadBank)))

/-! ### SAVE-BANK (R144 to R146) -/

/-- The higher generation held in the two bank records, 0 when neither holds one (R144). -/
def highGeneration (st : Store) : Nat := max (st.records.a.generation.getD 0) (st.records.b.generation.getD 0)

/-- R144: what the start of a SAVE sets. The header is erased first (R145, log 34). -/
def startSave (b : Bank) (p : Port) (tag : Byte) (s : State) : State :=
  s.updStore fun t =>
    { t with
      buffer := some s.working
      newGeneration := some (highGeneration t + 1)
      originMark := true
      op := some ⟨.save, b, p, tag⟩
      phase := .erasing
      banks := t.banks.set b { t.banks.get b with header := Header.erased }
      records := t.records.set b { t.records.get b with valid := false, generation := none } }

/-- R144 checks 3 and 4. -/
def saveBank (b : Bank) : Body := fun p tag _ s =>
  if (s.store.records.get b).protected_ then respond p .bankProtected tag [bankCode b] s
  else if highGeneration s.store < Config.generationMax then startSave b p tag s
  else respond p .storeExhausted tag [] s

/-- SAVE_BANK (R144). -/
def execSaveBank (s : State) : Host.Outcome State Fault Refusal :=
  .next (whenRunning s (runFrame .saveBank (withBank saveBank)))

/-! ### PROTECT-BANK and UNPROTECT-BANK (R149, R150) -/

/-- R149, R150: a cell write begins. -/
def startCellWrite (k : StoreKind) (b : Bank) (p : Port) (tag : Byte) (s : State) : State :=
  s.updStore fun t => { t with op := some ⟨k, b, p, tag⟩, phase := .cellWrite }

/-- R149 check 3. -/
def protectBank (b : Bank) : Body := fun p tag _ s =>
  if (s.store.records.get b).valid then startCellWrite .protect b p tag s
  else respond p .bankInvalid tag [bankCode b, reasonCode .notValid, absentByte] s

/-- PROTECT_BANK (R149). -/
def execProtectBank (s : State) : Host.Outcome State Fault Refusal :=
  .next (whenRunning s (runFrame .protectBank (withBank protectBank)))

/-- R150 check 3: SVC is sampled once, at this check. -/
def unprotectBank (svcHigh : Bool) (b : Bank) : Body := fun p tag _ s =>
  if svcHigh then startCellWrite .unprotect b p tag s else respond p .notService tag [] s

/-- UNPROTECT_BANK (R150). -/
def execUnprotectBank (svcHigh : Bool) (s : State) : Host.Outcome State Fault Refusal :=
  .next (whenRunning s (runFrame .unprotectBank (withBank (unprotectBank svcHigh))))

/-! ### RESTART (R185) -/

/-- R185: with the store IDLE the execution is the reset. -/
def restart (pins : ResetPins) : Body := fun p tag _ s =>
  if s.store.phase = .idle then resetAll .restart pins s else respond p .storeBusy tag [] s

/-- RESTART (R185). -/
def execRestart (pins : ResetPins) (s : State) : Host.Outcome State Fault Refusal :=
  .next (whenRunning s (runFrame .restart (restart pins)))

/-! ### Completions (R145, R146, R149, R150) -/

/-- The cells of the bank an operation targets, changed. -/
def updTarget (o : StoreOp) (f : BankCells → BankCells) (t : Store) : Store :=
  { t with banks := t.banks.set o.bank (f (t.banks.get o.bank)) }

/-- The Store Controller returns to IDLE (R146, R149). -/
def storeIdle (t : Store) : Store :=
  { t with phase := .idle, op := none, buffer := none, newGeneration := none, originMark := false }

/-- R145: ERASING completes: the image has been erased (log 8). -/
def erasingDone (o : StoreOp) (s : State) : State :=
  s.updStore fun t =>
    { updTarget o (fun b => { b with image := List.replicate Config.imageSize Config.erasedByte }) t with
      phase := .writing }

/-- ERASING_COMPLETE (R145). -/
def execErasingComplete (s : State) : Host.Outcome State Fault Refusal :=
  .next (whenRunning s fun s =>
    match s.store.phase, s.store.op with
    | .erasing, some o => erasingDone o s
    | _, _ => s)

/-- R145: WRITING completes: the snapshot buffer stands in the target's image. -/
def writingDone (o : StoreOp) (i : Image) (s : State) : State :=
  s.updStore fun t => { updTarget o (fun b => { b with image := i.bytes }) t with phase := .verifying }

/-- WRITING_COMPLETE (R145). -/
def execWritingComplete (s : State) : Host.Outcome State Fault Refusal :=
  .next (whenRunning s fun s =>
    match s.store.phase, s.store.op, s.store.buffer with
    | .writing, some o, some i => writingDone o i s
    | _, _, _ => s)

/-- Read-back bytes, as the image of a bank (log 25). -/
def fitImage (bs : List Byte) : List Byte :=
  (bs ++ List.replicate (Config.imageSize - bs.length) Config.erasedByte).take Config.imageSize

/-- R146: VERIFYING finds a mismatch: the header stays erased, the image is what was read back, and the SAVE ends with STORE_FAULT. -/
def verifyFailed (o : StoreOp) (readBack : List Byte) (s : State) : State :=
  respond o.port .storeFault o.tag [bankCode o.bank]
    (s.updStore fun t =>
      storeIdle (updTarget o (fun b => { b with image := fitImage readBack, header := Header.erased }) t))

/-- VERIFYING_COMPLETE (R145, R146): the read-back against the snapshot buffer. -/
def execVerifyingComplete (readBack : List Byte) (s : State) : Host.Outcome State Fault Refusal :=
  .next (whenRunning s fun s =>
    match s.store.phase, s.store.op, s.store.buffer with
    | .verifying, some o, some i =>
      if readBack = i.bytes then s.updStore fun t => { t with phase := .header }
      else verifyFailed o readBack s
    | _, _, _ => s)

/-- R146, R10: HEADER completes: the bank is VALID with the new generation, the origin follows when the mark is set, and OK is placed. -/
def headerDone (o : StoreOp) (i : Image) (n : Nat) (s : State) : State :=
  respond o.port .ok o.tag (bankBytes o.bank n)
    { s with
      origin := if s.store.originMark then .bank o.bank n else s.origin
      store :=
        storeIdle
          { updTarget o (fun b => { b with header := newHeader i n }) s.store with
            records :=
              s.store.records.set o.bank
                { s.store.records.get o.bank with valid := true, generation := some n } } }

/-- HEADER_COMPLETE (R146). -/
def execHeaderComplete (s : State) : Host.Outcome State Fault Refusal :=
  .next (whenRunning s fun s =>
    match s.store.phase, s.store.op, s.store.buffer, s.store.newGeneration with
    | .header, some o, some i, some n => headerDone o i n s
    | _, _, _, _ => s)

/-- R149, R150: a cell write completes: the cell and the bank record hold the value, and OK is placed. -/
def cellDone (o : StoreOp) (s : State) : State :=
  respond o.port .ok o.tag [bankCode o.bank]
    (s.updStore fun t =>
      storeIdle
        { updTarget o (fun b => { b with cell := cellTarget o.kind }) t with
          records :=
            t.records.set o.bank { t.records.get o.bank with protected_ := cellTarget o.kind } })

/-- CELL_WRITE_COMPLETE (R149, R150). -/
def execCellWriteComplete (s : State) : Host.Outcome State Fault Refusal :=
  .next (whenRunning s fun s =>
    match s.store.phase, s.store.op with
    | .cellWrite, some o => cellDone o s
    | _, _ => s)

end Sys2Proof.Machine
end

