-- ==== Sys2Proof/Machine/Upstream.lean ====
section
/-!
DEFINITION. The commands of the upstream side: the conditions and bytes on a port, and the expiry of its hold and stall timers
(chapters 2 to 5 and 10). A condition or a byte that the port's phase has no use for changes nothing (log 5).
-/
namespace Sys2Proof.Machine

/-! ### START (R21, R23, R37) -/

/-- R19, R23, R63: a fresh START gives the record its "At START" values. -/
def freshStart (p : Port) (s : State) : State :=
  s.updPort p fun r =>
    { r with
      phase := .address
      isOpen := true
      snapshot := none
      legs := keptLegs s p
      count := 0
      pointer := none
      prevSlot := none
      up := crc8Start
      held := none
      readRemaining := 0
      hold := none
      stall := none
      inFlight := none
      readStage := .none
      addrWait := none
      earlyAddr := none
      sdaByte := none }

/-- R69: a repeated START in WRITE: a held byte is confirmed as data first. While a confirmation is on the segments a further START changes
nothing (log 13). -/
def repeatedInWrite (p : Port) (s : State) : State :=
  if (s.port p).inFlight.isSome then s
  else
    match (s.port p).held with
    | some h => submit p h .repeatedStart s
    | none => toAddress p s

/-- R54: whether a condition finds the byte supplied whole, by the edges of SCL told since the byte's first bit was offered: all of them, or
none, since a sender that tells edges has told SCL's rise before any condition (log 11). -/
def suppliedWhole (n : Nat) : Bool := n == 0 || decide (byteEdges ≤ n)

/-- R54: a condition in place of the acknowledge of a supplied byte is a NACK of it. In the byte's first bit, for which the part has
released SDA, the byte is not counted (log 11). -/
def nackInPlace (p : Port) (s : State) : State :=
  match (s.port p).readStage with
  | .supplying b n => markForStop p (if suppliedWhole n then countRead p b n s else s)
  | .none | .addressAcked | .fetching | .fetchingCheck | .supplyingCheck _ | .fill => s

/-- R37: a repeated START, by the phase that owes it something. -/
def repeatedStart (p : Port) (s : State) : State :=
  match (s.port p).phase with
  | .write => repeatedInWrite p s
  | .read => toAddress p (nackInPlace p s)
  | .mgmtWrite => toAddress p (frameEnd p s)
  | .mgmtRead => toAddress p (readEnd p true s)
  | .idle | .offBus | .address | .awaitGrant | .awaitTarget | .drain => toAddress p s

/-- R21: a START is a repeated START while the open mark is set, and fresh otherwise. While the part holds SCL none can be made (R22). -/
def startCondition (p : Port) (s : State) : State :=
  if (s.port p).sclHeld then s
  else if (s.port p).isOpen then repeatedStart p s
  else freshStart p s

/-- START (R23); with the open mark set it is a repeated START (R21, log 10). -/
def execStart (p : Port) (s : State) : Host.Outcome State Fault Refusal :=
  .next (whenRunning s fun s => retime (startCondition p s))

/-- REPEATED_START (R37); with the open mark clear it is a fresh START (R21, log 10). -/
def execRepeatedStart (p : Port) (s : State) : Host.Outcome State Fault Refusal :=
  .next (whenRunning s fun s => retime (startCondition p s))

/-! ### STOP (R24) -/

/-- R24, R70: a STOP in WRITE: with a byte held it is the check decision. -/
def stopInWrite (p : Port) (s : State) : State :=
  match (s.port p).held with
  | some h => checkDecision p h s
  | none => closeTransaction p noCheck s

/-- R24: a STOP, by the phase that owes it something. In IDLE it changes nothing. -/
def stopCondition (p : Port) (s : State) : State :=
  match (s.port p).phase with
  | .idle => s
  | .write => stopInWrite p s
  | .read => closeTransaction p noCheck (nackInPlace p s)
  | .mgmtWrite => closeTransaction p noCheck (frameEnd p s)
  | .mgmtRead => closeTransaction p noCheck (readEnd p true s)
  | .offBus | .address | .awaitGrant | .awaitTarget | .drain => closeTransaction p noCheck s

/-- STOP (R24). While the part holds SCL none can be made (R22). -/
def execStop (p : Port) (s : State) : Host.Outcome State Fault Refusal :=
  .next (whenRunning s fun s => if (s.port p).sclHeld then s else retime (stopCondition p s))

/-! ### Conditions in the middle of a byte (R57, R58, R73, R158, R165) -/

/-- R57, R73: UP_BUS_ERROR with detail STOP, and the transaction ends. -/
def cutByStop (p : Port) (s : State) : State :=
  closeTransaction p noCheck (notePort .upBusError p none (slotOf s p) detailStop s)

/-- R57, R158, R165, R24: a STOP inside a byte, by phase. Inside the address byte after a repeated START whose confirmation is still on
the segments it records nothing (log 13). -/
def midByteStop (p : Port) (s : State) : State :=
  match (s.port p).phase with
  | .idle => s
  | .write => if (s.port p).inFlight.isSome then closeTransaction p noCheck s else cutByStop p s
  | .read => cutByStop p s
  | .mgmtWrite => closeTransaction p noCheck (frameEnd p s)
  | .mgmtRead => closeTransaction p noCheck (readEnd p false s)
  | .offBus | .address | .awaitGrant | .awaitTarget | .drain => closeTransaction p noCheck s

/-- MID_BYTE_STOP (R57). -/
def execMidByteStop (p : Port) (s : State) : Host.Outcome State Fault Refusal :=
  .next (whenRunning s fun s => if (s.port p).sclHeld then s else retime (midByteStop p s))

/-- R58, R73: a START inside a write byte. The legs are kept, but ended when a byte was held. -/
def cutWriteByStart (p : Port) (s : State) : State :=
  let t := notePort .upBusError p none (slotOf s p) detailStart s
  if (s.port p).held.isSome then toAddress p (endActive p noCheck t) else toAddress p t

/-- R58: a START inside a read byte: the device is told that its read is over, and the leg is marked for STOP. -/
def cutReadByStart (p : Port) (s : State) : State :=
  toAddress p (markForStop p (notePort .upBusError p none (slotOf s p) detailStart s))

/-- R58, R158, R165, R37: a START inside a byte, by phase. -/
def midByteStart (p : Port) (s : State) : State :=
  if (s.port p).isOpen then
    match (s.port p).phase with
    | .write => if (s.port p).inFlight.isSome then s else cutWriteByStart p s
    | .read => cutReadByStart p s
    | .mgmtWrite => toAddress p (frameEnd p s)
    | .mgmtRead => toAddress p (readEnd p false s)
    | .idle | .offBus | .address | .awaitGrant | .awaitTarget | .drain => toAddress p s
  else freshStart p s

/-- MID_BYTE_START (R58). -/
def execMidByteStart (p : Port) (s : State) : Host.Outcome State Fault Refusal :=
  .next (whenRunning s fun s => if (s.port p).sclHeld then s else retime (midByteStart p s))

/-! ### Bytes upstream -/

/-- R25; an address byte that arrives while a repeated START's confirmation is on the segments is looked up (R11) and waits with SCL
held (R69, log 13). -/
def addressByte (p : Port) (a : Addr) (d : Dir) (s : State) : State :=
  if (s.port p).sclHeld then s
  else if (s.port p).phase = .address then decideAddress p a d (find25 s p a) s
  else if (s.port p).phase = .write ∧ (s.port p).inFlight.isSome = true then
    (holdScl p s).updPort p fun r => { r with earlyAddr := some ⟨a, d, find25 s p a⟩ }
  else s

/-- ADDRESS_BYTE (R25). -/
def execAddressByte (p : Port) (address : Addr) (dir : Dir) (s : State) : Host.Outcome State Fault Refusal :=
  .next (whenRunning s fun s => retime (addressByte p address dir s))

/-- R42, R66, R67: a byte taken in WRITE, with SCL held. -/
def takeWriteByte (p : Port) (b : Byte) (s : State) : State :=
  if underRegen (s.port p) then
    match (s.port p).held with
    | none => giveAck p .ack ((holdScl p s).updPort p fun r => { r with held := some b })
    | some h => submit p h (.hold b) (holdScl p s)
  else submit p b .answer (holdScl p s)

/-- A write byte is taken in WRITE, when none is in flight and SCL is not held (R42). -/
def writeReady (r : PortState) : Bool := r.phase == .write && r.inFlight.isNone && !r.sclHeld

/-- WRITE_BYTE (R42). -/
def execWriteByte (p : Port) (byte : Byte) (s : State) : Host.Outcome State Fault Refusal :=
  .next (whenRunning s fun s => if writeReady (s.port p) then retime (takeWriteByte p byte s) else s)

/-- DRAIN_BYTE (R40): a write byte is NACKed, a read byte is supplied as 0xFF. -/
def execDrainByte (p : Port) (s : State) : Host.Outcome State Fault Refusal :=
  .next (whenRunning s fun s =>
    if (s.port p).phase = .drain then
      s.updPort p fun r =>
        match r.dir with
        | .write => { r with ackOut := some .nack }
        | .read => { r with sdaByte := some 0xFF#8 }
    else s)

/-- R51, R52, R76: the controller's acknowledge of a supplied byte, by what was supplied. -/
def readAnswer (p : Port) (a : Ack) (s : State) : State :=
  match (s.port p).readStage with
  | .supplying b n =>
    match a with
    | .ack => readRequest p (countRead p b n s)
    | .nack => readFill p (markForStop p (countRead p b n s))
  | .supplyingCheck _ => readFill p s
  | .none | .addressAcked | .fetching | .fetchingCheck | .fill => s

/-- READ_BYTE_ACK (R51). -/
def execReadByteAck (p : Port) (answer : Ack) (s : State) : Host.Outcome State Fault Refusal :=
  .next (whenRunning s fun s =>
    if (s.port p).phase = .read ∧ (s.port p).sclHeld = false then retime (readAnswer p answer s) else s)

/-- READ_ADDRESS_ACK_END (R49): the request for byte 1 of a read. -/
def execReadAddressAckEnd (p : Port) (s : State) : Host.Outcome State Fault Refusal :=
  .next (whenRunning s fun s =>
    if (s.port p).phase = .read ∧ (s.port p).readStage = .addressAcked ∧ (s.port p).sclHeld = false then
      retime (readRequest p s)
    else s)

/-- MGMT_WRITE_BYTE (R156). -/
def execMgmtWriteByte (p : Port) (byte : Byte) (s : State) : Host.Outcome State Fault Refusal :=
  .next (whenRunning s fun s =>
    if (s.port p).phase = .mgmtWrite then
      match (s.port p).assembler with
      | none => s
      | some m =>
        s.updPort p fun r => { r with assembler := some (m.take byte).2, ackOut := some (m.take byte).1 }
    else s)

/-- MGMT_READ_ACK (R163). -/
def execMgmtReadAck (p : Port) (answer : Ack) (s : State) : Host.Outcome State Fault Refusal :=
  .next (whenRunning s fun s =>
    if (s.port p).phase = .mgmtRead then
      match (s.port p).readPos with
      | none => s
      | some m =>
        s.updPort p fun r =>
          { r with readPos := some (m.answer answer), sdaByte := some (m.answer answer).current }
    else s)

/-! ### The hold and stall timers (R36, R59, R60) -/

/-- R36, R82, R94: the segment a HOLD_EXPIRED names: that of the outstanding claim; before any claim, the lowest still closing; with
every leg granted, the lowest ACTIVE leg's that awaits its target. -/
def holdSegment (s : State) (p : Port) : Option Seg :=
  match Seg.list.find? fun g => (s.seg g).waiters.contains (.port p) with
  | some g => some g
  | none =>
    if (s.port p).phase = .awaitGrant then (ownedSegs s p).head?
    else (activeSegs s p).find? fun g => !isPaused s g

/-- R36, R101: a record withdraws its claim. -/
def withdraw (p : Port) (s : State) : State :=
  unwait (.port p) .s0 (unwait (.port p) .s1 (unwait (.port p) .s2 (unwait (.port p) .s3 s)))

/-- R36, R82: hold timer expiry gives up the address phase. -/
def holdExpired (p : Port) (s : State) : State :=
  toDrain p (notePort .holdExpired p (holdSegment s p) (slotOf s p) 0#16
    (stopHold p (giveAck p .nack (endActive p noCheck (endClaiming p (withdraw p s))))))

/-- HOLD_EXPIRED (R36), of a timer that runs. -/
def execHoldExpired (p : Port) (s : State) : Host.Outcome State Fault Refusal :=
  .next (whenRunning s fun s => if (s.port p).hold.isSome then finish (holdExpired p s) else s)

/-- R60, R73: stall timer expiry gives up the transaction on the port. A byte confirmed by a repeated START and not yet placed whole
is left out of the upstream value (R63, R69; log 44). -/
def stallExpired (p : Port) (s : State) : State :=
  (dropSnapshot p (endActive p noCheck
    (notePort .stall p (ownedSegs s p).head? (slotOf s p) 0#16 s))).updPort p fun r =>
    { r with
      phase := .offBus
      pointer := none
      held := none
      stall := none
      inFlight := none
      readStage := .none
      sdaByte := none }

/-- STALL (R60), of a timer that runs. -/
def execStall (p : Port) (s : State) : Host.Outcome State Fault Refusal :=
  .next (whenRunning s fun s => if (s.port p).stall.isSome then retime (stallExpired p s) else s)

/-- R59: an edge of upstream SCL restarts a running stall timer, reading the working limit again. -/
def restartStall (limit : Nat) (r : PortState) : PortState := { r with stall := r.stall.map fun _ => limit }

/-- R163: an edge of upstream SCL in a management read is counted for the byte now supplied. -/
def mgmtEdge (r : PortState) : PortState := { r with readPos := r.readPos.map ReadPos.edgeSeen }

/-- UPSTREAM_SCL_EDGE (R59): a running stall timer restarts; and an edge may end the eighth bit of a byte supplied (R63, R164). -/
def execUpstreamSclEdge (p : Port) (s : State) : Host.Outcome State Fault Refusal :=
  .next (whenRunning s fun s => s.updPort p fun r => mgmtEdge (edgeSeen (restartStall s.working.params.stallLimit r)))

end Sys2Proof.Machine
end

