-- ==== Sys2Proof/Machine/Dispatch.lean ====
section
/-!
DEFINITION. The meaning of every command: one arm for each constructor of `Instr`, in the table's order.
-/
namespace Sys2Proof.Machine

def exec (i : Instr) (s : State) : Host.Outcome State Fault Refusal :=
  match i with
  | .powerOn pins => Sys2Proof.Machine.execPowerOn pins s
  | .resetLineLow => Sys2Proof.Machine.execResetLineLow s
  | .resetLineRelease pins => Sys2Proof.Machine.execResetLineRelease pins s
  | .start p => Sys2Proof.Machine.execStart p s
  | .repeatedStart p => Sys2Proof.Machine.execRepeatedStart p s
  | .stop p => Sys2Proof.Machine.execStop p s
  | .midByteStop p => Sys2Proof.Machine.execMidByteStop p s
  | .midByteStart p => Sys2Proof.Machine.execMidByteStart p s
  | .addressByte p address dir => Sys2Proof.Machine.execAddressByte p address dir s
  | .writeByte p byte => Sys2Proof.Machine.execWriteByte p byte s
  | .drainByte p => Sys2Proof.Machine.execDrainByte p s
  | .readByteAck p answer => Sys2Proof.Machine.execReadByteAck p answer s
  | .mgmtWriteByte p byte => Sys2Proof.Machine.execMgmtWriteByte p byte s
  | .mgmtReadAck p answer => Sys2Proof.Machine.execMgmtReadAck p answer s
  | .holdExpired p => Sys2Proof.Machine.execHoldExpired p s
  | .stall p => Sys2Proof.Machine.execStall p s
  | .legOpen g lines => Sys2Proof.Machine.execLegOpen g lines s
  | .targetAck g answer => Sys2Proof.Machine.execTargetAck g answer s
  | .bytePlaced g => Sys2Proof.Machine.execBytePlaced g s
  | .deviceAck g answer => Sys2Proof.Machine.execDeviceAck g answer s
  | .readByteFetched g byte => Sys2Proof.Machine.execReadByteFetched g byte s
  | .checkByteFetched g byte => Sys2Proof.Machine.execCheckByteFetched g byte s
  | .stopPlaced g => Sys2Proof.Machine.execStopPlaced g s
  | .arbLoss g => Sys2Proof.Machine.execArbLoss g s
  | .foreignStart g kind => Sys2Proof.Machine.execForeignStart g kind s
  | .foreignStop g => Sys2Proof.Machine.execForeignStop g s
  | .clockLimitExpiry g => Sys2Proof.Machine.execClockLimitExpiry g s
  | .quietTimerExpiry g lines => Sys2Proof.Machine.execQuietTimerExpiry g lines s
  | .recoveryAttemptEnd g lines => Sys2Proof.Machine.execRecoveryAttemptEnd g lines s
  | .editLapsed => Sys2Proof.Machine.execEditLapsed s
  | .errorEntry => Sys2Proof.Machine.execErrorEntry s
  | .identify => Sys2Proof.Machine.execIdentify s
  | .getStatus => Sys2Proof.Machine.execGetStatus s
  | .readEntry => Sys2Proof.Machine.execReadEntry s
  | .readParams => Sys2Proof.Machine.execReadParams s
  | .takeNotices => Sys2Proof.Machine.execTakeNotices s
  | .openEdit => Sys2Proof.Machine.execOpenEdit s
  | .putEntry => Sys2Proof.Machine.execPutEntry s
  | .dropEntry => Sys2Proof.Machine.execDropEntry s
  | .putParam => Sys2Proof.Machine.execPutParam s
  | .commit => Sys2Proof.Machine.execCommit s
  | .abandon => Sys2Proof.Machine.execAbandon s
  | .loadBank => Sys2Proof.Machine.execLoadBank s
  | .saveBank => Sys2Proof.Machine.execSaveBank s
  | .protectBank => Sys2Proof.Machine.execProtectBank s
  | .unprotectBank svcHigh => Sys2Proof.Machine.execUnprotectBank svcHigh s
  | .segmentReset => Sys2Proof.Machine.execSegmentReset s
  | .segmentDisable => Sys2Proof.Machine.execSegmentDisable s
  | .segmentEnable => Sys2Proof.Machine.execSegmentEnable s
  | .restart pins => Sys2Proof.Machine.execRestart pins s
  | .erasingComplete => Sys2Proof.Machine.execErasingComplete s
  | .writingComplete => Sys2Proof.Machine.execWritingComplete s
  | .verifyingComplete readBack => Sys2Proof.Machine.execVerifyingComplete readBack s
  | .headerComplete => Sys2Proof.Machine.execHeaderComplete s
  | .cellWriteComplete => Sys2Proof.Machine.execCellWriteComplete s
  | .readAddressAckEnd p => Sys2Proof.Machine.execReadAddressAckEnd p s
  | .upstreamSclEdge p => Sys2Proof.Machine.execUpstreamSclEdge p s
  | .segmentLineEdge g wire high => Sys2Proof.Machine.execSegmentLineEdge g wire high s
  | .supplyLoss => Sys2Proof.Machine.execSupplyLoss s

end Sys2Proof.Machine
end

