-- ==== Sys2Proof/Safety.lean ====
section
/-!
DEFINITION. The invariants of the part, each a law the manual states, and the words the statements use for what a command leaves
unchanged and for when nothing else in the part is outstanding.
-/
namespace Sys2Proof.Machine

/-! ### Laws that hold between steps -/

/-- R14, R18: the working image passes validation under the held strap value. -/
def WorkingLaw (s : State) : Prop := validate s.strap s.working.fields = none

/-- R188, R189: the Notice Queue holds at most 32 notices, the lost counter never exceeds 255, the next sequence number and every
number in the queue lie in 1 to 0xFFFF, and the lost counter is above 0 only while the queue holds notices. -/
def NoticeLaw (s : State) : Prop :=
  s.notices.length ≤ 32 ∧ s.lost ≤ 255 ∧ (1 ≤ s.nextSeq ∧ s.nextSeq ≤ 0xFFFF)
    ∧ (∀ n ∈ s.notices, 1 ≤ n.seq ∧ n.seq ≤ 0xFFFF) ∧ (0 < s.lost → s.notices ≠ [])

/-- R154, R155: a port has at most four credits in use. -/
def CreditLaw (s : State) : Prop := ∀ p, creditsInUse s p ≤ 4

/-- R91: what the arbiter's record and the state of one segment have to do with each other. -/
def SegState.lawful (c : SegState) : Prop :=
  c.waiters.Nodup
    ∧ (∀ x, c.owner = some x → x ∉ c.waiters)
    ∧ (∀ p, c.owner = some (.port p) → c.cond = .owned)
    ∧ (c.owner = some .mgmt → c.cond = .owned ∨ c.cond = .recovering)
    ∧ (c.cond = .owned → c.owner ≠ none)

/-- R91: a segment has an owner just where its state allows one, its wait list holds each claimant at most once, and never its owner. -/
def ArbiterLaw (s : State) : Prop := ∀ g, (s.seg g).lawful

/-! ### Wait lists and claims (R31, R93, R94) -/

/-- R93: a segment that would grant a claim at once, and one that refuses every claim, has an empty wait list. -/
def WaitersServed (s : State) : Prop :=
  ∀ g, (s.seg g).free = true ∨ (s.seg g).refuses = true → (s.seg g).waiters = []

/-- R31, R94: a record waits in AWAIT_GRANT alone, for the lowest segment of its CLAIMING legs, and never below a segment it owns. -/
def WaitsInOrder (s : State) : Prop :=
  ∀ p g, .port p ∈ (s.seg g).waiters →
    (s.port p).phase = .awaitGrant ∧ g ∈ claimingSegs s p
      ∧ (∀ h ∈ claimingSegs s p, segNumber g ≤ segNumber h) ∧ ∀ h, owns s p h = true → segNumber h < segNumber g

/-- R31: once a leg has been granted, every segment still to be claimed lies above every segment owned. -/
def ClaimsInOrder (s : State) : Prop :=
  ∀ p, (s.port p).phase = .awaitGrant → activeSegs s p ≠ [] →
    ∀ g ∈ claimingSegs s p, ∀ h, owns s p h = true → segNumber h < segNumber g

/-- R22, R30, R59: while a record awaits its grants or its targets, the part holds SCL, and neither a stall timer, a data phase nor an answer
is outstanding; in ADDRESS no data phase is, and SCL is held while an answer waits. -/
def AddressPhaseLaw (s : State) : Prop :=
  ∀ p, ((s.port p).phase = .awaitGrant ∨ (s.port p).phase = .awaitTarget →
      (s.port p).sclHeld = true ∧ (s.port p).stall = none ∧ (s.port p).addrWait = none ∧ (s.port p).inFlight = none
        ∧ (s.port p).readStage = .none)
    ∧ ((s.port p).phase = .address →
      (s.port p).inFlight = none ∧ (s.port p).readStage = .none
        ∧ ((s.port p).addrWait ≠ none → (s.port p).sclHeld = true))

/-- R19, R33, R106: a leg is ACTIVE only on a segment its record owns that is not CLOSING; and a leg is ADDRESSING only while it is ACTIVE and
its record awaits grants or targets. -/
def LegsLaw (s : State) : Prop :=
  ∀ p g, (legActive s p g = true → owns s p g = true ∧ ∀ c, (s.seg g).activity ≠ some (.closing c))
    ∧ ∀ o, owns s p g = true → (s.seg g).activity = some (.addressing o) →
      legActive s p g = true ∧ ((s.port p).phase = .awaitGrant ∨ (s.port p).phase = .awaitTarget)

/-- R31, R93, R94: what the wait lists, the claims and the legs have to do with each other. -/
def WaitLaw (s : State) : Prop :=
  WaitersServed s ∧ WaitsInOrder s ∧ ClaimsInOrder s ∧ AddressPhaseLaw s ∧ LegsLaw s

/-! ### The other laws -/

/-- R12, R20: the phases in which a Transaction Record holds no snapshot. -/
def Phase.unrouted : Phase → Bool
  | .idle | .offBus | .address | .mgmtWrite | .mgmtRead => true
  | .awaitGrant | .awaitTarget | .write | .read | .drain => false

/-- R12, R20: a Transaction Record holds no snapshot in phases IDLE, OFF_BUS, ADDRESS, MGMT_WRITE and MGMT_READ. -/
def SnapshotLaw (s : State) : Prop := ∀ p, (s.port p).phase.unrouted = true → (s.port p).snapshot = none

/-- R59: each stall timer runs exactly while the rule's conditions hold. -/
def StallLaw (s : State) : Prop := ∀ p, (s.port p).stall.isSome = stallRuns s p

/-- R114: each quiet timer runs exactly while the rule's conditions hold. -/
def QuietLaw (s : State) : Prop := ∀ g, (s.seg g).quiet.isSome = (s.seg g).quietRuns

/-- The timers that run exactly while their conditions hold (R59, R114). -/
def TimersLaw (s : State) : Prop := StallLaw s ∧ QuietLaw s

/-- R138, R143, R149: an operation is in flight exactly while the Store Controller is not IDLE, a cell write exactly in CELL_WRITE, a
SAVE only on a bank whose cell is CLEAR; and a bank record's protection is its cell's value while the part runs. -/
def StoreLaw (s : State) : Prop :=
  (s.store.op = none ↔ s.store.phase = .idle)
    ∧ (∀ o, s.store.op = some o → (o.kind = .save ↔ s.store.phase ≠ .cellWrite))
    ∧ (∀ o, s.store.op = some o → o.kind = .save → (s.store.banks.get o.bank).cell = false)
    ∧ (s.run = .running → ∀ b, (s.store.records.get b).protected_ = (s.store.banks.get b).cell)

/-- R1, R124, 13.3: every table has 32 slots, and every bank image 336 bytes. -/
def TableLaw (s : State) : Prop :=
  s.working.slots.length = 32
    ∧ (∀ e, s.session = some e → e.staging.slots.length = 32)
    ∧ (∀ i, s.store.buffer = some i → i.slots.length = 32)
    ∧ ∀ b, (s.store.banks.get b).image.length = 336

/-! ### What a command leaves unchanged -/

/-- The image, the store, the edit session and the part-wide state are unchanged. -/
def KeepsImage (s t : State) : Prop :=
  t.run = s.run ∧ t.strap = s.strap ∧ t.working = s.working ∧ t.origin = s.origin ∧ t.session = s.session
    ∧ t.store = s.store ∧ t.executing = s.executing ∧ t.freeCtr = s.freeCtr ∧ t.pending = s.pending

/-- The Management Engine's queues and the lease are unchanged. -/
def KeepsQueues (s t : State) : Prop :=
  t.cmdQueue = s.cmdQueue ∧ t.segResets = s.segResets ∧ t.lease = s.lease

/-- The Notice Log is unchanged. -/
def KeepsNotices (s t : State) : Prop := t.notices = s.notices ∧ t.lost = s.lost ∧ t.nextSeq = s.nextSeq

/-- Nothing changes but the Transaction Record of one port. -/
def OnlyPort (p : Port) (s t : State) : Prop := t = { s with ports := s.ports.set p (t.ports.get p) }

/-- Nothing changes but one segment. -/
def OnlySeg (g : Seg) (s t : State) : Prop := t = { s with segs := s.segs.set g (t.segs.get g) }

/-- Nothing changes but one port's Transaction Record and the segments. -/
def OnlyPortSegs (p : Port) (s t : State) : Prop :=
  t = { s with ports := s.ports.set p (t.ports.get p), segs := t.segs }

/-- Nothing changes but one port's Transaction Record, the segments and the Notice Log. -/
def OnlyPortSegsNotices (p : Port) (s t : State) : Prop :=
  t = { s with
    ports := s.ports.set p (t.ports.get p), segs := t.segs, notices := t.notices, lost := t.lost, nextSeq := t.nextSeq }

/-- A notice has been recorded: it stands at the tail with the next number, or, on a full queue, it has been counted lost. -/
def Recorded (k : Kind) (port : Option PortPos) (seg : Option SegPos) (slot : Option Nat) (detail : Half) (s t : State) :
    Prop :=
  (s.notices.length < 32 → t.notices = s.notices ++ [⟨s.nextSeq, k, port, seg, slot, detail⟩] ∧ t.lost = s.lost)
    ∧ (¬ s.notices.length < 32 → t.notices = s.notices ∧ t.lost = if s.lost < 255 then s.lost + 1 else s.lost)
    ∧ t.nextSeq = if s.nextSeq < 0xFFFF then s.nextSeq + 1 else 1

/-! ### When nothing else is outstanding -/

/-- No claim waits in any wait list, and no port's acquisition or answer is outstanding. -/
def Uncontended (s : State) : Prop :=
  (∀ g, (s.seg g).waiters = []) ∧ ∀ p, (s.port p).addrWait = none ∧ (s.port p).phase ≠ .awaitGrant

/-- Nothing that an event sets off is still due: no refusal, grant, answer, claim or end of an acquisition. Claims may wait. -/
def Settled (s : State) : Prop := micro s = none

/-- A record with no leg ACTIVE that owns no segment. -/
def OwnsNothing (s : State) (p : Port) : Prop := activeSegs s p = [] ∧ ownedSegs s p = []

/-- The legs ACTIVE on a port are on segments it owns, each PAUSED. -/
def LegsPaused (s : State) (p : Port) : Prop :=
  ∀ g, legActive s p g = true → owns s p g = true ∧ (s.seg g).activity = some .paused

/-! ### Words for the statements -/

/-- A command completes: it answers a next state, and of that state `P` holds. -/
def After (c : Instr) (s : State) (P : State → Prop) : Prop := ∃ t, exec c s = .next t ∧ P t

/-- The part runs, a port is in a phase, and the part does not hold that port's SCL. -/
def Ready (s : State) (p : Port) (ph : Phase) : Prop :=
  s.run = .running ∧ (s.port p).phase = ph ∧ (s.port p).sclHeld = false

/-- The part runs, a segment belongs to a port, and its leg is at an activity. -/
def LegAt (s : State) (p : Port) (g : Seg) (a : Activity) : Prop :=
  s.run = .running ∧ (s.seg g).owner = some (.port p) ∧ (s.seg g).activity = some a

/-- R160, R169: the part runs, and its free executor finds this frame at the head of the Command Queue, from a port with FULL privilege, or with
READ for a command that needs no more. -/
def HeadFrame (s : State) (p : Port) (c : Command) (tag : Byte) (payload : List Byte) (rest : List QEntry) : Prop :=
  s.run = .running ∧ s.executing = none ∧ s.cmdQueue = .frame p c tag payload :: rest
    ∧ (s.working.params.priv.get p = .full ∨ s.working.params.priv.get p = .read
      ∧ c ∈ [Command.identify, .getStatus, .readEntry, .readParams, .takeNotices])

/-- The head of the Command Queue answered, its response at the tail of the issuing port's queue, and nothing else changed. -/
def answered (p : Port) (status : Status) (tag : Byte) (payload : List Byte) (rest : List QEntry) (s : State) : State :=
  { s with
    cmdQueue := rest
    ports := s.ports.set p
      { s.ports.get p with responses := (s.ports.get p).responses ++ [⟨status, tag, payload⟩] } }

/-- R70, R36, R111: how a leg's segment is closed: its STOP is to be placed, after a check byte if there is one. The clock-limit timer starts
as the SCL of a PAUSED leg is released, and goes on as it is for any other. -/
def closing (check : Option Byte) (limit : Nat) (c : SegState) : SegState :=
  { c with
    activity := some (.closing check)
    clock := if c.activity = some .paused then some limit else c.clock }

/-- The legs list with every ACTIVE leg ENDED. -/
def endedLegs (s : State) (p : Port) : List Leg :=
  (s.port p).legs.map fun l => if legActive s p l.seg then { l with state := .ended } else l

/-- R31, R36, R81: what an address phase that is given up does to the segment of an ACTIVE leg: one that waits for its fresh START is released at
once, any other places its STOP. -/
def LegGivenUp (s t : State) (h : Seg) : Prop :=
  if (s.seg h).activity = some (.addressing .waitFresh) then (t.seg h).owner = none ∧ (t.seg h).cond ≠ .owned
  else t.seg h = closing none s.working.params.clockLimit (s.seg h)

/-- R31, R81, R98: a record whose claim has been refused: NACK, DRAIN, and no leg of its address phase CLAIMING or ACTIVE any longer. -/
def ClaimRefused (s t : State) (p : Port) : Prop :=
  (t.port p).phase = .drain ∧ (t.port p).ackOut = some .nack ∧ (t.port p).sclHeld = false ∧ (t.port p).hold = none
    ∧ (t.port p).snapshot = (s.port p).snapshot ∧ (t.port p).legs.map (·.seg) = (s.port p).legs.map (·.seg)
    ∧ ∀ l ∈ (t.port p).legs, l.state = .ended ∨ l.state = .aborted

/-- R31, R95, R109: a segment granted to a record whose leg then waits to place its fresh START. -/
def Granted (s t : State) (p : Port) (g : Seg) : Prop :=
  (t.seg g).owner = some (.port p) ∧ (t.seg g).cond = .owned ∧ (t.seg g).activity = some (.addressing .waitFresh)
    ∧ (t.seg g).legSlot = (s.port p).snapshot.map (·.slot)
    ∧ (t.seg g).mode = (s.working.params.segs.get g).mode ∧ (t.seg g).speed = (s.working.params.segs.get g).speed
    ∧ legActive t p g = true

/-- R31: a record that stands in one wait list, nobody else's acquisition or answer being outstanding, its ACTIVE legs on segments it owns. -/
def WaitsAlone (s : State) (p : Port) (g : Seg) (others : List Claimant) : Prop :=
  (s.port p).phase = .awaitGrant ∧ (s.seg g).waiters = .port p :: others ∧ .port p ∉ others
    ∧ (∀ h, h ≠ g → (s.seg h).waiters = []) ∧ (∀ q, (s.port q).addrWait = none)
    ∧ (∀ q, q ≠ p → (s.port q).phase ≠ .awaitGrant)
    ∧ ∀ h, legActive s p h = true → owns s p h = true ∧ h ≠ g ∧ ∀ c, (s.seg h).activity ≠ some (.closing c)

/-- R49: whether a requested byte lies beyond the window or, under NONE, beyond the read length. -/
def requestBeyond (e : Entry) (r : PortState) : Bool :=
  (match e.window, r.pointer with
    | none, _ => false
    | some _, none => true
    | some w, some n => decide (n < w.low.toNat) || decide (w.high.toNat < n))
  || (e.check == .none && e.readLen.any fun n => decide (n < r.count + 1))

/-- Every segment with an ACTIVE leg begins a fetch, and no other changes. -/
def Fetching (s t : State) (p : Port) (what : Reading) : Prop :=
  ∀ g, t.seg g =
    if legActive s p g then
      { s.seg g with activity := some (.reading what), clock := some s.working.params.clockLimit }
    else s.seg g

/-- R49, R50, R53, R74, R75: what a read request leads to, for a record that stands as `r` when it is made: the check byte's fetch, a data byte's
fetch, or a byte beyond a bound. -/
def RequestMade (s t : State) (p : Port) (sn : Snapshot) (r : PortState) : Prop :=
  if sn.entry.check = .regen ∧ r.readRemaining = 0 then
    t.port p = { r with sclHeld := true, stall := none, sdaByte := none, readStage := .fetchingCheck }
      ∧ Fetching s t p .check ∧ OnlyPortSegs p s t
  else if requestBeyond sn.entry r = false then
    t.port p = { r with sclHeld := true, stall := none, sdaByte := none, readStage := .fetching }
      ∧ Fetching s t p .data ∧ OnlyPortSegs p s t
  else
    (t.port p).phase = .drain ∧ (t.port p).sdaByte = some 0xFF#8 ∧ (t.port p).sclHeld = false
      ∧ (t.port p).count = r.count ∧ (t.port p).pointer = r.pointer ∧ (t.port p).up = r.up
      ∧ (t.port p).snapshot = some sn ∧ (t.port p).legs = endedLegs s p
      ∧ (∀ g, t.seg g = if legActive s p g then closing none s.working.params.clockLimit (s.seg g) else s.seg g)
      ∧ Recorded .policy (some (.port p)) none (some sn.slot) 0x0005#16 s t
      ∧ OnlyPortSegsNotices p s t

/-- R8, R17, R99, R100, R104, R108, R121: what a replacement event that brings in `i` does to the segments. Waiters stay. -/
def ServiceApplied (s t : State) (i : Image) : Prop :=
  ∀ g, (t.seg g).owner = (s.seg g).owner ∧ (t.seg g).activity = (s.seg g).activity
    ∧ (t.seg g).faults = (s.seg g).faults ∧ (t.seg g).attempts = (s.seg g).attempts
    ∧ (t.seg g).waiters = (s.seg g).waiters
    ∧ (t.seg g).clock = (s.seg g).clock ∧ (t.seg g).lines = (s.seg g).lines
    ∧ (t.seg g).speed = (if (s.seg g).cond = .disabled ∧ (i.params.segs.get g).service = .inService
      then (i.params.segs.get g).speed else (s.seg g).speed)
    ∧ ((s.seg g).cond = .faulted → (t.seg g).cond = .faulted)
    ∧ ((s.seg g).cond = .owned ∨ (s.seg g).cond = .recovering →
      (t.seg g).cond = (s.seg g).cond ∧ (t.seg g).mode = (s.seg g).mode ∧ (t.seg g).foreignBusy = (s.seg g).foreignBusy
        ∧ ((i.params.segs.get g).service = .outOfService → (t.seg g).pendingDisable = true))
    ∧ ((i.params.segs.get g).service = .outOfService →
      (s.seg g).cond = .idle ∨ (s.seg g).cond = .foreign ∨ (s.seg g).cond = .disabled → (t.seg g).cond = .disabled)
    ∧ ((i.params.segs.get g).service = .inService → (t.seg g).pendingDisable = false
      ∧ ((s.seg g).cond = .disabled → (t.seg g).foreignBusy = false
        ∧ (t.seg g).newWatch = ((i.params.segs.get g).mode == .shared))
      ∧ ((s.seg g).cond = .idle ∨ (s.seg g).cond = .foreign ∨ (s.seg g).cond = .disabled →
        (t.seg g).mode = (i.params.segs.get g).mode
          ∧ (t.seg g).cond
            = if (s.seg g).cond = .foreign ∧ (i.params.segs.get g).mode = .shared then .foreign else .idle))

/-- R15: the first check that an entry of an image fails, in the rule's order; `lower` are the entries of the lower-numbered slots. -/
def entryFailure (strap : BitVec 2) (params : ParamFields) (lower : List EntryFields) (e : EntryFields) : Option Reason :=
  let outside (a : Option Addr) : Bool := a.all fun x => decide (x.toNat < 0x08) || decide (0x77 < x.toNat)
  if outside e.vaddr || outside e.target then some .reservedAddress
  else if (e.ports.all fun v => !v.u0 && !v.u1) || e.access.isNone || e.check.isNone
      || (e.writeLimit.any fun n => decide (n < 1) || decide (255 < n))
      || (e.readLen.all fun l => l.any fun n => decide (n < 1) || decide (64 < n)) then some .paramRange
  else if Seg.list.countP (e.segs.get ·) = 0 ∨ (1 < Seg.list.countP (e.segs.get ·) ∧ e.access ≠ some .write) then
    some .segmentSet
  else if (e.window.any fun w => decide (w.high < w.low)) then some .windowOrder
  else if e.check = some .regen ∧ e.access ≠ some .write ∧ e.readLen = some none then some .readLenMissing
  else if (lower.any fun f => (f.vaddr == e.vaddr) && (Port.list.any fun p =>
      (f.ports.any fun v => v.get p) && (e.ports.any fun v => v.get p))) then some .dupAddress
  else
    match params.mgmt with
    | none => none
    | some .strap => if e.vaddr = some (0x2C#7 + strap.setWidth 7) then some .mgmtConflict else none
    | some (.fixed a) => if e.vaddr = some a then some .mgmtConflict else none

/-- R16: the parameter block's first failure. -/
def paramsFailure (f : ParamFields) : Option Reason :=
  if (f.mgmt.all fun m => match m with
        | .strap => false
        | .fixed a => decide (a.toNat < 0x08) || decide (0x77 < a.toNat))
      || f.priv.u0.isNone || f.priv.u1.isNone || f.alert.u0.isNone || f.alert.u1.isNone
      || decide (f.holdLimit < 2) || decide (250 < f.holdLimit) || decide (f.stallLimit < 5) || decide (1000 < f.stallLimit)
      || decide (f.clockLimit < 1) || decide (200 < f.clockLimit) || decide (7 < f.retries)
      || decide (f.lease < 1) || decide (60 < f.lease) then some .paramRange
  else if f.holdLimit ≤ f.clockLimit then some .limitOrder
  else none

/-- The entries of an image's slots below `n`. -/
def lowerEntries (slots : List (Option EntryFields)) (n : Nat) : List EntryFields := (slots.take n).filterMap id

/-- A frame RESTART from a port with FULL privilege stands at the head of the Command Queue. -/
def restartAtHead (s : State) : Bool :=
  match s.cmdQueue with
  | .frame p .restart _ _ :: _ => s.working.params.priv.get p == .full
  | _ => false

/-- R141, R142, R185: a command is one of the three resets, with its cause. -/
def ResetTaken (c : Instr) (cause : ResetCause) (pins : ResetPins) (s : State) : Prop :=
  (c = .powerOn pins ∧ cause = .powerOn) ∨ (c = .resetLineRelease pins ∧ cause = .resetLine ∧ s.run = .held)
    ∨ (c = .restart pins ∧ cause = .restart ∧ s.run = .running ∧ s.executing = none ∧ s.store.phase = .idle
      ∧ restartAtHead s = true)

/-- R140: a bank is valid. -/
def bankValid (strap : BitVec 2) (b : BankCells) : Bool :=
  b.header.good b.image && (validate strap (imageFieldsOf b.image)).isNone

/-- What a notice tells, but for its number. -/
def Notice.told (n : Notice) : Kind × Option PortPos × Option SegPos × Option Nat × Half :=
  (n.kind, n.port, n.seg, n.slot, n.detail)

/-- R14, R142: what a load tells of a bank that it does not find valid: BANK_REJECTED with the bank, the slot and the reason of its image's first
failure when its header is good, and nothing when it is not. -/
def rejections (strap : BitVec 2) (b : Bank) (c : BankCells) :
    List (Kind × Option PortPos × Option SegPos × Option Nat × Half) :=
  if c.header.good c.image then
    match validate strap (imageFieldsOf c.image) with
    | none => []
    | some (why, slot) => [(.bankRejected, none, some (.bank b), slot, (reasonCode why).setWidth 16)]
  else []

/-- R180: the SEGMENT-RESET handed off for a segment has been answered, if there is one, and no port is answered otherwise. -/
def ResetAnswered (s t : State) (g : Seg) (r : Option SegReset) (status : Status) (payload : List Byte) : Prop :=
  match r with
  | none => t.ports = s.ports ∧ t.segResets = s.segResets
  | some x => t.ports = (answered x.port status x.tag payload [] s).ports
    ∧ t.segResets = s.segResets.filter fun y => !(y.seg == g)

/-- R36, R96: a segment after its owner's release by a closing STOP, before any waiter is granted it. -/
def released (s : State) (g : Seg) : SegState :=
  { s.seg g with
    owner := none, activity := none, legSlot := none, foreignBusy := false, newWatch := false, clock := none,
    pendingDisable := false, mode := (s.working.params.segs.get g).mode,
    cond := if (s.seg g).pendingDisable then .disabled else .idle }

/-- R19, R59: the record whose leg's closing STOP has been placed: the leg is gone, and the stall timer goes on only while the record owns another
segment. -/
def leftSegment (s : State) (p : Port) (g : Seg) : PortState :=
  { s.port p with
    legs := (s.port p).legs.filter fun l => !(l.seg == g && l.state == .ended)
    stall := if Seg.list.any (fun h => h != g && owns s p h) then (s.port p).stall else none }

/-- Every ACTIVE leg a record has on another segment is PAUSED. -/
def othersPaused (s : State) (p : Port) (g : Seg) : Bool :=
  Seg.list.all fun h => h == g || !legActive s p h || (s.seg h).activity == some .paused

/-- A record has an ACTIVE leg on another segment. -/
def othersActive (s : State) (p : Port) (g : Seg) : Bool := Seg.list.any fun h => h != g && legActive s p h

/-- The legs list with the leg on a segment ABORTED. -/
def abortedLegs (s : State) (p : Port) (g : Seg) : List Leg :=
  (s.port p).legs.map fun l => if l.seg == g then { l with state := .aborted } else l

/-- R34, R55, R56, R79: the activity at which a leg is taken from a record, with the record where that activity puts it: in AWAIT_TARGET, or, for a leg
ADDRESSING below a claim that waits, in AWAIT_GRANT. -/
def AbortMet (s : State) (p : Port) (g : Seg) (act : Activity) : Prop :=
  (s.port p).addrWait = none ∧
    match act with
    | .addressing _ =>
      legActive s p g = true
        ∧ ((s.port p).phase = .awaitTarget
            ∧ (∀ sn, (s.port p).snapshot = some sn → ∀ h, legActive s p h = true → sn.entry.segs.get h = true)
          ∨ (s.port p).phase = .awaitGrant ∧ ∃ h ∈ claimingSegs s p, h ≠ g ∧ .port p ∈ (s.seg h).waiters)
    | .writing _ _ =>
      legActive s p g = true ∧ (s.port p).phase = .write
        ∧ ∃ f, (s.port p).inFlight = some f
          ∧ (f.after = .repeatedStart → (s.port p).earlyAddr = none ∧ ∀ l ∈ (s.port p).legs, l.marked = false)
    | .reading _ => legActive s p g = true ∧ (s.port p).phase = .read
    | .paused => False
    | .closing _ => (s.port p).phase ≠ .awaitGrant

/-- R34, R79, R80: what the abort of a leg ADDRESSING does to its record. While another leg has still to answer, or a claim waits, only that leg is
ABORTED. As the last to answer it completes the join: NACK with the phase the remaining legs give. -/
def AddressAborted (s t : State) (p : Port) (g : Seg) : Prop :=
  if (s.port p).phase = .awaitTarget ∧ othersPaused s p g = true then
    (t.port p).legs = abortedLegs s p g ∧ (t.port p).ackOut = some .nack ∧ (t.port p).sclHeld = false
      ∧ (t.port p).hold = none ∧ (t.port p).snapshot = (s.port p).snapshot ∧ (t.port p).count = (s.port p).count
      ∧ (t.port p).pointer = (s.port p).pointer
      ∧ (t.port p).phase = (if othersActive s p g then (match (s.port p).dir with | .write => .write | .read => .read)
        else .drain)
  else t.port p = { s.port p with legs := abortedLegs s p g, stall := (t.port p).stall }

/-- R55, R84, R85, R88: what the abort of a leg that places the byte in flight does to its record: it counts as a NACK in the join. A byte that a
repeated START confirmed has no slot to answer in: ADDRESS follows with the legs that remain, and nothing is answered (R69; log 43). -/
def WriteAborted (s t : State) (p : Port) (g : Seg) (f : InFlight) : Prop :=
  if othersPaused s p g = false then
    t.port p = { s.port p with
      legs := abortedLegs s p g, inFlight := some { f with lost := true }, stall := (t.port p).stall }
  else if f.after = .repeatedStart then
    (t.port p).phase = .address ∧ (t.port p).isOpen = true ∧ (t.port p).snapshot = none ∧ (t.port p).inFlight = none
      ∧ (t.port p).held = none ∧ (t.port p).count = 0 ∧ (t.port p).pointer = (s.port p).pointer
      ∧ (t.port p).up = (s.port p).up ∧ (t.port p).prevSlot = (s.port p).snapshot.map (·.slot)
      ∧ (t.port p).ackOut = (s.port p).ackOut ∧ (t.port p).sclHeld = (s.port p).sclHeld
      ∧ ∀ h, legActive t p h = (legActive s p h && h != g)
  else
    (t.port p).legs = abortedLegs s p g ∧ (t.port p).ackOut = some .nack ∧ (t.port p).sclHeld = false
      ∧ (t.port p).inFlight = none ∧ (t.port p).snapshot = (s.port p).snapshot ∧ (t.port p).count = (s.port p).count
      ∧ (t.port p).pointer = (s.port p).pointer ∧ (t.port p).phase = (if othersActive s p g then .write else .drain)
      ∧ (t.port p).held = (if othersActive s p g then (match f.after with | .hold x => some x | _ => (s.port p).held)
        else none)

/-- R53, R55: what the abort of the READING leg does to its record: 0xFF for a byte awaited, nothing once the controller has ended its read, and
DRAIN with the snapshot kept. -/
def ReadAborted (s t : State) (p : Port) (g : Seg) (what : Reading) : Prop :=
  (t.port p).legs = abortedLegs s p g ∧ (t.port p).phase = .drain ∧ (t.port p).snapshot = (s.port p).snapshot
    ∧ (t.port p).count = (s.port p).count ∧ (t.port p).pointer = (s.port p).pointer
    ∧ (t.port p).ackOut = (s.port p).ackOut
    ∧ (t.port p).sdaByte = (if what = .nackClock then (s.port p).sdaByte else some 0xFF#8)
    ∧ (t.port p).sclHeld = (if what = .nackClock then (s.port p).sclHeld else false)

/-- R34, R55, R56, R79, R80, R84: what a record makes of the abort of a leg, by the leg's activity. A leg that was CLOSING is dropped with no answer. No
other segment changes, but that the snapshot of a confirmed write is discarded. -/
def AbortAnswered (s t : State) (p : Port) (g : Seg) (act : Activity) : Prop :=
  (match act with
    | .addressing _ => AddressAborted s t p g
    | .writing _ _ => ∀ f, (s.port p).inFlight = some f → WriteAborted s t p g f
    | .reading w => ReadAborted s t p g w
    | .paused => False
    | .closing _ =>
      t.port p = { s.port p with
        legs := (s.port p).legs.filter fun l => !(l.seg == g && l.state == .ended), stall := (t.port p).stall })
    ∧ ∀ h, h ≠ g →
      t.seg h =
        if (act matches .writing _ _) && ((s.port p).inFlight.any fun f => f.after == .repeatedStart)
            && othersPaused s p g && owns s p h
        then { s.seg h with legSlot := none } else s.seg h

/-- R114, R121: the edge that shows another controller's transaction on a segment whose leg, if it has one, waits to place its START: SDA falling under
a high SCL (a START), SCL falling, or, as the first SCL edge of a watch that began with SCL low at the exit from DISABLED, SCL rising (no clock-limit
timer runs while a leg waits). -/
def ForeignEdge (s : State) (g : Seg) (kind : ForeignKind) (c : Instr) : Prop :=
  ((s.seg g).activity = none ∨ (s.seg g).activity = some (.addressing .waitFresh))
    ∧ match kind with
    | .start => c = .segmentLineEdge g .sda false ∧ (s.seg g).lines.scl = true
    | .sclEdge =>
      (c = .segmentLineEdge g .scl false ∧ ((s.seg g).newWatch = true → (s.seg g).lines.scl = true))
        ∨ (c = .segmentLineEdge g .scl true ∧ (s.seg g).newWatch = true ∧ (s.seg g).lines.scl = false
          ∧ (s.seg g).clock = none)

/-- R97, R112, R113, R118: the segment as the clock limit's expiry on a leg takes it into RECOVERING: the owner none, the wait list kept. -/
def seized (s : State) (g : Seg) : SegState :=
  { s.seg g with
    owner := none, activity := none, legSlot := none, foreignBusy := false, newWatch := false, clock := none,
    quiet := none, attempts := 0, attemptLimit := some s.working.params.clockLimit,
    mode := (s.working.params.segs.get g).mode, speed := (s.working.params.segs.get g).speed,
    cond := .recovering }

/-- R1: the commands that are replacement events. -/
def replaces : Instr → Bool
  | .powerOn _ | .resetLineRelease _ | .restart _ | .commit | .loadBank => true
  | _ => false

/-- R141, R151: the commands that reach a part that is held in reset or without supply. -/
def reachesStopped : Instr → Bool
  | .powerOn _ | .resetLineLow | .resetLineRelease _ | .supplyLoss => true
  | _ => false

end Sys2Proof.Machine
end

