-- ==== Sys2Proof/Certificates/Slice0/Obligations.lean ====
section
/-!
DEFINITION. The statements about the T420 for the provers, chapter by chapter.
-/
section T420Obligations

open Sys2Proof Sys2Proof.Machine

/-! ### The queue of commands -/

/-- A step takes the command at the front of the queue and runs it on the state with the queue's rest; with none waiting the part idles
(the model's queue: log 6).
Every command of the table answers a next state, and leaves the queue of waiting commands as it is. -/
def Obligations.StepRunsFront : Prop :=
  (∀ s : State,
      (∀ c rest, s.pending = c :: rest → step s = exec c { s with pending := rest })
        ∧ (s.pending = [] → step s = .next s))
    ∧ (∀ (c : Instr) (s : State), After c s fun t => t.pending = s.pending)

/-! ### The state after reset, and the laws that hold between steps -/

/-- The values the reset columns give (R18, R41, R91, R122, R124, R143, R154, R191), for a part with no valid bank and its lines high.
Every law of Safety.lean holds right after reset.
(Where the spec leaves it open, as the model chose: log 1, 2.) -/
def Obligations.ResetState : Prop :=
  (State.reset.working = ⟨Params.default, List.replicate 32 none⟩ ∧ State.reset.origin = .edited
      ∧ (∀ p, State.reset.port p = PortState.reset ∧ creditsInUse State.reset p = 0)
      ∧ (∀ g, State.reset.seg g = SegState.reset ⟨true, true⟩)
      ∧ State.reset.session = none ∧ State.reset.lease = none
      ∧ State.reset.store.phase = .idle ∧ State.reset.store.op = none ∧ State.reset.store.buffer = none
      ∧ State.reset.store.newGeneration = none ∧ State.reset.store.originMark = false
      ∧ State.reset.store.cause = .powerOn
      ∧ State.reset.cmdQueue = [] ∧ State.reset.executing = none ∧ State.reset.segResets = []
      ∧ State.reset.notices = [⟨1, .tableEmpty, some (.cause .powerOn), none, none, 0#16⟩]
      ∧ State.reset.lost = 0 ∧ State.reset.nextSeq = 2)
    ∧ (WorkingLaw State.reset ∧ NoticeLaw State.reset ∧ CreditLaw State.reset ∧ ArbiterLaw State.reset
      ∧ WaitLaw State.reset ∧ SnapshotLaw State.reset ∧ TimersLaw State.reset ∧ StoreLaw State.reset
      ∧ TableLaw State.reset)

/-- R14, R18: the working image goes on passing validation under the held strap value. -/
def Obligations.WorkingLawKept : Prop :=
  ∀ s t : State, WorkingLaw s → step s = .next t → WorkingLaw t

/-- R188, R189, R154, R155: the bounds of the Notice Log go on holding, and no port comes to hold more than four credits.
R190: a running part drives ALERTn low exactly while the queue holds a notice and the working alert enable of its port is on. R154: with no port
above four credits, the Command Queue holds at most eight entries and a Response Queue at most four responses. -/
def Obligations.NoticeAndCreditLawsKept : Prop :=
  (∀ s t : State, step s = .next t → (NoticeLaw s → NoticeLaw t) ∧ (CreditLaw s → CreditLaw t))
    ∧ (∀ s : State, (∀ p, s.run = .running →
        (alertLow s p = true ↔ s.notices ≠ [] ∧ s.working.params.alert.get p = true))
      ∧ (CreditLaw s → s.cmdQueue.length ≤ 8 ∧ ∀ p, (s.port p).responses.length ≤ 4))

/-- R91, R105: owner, wait list and state of every segment go on fitting together.
R12, R20: the phases without a snapshot go on holding none. -/
def Obligations.ArbiterAndSnapshotLawsKept : Prop :=
  ∀ s t : State, step s = .next t → (ArbiterLaw s → ArbiterLaw t) ∧ (SnapshotLaw s → SnapshotLaw t)

/-- R31, R93, R94: a segment that grants at once or refuses goes on having no waiter; a record goes on waiting for one segment at most, the lowest
it has still to claim and above every one it owns; and legs, activities and the address phase go on fitting together.
(Where the spec leaves it open, as the model chose: log 13, 14, 15.) -/
def Obligations.WaitLawKept : Prop :=
  ∀ s t : State, ArbiterLaw s → WaitLaw s → step s = .next t → WaitLaw t

/-- R59, R114: stall and quiet timers go on running exactly while their conditions hold. -/
def Obligations.TimersLawKept : Prop :=
  ∀ s t : State, TimersLaw s → step s = .next t → TimersLaw t

/-- R138, R143, R149: the laws of the store and of the tables go on holding. -/
def Obligations.StoreLawKept : Prop :=
  ∀ s t : State, StoreLaw s → TableLaw s → step s = .next t → StoreLaw t ∧ TableLaw t

/-- R149: no command changes the image or the header of a bank whose protection cell is SET.
R1, R10: between replacement events the working image does not change, and its origin only at the end of a SAVE.
(Where the spec leaves it open, as the model chose: log 9, for what RESET_LINE_LOW and SUPPLY_LOSS leave until the next load.) -/
def Obligations.StoredAndWorkingImagesKept : Prop :=
  ∀ (s t : State) (c : Instr), exec c s = .next t →
    (∀ b, StoreLaw s → (s.store.banks.get b).cell = true →
      (t.store.banks.get b).image = (s.store.banks.get b).image
        ∧ (t.store.banks.get b).header = (s.store.banks.get b).header)
      ∧ (replaces c = false →
        t.working = s.working ∧ t.strap = s.strap ∧ (c ≠ .headerComplete → t.origin = s.origin))

/-! ### Resets (R18, R41, R104, R122, R124, R142, R143, R168, R191) -/

/-- Each of the three resets leaves the part running with every block at its reset values, and each segment as R122 says.
(Where the spec leaves it open, as the model chose: log 41, for a POWER_ON of a part that its RESET line held.) -/
def Obligations.ResetClears : Prop :=
  ∀ (c : Instr) (cause : ResetCause) (pins : ResetPins) (s : State), ResetTaken c cause pins s →
    After c s fun t =>
      t.run = .running ∧ t.strap = BitVec.ofBool pins.adsel1 ++ BitVec.ofBool pins.adsel0
        ∧ (∀ p, t.port p = PortState.reset)
        ∧ (∀ g, t.seg g = { SegState.reset (pins.lines.get g) with
            mode := (t.working.params.segs.get g).mode
            speed := (t.working.params.segs.get g).speed
            cond := if (t.working.params.segs.get g).service = .outOfService then .disabled
              else if (pins.lines.get g).bothHigh then .idle else .recovering
            attemptLimit := (t.seg g).attemptLimit })
        ∧ t.session = none ∧ t.lease = none
        ∧ t.cmdQueue = [] ∧ t.executing = none ∧ t.segResets = []
        ∧ t.store.phase = .idle ∧ t.store.op = none ∧ t.store.buffer = none ∧ t.store.newGeneration = none
        ∧ t.store.originMark = false ∧ t.store.cause = cause
        ∧ t.lost = 0 ∧ t.nextSeq = t.notices.length + 1 ∧ 1 ≤ t.notices.length ∧ t.notices.length ≤ 3
        ∧ t.notices.map (·.seq) = (List.range t.notices.length).map (· + 1)

/-- R142, R18: with no operation in flight, each reset reads both banks and loads the valid bank with the higher generation, or the
empty table with default parameters, and the last notice says which.
R14, R18, R142, R187: before it stands BANK_REJECTED, for A and then for B, of each bank whose header is good and whose image fails, with the bank, the
slot and the reason of the first failure, and nothing else.
(Where the spec leaves it open, as the model chose: log 38, for two valid banks of one generation; log 41, for a POWER_ON of a part that its RESET
line held.) -/
def Obligations.ResetLoads : Prop :=
  ∀ (c : Instr) (cause : ResetCause) (pins : ResetPins) (s : State), ResetTaken c cause pins s → s.store.op = none →
    After c s fun t =>
      t.store.banks = s.store.banks
        ∧ (∀ b, (t.store.records.get b).valid = bankValid t.strap (s.store.banks.get b)
          ∧ (t.store.records.get b).protected_ = (s.store.banks.get b).cell
          ∧ (t.store.records.get b).generation
            = if (s.store.banks.get b).header.good (s.store.banks.get b).image
              then some (s.store.banks.get b).header.generation.toNat else none)
        ∧ t.notices.dropLast.map Notice.told
          = rejections t.strap .bankA (s.store.banks.get .bankA) ++ rejections t.strap .bankB (s.store.banks.get .bankB)
        ∧ ((∀ b, bankValid t.strap (s.store.banks.get b) = false) →
          t.working = ⟨Params.default, List.replicate 32 none⟩ ∧ t.origin = .edited
            ∧ t.notices.getLast? = some ⟨t.notices.length, .tableEmpty, some (.cause cause), none, none, 0#16⟩)
        ∧ ∀ b, bankValid t.strap (s.store.banks.get b) = true →
          (∀ b', b' ≠ b → bankValid t.strap (s.store.banks.get b') = true →
            (s.store.banks.get b').header.generation.toNat < (s.store.banks.get b).header.generation.toNat) →
          t.working = (imageFieldsOf (s.store.banks.get b).image).toImage
            ∧ t.origin = .bank b (s.store.banks.get b).header.generation.toNat
            ∧ t.notices.getLast? = some ⟨t.notices.length, .tableLoaded, some (.cause cause), some (.bank b), none,
                (s.store.banks.get b).header.generation.setWidth 16⟩

/-- R141: a part that is held in reset, or without supply, takes nothing but what changes its supply and its RESET line (log 5).
R141, R151, R191: the RESET line low, and the loss of supply, leave every block at its reset values with nothing driven; the bank records and the last
reset cause stand until the next load.
R151, R145, R194: what an interrupted store operation leaves, whatever the free values are. A SAVE's target has no good header and its cell
unchanged: the header is erased in WRITING and VERIFYING, and in HEADER it holds the new generation and image check as soon as its marker is not
the erased one. A cell write leaves the old or the new value, and the other bank is untouched.
(Where the spec leaves it open, as the model chose: log 5, 7, 9.) -/
def Obligations.StoppedPart : Prop :=
  (∀ (s : State) (c : Instr), (s.run ≠ .running → reachesStopped c = false → exec c s = .next s)
      ∧ (c = .resetLineLow ∧ s.run ≠ .off ∨ c = .supplyLoss →
        After c s fun t =>
          t.run = (if c = .supplyLoss then .off else .held)
            ∧ (∀ p, t.port p = PortState.reset ∧ alertLow t p = false)
            ∧ (∀ g, t.seg g = SegState.reset (s.seg g).lines)
            ∧ t.session = none ∧ t.lease = none ∧ t.cmdQueue = [] ∧ t.executing = none ∧ t.segResets = []
            ∧ t.notices = [] ∧ t.lost = 0 ∧ t.nextSeq = 1
            ∧ t.store.phase = .idle ∧ t.store.op = none ∧ t.store.buffer = none ∧ t.store.newGeneration = none
            ∧ t.store.originMark = false ∧ t.store.records = s.store.records ∧ t.store.cause = s.store.cause))
    ∧ (∀ (s : State) (c : Instr) (o : StoreOp), c = .resetLineLow ∧ s.run ≠ .off ∨ c = .supplyLoss → StoreLaw s →
      s.store.op = some o →
      After c s fun t =>
        (∀ b, b ≠ o.bank → t.store.banks.get b = s.store.banks.get b)
          ∧ (o.kind = .save → (t.store.banks.get o.bank).header.good (t.store.banks.get o.bank).image = false
            ∧ (t.store.banks.get o.bank).cell = (s.store.banks.get o.bank).cell
            ∧ (s.store.phase = .writing ∨ s.store.phase = .verifying →
              (t.store.banks.get o.bank).header = ⟨0xFFFF#16, 0xFFFFFFFF#32, 0xFFFF#16⟩)
            ∧ (s.store.phase = .verifying ∨ s.store.phase = .header →
              (t.store.banks.get o.bank).image = (s.store.banks.get o.bank).image)
            ∧ (s.store.phase = .header → ∀ i n, s.store.buffer = some i → s.store.newGeneration = some n →
              (t.store.banks.get o.bank).header.marker = 0xFFFF#16
                ∨ ((t.store.banks.get o.bank).header.generation = BitVec.ofNat 32 n
                  ∧ (t.store.banks.get o.bank).header.check = crc16List i.bytes)))
          ∧ (o.kind ≠ .save → (t.store.banks.get o.bank).image = (s.store.banks.get o.bank).image
            ∧ (t.store.banks.get o.bank).header = (s.store.banks.get o.bank).header
            ∧ ((t.store.banks.get o.bank).cell = (s.store.banks.get o.bank).cell
              ∨ (t.store.banks.get o.bank).cell = decide (o.kind = .protect))))

/-! ### Check values (R62) -/

/-- R62: how a byte is taken into a check value, and the two reference values.
R139, R194: how a byte of a bank image is taken into the image check, its start and its reference value; a header is good just when its marker, its
generation and its image check are, an erased one is not, and a bank without a good header is not valid. -/
def Obligations.CheckValue : Prop :=
  ((∀ v b : Byte, crc8 v b = Nat.iterate
      (fun x : Byte => if x.getLsbD 7 then (x <<< 1) ^^^ 0x2F#8 else x <<< 1) 8 (v ^^^ b))
    ∧ crc8Start = 0xFF#8 ∧ crc8 0xFF#8 0x90#8 = 0x0F#8 ∧ crc8 0xFF#8 0x82#8 = 0xFF#8)
    ∧ ((∀ (v : Half) (b : Byte), crc16 v b = Nat.iterate
        (fun x : Half => if x.getLsbD 15 then (x <<< 1) ^^^ 0x1021#16 else x <<< 1) 8 (v ^^^ (b ++ 0x00#8)))
      ∧ (∀ bs : List Byte, crc16List bs = bs.foldl crc16 0xFFFF#16)
      ∧ crc16List [0x31#8, 0x32#8, 0x33#8, 0x34#8, 0x35#8, 0x36#8, 0x37#8, 0x38#8, 0x39#8] = 0x29B1#16
      ∧ (∀ (h : Header) (image : List Byte), h.good image = true ↔
        h.marker = 0x7E42#16 ∧ h.generation ≠ 0x00000000#32 ∧ h.generation ≠ 0xFFFFFFFF#32
          ∧ h.check = crc16List image)
      ∧ Header.erased = ⟨0xFFFF#16, 0xFFFFFFFF#32, 0xFFFF#16⟩ ∧ (∀ image, Header.erased.good image = false)
      ∧ ∀ (strap : BitVec 2) (b : BankCells), b.header.good b.image = false → bankValid strap b = false)

/-! ### Conditions upstream (R21 to R24, R37, R54, R57, R58) -/

/-- R21, R23, R59: a START with the open mark clear is fresh: the record takes its "At START" values and enters ADDRESS; legs still closing
stay, and the stall timer runs while their segments are owned.
(Where the spec leaves it open, as the model chose: log 10.) -/
def Obligations.FreshStart : Prop :=
  ∀ (s : State) (p : Port) (c : Instr), c = .start p ∨ c = .repeatedStart p ∨ c = .midByteStart p → s.run = .running →
    (s.port p).sclHeld = false → (s.port p).isOpen = false → TimersLaw s →
    exec c s = .next (s.updPort p fun r =>
      { r with
        phase := .address, isOpen := true, snapshot := none, legs := keptLegs s p, count := 0, pointer := none,
        prevSlot := none, up := 0xFF#8, held := none, readRemaining := 0, hold := none,
        stall := if (ownedSegs s p).isEmpty then none else some s.working.params.stallLimit,
        inFlight := none, readStage := .none, addrWait := none, earlyAddr := none, sdaByte := none })

/-- R37, R25, R58: a repeated START where the phase owes it nothing, a START inside an address byte or inside a byte in OFF_BUS or DRAIN among them,
with no notice: ADDRESS is entered, the check value and the offset pointer stand, the snapshot's
slot is remembered, and ACTIVE legs and their segments are kept.
(Where the spec leaves it open, as the model chose: log 10.) -/
def Obligations.RepeatedStart : Prop :=
  ∀ (s : State) (p : Port) (c : Instr),
    c = .start p ∨ c = .repeatedStart p ∨ c = .midByteStart p ∧ (s.port p).phase ≠ .write → s.run = .running →
    (s.port p).sclHeld = false → (s.port p).isOpen = true → (s.port p).earlyAddr = none → TimersLaw s →
    (s.port p).phase = .offBus ∨ (s.port p).phase = .address ∨ (s.port p).phase = .drain
      ∨ ((s.port p).phase = .write ∧ (s.port p).held = none ∧ (s.port p).inFlight = none) →
    (∀ l ∈ (s.port p).legs, l.marked = false) →
    After c s fun t =>
      t.port p = { s.port p with
          phase := .address, isOpen := true, snapshot := none, legs := keptLegs s p, count := 0,
          prevSlot := (s.port p).snapshot.map (·.slot), held := none, inFlight := none, readStage := .none,
          addrWait := none, sdaByte := none, stall := (t.port p).stall }
        ∧ (∀ g, t.seg g = if owns s p g then { s.seg g with legSlot := none } else s.seg g)
        ∧ OnlyPortSegs p s t

/-- R37, R51, R52, R54, R63, R76, R24: a read that a STOP or a START ends: while a byte is supplied, while the check byte is, and after the controller's
NACK, also inside the device's NACK clock. The condition in place of the acknowledge of a supplied byte counts that byte, moves the pointer of a
windowed read, and takes the byte into the upstream value unless its eighth bit has; the leg is ended, its segment placing a STOP. A condition that
comes when some of the byte's edges have been told and not all, in its first bit, finds no byte to count (log 11).
(Where the spec leaves it open, as the model chose: log 10, 11, 16, 17, 39.) -/
def Obligations.ReadEndedByCondition : Prop :=
  ∀ (s : State) (p : Port) (g : Seg) (l : Leg) (act : Activity) (sn : Snapshot), Ready s p .read →
    (s.port p).isOpen = true →
    (s.port p).earlyAddr = none → (s.port p).snapshot = some sn → TimersLaw s → (s.port p).legs = [l] → l.seg = g →
    l.state = .active → LegAt s p g act → (∀ h, h ≠ g → owns s p h = false) →
    (match (s.port p).readStage with
      | .supplying _ _ => act == .paused
      | .supplyingCheck _ => act == .paused && l.marked
      | .fill => (act == .paused || act == .reading .nackClock) && l.marked
      | .none | .addressAcked | .fetching | .fetchingCheck => false) = true →
    ∀ c, c = .stop p ∨ c = .repeatedStart p ∨ c = .start p → After c s fun t =>
      (t.port p).phase = (if c = .stop p then .idle else .address)
        ∧ (t.port p).isOpen = (if c = .stop p then false else true)
        ∧ (t.port p).snapshot = none ∧ (t.port p).count = 0
        ∧ (t.port p).pointer = (if c = .stop p then none
            else match (s.port p).readStage with
              | .supplying _ n => if (n = 0 ∨ 16 ≤ n) ∧ sn.entry.window ≠ none then (s.port p).pointer.map (· + 1)
                else (s.port p).pointer
              | _ => (s.port p).pointer)
        ∧ (t.port p).up = (match (s.port p).readStage with
            | .supplying b n => if n = 0 then crc8 (s.port p).up b else (s.port p).up
            | _ => (s.port p).up)
        ∧ (t.port p).legs = [{ l with state := .ended, marked := true }]
        ∧ t.seg g = { closing none s.working.params.clockLimit (s.seg g) with legSlot := none }
        ∧ OnlyPortSegs p s t ∧ (∀ h, h ≠ g → t.seg h = s.seg h)

/-- R24: a STOP closes the transaction: ACTIVE legs are ended with a STOP on their segments, and the record enters IDLE. R24, R57: so does a STOP inside
an address byte, or inside a byte in OFF_BUS or DRAIN, with no notice; in IDLE a STOP changes nothing.
R70, R71, R89: a STOP with a byte held: equal to the upstream value, each ACTIVE leg is handed its own downstream value as the check byte;
different, its complement, with CHECK_UPSTREAM. The record enters IDLE.
(Where the spec leaves it open, as the model chose: log 16, 22, 36.) -/
def Obligations.StopCloses : Prop :=
  (∀ (s : State) (p : Port), s.run = .running → (s.port p).sclHeld = false → TimersLaw s → LegsPaused s p →
    (s.port p).phase = .offBus ∨ (s.port p).phase = .address ∨ (s.port p).phase = .drain
      ∨ ((s.port p).phase = .write ∧ (s.port p).held = none) →
    ∀ c, c = .stop p ∨ c = .midByteStop p ∧ (s.port p).phase ≠ .write → After c s fun t =>
      t.port p = { s.port p with
          phase := .idle, isOpen := false, snapshot := none, legs := endedLegs s p, count := 0, pointer := none,
          prevSlot := none, held := none, hold := none, stall := none, inFlight := none, readStage := .none,
          addrWait := none, earlyAddr := none, sdaByte := none }
        ∧ (∀ g, t.seg g =
          if legActive s p g then { closing none s.working.params.clockLimit (s.seg g) with legSlot := none }
          else if owns s p g then { s.seg g with legSlot := none } else s.seg g)
        ∧ OnlyPortSegs p s t)
    ∧ (∀ (s : State) (p : Port) (h : Byte), Ready s p .write → (s.port p).held = some h → TimersLaw s → LegsPaused s p →
      After (.stop p) s fun t =>
        (t.port p).phase = .idle ∧ (t.port p).isOpen = false ∧ (t.port p).snapshot = none ∧ (t.port p).held = none
          ∧ (t.port p).legs = endedLegs s p
          ∧ (∀ g l, legActive s p g = true → legOn s p g = some l →
            t.seg g =
              { closing (some (if h = (s.port p).up then l.down else ~~~ l.down)) s.working.params.clockLimit
                  (s.seg g) with legSlot := none })
          ∧ (∀ g, legActive s p g = false → owns s p g = false → t.seg g = s.seg g)
          ∧ (h = (s.port p).up → KeepsNotices s t)
          ∧ (h ≠ (s.port p).up →
            Recorded .checkUpstream (some (.port p)) none ((s.port p).snapshot.map (·.slot)) (h ++ (s.port p).up) s t)
          ∧ OnlyPortSegsNotices p s t)
    ∧ (∀ (s : State) (p : Port) (c : Instr), c = .stop p ∨ c = .midByteStop p → s.run = .running →
      (s.port p).phase = .idle → TimersLaw s → exec c s = .next s)

/-- R57: a STOP inside a byte of a data phase ends the transaction with UP_BUS_ERROR, detail STOP, every ACTIVE leg being ended.
R58, R73, R76: a START inside a byte of a data phase is a repeated START with UP_BUS_ERROR, detail START. A write without a held byte keeps its
legs; with a byte held that byte is discarded and every leg is ended; a read's leg is ended, marked for STOP already or not. (Conditions inside a byte of the other phases: RepeatedStart, StopCloses, FreshStart,
MgmtWrite and MgmtRead.)
(Where the spec leaves it open, as the model chose: log 11, 16, 20.) -/
def Obligations.MidByteConditions : Prop :=
  (∀ (s : State) (p : Port) (ph : Phase), ph = .write ∨ ph = .read → Ready s p ph → (s.port p).inFlight = none →
      TimersLaw s → LegsPaused s p →
      After (.midByteStop p) s fun t =>
        (t.port p).phase = .idle ∧ (t.port p).isOpen = false ∧ (t.port p).snapshot = none ∧ (t.port p).pointer = none
          ∧ (t.port p).held = none ∧ (t.port p).legs = endedLegs s p ∧ (t.port p).up = (s.port p).up
          ∧ Recorded .upBusError (some (.port p)) none ((s.port p).snapshot.map (·.slot)) 0x0002#16 s t
          ∧ (∀ g, t.seg g =
            if legActive s p g then { closing none s.working.params.clockLimit (s.seg g) with legSlot := none }
            else if owns s p g then { s.seg g with legSlot := none } else s.seg g)
          ∧ OnlyPortSegsNotices p s t)
    ∧ (∀ (s : State) (p : Port) (ph : Phase) (ends : Bool), ph = .write ∨ ph = .read → Ready s p ph →
      ends = (ph == .read || (s.port p).held.isSome) → (s.port p).inFlight = none → (s.port p).isOpen = true →
      (s.port p).earlyAddr = none → TimersLaw s → LegsPaused s p →
      (ends = false → ∀ l ∈ (s.port p).legs, l.marked = false) →
      After (.midByteStart p) s fun t =>
        (t.port p).phase = .address ∧ (t.port p).isOpen = true ∧ (t.port p).snapshot = none ∧ (t.port p).count = 0
          ∧ (t.port p).held = none ∧ (t.port p).pointer = (s.port p).pointer ∧ (t.port p).up = (s.port p).up
          ∧ (t.port p).prevSlot = (s.port p).snapshot.map (·.slot)
          ∧ Recorded .upBusError (some (.port p)) none ((s.port p).snapshot.map (·.slot)) 0x0001#16 s t
          ∧ (ends = false → (t.port p).legs = keptLegs s p)
          ∧ (ends = true → activeSegs t p = [])
          ∧ (∀ g, t.seg g =
            if legActive s p g && ends then
              { closing none s.working.params.clockLimit (s.seg g) with legSlot := none }
            else if owns s p g then { s.seg g with legSlot := none } else s.seg g)
          ∧ OnlyPortSegsNotices p s t)

/-- R69, R67: a repeated START in WRITE with a byte held: the byte is judged as data. One that passes goes to every ACTIVE leg, ADDRESS being entered
when the last of them has completed it; one that fails reaches no leg, every leg is ended, POLICY is recorded, and ADDRESS is entered at once.
R11, R25, R37: an address byte that comes while the confirmation is on the segments is looked up in the image that then stands, and waits
with SCL held.
(Where the spec leaves it open, as the model chose: log 10, 13, 16.) -/
def Obligations.ConfirmationBegins : Prop :=
  (∀ (s : State) (p : Port) (h : Byte) (sn : Snapshot), Ready s p .write → (s.port p).isOpen = true →
      (s.port p).earlyAddr = none → (s.port p).inFlight = none →
      (s.port p).held = some h → (s.port p).snapshot = some sn → TimersLaw s → LegsPaused s p →
      ∀ c, c = .repeatedStart p ∨ c = .start p →
      (judge sn.entry (s.port p).count (s.port p).pointer h = none →
        After c s fun t =>
          t.port p = { s.port p with held := none, inFlight := some ⟨h, false, false, .repeatedStart⟩ }
            ∧ (∀ g, t.seg g =
              if legActive s p g then
                { s.seg g with activity := some (.writing h false), clock := some s.working.params.clockLimit }
              else s.seg g)
            ∧ OnlyPortSegs p s t)
        ∧ ∀ why, judge sn.entry (s.port p).count (s.port p).pointer h = some why →
          After c s fun t =>
            (t.port p).phase = .address ∧ (t.port p).isOpen = true ∧ (t.port p).snapshot = none
              ∧ (t.port p).held = none ∧ (t.port p).inFlight = none ∧ (t.port p).count = 0
              ∧ (t.port p).pointer = (s.port p).pointer ∧ (t.port p).up = (s.port p).up
              ∧ (t.port p).prevSlot = some sn.slot ∧ (t.port p).ackOut = (s.port p).ackOut
              ∧ (∀ g, legActive t p g = false)
              ∧ (∀ g, t.seg g =
                if legActive s p g then { closing none s.working.params.clockLimit (s.seg g) with legSlot := none }
                else if owns s p g then { s.seg g with legSlot := none } else s.seg g)
              ∧ Recorded .policy (some (.port p)) none (some sn.slot) (policyCode why) s t
              ∧ OnlyPortSegsNotices p s t)
    ∧ (∀ (s : State) (p : Port) (a : Addr) (d : Dir) (management : Bool) (found : Option Snapshot), Ready s p .write →
      (s.port p).inFlight.isSome = true → TimersLaw s →
      management = (a == effectiveMgmt s.strap s.working.params.mgmt && s.working.params.priv.get p != .none) →
      found = lookup s.working.slots p a →
      exec (.addressByte p a d) s = .next (s.updPort p fun r =>
        { r with
          sclHeld := true, stall := none,
          earlyAddr := some ⟨a, d, if management then .management
            else match found with | none => .missed | some sn => .matched sn⟩ }))

/-- R69, R37, R84: the last leg completes a byte that a repeated START confirmed. ADDRESS is entered with the legs that ACKed it; a leg that NACKed is
ended with a STOP; nothing is answered upstream and no notice recorded.
R11, R25, R30, R38, R39: an address byte that came before it is then decided, by what it was found to be in the image that stood at it, whatever
stands now, and by the offset pointer as the confirmation has left it. An entry with another segment set is one that names a segment, as every
entry of a valid table does.
(Where the spec leaves it open, as the model chose: log 12, 13, 15, 16.) -/
def Obligations.ConfirmationJoined : Prop :=
  (∀ (s : State) (p : Port) (g : Seg) (b : Byte) (answer : Ack) (f : InFlight) (sn : Snapshot),
      LegAt s p g (.writing b true) → (s.port p).phase = .write → (s.port p).inFlight = some f →
      f.after = .repeatedStart → (s.port p).snapshot = some sn → (s.port p).earlyAddr = none → TimersLaw s →
      legActive s p g = true → (∀ h, legActive s p h = true → h ≠ g → (s.seg h).activity = some .paused) →
      (∀ l ∈ (s.port p).legs, l.marked = false) →
      After (.deviceAck g answer) s fun t =>
        (t.port p).phase = .address ∧ (t.port p).isOpen = true ∧ (t.port p).snapshot = none
          ∧ (t.port p).inFlight = none ∧ (t.port p).held = none ∧ (t.port p).count = 0
          ∧ (t.port p).pointer = (s.port p).pointer ∧ (t.port p).up = (s.port p).up
          ∧ (t.port p).prevSlot = some sn.slot ∧ (t.port p).ackOut = (s.port p).ackOut
          ∧ (t.port p).sclHeld = (s.port p).sclHeld
          ∧ (∀ h, legActive t p h = (legActive s p h && (h != g || answer == .ack)))
          ∧ t.seg g = (match answer with
            | .ack => { s.seg g with activity := some .paused, clock := none, legSlot := none }
            | .nack => { s.seg g with
                activity := some (.closing none), clock := some s.working.params.clockLimit, legSlot := none })
          ∧ (∀ h, h ≠ g → t.seg h = if owns s p h then { s.seg h with legSlot := none } else s.seg h)
          ∧ OnlyPortSegs p s t)
    ∧ (∀ (s : State) (p : Port) (g : Seg) (b : Byte) (answer : Ack) (f : InFlight) (sn : Snapshot) (e : EarlyAddr),
      LegAt s p g (.writing b true) → (s.port p).phase = .write → (s.port p).inFlight = some f →
      f.after = .repeatedStart → (s.port p).snapshot = some sn → (s.port p).earlyAddr = some e →
      (s.port p).sclHeld = true → Uncontended s → TimersLaw s → legActive s p g = true →
      (∀ h, legActive s p h = true → owns s p h = true ∧ (h ≠ g → (s.seg h).activity = some .paused)) →
      (∀ l ∈ (s.port p).legs, l.marked = false ∧ l.state ≠ .claiming) →
      ∀ kept, kept = (activeSegs s p).filter (fun h => h != g || answer == .ack) → After (.deviceAck g answer) s fun t =>
        (t.port p).dir = e.dir ∧ (t.port p).count = 0 ∧ (t.port p).earlyAddr = none ∧ (t.port p).inFlight = none
          ∧ (t.port p).sclHeld = true ∧ (t.port p).stall = none ∧ (t.port p).ackOut = (s.port p).ackOut
          ∧ (t.port p).up = crc8 (s.port p).up (match e.dir with | .write => e.addr ++ 0#1 | .read => e.addr ++ 1#1)
          ∧ OnlyPortSegs p s t
          ∧ (∀ w, decideFound { s.port p with prevSlot := some sn.slot } e.addr e.dir e.found = .wait w →
            (t.port p).phase = .address ∧ (t.port p).addrWait = some w ∧ (t.port p).pointer = none
              ∧ (t.port p).snapshot = none ∧ (∀ h, legActive t p h = false)
              ∧ ∀ h, legActive s p h = true → (t.seg h).activity = some (.closing none))
          ∧ (∀ sn', decideFound { s.port p with prevSlot := some sn.slot } e.addr e.dir e.found = .routed sn' →
            (t.port p).snapshot = some sn' ∧ (t.port p).hold = some s.working.params.holdLimit
              ∧ (t.port p).pointer = (if sn'.slot = sn.slot then (s.port p).pointer else none)
              ∧ (kept ≠ [] → PerSeg.members sn'.entry.segs = kept →
                (t.port p).phase = .awaitTarget ∧ (∀ h, legActive t p h = true ↔ h ∈ kept)
                  ∧ ∀ h ∈ kept, (t.seg h).activity = some (.addressing .waitRepeated)
                    ∧ (t.seg h).clock = some s.working.params.clockLimit ∧ (t.seg h).legSlot = some sn'.slot)
              ∧ (PerSeg.members sn'.entry.segs ≠ [] → kept = [] ∨ PerSeg.members sn'.entry.segs ≠ kept →
                (t.port p).phase = .awaitGrant ∧ (∀ h, legActive t p h = false)
                  ∧ claimingSegs t p = PerSeg.members sn'.entry.segs
                  ∧ ∀ h, legActive s p h = true → (t.seg h).activity = some (.closing none))))

/-! ### The address phase (R11, R25 to R39) -/

/-- R11, R14: in a working table that passes validation, the lookup finds the one entry whose port set and virtual address match, and
misses when there is none.
R25: the order of an address byte's decision: the management address of a port whose privilege is not NONE, a miss, a direction the
access does not allow, a windowed read without a pointer, and else routed. -/
def Obligations.AddressDecision : Prop :=
  (∀ (s : State) (p : Port) (a : Addr), WorkingLaw s →
      (∀ (n : Nat) (e : Entry), s.working.slots[n]? = some (some e) → e.ports.get p = true → e.vaddr = a →
        lookup s.working.slots p a = some ⟨n, e⟩)
        ∧ ((∀ (n : Nat) (e : Entry), s.working.slots[n]? = some (some e) → e.ports.get p = true → e.vaddr ≠ a) →
          lookup s.working.slots p a = none))
    ∧ (∀ (s : State) (p : Port) (a : Addr) (d : Dir) (management : Bool) (pointer : Option Nat) (found : Option Snapshot),
      management = (a == effectiveMgmt s.strap s.working.params.mgmt && s.working.params.priv.get p != .none) →
      found = lookup s.working.slots p a →
      pointer = (match found with
        | none => none
        | some sn => if (s.port p).prevSlot = some sn.slot then (s.port p).pointer else none) →
      (management = true → d = .write → decide25 s p a d = .wait (.mgmtWrite (a ++ 0#1)))
        ∧ (management = true → d = .read → decide25 s p a d = .wait (.mgmtRead (a ++ 1#1)))
        ∧ (management = false → found = none → decide25 s p a d = .wait .miss)
        ∧ (management = false → ∀ n e, found = some ⟨n, e⟩ →
          ((d = .read ∧ e.access = .write ∨ d = .write ∧ e.access = .read) → decide25 s p a d = .wait (.denied n))
            ∧ ((d = .read ∧ e.access ≠ .write ∨ d = .write ∧ e.access ≠ .read) →
              ((d = .read ∧ e.window.isSome = true ∧ pointer = none) → decide25 s p a d = .wait (.noOffset n))
                ∧ (¬(d = .read ∧ e.window.isSome = true ∧ pointer = none) → decide25 s p a d = .routed ⟨n, e⟩))))

/-- R26, R155, R163: the management address on a port that owns no segment: a write is ACKed into MGMT_WRITE with a credit taken, or NACKed
into OFF_BUS with none free; a read is ACKed into MGMT_READ with the head response, or the EMPTY frame, at its first byte.
R27, R28, R29: an address byte decided as a miss or a refusal, on a port that owns no segment: NACK, and OFF_BUS, or DRAIN with
ACCESS_DENIED or POLICY NO_OFFSET naming the matched slot. The pointer is cleared; no segment is claimed. -/
def Obligations.AddressAnswered : Prop :=
   (∀ (s : State) (p : Port) (a : Addr) (d : Dir), Ready s p .address → isManagement s p a = true → Uncontended s →
      OwnsNothing s p → TimersLaw s →
      (d = .write → creditFree s p = true → exec (.addressByte p a d) s = .next (s.updPort p fun r =>
        { r with
          phase := .mgmtWrite, snapshot := none, dir := d, count := 0, held := none, prevSlot := none, pointer := none,
          earlyAddr := none, up := crc8 r.up (a ++ 0#1), assembler := some ⟨[], crc8 0xFF#8 (a ++ 0#1), false, false⟩,
          ackOut := some .ack, stall := none }))
        ∧ (d = .write → creditFree s p = false → exec (.addressByte p a d) s = .next (s.updPort p fun r =>
          { r with
            phase := .offBus, snapshot := none, dir := d, count := 0, held := none, prevSlot := none, pointer := none,
            earlyAddr := none, up := crc8 r.up (a ++ 0#1), ackOut := some .nack, stall := none }))
        ∧ (d = .read → exec (.addressByte p a d) s = .next (s.updPort p fun r =>
          { r with
            phase := .mgmtRead, snapshot := none, dir := d, count := 0, held := none, prevSlot := none, pointer := none,
            earlyAddr := none, up := crc8 r.up (a ++ 1#1),
            readPos := some ⟨r.responses.head?.getD ⟨.empty, 0#8, []⟩, r.responses.isEmpty, 0, 0, crc8 0xFF#8 (a ++ 1#1),
              false, false⟩,
            sdaByte := some (statusCode (r.responses.head?.getD ⟨.empty, 0#8, []⟩).status),
            ackOut := some .ack, stall := none })))
    ∧ (∀ (s : State) (p : Port) (a : Addr) (d : Dir) (w : AddrWait), Ready s p .address → decide25 s p a d = .wait w →
      (w = .miss ∨ (∃ n, w = .denied n) ∨ ∃ n, w = .noOffset n) → (s.port p).snapshot = none → Uncontended s →
      OwnsNothing s p → TimersLaw s →
      After (.addressByte p a d) s fun t =>
        (t.port p).ackOut = some .nack ∧ (t.port p).sclHeld = false ∧ (t.port p).pointer = none
          ∧ (t.port p).snapshot = none ∧ (t.port p).phase = (if w = .miss then .offBus else .drain)
          ∧ (t.port p).addrWait = none ∧ (t.port p).dir = d ∧ (t.port p).hold = (s.port p).hold
          ∧ t.segs = s.segs ∧ OnlyPortSegsNotices p s t
          ∧ (w = .miss → KeepsNotices s t)
          ∧ (∀ n, w = .denied n →
            Recorded .accessDenied (some (.port p)) none (some n) (match d with | .write => 0x0000#16 | .read => 0x0001#16) s t)
          ∧ (∀ n, w = .noOffset n → Recorded .policy (some (.port p)) none (some n) 0x0003#16 s t))

/-- R30, R31, R93, R95, R109: a routed address on a port that owns no segment, every segment of the set being free: the snapshot is taken,
SCL is held, the hold timer runs, each segment is granted and waits to place its fresh START, and AWAIT_TARGET is entered.
(Where the spec leaves it open, as the model chose: log 15.) -/
def Obligations.RoutedGranted : Prop :=
  ∀ (s : State) (p : Port) (a : Addr) (d : Dir) (sn : Snapshot), Ready s p .address →
    decide25 s p a d = .routed sn → Uncontended s → OwnsNothing s p → TimersLaw s →
    (∀ g, sn.entry.segs.get g = true → (s.seg g).owner = none ∧ (s.seg g).pendingDisable = false
      ∧ ((s.seg g).cond = .idle ∨ (s.seg g).cond = .foreign)) →
    After (.addressByte p a d) s fun t =>
      t.port p = { s.port p with
          phase := .awaitTarget, snapshot := some sn, dir := d,
          legs := (PerSeg.members sn.entry.segs).map fun g => ⟨g, .active, 0, none, false, 0xFF#8⟩,
          count := 0, pointer := if (s.port p).prevSlot = some sn.slot then (s.port p).pointer else none,
          prevSlot := none, earlyAddr := none, held := none, sclHeld := true, stall := none,
          hold := some s.working.params.holdLimit,
          readRemaining := if sn.entry.check = .regen ∧ d = .read then sn.entry.readLen.getD 0
            else (s.port p).readRemaining,
          up := crc8 (s.port p).up (match d with | .write => a ++ 0#1 | .read => a ++ 1#1) }
        ∧ (∀ g, t.seg g =
          if sn.entry.segs.get g then
            { s.seg g with
              owner := some (.port p), cond := .owned, activity := some (.addressing .waitFresh),
              foreignBusy := (s.seg g).cond == .foreign, mode := (s.working.params.segs.get g).mode,
              speed := (s.working.params.segs.get g).speed, legSlot := some sn.slot, quiet := (t.seg g).quiet }
          else s.seg g)
        ∧ OnlyPortSegs p s t

/-- R31, R81, R93: a routed address whose first claim is refused ends with NACK and DRAIN and SEG_REFUSED naming the segment; one whose
first claim must wait stands at the tail of that segment's wait list with SCL held, in AWAIT_GRANT. -/
def Obligations.RoutedRefusedOrWaiting : Prop :=
  ∀ (s : State) (p : Port) (a : Addr) (d : Dir) (sn : Snapshot) (g : Seg), Ready s p .address →
    decide25 s p a d = .routed sn → Uncontended s → OwnsNothing s p → TimersLaw s →
    (PerSeg.members sn.entry.segs).head? = some g →
    (((s.seg g).cond = .faulted ∨ (s.seg g).cond = .disabled ∨ (s.seg g).pendingDisable = true) →
      After (.addressByte p a d) s fun t =>
        (t.port p).phase = .drain ∧ (t.port p).ackOut = some .nack ∧ (t.port p).sclHeld = false
          ∧ (t.port p).hold = none ∧ (t.port p).snapshot = some sn
          ∧ (∀ l ∈ (t.port p).legs, l.state = .ended)
          ∧ Recorded .segRefused (some (.port p)) (some (.seg g)) (some sn.slot) 0#16 s t
          ∧ t.segs = s.segs ∧ OnlyPortSegsNotices p s t)
      ∧ ((s.seg g).cond ≠ .faulted → (s.seg g).cond ≠ .disabled → (s.seg g).pendingDisable = false →
        ((s.seg g).owner ≠ none ∨ (s.seg g).cond = .recovering) →
        After (.addressByte p a d) s fun t =>
          (t.port p).phase = .awaitGrant ∧ (t.port p).sclHeld = true ∧ (t.port p).snapshot = some sn
            ∧ (t.port p).hold = some s.working.params.holdLimit ∧ (t.port p).ackOut = (s.port p).ackOut
            ∧ (t.port p).legs = (PerSeg.members sn.entry.segs).map (fun h => ⟨h, .claiming, 0, none, false, 0xFF#8⟩)
            ∧ t.seg g = { s.seg g with waiters := [.port p] }
            ∧ (∀ h, h ≠ g → t.seg h = s.seg h) ∧ OnlyPortSegs p s t)

/-- R38: a routed address whose segment set is that of the ACTIVE legs keeps them: no claim, each segment is to place a repeated START, and
the legs keep their downstream values with their counts cleared.
R39, R30, R94, R23: a routed address on a port that owns a segment, with another segment set than that of its ACTIVE legs or with none ACTIVE, every
segment it owns still placing its closing STOP: each ACTIVE leg is ended with a STOP, the snapshot is taken, the hold timer
runs, SCL is held, and one CLAIMING leg stands for each segment of the new set, which names one (as every valid table's does), beside the legs still
closing on the others; no claim is placed yet.
R39, R23: an address byte decided as anything but a routed one, on a port that owns a segment: each ACTIVE leg, if there is one, is ended with a STOP,
SCL is held, and the answer waits; no hold timer is started.
(Where the spec leaves it open, as the model chose: log 12, 15, 16.) -/
def Obligations.AddressOnKeptLegs : Prop :=
  (∀ (s : State) (p : Port) (a : Addr) (d : Dir) (sn : Snapshot), Ready s p .address →
      decide25 s p a d = .routed sn → Uncontended s → TimersLaw s → LegsPaused s p → ownedSegs s p ≠ [] →
      After (.addressByte p a d) s fun t =>
        (t.port p).snapshot = some sn ∧ (t.port p).sclHeld = true ∧ (t.port p).dir = d
          ∧ (t.port p).hold = some s.working.params.holdLimit ∧ (t.port p).stall = none ∧ (t.port p).count = 0
          ∧ (t.port p).pointer = (if (s.port p).prevSlot = some sn.slot then (s.port p).pointer else none)
          ∧ (t.port p).ackOut = (s.port p).ackOut ∧ (t.port p).addrWait = none
          ∧ (t.port p).readRemaining
            = (if sn.entry.check = .regen ∧ d = .read then sn.entry.readLen.getD 0 else (s.port p).readRemaining)
          ∧ OnlyPortSegs p s t
          ∧ (activeSegs s p ≠ [] → (∀ g, legActive s p g = sn.entry.segs.get g) →
            (t.port p).phase = .awaitTarget
              ∧ (t.port p).legs
                = (s.port p).legs.map (fun l =>
                  if l.state = .active then { l with retries := 0, retryLimit := none, marked := false } else l)
              ∧ ∀ g, t.seg g =
                if legActive s p g then
                  { s.seg g with
                    activity := some (.addressing .waitRepeated), clock := some s.working.params.clockLimit,
                    legSlot := some sn.slot }
                else s.seg g)
          ∧ (¬(∀ g, legActive s p g = sn.entry.segs.get g) → PerSeg.members sn.entry.segs ≠ [] →
            (t.port p).phase = .awaitGrant ∧ activeSegs t p = []
              ∧ (t.port p).legs.filter (·.state == .claiming)
                = (PerSeg.members sn.entry.segs).map (fun g => ⟨g, .claiming, 0, none, false, 0xFF#8⟩)
              ∧ (t.port p).legs = Seg.list.filterMap (fun g =>
                if sn.entry.segs.get g then some ⟨g, .claiming, 0, none, false, 0xFF#8⟩
                else (endedLegs s p).find? fun l => l.seg == g && l.state == .ended && owns s p g)
              ∧ ∀ g, t.seg g =
                if legActive s p g then closing none s.working.params.clockLimit (s.seg g) else s.seg g))
    ∧ (∀ (s : State) (p : Port) (a : Addr) (d : Dir) (w : AddrWait), Ready s p .address → decide25 s p a d = .wait w →
      Uncontended s → TimersLaw s → LegsPaused s p → ownedSegs s p ≠ [] →
      After (.addressByte p a d) s fun t =>
        (t.port p).phase = .address ∧ (t.port p).sclHeld = true ∧ (t.port p).addrWait = some w
          ∧ (t.port p).ackOut = (s.port p).ackOut ∧ (t.port p).hold = (s.port p).hold ∧ (t.port p).stall = none
          ∧ (t.port p).pointer = none ∧ (t.port p).legs = endedLegs s p
          ∧ (∀ g, t.seg g = if legActive s p g then closing none s.working.params.clockLimit (s.seg g) else s.seg g)
          ∧ OnlyPortSegs p s t)

/-- R39, R26 to R29: the last segment a record still owned places its closing STOP while an address byte's answer waits: the segment is released, and
the part answers as it would have answered at the byte: the management address by the credits and responses it then has, a miss by OFF_BUS, a
refusal by DRAIN with its notice.
R94, R31: while a routed address waits, the claims of the new set begin at that release, the segment just released being claimed like any other.
R39, R94, R56, R113: the wait ends in the same ways when that segment is taken into RECOVERING by the clock limit, with SEG_TIMEOUT before any notice of
the answer; a claim of that segment then joins its wait list.
(Where the spec leaves it open, as the model chose: log 12, 14, 18, 30.) -/
def Obligations.ClosedThenAnswered : Prop :=
  (∀ (s : State) (p : Port) (g : Seg) (check : Option Byte) (w : AddrWait), LegAt s p g (.closing check) →
      (s.seg g).cond = .owned → TimersLaw s → (∀ h, (s.seg h).waiters = []) → (∀ h, owns s p h = true → h = g) →
      (∀ q, q ≠ p → (s.port q).addrWait = none) → (∀ q, (s.port q).phase ≠ .awaitGrant) →
      (s.port p).phase = .address → (s.port p).sclHeld = true → (s.port p).snapshot = none →
      (s.port p).addrWait = some w →
      After (.stopPlaced g) s fun t =>
        (t.seg g).owner = none ∧ (t.seg g).activity = none
          ∧ (t.seg g).cond = (if (s.seg g).pendingDisable then .disabled else .idle)
          ∧ (∀ h, h ≠ g → t.seg h = s.seg h)
          ∧ (t.port p).legs = (s.port p).legs.filter (fun l => !(l.seg == g && l.state == .ended))
          ∧ (t.port p).addrWait = none ∧ (t.port p).sclHeld = false ∧ (t.port p).snapshot = none
          ∧ (t.port p).stall = none
          ∧ (∀ b, w = .mgmtWrite b → OnlyPortSegs p s t
            ∧ (t.port p).phase = (if creditFree s p then .mgmtWrite else .offBus)
            ∧ (t.port p).ackOut = (if creditFree s p then some .ack else some .nack)
            ∧ (t.port p).assembler
              = (if creditFree s p then some ⟨[], crc8 0xFF#8 b, false, false⟩ else (s.port p).assembler))
          ∧ (∀ b, w = .mgmtRead b → OnlyPortSegs p s t ∧ (t.port p).phase = .mgmtRead ∧ (t.port p).ackOut = some .ack
            ∧ (t.port p).readPos = some ⟨(s.port p).responses.head?.getD ⟨.empty, 0#8, []⟩, (s.port p).responses.isEmpty, 0, 0,
              crc8 0xFF#8 b, false, false⟩)
          ∧ (w = .miss → OnlyPortSegs p s t ∧ (t.port p).phase = .offBus ∧ (t.port p).ackOut = some .nack)
          ∧ (∀ n, w = .denied n → OnlyPortSegsNotices p s t ∧ (t.port p).phase = .drain
            ∧ (t.port p).ackOut = some .nack
            ∧ Recorded .accessDenied (some (.port p)) none (some n)
              (match (s.port p).dir with | .write => 0x0000#16 | .read => 0x0001#16) s t)
          ∧ (∀ n, w = .noOffset n → OnlyPortSegsNotices p s t ∧ (t.port p).phase = .drain
            ∧ (t.port p).ackOut = some .nack ∧ Recorded .policy (some (.port p)) none (some n) 0x0003#16 s t))
    ∧ (∀ (s : State) (p : Port) (g : Seg) (check : Option Byte), LegAt s p g (.closing check) →
      (s.seg g).cond = .owned → TimersLaw s → (∀ h, (s.seg h).waiters = []) → (∀ h, owns s p h = true → h = g) →
      (∀ q, (s.port q).addrWait = none) → (∀ q, q ≠ p → (s.port q).phase ≠ .awaitGrant) →
      (s.port p).phase = .awaitGrant → (s.port p).sclHeld = true → activeSegs s p = [] → claimingSegs s p ≠ [] →
      (∀ h ∈ claimingSegs s p, (s.seg h).pendingDisable = false
        ∧ (h ≠ g → (s.seg h).owner = none ∧ ((s.seg h).cond = .idle ∨ (s.seg h).cond = .foreign))) →
      After (.stopPlaced g) s fun t =>
        (t.port p).phase = .awaitTarget ∧ (t.port p).sclHeld = true ∧ (t.port p).ackOut = (s.port p).ackOut
          ∧ (t.port p).hold = (s.port p).hold
          ∧ (∀ h ∈ claimingSegs s p, Granted s t p h)
          ∧ (g ∉ claimingSegs s p → (t.seg g).owner = none)
          ∧ (∀ h, h ≠ g → h ∉ claimingSegs s p → t.seg h = s.seg h) ∧ OnlyPortSegs p s t)
    ∧ (∀ (s : State) (p : Port) (g : Seg) (check : Option Byte) (w : AddrWait), LegAt s p g (.closing check) →
      (s.seg g).cond = .owned → (s.seg g).clock.isSome = true → TimersLaw s → (∀ h, (s.seg h).waiters = []) →
      (∀ h, owns s p h = true → h = g) → (∀ q, q ≠ p → (s.port q).addrWait = none) →
      (∀ q, (s.port q).phase ≠ .awaitGrant) → (s.port p).phase = .address → (s.port p).sclHeld = true →
      (s.port p).snapshot = none → (s.port p).addrWait = some w →
      After (.clockLimitExpiry g) s fun t =>
        t.seg g = seized s g ∧ (∀ h, h ≠ g → t.seg h = s.seg h) ∧ OnlyPortSegsNotices p s t
          ∧ (t.port p).legs = (s.port p).legs.filter (fun l => !(l.seg == g && l.state == .ended))
          ∧ (t.port p).addrWait = none ∧ (t.port p).sclHeld = false ∧ (t.port p).snapshot = none
          ∧ (t.port p).stall = none
          ∧ (∀ b, w = .mgmtWrite b →
            (t.port p).phase = (if creditFree s p then .mgmtWrite else .offBus)
              ∧ (t.port p).ackOut = (if creditFree s p then some .ack else some .nack))
          ∧ (∀ b, w = .mgmtRead b → (t.port p).phase = .mgmtRead ∧ (t.port p).ackOut = some .ack)
          ∧ (w = .miss → (t.port p).phase = .offBus ∧ (t.port p).ackOut = some .nack)
          ∧ (∀ n, w = .denied n → (t.port p).phase = .drain ∧ (t.port p).ackOut = some .nack
            ∧ Recorded .accessDenied (some (.port p)) none (some n)
              (match (s.port p).dir with | .write => 0x0000#16 | .read => 0x0001#16)
              (note .segTimeout (some (.port p)) (some (.seg g)) (s.seg g).legSlot 0x0001#16 s) t)
          ∧ (∀ n, w = .noOffset n → (t.port p).phase = .drain ∧ (t.port p).ackOut = some .nack
            ∧ Recorded .policy (some (.port p)) none (some n) 0x0003#16
              (note .segTimeout (some (.port p)) (some (.seg g)) (s.seg g).legSlot 0x0001#16 s) t)
          ∧ ((∀ n, w ≠ .denied n ∧ w ≠ .noOffset n) →
            Recorded .segTimeout (some (.port p)) (some (.seg g)) (s.seg g).legSlot 0x0001#16 s t))
    ∧ (∀ (s : State) (p : Port) (g : Seg) (check : Option Byte), LegAt s p g (.closing check) →
      (s.seg g).cond = .owned → (s.seg g).clock.isSome = true → TimersLaw s → (∀ h, (s.seg h).waiters = []) →
      (∀ h, owns s p h = true → h = g) → (∀ q, (s.port q).addrWait = none) →
      (∀ q, q ≠ p → (s.port q).phase ≠ .awaitGrant) → (s.port p).phase = .awaitGrant → (s.port p).sclHeld = true →
      activeSegs s p = [] → claimingSegs s p ≠ [] →
      (∀ h ∈ claimingSegs s p, (s.seg h).pendingDisable = false
        ∧ (h ≠ g → (s.seg h).owner = none ∧ ((s.seg h).cond = .idle ∨ (s.seg h).cond = .foreign))) →
      After (.clockLimitExpiry g) s fun t =>
        (t.port p).sclHeld = true ∧ (t.port p).ackOut = (s.port p).ackOut ∧ (t.port p).hold = (s.port p).hold
          ∧ (t.port p).phase = (if g ∈ claimingSegs s p then .awaitGrant else .awaitTarget)
          ∧ t.seg g = { seized s g with waiters := if g ∈ claimingSegs s p then [.port p] else [] }
          ∧ (∀ h ∈ claimingSegs s p, g ∉ claimingSegs s p ∨ segNumber h < segNumber g → Granted s t p h)
          ∧ (∀ h, h ≠ g → h ∉ claimingSegs s p ∨ (g ∈ claimingSegs s p ∧ segNumber g < segNumber h) → t.seg h = s.seg h)
          ∧ Recorded .segTimeout (some (.port p)) (some (.seg g)) (s.seg g).legSlot 0x0001#16 s t
          ∧ OnlyPortSegsNotices p s t)

/-! ### Write bytes (R42 to R48, R66 to R71, R83, R84) -/

/-- R43, R44, R45: the three tests of a write byte, in order: the write limit, then the window by the first byte's value or by the pointer.
R46, R48, R83: a write byte under NONE: one that passes goes to every ACTIVE leg, with SCL held; one that fails reaches no leg, ends
every leg, is NACKed and recorded as POLICY, and leaves count and pointer as they stood.
(Where the spec leaves it open, as the model chose: log 16.) -/
def Obligations.WriteByte : Prop :=
  (∀ (e : Entry) (count : Nat) (pointer : Option Nat) (b : Byte),
      (∀ l, e.writeLimit = some l → l < count + 1 → judge e count pointer b = some .length)
        ∧ ((e.writeLimit = none ∨ ∃ l, e.writeLimit = some l ∧ count + 1 ≤ l) →
          (e.window = none → judge e count pointer b = none)
            ∧ (∀ w, e.window = some w → count = 0 →
              judge e count pointer b =
                if b < w.low then some .offsetLow else if w.high < b then some .offsetHigh else none)
            ∧ (∀ w n, e.window = some w → count ≠ 0 → pointer = some n →
              judge e count pointer b = if w.high.toNat < n then some .offsetHigh else none)))
    ∧ (∀ (s : State) (p : Port) (b : Byte) (sn : Snapshot), Ready s p .write → (s.port p).inFlight = none →
      (s.port p).snapshot = some sn → sn.entry.check = .none → TimersLaw s → LegsPaused s p →
      (judge sn.entry (s.port p).count (s.port p).pointer b = none →
        After (.writeByte p b) s fun t =>
          t.port p = { s.port p with
              sclHeld := true, stall := none, held := none, inFlight := some ⟨b, false, false, .answer⟩ }
            ∧ (∀ g, t.seg g =
              if legActive s p g then
                { s.seg g with activity := some (.writing b false), clock := some s.working.params.clockLimit }
              else s.seg g)
            ∧ OnlyPortSegs p s t)
        ∧ ∀ why, judge sn.entry (s.port p).count (s.port p).pointer b = some why →
          After (.writeByte p b) s fun t =>
            t.port p = { s.port p with
                phase := .drain, ackOut := some .nack, legs := endedLegs s p, held := none, readStage := .none,
                stall := (t.port p).stall }
              ∧ (∀ g, t.seg g = if legActive s p g then closing none s.working.params.clockLimit (s.seg g) else s.seg g)
              ∧ Recorded .policy (some (.port p)) none (some sn.slot)
                (match why with
                  | .offsetLow => 0x0001#16
                  | .offsetHigh => 0x0002#16
                  | .noOffset => 0x0003#16
                  | .length => 0x0004#16
                  | .readBeyond => 0x0005#16) s t
              ∧ OnlyPortSegsNotices p s t)

/-- R66, R67, R68: a write byte under REGEN: with none held it is held and ACKed, nothing being forwarded; with one held it confirms that
byte, which is judged and handed to every ACTIVE leg while the new one waits for its acknowledge, or refused.
(Where the spec leaves it open, as the model chose: log 16.) -/
def Obligations.RegenWriteByte : Prop :=
  ∀ (s : State) (p : Port) (b : Byte) (sn : Snapshot), Ready s p .write → (s.port p).inFlight = none →
    (s.port p).snapshot = some sn → sn.entry.check = .regen → TimersLaw s → LegsPaused s p →
    ((s.port p).held = none →
      exec (.writeByte p b) s = .next (s.updPort p fun r =>
        { r with
          held := some b, ackOut := some .ack,
          stall := if (ownedSegs s p).isEmpty then none else some s.working.params.stallLimit }))
      ∧ ∀ h, (s.port p).held = some h →
        (judge sn.entry (s.port p).count (s.port p).pointer h = none →
          After (.writeByte p b) s fun t =>
            t.port p = { s.port p with
                sclHeld := true, stall := none, held := none, inFlight := some ⟨h, false, false, .hold b⟩ }
              ∧ (∀ g, t.seg g =
                if legActive s p g then
                  { s.seg g with activity := some (.writing h false), clock := some s.working.params.clockLimit }
                else s.seg g)
              ∧ OnlyPortSegs p s t)
          ∧ ∀ why, judge sn.entry (s.port p).count (s.port p).pointer h = some why →
            After (.writeByte p b) s fun t =>
              t.port p = { s.port p with
                  phase := .drain, ackOut := some .nack, legs := endedLegs s p, held := none, readStage := .none,
                  stall := (t.port p).stall }
                ∧ (∀ g, t.seg g =
                  if legActive s p g then closing none s.working.params.clockLimit (s.seg g) else s.seg g)
                ∧ Recorded .policy (some (.port p)) none (some sn.slot) (policyCode why) s t
                ∧ OnlyPortSegsNotices p s t

/-- R46, R63, R64, R83: a byte placed whole on a segment goes into that leg's downstream value; the first such event counts it, moves the
pointer of a windowed write, and takes it into the upstream value.
(Where the spec leaves it open, as the model chose: log 16.) -/
def Obligations.BytePlaced : Prop :=
  ∀ (s : State) (p : Port) (g : Seg) (b : Byte) (f : InFlight) (sn : Snapshot), LegAt s p g (.writing b false) →
    (s.port p).inFlight = some f → (s.port p).snapshot = some sn →
    exec (.bytePlaced g) s = .next
      ((s.updSeg g fun c =>
        { c with activity := some (.writing b true), clock := some s.working.params.clockLimit }).updPort p fun r =>
        { r with
          legs := r.legs.map fun l => if l.seg == g then { l with down := crc8 l.down b } else l,
          inFlight := some { f with counted := true },
          count := if f.counted then r.count else if r.count < 255 then r.count + 1 else r.count,
          pointer := if f.counted ∨ sn.entry.window = none then r.pointer
            else if r.count = 0 then some b.toNat else r.pointer.map (· + 1),
          up := if f.counted then r.up else crc8 r.up b })

/-- R46, R47, R67, R84, R88: the device's acknowledge. While another leg has still to complete the byte, only this leg's side changes; the last
to complete it settles the upstream answer: ACK when none NACKed; NACK when one did, in WRITE with the legs that remain, or in DRAIN when none
does.
(Where the spec leaves it open, as the model chose: log 16.) -/
def Obligations.DeviceAck : Prop :=
  ∀ (s : State) (p : Port) (g : Seg) (b : Byte) (answer : Ack) (f : InFlight) (others : Bool),
    LegAt s p g (.writing b true) → (s.port p).inFlight = some f → f.after ≠ .repeatedStart → legActive s p g = true →
    TimersLaw s → (s.port p).phase = .write → (s.port p).sclHeld = true →
    others = (Seg.list.any fun h => h != g && legActive s p h) →
    ((∀ h, legActive s p h = true → h ≠ g → (s.seg h).activity = some .paused) →
      (answer = .ack →
        After (.deviceAck g answer) s fun t =>
          (t.port p).ackOut = some (if f.lost then .nack else .ack) ∧ (t.port p).sclHeld = false
            ∧ (t.port p).phase = .write ∧ (t.port p).inFlight = none
            ∧ (t.port p).held = (match f.after with | .hold x => some x | _ => (s.port p).held)
            ∧ (t.port p).legs = (s.port p).legs ∧ (t.port p).count = (s.port p).count
            ∧ t.seg g = { s.seg g with activity := some .paused, clock := none }
            ∧ (∀ h, h ≠ g → t.seg h = s.seg h) ∧ OnlyPortSegs p s t)
        ∧ (answer = .nack →
          After (.deviceAck g answer) s fun t =>
            (t.port p).ackOut = some .nack ∧ (t.port p).sclHeld = false ∧ (t.port p).inFlight = none
              ∧ (t.port p).phase = (if others then .write else .drain)
              ∧ (t.port p).held = (if others then (match f.after with | .hold x => some x | _ => (s.port p).held) else none)
              ∧ (t.port p).count = (s.port p).count ∧ (t.port p).pointer = (s.port p).pointer
              ∧ (t.port p).snapshot = (s.port p).snapshot
              ∧ (∀ h, legActive t p h = (legActive s p h && h != g))
              ∧ t.seg g = { s.seg g with
                  activity := some (.closing none), clock := some s.working.params.clockLimit }
              ∧ (∀ h, h ≠ g → t.seg h = s.seg h) ∧ OnlyPortSegs p s t))
      ∧ ((∃ h, legActive s p h = true ∧ h ≠ g ∧ (s.seg h).activity ≠ some .paused) →
        After (.deviceAck g answer) s fun t =>
          t.port p = { s.port p with
              legs := (t.port p).legs,
              inFlight := some { f with lost := f.lost || answer == .nack } }
            ∧ t.seg g = (match answer with
              | .ack => { s.seg g with activity := some .paused, clock := none }
              | .nack => { s.seg g with
                  activity := some (.closing none), clock := some s.working.params.clockLimit })
            ∧ (∀ h, legActive t p h = (legActive s p h && (h != g || answer == .ack)))
            ∧ (∀ h, h ≠ g → t.seg h = s.seg h) ∧ OnlyPortSegs p s t)

/-! ### Read bytes (R49 to R53, R74 to R76) and DRAIN (R40) -/

/-- R49, R53: a read request at the end of the address acknowledge: a byte within bounds is fetched on the leg with SCL held; one
beyond the window or the read length ends the leg, with 0xFF, DRAIN and POLICY READ_BEYOND. (Under REGEN with none remaining it would be the
request of the check byte, which no run meets here: R75's request is the one ReadBytesAnswered states.)
(Where the spec leaves it open, as the model chose: log 16.) -/
def Obligations.ReadRequest : Prop :=
  ∀ (s : State) (p : Port) (sn : Snapshot), Ready s p .read → (s.port p).readStage = .addressAcked →
    (s.port p).snapshot = some sn → TimersLaw s → LegsPaused s p →
    After (.readAddressAckEnd p) s fun t => RequestMade s t p sn (s.port p)

/-- R50, R64: a fetched byte is taken into the leg's value and supplied upstream, and the segment waits with the device's slot open.
R75, R76: the device's check byte has been fetched and NACKed: it is compared with its leg's value, the leg is marked for STOP with SCL held; the
upstream value is supplied, or its complement after a mismatch, which is recorded as CHECK_DOWNSTREAM.
(Where the spec leaves it open, as the model chose: log 17.) -/
def Obligations.BytesFetched : Prop :=
  (∀ (s : State) (p : Port) (g : Seg) (b : Byte), LegAt s p g (.reading .data) → (s.port p).readStage = .fetching →
      TimersLaw s →
      After (.readByteFetched g b) s fun t =>
        t.port p = { s.port p with
            sdaByte := some b, sclHeld := false, readStage := .supplying b 0,
            legs := (s.port p).legs.map fun l => if l.seg == g then { l with down := crc8 l.down b } else l,
            stall := (t.port p).stall }
          ∧ t.seg g = { s.seg g with activity := some .paused, clock := none }
          ∧ (∀ h, h ≠ g → t.seg h = s.seg h) ∧ OnlyPortSegs p s t)
    ∧ (∀ (s : State) (p : Port) (g : Seg) (b : Byte) (l : Leg), LegAt s p g (.reading .check) →
      (s.port p).readStage = .fetchingCheck → (s.port p).legs = [l] → l.seg = g → l.state = .active → TimersLaw s →
      After (.checkByteFetched g b) s fun t =>
        t.port p = { s.port p with
            legs := [{ l with marked := true }],
            readStage := .supplyingCheck (if b = l.down then (s.port p).up else ~~~ (s.port p).up),
            sdaByte := some (if b = l.down then (s.port p).up else ~~~ (s.port p).up),
            sclHeld := false, stall := (t.port p).stall }
          ∧ t.seg g = { s.seg g with activity := some .paused, clock := none }
          ∧ (∀ h, h ≠ g → t.seg h = s.seg h)
          ∧ (b = l.down → KeepsNotices s t)
          ∧ (b ≠ l.down → Recorded .checkDownstream (some (.port p)) (some (.seg g))
            ((s.port p).snapshot.map (·.slot)) (b ++ l.down) s t)
          ∧ OnlyPortSegsNotices p s t)

/-- R51, R52, R63, R74: the controller's acknowledge of a supplied byte counts it, moves the pointer of a windowed read, counts it off the bytes
remaining under REGEN, and takes it into the upstream value unless its eighth bit has. A NACK answers the device NACK, marks the leg for STOP, and
makes every further byte 0xFF.
R49, R53, R75: an ACK is the next request, by the count, the pointer and the bytes remaining as they then are: a data byte, one beyond a bound, or,
under REGEN after the last data byte, the check byte.
R76, R40: the acknowledge of a supplied check byte changes nothing but what is supplied next, 0xFF; in DRAIN a write byte is NACKed and a
read byte is supplied as 0xFF.
(Where the spec leaves it open, as the model chose: log 16, 17, 39.) -/
def Obligations.ReadBytesAnswered : Prop :=
  (∀ (s : State) (p : Port) (b : Byte) (n : Nat) (sn : Snapshot), Ready s p .read →
      (s.port p).readStage = .supplying b n → (s.port p).snapshot = some sn → TimersLaw s → LegsPaused s p →
      (∀ l ∈ (s.port p).legs, l.marked = false) →
      ∀ r, r = { s.port p with
        count := if (s.port p).count < 255 then (s.port p).count + 1 else (s.port p).count
        pointer := if sn.entry.window = none then (s.port p).pointer else (s.port p).pointer.map (· + 1)
        readRemaining := if sn.entry.check = .regen then (s.port p).readRemaining - 1 else (s.port p).readRemaining
        up := if n < 16 then crc8 (s.port p).up b else (s.port p).up } →
      After (.readByteAck p .ack) s (fun t => RequestMade s t p sn r)
        ∧ After (.readByteAck p .nack) s fun t =>
          t.port p = { r with
              readStage := .fill, sdaByte := some 0xFF#8,
              legs := (s.port p).legs.map fun l => if legActive s p l.seg then { l with marked := true } else l }
            ∧ Fetching s t p .nackClock ∧ OnlyPortSegs p s t)
    ∧ (∀ (s : State) (p : Port) (a : Ack) (x : Byte),
      (Ready s p .read → (s.port p).readStage = .supplyingCheck x → TimersLaw s →
        exec (.readByteAck p a) s = .next (s.updPort p fun r => { r with readStage := .fill, sdaByte := some 0xFF#8 }))
        ∧ (s.run = .running → (s.port p).phase = .drain → (s.port p).dir = .write →
          exec (.drainByte p) s = .next (s.updPort p fun r => { r with ackOut := some .nack }))
        ∧ (s.run = .running → (s.port p).phase = .drain → (s.port p).dir = .read →
          exec (.drainByte p) s = .next (s.updPort p fun r => { r with sdaByte := some 0xFF#8 })))

/-! ### Management frames (R153, R156, R157, R160, R163, R164) -/

/-- R156: how a byte of a management write is answered and kept, by the number of bytes before it and by the length byte.
R157, R158, R127: a STOP or a START in MGMT_WRITE, between bytes or inside one, ends the frame. With no byte taken the credit is returned and
nothing is queued; a whole frame with a right check and a known command of its own length joins the Command Queue with its tag and payload;
every other joins as an error entry, by the first of R157's checks that applies. A frame from the owner of the open session restarts the
lease. -/
def Obligations.MgmtWrite : Prop :=
  (∀ (s : State) (p : Port) (b : Byte) (m : Assembler), s.run = .running → (s.port p).phase = .mgmtWrite →
      (s.port p).assembler = some m →
      (m.lengthMark = true → exec (.mgmtWriteByte p b) s = .next (s.updPort p fun r => { r with ackOut := some .nack }))
      ∧ (m.lengthMark = false →
      (m.bytes.length < 2 ∨ (m.bytes.length = 2 ∧ b.toNat ≤ 40)
          ∨ (3 ≤ m.bytes.length ∧ m.bytes.length < (m.bytes.getD 2 0#8).toNat + 3) →
        exec (.mgmtWriteByte p b) s = .next (s.updPort p fun r =>
          { r with assembler := some { m with bytes := m.bytes ++ [b], check := crc8 m.check b }, ackOut := some .ack }))
        ∧ (m.bytes.length = 2 → 40 < b.toNat →
          exec (.mgmtWriteByte p b) s = .next (s.updPort p fun r =>
            { r with assembler := some { m with bytes := m.bytes ++ [b], lengthMark := true }, ackOut := some .nack }))
        ∧ (3 ≤ m.bytes.length → m.bytes.length = (m.bytes.getD 2 0#8).toNat + 3 →
          exec (.mgmtWriteByte p b) s = .next (s.updPort p fun r =>
            { r with assembler := some { m with bytes := m.bytes ++ [b] }, ackOut := some .ack }))
        ∧ (3 ≤ m.bytes.length → (m.bytes.getD 2 0#8).toNat + 3 < m.bytes.length →
          exec (.mgmtWriteByte p b) s = .next (s.updPort p fun r =>
            { r with assembler := some { m with longMark := true }, ackOut := some .nack }))))
    ∧ (∀ (s : State) (p : Port) (m : Assembler) (c : Instr) (stops : Bool), Ready s p .mgmtWrite →
      (stops = true → c = .stop p ∨ c = .midByteStop p) →
      (stops = false → c = .repeatedStart p ∨ c = .start p ∨ c = .midByteStart p) →
      (s.port p).assembler = some m → (s.port p).isOpen = true → (s.port p).earlyAddr = none → OwnsNothing s p →
      TimersLaw s → After c s fun t =>
        (t.port p).phase = (if stops then .idle else .address) ∧ (t.port p).isOpen = !stops
          ∧ (t.port p).assembler = none
          ∧ t.segResets = s.segResets ∧ t.segs = s.segs ∧ KeepsImage s t ∧ KeepsNotices s t
          ∧ (m.bytes = [] → t.cmdQueue = s.cmdQueue ∧ t.lease = s.lease)
          ∧ (m.bytes ≠ [] → t.lease =
            if s.session.any (fun e => e.owner == p) then some s.working.params.lease else s.lease)
          ∧ (m.bytes ≠ [] → m.lengthMark = true →
            t.cmdQueue = s.cmdQueue ++ [.error p .badLength (m.bytes.getD 1 0#8)])
          ∧ (m.bytes ≠ [] → m.lengthMark = false → m.longMark = true →
            t.cmdQueue = s.cmdQueue ++ [.error p .frameLong (m.bytes.getD 1 0#8)])
          ∧ ∀ n, (m.bytes.getD 2 0#8).toNat = n → m.bytes ≠ [] → m.lengthMark = false → m.longMark = false →
            (m.bytes.length < 3 ∨ m.bytes.length < n + 4 →
              t.cmdQueue = s.cmdQueue ++ [.error p .frameShort (m.bytes.getD 1 0#8)])
              ∧ (3 ≤ m.bytes.length → n + 4 ≤ m.bytes.length → m.bytes.getD (n + 3) 0#8 ≠ m.check →
                t.cmdQueue = s.cmdQueue ++ [.error p .badCheck (m.bytes.getD 1 0#8)])
              ∧ (3 ≤ m.bytes.length → n + 4 ≤ m.bytes.length → m.bytes.getD (n + 3) 0#8 = m.check →
                (commandOfCode (m.bytes.getD 0 0#8) = none →
                  t.cmdQueue = s.cmdQueue ++ [.error p .unknown (m.bytes.getD 1 0#8)])
                ∧ ∀ c, commandOfCode (m.bytes.getD 0 0#8) = some c →
                  (commandLength c ≠ n → t.cmdQueue = s.cmdQueue ++ [.error p .badLength (m.bytes.getD 1 0#8)])
                    ∧ (commandLength c = n →
                      t.cmdQueue = s.cmdQueue ++ [.frame p c (m.bytes.getD 1 0#8) ((m.bytes.drop 3).take n)])))

/-- R153, R163: a byte of a response supplied whole and answered moves the read on: status, tag, length, payload, then the check over them
and the address byte, then 0xFF; after a NACK only 0xFF.
R164, R165: a STOP or a START, whether or not the controller has NACKed, ends the read and removes the head response when its check byte has been
supplied whole: earlier, or as the byte in place of whose acknowledge the condition stands, all sixteen edges of its bits having been told (log 11), but
not one that has just begun, after the acknowledge before it, nor one that the condition cuts.
(Where the spec leaves it open, as the model chose: log 11.) -/
def Obligations.MgmtRead : Prop :=
  ∀ (s : State) (p : Port) (a : Ack) (m : ReadPos) (bytes : List Byte), s.run = .running → (s.port p).phase = .mgmtRead →
    (s.port p).readPos = some m →
    bytes = statusCode m.frame.status :: m.frame.tag :: BitVec.ofNat 8 m.frame.payload.length :: m.frame.payload →
    (m.nacked = true →
      exec (.mgmtReadAck p a) s = .next (s.updPort p fun r =>
        { r with readPos := some { m with edges := 0 }, sdaByte := some 0xFF#8 }))
      ∧ (m.nacked = false → m.next < bytes.length → After (.mgmtReadAck p a) s fun t =>
        (t.port p).readPos = some { m with
            next := m.next + 1, edges := 0, check := crc8 m.check (bytes.getD m.next 0#8), nacked := a == .nack }
          ∧ (t.port p).sdaByte = some (if a = .nack then 0xFF#8
              else if m.next + 1 < bytes.length then bytes.getD (m.next + 1) 0#8
              else crc8 m.check (bytes.getD m.next 0#8))
          ∧ OnlyPort p s t)
      ∧ (m.nacked = false → m.next = bytes.length → After (.mgmtReadAck p a) s fun t =>
        (t.port p).readPos = some { m with next := m.next + 1, edges := 0, checkDone := true, nacked := a == .nack }
          ∧ (t.port p).sdaByte = some 0xFF#8 ∧ OnlyPort p s t)
      ∧ (m.nacked = false → bytes.length < m.next → After (.mgmtReadAck p a) s fun t =>
        (t.port p).readPos = some { m with edges := 0, nacked := a == .nack } ∧ (t.port p).sdaByte = some 0xFF#8
          ∧ OnlyPort p s t)
      ∧ (∀ (c : Instr) (stops boundary : Bool),
        (c, stops, boundary) ∈ [(Instr.stop p, true, true), (.midByteStop p, true, false), (.repeatedStart p, false, true),
          (.start p, false, true), (.midByteStart p, false, false)] →
        (s.port p).sclHeld = false → (s.port p).isOpen = true → (s.port p).earlyAddr = none → OwnsNothing s p →
        TimersLaw s →
        After c s fun t =>
          (t.port p).phase = (if stops then .idle else .address) ∧ (t.port p).isOpen = !stops
            ∧ (t.port p).readPos = none
            ∧ (t.port p).responses
              = (if m.isEmpty = false
                  ∧ (m.checkDone = true ∨ (m.nacked = false ∧ m.next = bytes.length ∧ boundary = true ∧ 16 ≤ m.edges))
                then (s.port p).responses.drop 1 else (s.port p).responses)
            ∧ OnlyPort p s t)

/-! ### The timers of a port (R36, R59, R60) -/

/-- R36, R82: hold timer expiry with every leg granted: NACK, DRAIN, every ACTIVE leg ended, and HOLD_EXPIRED naming the lowest ACTIVE leg that
still awaits its target. A leg that waits to place its START gives its segment up at once; any other places a STOP.
R36, R82, R101: hold timer expiry while a claim waits: the claim is withdrawn from among the others, every CLAIMING leg becomes ENDED without a claim,
the legs already granted are ended, the part NACKs into DRAIN, and HOLD_EXPIRED names the segment claimed.
R36, R94: hold timer expiry before the first claim, while closing STOPs are awaited: HOLD_EXPIRED names the lowest segment still to close, the new
set is never claimed, and no segment changes.
(Where the spec leaves it open, as the model chose: log 14, 16, 19.) -/
def Obligations.HoldExpired : Prop :=
  (∀ (s : State) (p : Port), s.run = .running → (s.port p).phase = .awaitTarget → (s.port p).hold.isSome = true →
      Uncontended s → TimersLaw s → (∀ g, legActive s p g = true → owns s p g = true) →
      (∀ g c, legActive s p g = true → (s.seg g).activity ≠ some (.closing c)) →
      (∀ l ∈ (s.port p).legs, l.state ≠ .claiming) →
      After (.holdExpired p) s fun t =>
        (t.port p).phase = .drain ∧ (t.port p).ackOut = some .nack ∧ (t.port p).sclHeld = false
          ∧ (t.port p).hold = none ∧ (t.port p).snapshot = (s.port p).snapshot ∧ (t.port p).legs = endedLegs s p
          ∧ Recorded .holdExpired (some (.port p))
            (((activeSegs s p).find? fun g => (s.seg g).activity != some .paused).map .seg)
            ((s.port p).snapshot.map (·.slot)) 0#16 s t
          ∧ (∀ g, legActive s p g = true →
            ((s.seg g).activity = some (.addressing .waitFresh) → (t.seg g).owner = none)
              ∧ ((s.seg g).activity ≠ some (.addressing .waitFresh) →
                t.seg g = closing none s.working.params.clockLimit (s.seg g)))
          ∧ (∀ g, legActive s p g = false → t.seg g = s.seg g)
          ∧ OnlyPortSegsNotices p s t)
    ∧ (∀ (s : State) (p : Port) (g : Seg) (others : List Claimant), s.run = .running → WaitsAlone s p g others →
      (s.port p).hold.isSome = true → TimersLaw s → (s.seg g).refuses = false → (s.seg g).free = false →
      After (.holdExpired p) s fun t =>
        (t.port p).phase = .drain ∧ (t.port p).ackOut = some .nack ∧ (t.port p).sclHeld = false
          ∧ (t.port p).hold = none ∧ (t.port p).snapshot = (s.port p).snapshot
          ∧ (t.port p).legs = (s.port p).legs.map (fun l =>
            if l.state = .claiming ∨ legActive s p l.seg = true then { l with state := .ended } else l)
          ∧ t.seg g = { s.seg g with waiters := others }
          ∧ (∀ h, h ≠ g → if legActive s p h then LegGivenUp s t h else t.seg h = s.seg h)
          ∧ Recorded .holdExpired (some (.port p)) (some (.seg g)) ((s.port p).snapshot.map (·.slot)) 0#16 s t
          ∧ OnlyPortSegsNotices p s t)
    ∧ (∀ (s : State) (p : Port), s.run = .running → (s.port p).phase = .awaitGrant → (s.port p).hold.isSome = true →
      (∀ h, .port p ∉ (s.seg h).waiters) → activeSegs s p = [] → ownedSegs s p ≠ [] → (s.port p).addrWait = none →
      Settled s → TimersLaw s →
      After (.holdExpired p) s fun t =>
        (t.port p).phase = .drain ∧ (t.port p).ackOut = some .nack ∧ (t.port p).sclHeld = false
          ∧ (t.port p).hold = none ∧ (t.port p).snapshot = (s.port p).snapshot
          ∧ (t.port p).legs
            = (s.port p).legs.map (fun l => if l.state = .claiming then { l with state := .ended } else l)
          ∧ t.segs = s.segs
          ∧ Recorded .holdExpired (some (.port p)) ((Seg.list.find? fun h => owns s p h).map .seg)
            ((s.port p).snapshot.map (·.slot)) 0#16 s t
          ∧ OnlyPortSegsNotices p s t)

/-- R59, R63: an edge of upstream SCL restarts a running stall timer with the working limit; the sixteenth while a read byte is supplied ends its
eighth bit and takes the byte into the upstream value. In a management read (R163) the edges of the byte now supplied are counted, up to sixteen.
R60: the stall timer's expiry ends every ACTIVE leg, enters OFF_BUS with the open mark set and the upstream value as it is, discards the snapshot and
the pointer, and records STALL with the lowest segment owned.
(Where the spec leaves it open, as the model chose: log 11, 16, 39.) -/
def Obligations.StallTimer : Prop :=
  (∀ (s : State) (p : Port), s.run = .running →
      exec (.upstreamSclEdge p) s = .next (s.updPort p fun r =>
        { r with
          stall := if r.stall.isSome then some s.working.params.stallLimit else none
          readStage := match r.readStage with
            | .supplying b n => .supplying b (if n < 16 then n + 1 else n)
            | other => other
          up := match r.readStage with
            | .supplying b 15 => crc8 r.up b
            | _ => r.up
          readPos := r.readPos.map fun m => { m with edges := if m.edges < 16 then m.edges + 1 else m.edges } }))
    ∧ (∀ (s : State) (p : Port), s.run = .running → (s.port p).stall.isSome = true → TimersLaw s → LegsPaused s p →
      After (.stall p) s fun t =>
        (t.port p).phase = .offBus ∧ (t.port p).isOpen = (s.port p).isOpen ∧ (t.port p).snapshot = none
          ∧ (t.port p).pointer = none ∧ (t.port p).held = none ∧ (t.port p).stall = none
          ∧ (t.port p).up = (s.port p).up
          ∧ (t.port p).sdaByte = none ∧ (t.port p).legs = endedLegs s p
          ∧ (∀ g, t.seg g =
            if legActive s p g then { closing none s.working.params.clockLimit (s.seg g) with legSlot := none }
            else if owns s p g then { s.seg g with legSlot := none } else s.seg g)
          ∧ Recorded .stall (some (.port p)) ((Seg.list.find? fun g => owns s p g).map .seg)
            ((s.port p).snapshot.map (·.slot)) 0#16 s t
          ∧ OnlyPortSegsNotices p s t)

/-! ### Segments (R96, R106, R109 to R119) -/

/-- R109, R64, R7: a leg that may start has its START and target address placed: both lines high, or a kept leg, which makes no line check. A
fresh START begins the leg's value anew, a repeated START carries it on.
R110, R34, R97: lines found low before the START of an EXCLUSIVE leg: the segment is taken into RECOVERING with no owner, SEG_TIMEOUT with
detail LINES_LOW is recorded, its waiters stay, and the abort counts as a NACK in the address join: a single leg's address is NACKed into DRAIN.
R109, R110, R114: in SHARED mode a leg whose segment has the foreign-busy mark set goes on waiting, and nothing changes. With the mark clear, lines
found low before its START begin no recovery and record nothing: the leg waits, and the quiet timer runs over them.
(Where the spec leaves it open, as the model chose: log 16, 21, 30.) -/
def Obligations.LegOpen : Prop :=
  (∀ (s : State) (p : Port) (g : Seg) (lines : Lines) (o : Opening) (sn : Snapshot), LegAt s p g (.addressing o) →
      (s.port p).snapshot = some sn → TimersLaw s →
      (o = .waitFresh ∧ lines = ⟨true, true⟩ ∧ ((s.seg g).mode = .exclusive ∨ (s.seg g).foreignBusy = false))
        ∨ o = .waitRepeated →
      After (.legOpen g lines) s fun t =>
        t.port p = { s.port p with
            legs := (s.port p).legs.map fun l =>
              if l.seg == g then
                { l with
                  down := crc8 (if o = .waitFresh then 0xFF#8 else l.down)
                    (match (s.port p).dir with | .write => sn.entry.target ++ 0#1 | .read => sn.entry.target ++ 1#1),
                  retryLimit := some (l.retryLimit.getD s.working.params.retries) }
              else l }
          ∧ t.seg g = { s.seg g with
              activity := some (.addressing .placed), clock := some s.working.params.clockLimit,
              lines := if o = .waitFresh then lines else (s.seg g).lines, quiet := (t.seg g).quiet }
          ∧ (∀ h, h ≠ g → t.seg h = s.seg h) ∧ OnlyPortSegs p s t)
    ∧ (∀ (s : State) (p : Port) (g : Seg) (lines : Lines), LegAt s p g (.addressing .waitFresh) →
      lines.bothHigh = false → (s.seg g).mode = .exclusive → AbortMet s p g (.addressing .waitFresh) → Settled s →
      TimersLaw s →
      After (.legOpen g lines) s fun t =>
        AbortAnswered s t p g (.addressing .waitFresh) ∧ t.seg g = { seized s g with lines := lines }
          ∧ Recorded .segTimeout (some (.port p)) (some (.seg g)) (s.seg g).legSlot 0x0002#16 s t
          ∧ OnlyPortSegsNotices p s t)
    ∧ (∀ (s : State) (p : Port) (g : Seg) (lines : Lines), LegAt s p g (.addressing .waitFresh) →
      (s.seg g).mode = .shared →
      ((s.seg g).foreignBusy = true → exec (.legOpen g lines) s = .next s)
        ∧ ((s.seg g).foreignBusy = false → lines.bothHigh = false → (s.seg g).cond = .owned → TimersLaw s →
          After (.legOpen g lines) s fun t =>
            t.seg g = { s.seg g with
                lines := lines, quiet := some ((s.seg g).quiet.getD s.working.params.clockLimit) }
              ∧ OnlySeg g s t))

/-- R33, R79, R80: the target's acknowledge. With a leg still to answer only this leg's side changes; with every leg of the set ACKed the part ACKs
and enters WRITE or READ; with a leg of it lost the part NACKs and enters the data phase with the rest; with none left it enters DRAIN.
R79: an acknowledge that comes while a higher segment is still to be granted changes that leg's side only.
(Where the spec leaves it open, as the model chose: log 16.) -/
def Obligations.TargetAck : Prop :=
  (∀ (s : State) (p : Port) (g : Seg) (a : Ack) (sn : Snapshot), LegAt s p g (.addressing .placed) →
    (s.port p).phase = .awaitTarget → (s.port p).sclHeld = true → (s.port p).snapshot = some sn → TimersLaw s →
    legActive s p g = true → (∀ h, legActive s p h = true → sn.entry.segs.get h = true) →
    After (.targetAck g a) s fun t =>
      (∀ h, legActive t p h = (legActive s p h && (h != g || a == .ack)))
        ∧ t.seg g = (match a with
          | .ack => { s.seg g with activity := some .paused, clock := none }
          | .nack => { s.seg g with
              activity := some (.closing none), clock := some s.working.params.clockLimit })
        ∧ (∀ h, h ≠ g → t.seg h = s.seg h) ∧ OnlyPortSegs p s t
        ∧ ((∃ h, legActive t p h = true ∧ (t.seg h).activity ≠ some .paused) →
          t.port p = { s.port p with legs := (t.port p).legs })
        ∧ ((∀ h, legActive t p h = true → (t.seg h).activity = some .paused) →
          (t.port p).sclHeld = false ∧ (t.port p).hold = none
            ∧ (t.port p).ackOut
              = some (if activeSegs t p = PerSeg.members sn.entry.segs then .ack else .nack)
            ∧ (t.port p).phase
              = (if activeSegs t p = [] then .drain
                else match (s.port p).dir with | .write => .write | .read => .read)
            ∧ (t.port p).count = (s.port p).count ∧ (t.port p).snapshot = some sn))
    ∧ (∀ (s : State) (p : Port) (g : Seg) (a : Ack), LegAt s p g (.addressing .placed) →
      (s.port p).phase = .awaitGrant → (s.port p).sclHeld = true → TimersLaw s → legActive s p g = true →
      After (.targetAck g a) s fun t =>
        t.port p = { s.port p with legs := (t.port p).legs }
          ∧ (∀ h, legActive t p h = (legActive s p h && (h != g || a == .ack)))
          ∧ (a = .ack → (t.port p).legs = (s.port p).legs)
          ∧ t.seg g = (match a with
            | .ack => { s.seg g with activity := some .paused, clock := none }
            | .nack => { s.seg g with
                activity := some (.closing none), clock := some s.working.params.clockLimit })
          ∧ (∀ h, h ≠ g → t.seg h = s.seg h) ∧ OnlyPortSegs p s t)

/-- R96, R108, R109: the closing STOP releases the segment: DISABLED when it was pending disable, else to its oldest waiter, and else IDLE with no
owner. A record's leg waits to place its fresh START; MGMT becomes the owner of a recovery that begins at once (R95, R179). The other waiters stay in
order.
R19, R59: of the releasing port's record the ENDED leg leaves, the stall timer stops unless it owns another segment, and nothing else changes.
(Where the spec leaves it open, as the model chose: log 14, 18.) -/
def Obligations.StopPlaced : Prop :=
  ∀ (s : State) (p : Port) (g : Seg) (check : Option Byte), LegAt s p g (.closing check) → TimersLaw s →
    (s.seg g).cond = .owned →
    (Uncontended s →
      After (.stopPlaced g) s fun t =>
        t.seg g = { released s g with quiet := (t.seg g).quiet } ∧ t.port p = leftSegment s p g
          ∧ (∀ h, h ≠ g → t.seg h = s.seg h) ∧ OnlyPortSegs p s t)
      ∧ ∀ others, (s.seg g).pendingDisable = false → (∀ h, h ≠ g → (s.seg h).waiters = []) →
        (∀ r, (s.port r).addrWait = none) → (s.port p).phase ≠ .awaitGrant →
        (∀ q, q ≠ p → (s.seg g).waiters = .port q :: others → .port q ∉ others → (s.port q).phase = .awaitGrant →
          claimingSegs s q = [g] →
          After (.stopPlaced g) s fun t =>
            t.seg g = { released s g with
                owner := some (.port q), waiters := others, cond := .owned,
                activity := some (.addressing .waitFresh), legSlot := (s.port q).snapshot.map (·.slot),
                speed := (s.working.params.segs.get g).speed, quiet := (t.seg g).quiet }
              ∧ t.port p = leftSegment s p g
              ∧ t.port q = { s.port q with
                  phase := .awaitTarget,
                  legs := (s.port q).legs.map fun l =>
                    if l.seg == g then { l with state := .active, down := 0xFF#8 } else l,
                  stall := (t.port q).stall }
              ∧ (∀ h, h ≠ g → t.seg h = s.seg h) ∧ t = { s with ports := t.ports, segs := t.segs })
          ∧ ((s.seg g).waiters = .mgmt :: others → .mgmt ∉ others → (∀ r, (s.port r).phase ≠ .awaitGrant) →
            After (.stopPlaced g) s fun t =>
              t.seg g = { seized s g with owner := some .mgmt, waiters := others } ∧ t.port p = leftSegment s p g
                ∧ (∀ h, h ≠ g → t.seg h = s.seg h) ∧ OnlyPortSegs p s t)

/-- R98, R99, R31, R81, R36: a segment that comes to refuse while a record waits for it, FAULTED by a third failed attempt (at its check with
no SEGMENT-DISABLE due, and at the clock limit's expiry), or marked by SEGMENT-DISABLE or by a COMMIT or a LOAD-BANK with service OUT: the waiter is refused at that event, its address phase ends with NACK, DRAIN and SEG_REFUSED naming the
segment, and the segments already granted to it are given up.
R98, R180, R134, R148: MGMT waiting there has its SEGMENT-RESET answered RECOVERY_FAILED with the segment and its fault count, or SEG_DISABLED, before the
response of the command that marked the segment.
(Where the spec leaves it open, as the model chose: log 14, 37, 40.) -/
def Obligations.WaitersRefused : Prop :=
  (∀ (s : State) (g : Seg) (q : Port) (sn : Snapshot), s.run = .running → WaitsAlone s q g [] →
      (s.port q).snapshot = some sn → TimersLaw s →
      (s.seg g).cond = .owned ∨ (s.seg g).cond = .recovering → (s.seg g).pendingDisable = false →
      ∀ (c : Instr) (p : Port) (lines : Lines) (tag : Byte) (payload : List Byte) (rest : List QEntry),
      ((c = .clockLimitExpiry g ∨ (c = .recoveryAttemptEnd g lines ∧ lines.bothHigh = false ∧ disableDue g s = false))
          ∧ (s.seg g).cond = .recovering ∧ (s.seg g).owner = none ∧ (s.seg g).attempts = 2)
        ∨ (c = .segmentDisable ∧ HeadFrame s p .segmentDisable tag [byteOf (segNumber g)] rest)
        ∨ (c = .commit ∧ HeadFrame s p .commit tag payload rest
          ∧ (s.session.any fun e => e.owner == p && (validate s.strap e.staging.fields).isNone
            && (e.staging.params.segs.get g).service == .outOfService) = true)
        ∨ (c = .loadBank ∧ s.session = none ∧ s.store.phase = .idle
          ∧ ∃ b, HeadFrame s p .loadBank tag [bankCode b] rest ∧ bankValid s.strap (s.store.banks.get b) = true
            ∧ ((imageFieldsOf (s.store.banks.get b).image).toImage.params.segs.get g).service = .outOfService) →
      After c s fun t =>
        ClaimRefused s t q ∧ (t.seg g).waiters = [] ∧ (t.seg g).refuses = true
          ∧ (c ≠ .commit → c ≠ .loadBank → ∀ h, legActive s q h = true → LegGivenUp s t h)
          ∧ (s.notices.length ≤ 30 →
            t.notices.getLast?.map Notice.told
              = some (.segRefused, some (.port q), some (.seg g), some sn.slot, 0#16)))
    ∧ (∀ (s : State) (g : Seg) (p r : Port) (tag tag' : Byte) (rest : List QEntry), s.run = .running →
      (∀ h, (s.seg h).waiters = if h = g then [.mgmt] else []) →
      (∀ q, (s.port q).addrWait = none ∧ (s.port q).phase ≠ .awaitGrant) → TimersLaw s → s.segResets = [⟨g, r, tag⟩] →
      (s.seg g).pendingDisable = false → (s.seg g).owner ≠ some .mgmt →
      ((s.seg g).cond = .recovering → (s.seg g).owner = none → (s.seg g).attempts = 2 → (s.seg g).faults < 255 →
        ∀ c lines, c = .clockLimitExpiry g
          ∨ (c = .recoveryAttemptEnd g lines ∧ lines.bothHigh = false ∧ disableDue g s = false) →
        After c s fun t =>
          (t.seg g).cond = .faulted ∧ (t.seg g).waiters = [] ∧ t.segResets = []
            ∧ t.ports
              = (answered r .recoveryFailed tag [byteOf (segNumber g), byteOf ((s.seg g).faults + 1)] [] s).ports)
      ∧ (HeadFrame s p .segmentDisable tag' [byteOf (segNumber g)] rest →
        (s.seg g).cond = .owned ∨ (s.seg g).cond = .recovering →
        After .segmentDisable s fun t =>
          (t.seg g).pendingDisable = true ∧ (t.seg g).waiters = [] ∧ t.segResets = [] ∧ t.cmdQueue = rest
            ∧ t.ports = (answered p .ok tag' [byteOf (segNumber g), condCode (s.seg g).cond, 0x01#8] []
              (answered r .segDisabled tag [byteOf (segNumber g)] [] s)).ports)
      ∧ ∀ (c : Instr) (i : Image) (payload answer : List Byte),
        (c = .commit ∧ HeadFrame s p .commit tag' payload rest ∧ s.session = some ⟨p, i⟩ ∧ answer = []
            ∧ validate s.strap i.fields = none
          ∨ c = .loadBank ∧ s.session = none ∧ s.store.phase = .idle ∧ ∃ b, HeadFrame s p .loadBank tag' [bankCode b] rest
            ∧ bankValid s.strap (s.store.banks.get b) = true ∧ i = (imageFieldsOf (s.store.banks.get b).image).toImage
            ∧ answer = bankCode b :: bytes4 (s.store.banks.get b).header.generation.toNat) →
        (i.params.segs.get g).service = .outOfService → (s.seg g).cond = .owned ∨ (s.seg g).cond = .recovering →
        After c s fun t =>
          (t.seg g).pendingDisable = true ∧ (t.seg g).waiters = [] ∧ t.segResets = [] ∧ t.cmdQueue = rest
            ∧ t.working = i
            ∧ t.ports = (answered p .ok tag' answer []
              (answered r .segDisabled tag [byteOf (segNumber g)] [] s)).ports)

/-- R96, R97, R119: a recovery that succeeds with no SEGMENT-DISABLE due, with no owner or under MGMT, releases the segment to its
oldest waiter: a record's leg waits to place its fresh START, and, being its last, AWAIT_TARGET is entered; MGMT becomes the owner of a recovery that begins afresh.
R31, R79, R81, R93: a record granted the segment it waited for places its next claim: it is granted, joins the tail of the next segment's wait list,
or is refused, which gives up every segment already granted.
(Where the spec leaves it open, as the model chose: log 14, 40.) -/
def Obligations.WaitersGranted : Prop :=
  (∀ (s : State) (g : Seg) (q : Port) (others : List Claimant), s.run = .running → (s.seg g).cond = .recovering →
      (s.seg g).pendingDisable = false → (s.seg g).attempts < 3 → TimersLaw s → disableDue g s = false →
      (WaitsAlone s q g others → claimingSegs s q = [g] →
        ((s.seg g).owner = none ∧ s.segResets = []
          ∨ (s.seg g).owner = some .mgmt ∧ ∃ r tag, s.segResets = [⟨g, r, tag⟩]) →
        After (.recoveryAttemptEnd g ⟨true, true⟩) s fun t =>
          Granted s t q g ∧ (t.seg g).waiters = others ∧ (t.port q).phase = .awaitTarget
            ∧ (t.port q).sclHeld = (s.port q).sclHeld ∧ (t.port q).hold = (s.port q).hold
            ∧ (∀ h, h ≠ g → t.seg h = s.seg h) ∧ t.segResets = []
            ∧ (∀ x ∈ s.segResets, (t.port x.port).responses = (s.port x.port).responses
              ++ [⟨.ok, x.tag, [byteOf (segNumber g), byteOf ((s.seg g).attempts + 1)]⟩])
            ∧ Recorded .segRecovered none (some (.seg g)) none (BitVec.ofNat 16 ((s.seg g).attempts + 1)) s t)
      ∧ ((∀ h, (s.seg h).waiters = if h = g then [.mgmt] else []) → (s.seg g).owner = none →
        (∀ p, (s.port p).addrWait = none ∧ (s.port p).phase ≠ .awaitGrant) →
        After (.recoveryAttemptEnd g ⟨true, true⟩) s fun t =>
          (t.seg g).owner = some .mgmt ∧ (t.seg g).cond = .recovering ∧ (t.seg g).attempts = 0
            ∧ (t.seg g).waiters = [] ∧ t.segResets = s.segResets ∧ t.ports = s.ports
            ∧ (∀ h, h ≠ g → t.seg h = s.seg h)
            ∧ Recorded .segRecovered none (some (.seg g)) none (BitVec.ofNat 16 ((s.seg g).attempts + 1)) s t))
    ∧ (∀ (s : State) (p q : Port) (g k : Seg) (check : Option Byte), LegAt s p g (.closing check) → q ≠ p →
      (s.seg g).cond = .owned → (s.seg g).pendingDisable = false → (s.seg k).waiters = [] → TimersLaw s →
      WaitsAlone s q g [] → claimingSegs s q = [g, k] → owns s q k = false →
      After (.stopPlaced g) s fun t =>
        ((s.seg k).refuses = false → (s.seg k).free = true →
          Granted s t q g ∧ Granted s t q k ∧ (t.port q).phase = .awaitTarget
            ∧ (∀ h, h ≠ g → h ≠ k → t.seg h = s.seg h) ∧ KeepsNotices s t)
        ∧ ((s.seg k).refuses = false → (s.seg k).free = false →
          Granted s t q g ∧ t.seg k = { s.seg k with waiters := [.port q] } ∧ (t.port q).phase = .awaitGrant
            ∧ (t.port q).sclHeld = (s.port q).sclHeld ∧ (t.port q).hold = (s.port q).hold
            ∧ (∀ h, h ≠ g → h ≠ k → t.seg h = s.seg h) ∧ KeepsNotices s t)
        ∧ ((s.seg k).refuses = true →
          ClaimRefused s t q ∧ (t.seg g).owner = none ∧ (t.seg g).waiters = [] ∧ (t.seg g).cond = .idle
            ∧ t.seg k = s.seg k ∧ (∀ h, legActive s q h = true → LegGivenUp s t h)
            ∧ Recorded .segRefused (some (.port q)) (some (.seg k)) ((s.port q).snapshot.map (·.slot)) 0#16 s t))

/-- R115, R116, R117, R34, R55, R56: arbitration lost on a SHARED segment, at a bit the part leaves high: in an address byte, in a 1 bit of a
forwarded byte not yet placed whole, in a check byte, in the NACK of a fetch, or in a STOP. In the address byte with a retry left, the leg counts
it and waits for the foreign STOP; with none left, or at any other bit, the segment is released as FOREIGN with ARB_LOST, and the record answers as for any
abort, which counts as a NACK in the join of a fan-out address or byte (R80, R84).
R96, R117, R109: a waiter of that segment is granted it at the release, and waits for the foreign STOP.
R115: nothing is lost in EXCLUSIVE mode, at a bit the device drives (its acknowledge of a byte, a data byte being fetched), in a byte of 0 bits, or
while the part holds SCL or waits to place its START.
The clause for a leg with its START placed covers the acknowledge clock after the address byte as well, which R115 does not test and State does not tell
from the byte: for that clock the clause is the model's choice and no rule of the spec (log 31, DESIGN CHOICE, unsafe).
(Where the spec leaves it open, as the model chose: log 5, 17, 18, 21, 31, 36, 43.) -/
def Obligations.ArbLoss : Prop :=
  (∀ (s : State) (p : Port) (g : Seg) (act : Activity) (retried : Bool), LegAt s p g act → (s.seg g).mode = .shared →
    AbortMet s p g act →
    (act = .addressing .placed ∨ (∃ b, act = .writing b false ∧ b ≠ 0x00#8) ∨ act = .reading .check
      ∨ act = .reading .nackClock ∨ ∃ check, act = .closing check) → Settled s → TimersLaw s →
    retried = (act == .addressing .placed
      && (legOn s p g).any fun l => l.retryLimit.any fun n => decide (l.retries < n)) →
    (retried = true →
      After (.arbLoss g) s fun t =>
        t.port p = { s.port p with legs := (s.port p).legs.map fun l =>
            if l.seg == g then { l with retries := l.retries + 1, down := 0xFF#8 } else l }
          ∧ t.seg g = { s.seg g with
              activity := some (.addressing .waitFresh), foreignBusy := true, clock := none,
              quiet := (t.seg g).quiet }
          ∧ (∀ h, h ≠ g → t.seg h = s.seg h) ∧ OnlyPortSegs p s t)
      ∧ (retried = false → (s.seg g).waiters = [] →
        After (.arbLoss g) s fun t =>
          AbortAnswered s t p g act
            ∧ t.seg g = { s.seg g with
                owner := none, activity := none, legSlot := none, foreignBusy := false, newWatch := false,
                clock := none, pendingDisable := false, mode := (s.working.params.segs.get g).mode,
                cond := if (s.seg g).pendingDisable then .disabled
                  else if (s.working.params.segs.get g).mode = .shared then .foreign else .idle,
                quiet := (t.seg g).quiet }
            ∧ Recorded .arbLost (some (.port p)) (some (.seg g)) (s.seg g).legSlot
              (if act = .addressing .placed then 0x0001#16 else 0x0002#16) s t
            ∧ OnlyPortSegsNotices p s t)
      ∧ (∀ others, retried = false →
        (∀ q, q ≠ p → (s.seg g).waiters = .port q :: others → .port q ∉ others → (s.port q).phase = .awaitGrant →
          claimingSegs s q = [g] →
          After (.arbLoss g) s fun t =>
            AbortAnswered s t p g act ∧ Granted s t q g ∧ (t.seg g).waiters = others
              ∧ (t.seg g).foreignBusy = ((s.working.params.segs.get g).mode == .shared)
              ∧ (t.port q).phase = .awaitTarget ∧ (t.port q).sclHeld = (s.port q).sclHeld
              ∧ (t.port q).hold = (s.port q).hold
              ∧ Recorded .arbLost (some (.port p)) (some (.seg g)) (s.seg g).legSlot
                (if act = .addressing .placed then 0x0001#16 else 0x0002#16) s t)
          ∧ ((s.seg g).waiters = .mgmt :: others → .mgmt ∉ others →
            After (.arbLoss g) s fun t =>
              AbortAnswered s t p g act ∧ (t.seg g).owner = some .mgmt ∧ (t.seg g).waiters = others
                ∧ (t.seg g).activity = none ∧ (t.seg g).mode = (s.working.params.segs.get g).mode
                ∧ ((s.working.params.segs.get g).mode = .shared →
                  (t.seg g).cond = .owned ∧ (t.seg g).foreignBusy = true)
                ∧ ((s.working.params.segs.get g).mode = .exclusive →
                  (t.seg g).cond = .recovering ∧ (t.seg g).attempts = 0)
                ∧ Recorded .arbLost (some (.port p)) (some (.seg g)) (s.seg g).legSlot
                  (if act = .addressing .placed then 0x0001#16 else 0x0002#16) s t
                ∧ OnlyPortSegsNotices p s t)))
    ∧ ∀ (s : State) (p : Port) (g : Seg) (act : Activity), LegAt s p g act →
      ((s.seg g).mode = .exclusive ∨ (∃ b, act = .writing b true) ∨ act = .writing 0x00#8 false ∨ act = .reading .data
        ∨ act = .paused ∨ act = .addressing .waitFresh ∨ act = .addressing .waitRepeated) →
      exec (.arbLoss g) s = .next s

/-- R114, R110, R179: what a watched SHARED segment makes of another controller. Its START makes an IDLE segment FOREIGN and marks an OWNED one
foreign-busy; its STOP, or the quiet timer's end with both lines high, undoes both, and begins MGMT's sequence on a segment MGMT waits to recover.
A START is the row FOREIGN_START, or its edge: SDA falling under a high SCL. An SCL falling edge counts as one, and so does the rise that is the next
SCL edge of a SHARED segment enabled with SCL low (R121). A STOP is FOREIGN_STOP, or SDA rising
under a high SCL.
The quiet timer's end with a line low begins recovery: on an unowned segment with SEG_TIMEOUT; on a record's, with SEG_TIMEOUT LINES_LOW naming the
port and the slot, its address being given up; on MGMT's, under MGMT and with no notice.
(Where the spec leaves it open, as the model chose: log 24, 30, 45.) -/
def Obligations.ForeignConditions : Prop :=
  (∀ (s : State) (g : Seg) (kind : ForeignKind) (lines : Lines), s.run = .running → (s.seg g).watched = true →
      (s.seg g).owner ≠ some .mgmt → Uncontended s → TimersLaw s → ArbiterLaw s →
      (∀ c, c = .foreignStart g kind ∨ ForeignEdge s g kind c →
        After c s fun t =>
          t.seg g = { s.seg g with
              cond := if (s.seg g).owner = none then .foreign else .owned,
              foreignBusy := if (s.seg g).owner = none then (s.seg g).foreignBusy else true,
              newWatch := false,
              lines := (match kind with
                | .start => ⟨true, false⟩
                | .sclEdge => ⟨(s.seg g).newWatch && !(s.seg g).lines.scl, (s.seg g).lines.sda⟩),
              quiet := some s.working.params.clockLimit }
            ∧ OnlySeg g s t)
        ∧ (∀ c, c = .foreignStop g ∨ (c = .segmentLineEdge g .sda true ∧ (s.seg g).lines.scl = true)
            ∨ (c = .quietTimerExpiry g ⟨true, true⟩ ∧ (s.seg g).quiet.isSome = true) →
          After c s fun t =>
            t.seg g = { s.seg g with
                cond := if (s.seg g).owner = none then .idle else .owned,
                foreignBusy := false, newWatch := false, lines := ⟨true, true⟩, quiet := none }
              ∧ OnlySeg g s t)
        ∧ (lines.bothHigh = false → (s.seg g).quiet.isSome = true → (s.seg g).owner = none →
          After (.quietTimerExpiry g lines) s fun t =>
            (t.seg g).cond = .recovering ∧ (t.seg g).owner = none ∧ (t.seg g).attempts = 0 ∧ (t.seg g).quiet = none
              ∧ (t.seg g).lines = lines
              ∧ Recorded .segTimeout none (some (.seg g)) none 0x0002#16 s t
              ∧ t.ports = s.ports ∧ (∀ h, h ≠ g → t.seg h = s.seg h)))
    ∧ (∀ (s : State) (g : Seg) (lines : Lines), s.run = .running → (s.seg g).watched = true →
      Settled s → TimersLaw s → ArbiterLaw s →
      (∀ p, lines.bothHigh = false → (s.seg g).quiet.isSome = true → LegAt s p g (.addressing .waitFresh) →
        AbortMet s p g (.addressing .waitFresh) →
        After (.quietTimerExpiry g lines) s fun t =>
          AbortAnswered s t p g (.addressing .waitFresh) ∧ t.seg g = { seized s g with lines := lines }
            ∧ Recorded .segTimeout (some (.port p)) (some (.seg g)) (s.seg g).legSlot 0x0002#16 s t
            ∧ OnlyPortSegsNotices p s t)
        ∧ ((s.seg g).owner = some .mgmt →
          (∀ kind c, c = .foreignStart g kind ∨ ForeignEdge s g kind c → After c s fun t =>
            (t.seg g).owner = some .mgmt ∧ (t.seg g).cond = .owned ∧ (t.seg g).foreignBusy = true ∧ OnlySeg g s t)
            ∧ ∀ c seen, (c = .foreignStop g ∧ seen = ⟨true, true⟩)
                ∨ (c = .segmentLineEdge g .sda true ∧ (s.seg g).lines.scl = true ∧ seen = ⟨true, true⟩)
                ∨ (c = .quietTimerExpiry g lines ∧ seen = lines ∧ (s.seg g).quiet.isSome = true) →
              After c s fun t =>
                (t.seg g).cond = .recovering ∧ (t.seg g).owner = some .mgmt ∧ (t.seg g).attempts = 0
                  ∧ (t.seg g).lines = seen ∧ (t.seg g).attemptLimit = some s.working.params.clockLimit
                  ∧ (t.seg g).foreignBusy = false ∧ (t.seg g).quiet = none ∧ OnlySeg g s t))

/-- R112, R113, R97, R34, R55, R56: the clock limit expires on a leg: the segment is taken into RECOVERING with no owner and its waiters in order, with
SEG_TIMEOUT, detail HELD, and the record answers as for any abort, which counts as a NACK in the join of a fan-out address or byte (R80, R84).
R69, R37: an address byte that came before the single leg of a confirmed byte was lost is decided at the abort, by what it was found to be.
(Where the spec leaves it open, as the model chose: log 12, 13, 14, 18, 30, 43.) -/
def Obligations.ClockLimit : Prop :=
  (∀ (s : State) (p : Port) (g : Seg) (act : Activity), LegAt s p g act → (s.seg g).cond = .owned →
      (s.seg g).clock.isSome = true → AbortMet s p g act → Settled s → TimersLaw s →
      After (.clockLimitExpiry g) s fun t =>
        AbortAnswered s t p g act ∧ t.seg g = seized s g
          ∧ Recorded .segTimeout (some (.port p)) (some (.seg g)) (s.seg g).legSlot 0x0001#16 s t
          ∧ OnlyPortSegsNotices p s t)
    ∧ (∀ (s : State) (p : Port) (g : Seg) (b : Byte) (placed : Bool) (f : InFlight) (sn : Snapshot) (e : EarlyAddr) (c : Instr),
      LegAt s p g (.writing b placed) → (s.seg g).cond = .owned → (s.port p).phase = .write →
      (s.port p).inFlight = some f → f.after = .repeatedStart → (s.port p).snapshot = some sn →
      (s.port p).earlyAddr = some e → Uncontended s → TimersLaw s → (∀ h, owns s p h = true → h = g) →
      (∀ h, legActive s p h = true ↔ h = g) → (∀ l ∈ (s.port p).legs, l.marked = false ∧ l.state ≠ .claiming) →
      (c = .clockLimitExpiry g ∧ (s.seg g).clock.isSome = true ∨ c = .arbLoss g ∧ (s.seg g).mode = .shared
        ∧ placed = false ∧ b ≠ 0x00#8) →
      After c s fun t =>
        (t.port p).earlyAddr = none ∧ (t.port p).inFlight = none ∧ (t.port p).held = none ∧ (t.port p).dir = e.dir
          ∧ (t.port p).count = 0 ∧ (t.port p).addrWait = none
          ∧ (t.port p).up = crc8 (s.port p).up (match e.dir with | .write => e.addr ++ 0#1 | .read => e.addr ++ 1#1)
          ∧ (decideFound { s.port p with prevSlot := some sn.slot } e.addr e.dir e.found = .wait .miss →
            (t.port p).phase = .offBus ∧ (t.port p).ackOut = some .nack ∧ (t.port p).snapshot = none)
          ∧ (∀ w, decideFound { s.port p with prevSlot := some sn.slot } e.addr e.dir e.found = .wait w →
            (t.port p).sclHeld = false ∧ (t.port p).pointer = none ∧ (t.port p).snapshot = none)
          ∧ (∀ sn', decideFound { s.port p with prevSlot := some sn.slot } e.addr e.dir e.found = .routed sn' →
            (t.port p).snapshot = some sn'
              ∧ (t.port p).pointer = (if sn'.slot = sn.slot then (s.port p).pointer else none)))

/-- R118, R119, R97: a recovery attempt ends, at its final check with no SEGMENT-DISABLE due (log 40), or at a clock limit that expires in it, which fails
it; the sequence has no owner or is MGMT's. Both lines high: SEG_RECOVERED with the attempt's number, and the segment is IDLE with no owner, or DISABLED
when pending. Otherwise the attempt has failed: another begins below three, under the same owner, with no notice and no answer; and the third makes the
segment FAULTED with no owner and its fault count one higher, up to 255, with SEG_FAULTED.
R118, R119, R180: the end of a recovery that MGMT owns answers the SEGMENT-RESET handed off for it: OK with the attempt's number, or
RECOVERY_FAILED with the new fault count. With no owner nothing is answered.
R123, R97, R99: a SEGMENT-DISABLE of the segment that is due at an attempt's final check sets the mark first, whichever of the two is taken first, and
R97 settles it.
(Where the spec leaves it open, as the model chose: log 30, 40.) -/
def Obligations.RecoveryAttempt : Prop :=
  (∀ (s : State) (g : Seg) (r : Option SegReset) (c : Instr) (lines seen : Lines) (failed : Bool) (faults : Nat),
      s.run = .running → (s.seg g).cond = .recovering → (s.seg g).attempts < 3 → Uncontended s → TimersLaw s →
      ((s.seg g).owner = none ∧ r = none ∨ (s.seg g).owner = some .mgmt ∧ r = s.segResets.find? fun x => x.seg == g) →
      (c = .clockLimitExpiry g ∧ failed = true ∧ seen = (s.seg g).lines
        ∨ c = .recoveryAttemptEnd g lines ∧ disableDue g s = false ∧ failed = !lines.bothHigh ∧ seen = lines) →
      faults = (if (s.seg g).faults < 255 then (s.seg g).faults + 1 else (s.seg g).faults) →
      After c s fun t =>
        (∀ h, h ≠ g → t.seg h = s.seg h)
          ∧ t = { s with
              ports := t.ports, segs := t.segs, segResets := t.segResets, notices := t.notices, lost := t.lost,
              nextSeq := t.nextSeq }
          ∧ (failed = false →
            t.seg g = { s.seg g with
                owner := none, attempts := 0, attemptLimit := none, foreignBusy := false, lines := seen,
                mode := (s.working.params.segs.get g).mode, pendingDisable := false,
                cond := if (s.seg g).pendingDisable then .disabled else .idle }
              ∧ Recorded .segRecovered none (some (.seg g)) none (BitVec.ofNat 16 ((s.seg g).attempts + 1)) s t
              ∧ ResetAnswered s t g r .ok [byteOf (segNumber g), byteOf ((s.seg g).attempts + 1)])
          ∧ (failed = true → (s.seg g).attempts < 2 →
            t.seg g = { s.seg g with
                attempts := (s.seg g).attempts + 1, lines := seen, speed := (s.working.params.segs.get g).speed,
                attemptLimit := some s.working.params.clockLimit }
              ∧ OnlySeg g s t)
          ∧ (failed = true → (s.seg g).attempts = 2 →
            t.seg g = { s.seg g with
                owner := none, attempts := 0, attemptLimit := none, foreignBusy := false, lines := seen,
                faults := faults, pendingDisable := false, cond := .faulted }
              ∧ Recorded .segFaulted none (some (.seg g)) none (BitVec.ofNat 16 faults) s t
              ∧ ResetAnswered s t g r .recoveryFailed [byteOf (segNumber g), byteOf faults]))
    ∧ (∀ (s : State) (g : Seg) (lines : Lines) (p : Port) (tag : Byte) (rest : List QEntry),
      HeadFrame s p .segmentDisable tag [byteOf (segNumber g)] rest → (s.seg g).cond = .recovering →
      (s.seg g).pendingDisable = false → (∀ q, legActive s q g = false) →
      After .segmentDisable s fun t =>
        (t.seg g).cond = .recovering ∧ (t.seg g).pendingDisable = true ∧ t.cmdQueue = rest
          ∧ exec (.recoveryAttemptEnd g lines) s = exec (.recoveryAttemptEnd g lines) t)

/-- R111, R114: an edge on a segment's wire changes the level seen and restarts a running quiet timer. On SCL the rise stops the clock-limit timer; the
fall ends a NACK clock, after which SCL is held, and in any other transfer leads to the next release, with which the timer starts. On a watched
SHARED segment a falling SCL, or a falling SDA under a high SCL, makes IDLE FOREIGN and marks an OWNED segment foreign-busy. Nothing but that segment
changes.
R121: so does an SCL edge of either direction, where it is the first since the segment left DISABLED in SHARED mode.
R114, R121: on a watched segment the edge of a START, the falling edge of SCL, and that first SCL edge do what FOREIGN_START does, and the edge of a STOP,
SDA rising under a high SCL, does what FOREIGN_STOP does.
(Where the spec leaves it open, as the model chose: log 16, 17, 24, 45.) -/
def Obligations.SegmentLineEdge : Prop :=
  (∀ (s : State) (g : Seg) (wire : Wire) (high seen : Bool), s.run = .running → TimersLaw s →
    ¬((s.seg g).watched = true ∧ wire = .sda ∧ high = true ∧ (s.seg g).lines.scl = true) →
    seen = ((s.seg g).watched && (match wire with
      | .scl => !high || (s.seg g).newWatch
      | .sda => !high && (s.seg g).lines.scl)) →
    After (.segmentLineEdge g wire high) s fun t =>
      (t.seg g).lines = (match wire with
          | .scl => ⟨high, (s.seg g).lines.sda⟩
          | .sda => ⟨(s.seg g).lines.scl, high⟩)
        ∧ (t.seg g).owner = (s.seg g).owner ∧ (t.seg g).waiters = (s.seg g).waiters
        ∧ (t.seg g).cond = (if seen = true ∧ (s.seg g).cond = .idle then .foreign else (s.seg g).cond)
        ∧ (t.seg g).foreignBusy = (if seen = true ∧ (s.seg g).cond = .owned then true else (s.seg g).foreignBusy)
        ∧ (t.seg g).newWatch = ((s.seg g).newWatch && wire == .sda && !seen)
        ∧ (t.seg g).quiet = (if (t.seg g).quietRuns then some s.working.params.clockLimit else none)
        ∧ (t.seg g).activity = (if wire = .scl ∧ high = false ∧ (s.seg g).activity = some (.reading .nackClock)
          then some .paused else (s.seg g).activity)
        ∧ (t.seg g).clock = (match wire, high, (s.seg g).activity with
          | .sda, _, _ => (s.seg g).clock
          | .scl, true, _ => none
          | .scl, false, some (.reading .nackClock) => none
          | .scl, false, some (.addressing .placed) => some s.working.params.clockLimit
          | .scl, false, some (.writing _ _) => some s.working.params.clockLimit
          | .scl, false, some (.reading _) => some s.working.params.clockLimit
          | .scl, false, some (.closing _) => some s.working.params.clockLimit
          | .scl, false, _ => (s.seg g).clock)
        ∧ OnlySeg g s t)
    ∧ ∀ (s : State) (g : Seg), (s.seg g).watched = true →
      (∀ kind c, ForeignEdge s g kind c → exec c s = exec (.foreignStart g kind) s)
        ∧ ((s.seg g).lines.scl = true → exec (.segmentLineEdge g .sda true) s = exec (.foreignStop g) s)

/-! ### The executor and the reports (R159, R160, R170 to R176) -/

/-- R159, R160: an error entry at the head is answered with its status and tag; a frame whose command the issuing port's working privilege does
not admit is answered NOT_PERMITTED, and nothing else changes. -/
def Obligations.ErrorEntryAndPrivilege : Prop :=
  ∀ (s : State) (p : Port) (tag : Byte) (payload : List Byte) (rest : List QEntry), s.run = .running → s.executing = none →
    (∀ status, s.cmdQueue = .error p status tag :: rest →
      exec .errorEntry s = .next (answered p status tag [] rest s))
      ∧ ∀ pins c k, (c, k) ∈ [(Instr.identify, Command.identify), (.getStatus, .getStatus), (.readEntry, .readEntry),
          (.readParams, .readParams), (.takeNotices, .takeNotices), (.openEdit, .openEdit), (.putEntry, .putEntry),
          (.dropEntry, .dropEntry), (.putParam, .putParam), (.commit, .commit), (.abandon, .abandon),
          (.loadBank, .loadBank), (.saveBank, .saveBank), (.protectBank, .protectBank),
          (.unprotectBank true, .unprotectBank), (.unprotectBank false, .unprotectBank),
          (.segmentReset, .segmentReset), (.segmentDisable, .segmentDisable), (.segmentEnable, .segmentEnable),
          (.restart pins, .restart)] →
        s.cmdQueue = .frame p k tag payload :: rest →
        s.working.params.priv.get p = .none
          ∨ (s.working.params.priv.get p = .read ∧ k ∉ [Command.identify, .getStatus, .readEntry, .readParams, .takeNotices]) →
        exec c s = .next (answered p .notPermitted tag [] rest s)

/-- R172, R173, R174, R175: the four reports answer OK and change nothing but the two queues.
R176, R189: TAKE-NOTICES returns the oldest notices, at most n, with the lost counter, which it clears.
(Where the spec leaves it open, as the model chose: log 46, for the ignored bits of the settings bytes of a parameter block.) -/
def Obligations.Reports : Prop :=
  (∀ (s : State) (p : Port) (tag : Byte) (payload : List Byte) (rest : List QEntry),
      (HeadFrame s p .identify tag payload rest →
        exec .identify s = .next (answered p .ok tag
          ([0x57#8, 0x44#8, 0x04#8, 0x20#8, 0x01#8,
              (match s.store.cause with | .powerOn => 0x00#8 | .resetLine => 0x01#8 | .restart => 0x02#8),
              s.strap.setWidth 8,
              (match s.working.params.mgmt with | .fixed x => x | .strap => 0x2C#7 + s.strap.setWidth 7).setWidth 8]
            ++ originBytes s.origin
            ++ [storePhaseCode s.store.phase, (match s.store.op with | none => 0xFF#8 | some o => bankCode o.bank)]
            ++ recordBytes s.store.records.a ++ recordBytes s.store.records.b) rest s))
        ∧ (HeadFrame s p .getStatus tag payload rest →
          exec .getStatus s = .next (answered p .ok tag
            ([phaseCode (s.port .u0).phase, byteOf (creditsInUse s .u0), phaseCode (s.port .u1).phase,
                byteOf (creditsInUse s .u1)]
              ++ (Seg.list.map fun g =>
                [condCode (s.seg g).cond, ownerCode (s.seg g).owner, byteOf (s.seg g).waiters.length,
                  byteOf (s.seg g).faults, boolByte (s.seg g).pendingDisable]).flatten
              ++ [portCode (s.session.map (·.owner)), byteOf s.notices.length, byteOf s.lost]) rest s))
        ∧ (∀ n : Fin 32, HeadFrame s p .readEntry tag [0x00#8, byteOf n.val] rest →
          exec .readEntry s = .next (answered p .ok tag
            (0x00#8 :: byteOf n.val :: slotBytes (s.working.slots.getD n.val none)) rest s))
        ∧ (HeadFrame s p .readParams tag [0x00#8] rest →
          exec .readParams s = .next (answered p .ok tag (0x00#8 :: s.working.params.bytes) rest s))
        ∧ ∀ e, s.session = some e → e.owner = p →
          (∀ n : Fin 32, HeadFrame s p .readEntry tag [0x01#8, byteOf n.val] rest →
            exec .readEntry s = .next (answered p .ok tag
              (0x01#8 :: byteOf n.val :: slotBytes (e.staging.slots.getD n.val none)) rest s))
          ∧ (HeadFrame s p .readParams tag [0x01#8] rest →
            exec .readParams s = .next (answered p .ok tag (0x01#8 :: e.staging.params.bytes) rest s)))
    ∧ (∀ (s : State) (p : Port) (tag n : Byte) (rest : List QEntry), HeadFrame s p .takeNotices tag [n] rest →
      (1 ≤ n.toNat → n.toNat ≤ 4 →
        exec .takeNotices s = .next { answered p .ok tag
          (byteOf (min n.toNat s.notices.length) :: byteOf s.lost :: ((s.notices.take n.toNat).map Notice.bytes).flatten)
          rest s with notices := s.notices.drop n.toNat, lost := 0 })
        ∧ (n.toNat = 0 ∨ 4 < n.toNat → exec .takeNotices s = .next (answered p .badArg tag [0x01#8] rest s)))

/-! ### Editing the table (R125 to R132, R134, R135, R148) -/

/-- R126, R127, R128: OPEN-EDIT opens a session on a copy of the working image and starts the lease; with a session open it is EDIT_HELD with the
owner. The lease's expiry discards the session and records EDIT_LAPSED with its owner. A loss of supply closes any session.
(Where the spec leaves it open, as the model chose: log 9, for the loss of supply.) -/
def Obligations.EditSession : Prop :=
  ∀ (s : State) (p : Port) (tag : Byte) (payload : List Byte) (rest : List QEntry),
    (HeadFrame s p .openEdit tag payload rest →
      (s.session = none → exec .openEdit s = .next { answered p .ok tag [] rest s with
        session := some ⟨p, s.working⟩, lease := some s.working.params.lease })
        ∧ ∀ e, s.session = some e → exec .openEdit s = .next (answered p .editHeld tag [portByte e.owner] rest s))
      ∧ (After .supplyLoss s fun t => t.session = none ∧ t.lease = none)
      ∧ ∀ e, s.run = .running → s.session = some e → s.lease.isSome = true →
        After .editLapsed s fun t =>
          t.session = none ∧ t.lease = none ∧ Recorded .editLapsed (some (.port e.owner)) none none 0#16 s t
            ∧ t = { s with
              session := none, lease := none, notices := t.notices, lost := t.lost, nextSeq := t.nextSeq }

/-- R125, R129, R143, R148, R170, R171, R174, R175, R178, R181, R182: the checks that come before a command's effect, each answered with its status and
changing nothing else: an edit command without a session or from the port that is not its owner; a store command whose bank argument names
none, or on a store that is not IDLE; a segment command whose argument names none; and the reads of a table that names none, of a slot outside
0 to 31, and of a staging image that is not the port's own. -/
def Obligations.CommandRefusals : Prop :=
  ∀ (s : State) (p : Port) (tag : Byte) (payload : List Byte) (rest : List QEntry),
    (∀ c k, (c, k) ∈ [(Instr.putEntry, Command.putEntry), (.dropEntry, .dropEntry), (.putParam, .putParam),
        (.commit, .commit), (.abandon, .abandon)] → HeadFrame s p k tag payload rest →
      (s.session = none → exec c s = .next (answered p .noEdit tag [] rest s))
        ∧ ∀ e, s.session = some e → e.owner ≠ p →
          exec c s = .next (answered p .editHeld tag [portByte e.owner] rest s))
      ∧ (∀ c k, (c, k) ∈ [(Instr.loadBank, Command.loadBank), (.saveBank, .saveBank), (.protectBank, .protectBank),
          (.unprotectBank true, .unprotectBank), (.unprotectBank false, .unprotectBank)] →
        HeadFrame s p k tag payload rest →
        (1 < (payload.getD 0 0#8).toNat → exec c s = .next (answered p .badArg tag [0x01#8] rest s))
          ∧ ((payload.getD 0 0#8).toNat ≤ 1 → s.store.phase ≠ .idle →
            exec c s = .next (answered p .storeBusy tag [] rest s)))
      ∧ (∀ pins, HeadFrame s p .restart tag payload rest → s.store.phase ≠ .idle →
        exec (.restart pins) s = .next (answered p .storeBusy tag [] rest s))
      ∧ (∀ c k, (c, k) ∈ [(Instr.segmentReset, Command.segmentReset), (.segmentDisable, .segmentDisable),
          (.segmentEnable, .segmentEnable)] → HeadFrame s p k tag payload rest →
        3 < (payload.getD 0 0#8).toNat → exec c s = .next (answered p .badArg tag [0x01#8] rest s))
      ∧ (HeadFrame s p .readEntry tag payload rest → 1 < (payload.getD 0 0#8).toNat →
        exec .readEntry s = .next (answered p .badArg tag [0x01#8] rest s))
      ∧ (HeadFrame s p .readEntry tag payload rest → (payload.getD 0 0#8).toNat ≤ 1 → 31 < (payload.getD 1 0#8).toNat →
        exec .readEntry s = .next (answered p .badArg tag [0x02#8] rest s))
      ∧ (HeadFrame s p .readParams tag payload rest → 1 < (payload.getD 0 0#8).toNat →
        exec .readParams s = .next (answered p .badArg tag [0x01#8] rest s))
      ∧ ∀ c k, (c, k) ∈ [(Instr.readEntry, Command.readEntry), (.readParams, .readParams)] →
        HeadFrame s p k tag payload rest → payload.getD 0 0#8 = 0x01#8 → (payload.getD 1 0#8).toNat ≤ 31 →
        (s.session = none → exec c s = .next (answered p .noEdit tag [] rest s))
          ∧ ∀ e, s.session = some e → e.owner ≠ p →
            exec c s = .next (answered p .editHeld tag [portByte e.owner] rest s)

/-- R135: ABANDON from the owner discards the staging image, closes the session, stops the lease and answers OK; the working image, the origin
record and the Notice Log are as they were, and either port with FULL privilege may open the session again at once. From the other port it is
EDIT_HELD and the session stays, and with no session NO_EDIT. No command takes a session over: it keeps its owner until it is closed, which
only a COMMIT, an ABANDON, a lapse or a reset does. -/
def Obligations.Abandon : Prop :=
  (∀ (s : State) (p : Port) (tag : Byte) (payload : List Byte) (rest : List QEntry), HeadFrame s p .abandon tag payload rest →
    (∀ e, s.session = some e → e.owner = p →
      exec .abandon s = .next { answered p .ok tag [] rest s with session := none, lease := none })
      ∧ (∀ e, s.session = some e → e.owner ≠ p →
        exec .abandon s = .next (answered p .editHeld tag [portByte e.owner] rest s))
      ∧ (s.session = none → exec .abandon s = .next (answered p .noEdit tag [] rest s))
      ∧ ∀ e, s.session = some e → e.owner = p → After .abandon s fun t =>
        ∀ (q : Port) (tag' : Byte) (payload' : List Byte) (rest' : List QEntry), HeadFrame t q .openEdit tag' payload' rest' →
          exec .openEdit t = .next { answered q .ok tag' [] rest' t with
            session := some ⟨q, s.working⟩, lease := some s.working.params.lease })
    ∧ ∀ (s : State) (c : Instr) (e : Session), s.session = some e → c ≠ .supplyLoss → After c s fun t =>
      t.session.map (·.owner) = some e.owner
        ∨ (t.session = none ∧ (c = .commit ∨ c = .abandon ∨ c = .editLapsed ∨ (∃ pins, c = .powerOn pins)
          ∨ c = .resetLineLow ∨ (∃ pins, c = .resetLineRelease pins) ∨ (∃ pins, c = .restart pins)))

/-- R125, R129, R131: PUT-ENTRY from the owner sets one staging slot to the entry its bytes give, when each is in its set, and PUT-PARAM one staging
parameter; a slot outside 0 to 31, or an identifier that names no parameter, is BAD_ARG with index 1. The working image is unchanged.
R5, R129, R131, R192, R193: which bytes are in the set of each field of an entry, the step of the first that is not, and the entry they give; which
identifier names which parameter, and which values of its two bytes are in its range. -/
def Obligations.StagingEdits : Prop :=
  (∀ (s : State) (p : Port) (tag : Byte) (payload : List Byte) (rest : List QEntry) (e : Session), s.session = some e →
    e.owner = p →
    (HeadFrame s p .putEntry tag payload rest →
      (31 < (payload.getD 0 0#8).toNat → exec .putEntry s = .next (answered p .badArg tag [0x01#8] rest s))
        ∧ ((payload.getD 0 0#8).toNat ≤ 31 → ∀ k, entryStep (entryFieldsOf (payload.drop 1)) = some k →
          exec .putEntry s = .next (answered p .badArg tag [byteOf k] rest s))
        ∧ ((payload.getD 0 0#8).toNat ≤ 31 → entryStep (entryFieldsOf (payload.drop 1)) = none →
          exec .putEntry s = .next { answered p .ok tag [] rest s with
            session := some ⟨p, { e.staging with
              slots := e.staging.slots.set (payload.getD 0 0#8).toNat (some (entryFieldsOf (payload.drop 1)).toEntry) }⟩ }))
      ∧ (HeadFrame s p .putParam tag payload rest →
        (paramIdOf (payload.getD 0 0#8) = none → exec .putParam s = .next (answered p .badArg tag [0x01#8] rest s))
          ∧ ∀ i, paramIdOf (payload.getD 0 0#8) = some i →
            (setParam e.staging.params i (payload.getD 1 0#8) (payload.getD 2 0#8) = none →
              exec .putParam s = .next (answered p .badArg tag [0x02#8] rest s))
            ∧ ∀ q, setParam e.staging.params i (payload.getD 1 0#8) (payload.getD 2 0#8) = some q →
              exec .putParam s = .next { answered p .ok tag [] rest s with
                session := some ⟨p, { e.staging with params := q }⟩ }))
    ∧ (∀ (ports vaddr segs target access options low high limit len hi lo id : Byte) (f : EntryFields) (q : Params),
      f = entryFieldsOf [ports, vaddr, segs, target, access, options, low, high, limit, len] →
      entryStep f =
          (if ports.toNat = 0 ∨ 3 < ports.toNat then some 2
          else if vaddr.toNat < 0x08 ∨ 0x77 < vaddr.toNat then some 3
          else if target.toNat < 0x08 ∨ 0x77 < target.toNat then some 4
          else if access.toNat = 0 ∨ 3 < access.toNat then some 5
          else if 64 < len.toNat then some 7
          else if options.getLsbD 1 then some 8
          else none)
        ∧ (entryStep f = none → f.toEntry =
          { ports := ⟨ports.getLsbD 0, ports.getLsbD 1⟩
            vaddr := vaddr.setWidth 7
            segs := ⟨segs.getLsbD 0, segs.getLsbD 1, segs.getLsbD 2, segs.getLsbD 3⟩
            target := target.setWidth 7
            access := if access = 0x01#8 then .read else if access = 0x02#8 then .write else .readWrite
            window := if options.getLsbD 7 then some ⟨low, high⟩ else none
            writeLimit := if limit = 0x00#8 then none else some limit.toNat
            readLen := if len = 0x00#8 then none else some len.toNat
            check := if options.getLsbD 0 then .regen else .none })
        ∧ (∀ i, paramIdOf id = some i ↔ (id, i) ∈ [(0x01#8, ParamId.mgmt), (0x02#8, .priv .u0), (0x03#8, .priv .u1),
          (0x04#8, .alert .u0), (0x05#8, .alert .u1), (0x06#8, .holdLimit), (0x07#8, .stallLimit), (0x08#8, .clockLimit),
          (0x09#8, .retries), (0x0A#8, .lease), (0x10#8, .mode .s0), (0x11#8, .mode .s1), (0x12#8, .mode .s2),
          (0x13#8, .mode .s3), (0x14#8, .speed .s0), (0x15#8, .speed .s1), (0x16#8, .speed .s2), (0x17#8, .speed .s3),
          (0x18#8, .service .s0), (0x19#8, .service .s1), (0x1A#8, .service .s2), (0x1B#8, .service .s3)])
        ∧ setParam q .mgmt hi lo =
          (if hi = 0x00#8 then some { q with mgmt := .strap }
          else if hi = 0x01#8 ∧ 0x08 ≤ lo.toNat ∧ lo.toNat ≤ 0x77 then some { q with mgmt := .fixed (lo.setWidth 7) }
          else none)
        ∧ setParam q .stallLimit hi lo =
          (if 5 ≤ hi.toNat * 256 + lo.toNat ∧ hi.toNat * 256 + lo.toNat ≤ 1000 then
            some { q with stallLimit := hi.toNat * 256 + lo.toNat } else none)
        ∧ (∀ i, i ≠ .mgmt → i ≠ .stallLimit → hi ≠ 0x00#8 → setParam q i hi lo = none)
        ∧ (∀ p, setParam q (.priv p) 0x00#8 lo =
          if lo = 0x00#8 then some { q with priv := q.priv.set p .none }
          else if lo = 0x01#8 then some { q with priv := q.priv.set p .read }
          else if lo = 0x02#8 then some { q with priv := q.priv.set p .full } else none)
        ∧ (∀ p, setParam q (.alert p) 0x00#8 lo =
          if lo.toNat ≤ 1 then some { q with alert := q.alert.set p (lo == 0x01#8) } else none)
        ∧ setParam q .holdLimit 0x00#8 lo =
          (if 2 ≤ lo.toNat ∧ lo.toNat ≤ 250 then some { q with holdLimit := lo.toNat } else none)
        ∧ setParam q .clockLimit 0x00#8 lo =
          (if 1 ≤ lo.toNat ∧ lo.toNat ≤ 200 then some { q with clockLimit := lo.toNat } else none)
        ∧ setParam q .retries 0x00#8 lo = (if lo.toNat ≤ 7 then some { q with retries := lo.toNat } else none)
        ∧ setParam q .lease 0x00#8 lo =
          (if 1 ≤ lo.toNat ∧ lo.toNat ≤ 60 then some { q with lease := lo.toNat } else none)
        ∧ ∀ (g : Seg) (mode : SegMode) (speed : Speed) (service : Service), q.segs.get g = ⟨mode, speed, service⟩ →
          setParam q (.mode g) 0x00#8 lo =
              (if lo.toNat ≤ 1 then
                some { q with segs := q.segs.set g ⟨if lo = 0x01#8 then .shared else .exclusive, speed, service⟩ }
              else none)
            ∧ setParam q (.speed g) 0x00#8 lo =
              (if lo.toNat ≤ 1 then
                some { q with segs := q.segs.set g ⟨mode, if lo = 0x01#8 then .fast else .standard, service⟩ }
              else none)
            ∧ setParam q (.service g) 0x00#8 lo =
              (if lo.toNat ≤ 1 then
                some { q with segs := q.segs.set g ⟨mode, speed, if lo = 0x01#8 then .outOfService else .inService⟩ }
              else none))

/-- R130: DROP-ENTRY from the owner makes one staging slot empty and answers OK, whether or not it held an entry; a slot outside 0 to 31 is
BAD_ARG; the other slots are unchanged. Stages 1 and 2 of R125 come first. Validation passes over an emptied slot: it never names one, a
collision it finds is one between two other slots, and an image that passes goes on passing. -/
def Obligations.DropEntry : Prop :=
  ∀ (s : State) (p : Port) (tag slot : Byte) (rest : List QEntry),
    (s.run = .running → s.executing = none → s.cmdQueue = .frame p .dropEntry tag [slot] :: rest →
      s.working.params.priv.get p ≠ .full → exec .dropEntry s = .next (answered p .notPermitted tag [] rest s))
      ∧ (HeadFrame s p .dropEntry tag [slot] rest →
        (s.session = none → exec .dropEntry s = .next (answered p .noEdit tag [] rest s))
          ∧ ∀ e, s.session = some e →
            (e.owner ≠ p → exec .dropEntry s = .next (answered p .editHeld tag [portByte e.owner] rest s))
              ∧ (e.owner = p → 31 < slot.toNat → exec .dropEntry s = .next (answered p .badArg tag [0x01#8] rest s))
              ∧ (e.owner = p → slot.toNat ≤ 31 → ∀ dropped, dropped = e.staging.slots.set slot.toNat none →
                exec .dropEntry s = .next { answered p .ok tag [] rest s with
                  session := some ⟨p, { e.staging with slots := dropped }⟩ }
                  ∧ (∀ n, n ≠ slot.toNat → dropped[n]? = e.staging.slots[n]?)
                  ∧ (slot.toNat < e.staging.slots.length → dropped[slot.toNat]? = some none)
                  ∧ (∀ why n, validate s.strap { e.staging with slots := dropped }.fields = some (why, some n) →
                    n ≠ slot.toNat ∧ (why = .dupAddress → ∃ m x y, m < n ∧ m ≠ slot.toNat
                      ∧ e.staging.slots[m]? = some (some x) ∧ e.staging.slots[n]? = some (some y)
                      ∧ x.vaddr = y.vaddr ∧ ∃ q, x.ports.get q = true ∧ y.ports.get q = true))
                  ∧ (validate s.strap e.staging.fields = none →
                    validate s.strap { e.staging with slots := dropped }.fields = none)))

/-- R14, R15, R16: validation examines the entries in ascending slot order, each by the rule's checks in their order against the entries of the
lower-numbered slots, and then the parameter block: the first failure is what it reports, with the slot of an entry and none for a parameter, and
an image without one passes. -/
def Obligations.ValidationOrder : Prop :=
  ∀ (strap : BitVec 2) (f : ImageFields) (fails : Nat → Option Reason),
    (∀ n, fails n = match f.slots[n]? with
      | some (some e) => entryFailure strap f.params (lowerEntries f.slots n) e
      | _ => none) →
    (∀ why n, validate strap f = some (why, some n) ↔ fails n = some why ∧ ∀ m, m < n → fails m = none)
      ∧ (∀ why, validate strap f = some (why, none) ↔ (∀ n, fails n = none) ∧ paramsFailure f.params = some why)
      ∧ (validate strap f = none ↔ (∀ n, fails n = none) ∧ paramsFailure f.params = none)

/-- R132, R134, R10: a COMMIT whose staging image passes validation makes it the working image with the origin EDITED, closes the session and answers
OK; every segment takes the new service (R99, R100) and, where it may, the new mode (R108), and the waiters of a segment whose service stays IN stay
(R104; of one that goes OUT: WaitersRefused); one that fails is answered INVALID with the reason and slot, and nothing changes.
(Where the spec leaves it open, as the model chose: log 32, 37, 45.) -/
def Obligations.Commit : Prop :=
  ∀ (s : State) (p : Port) (tag : Byte) (payload : List Byte) (rest : List QEntry) (e : Session),
    HeadFrame s p .commit tag payload rest → s.session = some e → e.owner = p → Settled s → TimersLaw s →
    (validate s.strap e.staging.fields = none →
      (∀ g, (e.staging.params.segs.get g).service = .outOfService → (s.seg g).waiters = []) →
      After .commit s fun t =>
        t.working = e.staging ∧ t.origin = .edited ∧ t.session = none ∧ t.lease = none ∧ t.cmdQueue = rest
          ∧ t.store = { s.store with originMark := false } ∧ KeepsNotices s t
          ∧ t.ports = (answered p .ok tag [] rest s).ports ∧ ServiceApplied s t e.staging)
      ∧ ∀ why slot, validate s.strap e.staging.fields = some (why, slot) →
        exec .commit s = .next (answered p .invalid tag [reasonCode why, slotCode slot] rest s)

/-- R148, R10, R8: LOAD-BANK of a valid bank makes its image the working image with that bank and generation as the origin, sets its record, and
applies service and mode to every segment as a COMMIT does, waiters of a segment whose service stays IN staying (R104; of one that goes OUT:
WaitersRefused); a bank that is not valid is BANK_INVALID with the reason and slot, its record INVALID
with the header's generation when the image fails and with none when the header is not good, and the working image and the segments stay; with a
session open it is EDIT_OPEN.
(Where the spec leaves it open, as the model chose: log 32, 37, 45.) -/
def Obligations.LoadBank : Prop :=
  ∀ (s : State) (p : Port) (tag arg : Byte) (rest : List QEntry) (b : Bank), HeadFrame s p .loadBank tag [arg] rest →
    arg = (match b with | .bankA => 0x00#8 | .bankB => 0x01#8) → s.store.phase = .idle → Settled s → TimersLaw s →
    (s.session.isSome = true → exec .loadBank s = .next (answered p .editOpen tag [] rest s))
      ∧ (s.session = none → bankValid s.strap (s.store.banks.get b) = true →
        (∀ g, ((imageFieldsOf (s.store.banks.get b).image).toImage.params.segs.get g).service = .outOfService →
          (s.seg g).waiters = []) →
        After .loadBank s fun t =>
          t.working = (imageFieldsOf (s.store.banks.get b).image).toImage
            ∧ t.origin = .bank b (s.store.banks.get b).header.generation.toNat ∧ t.cmdQueue = rest
            ∧ t.store.banks = s.store.banks ∧ t.store.phase = .idle
            ∧ t.store.records = s.store.records.set b ⟨true, some (s.store.banks.get b).header.generation.toNat,
              (s.store.records.get b).protected_⟩
            ∧ t.ports = (answered p .ok tag
              (arg :: bytes4 (s.store.banks.get b).header.generation.toNat) rest s).ports
            ∧ KeepsNotices s t ∧ t.session = none
            ∧ ServiceApplied s t (imageFieldsOf (s.store.banks.get b).image).toImage)
      ∧ (s.session = none → bankValid s.strap (s.store.banks.get b) = false →
        After .loadBank s fun t =>
          t.working = s.working ∧ t.origin = s.origin ∧ t.segs = s.segs ∧ t.cmdQueue = rest ∧ KeepsNotices s t
            ∧ t.store.banks = s.store.banks
            ∧ t.store.records = s.store.records.set b ⟨false,
              (if (s.store.banks.get b).header.good (s.store.banks.get b).image
                then some (s.store.banks.get b).header.generation.toNat else none),
              (s.store.records.get b).protected_⟩
            ∧ t.ports = (answered p .bankInvalid tag
              (if (s.store.banks.get b).header.good (s.store.banks.get b).image then
                (match validate s.strap (imageFieldsOf (s.store.banks.get b).image) with
                | some (why, slot) => [arg, reasonCode why, slotCode slot]
                | none => [])
              else [arg, reasonCode .badHeader, 0xFF#8]) rest s).ports)

/-! ### The store (R143 to R146, R149, R150) -/

/-- R144, R149, R150: with the Store Controller IDLE, SAVE-BANK of an unprotected bank begins ERASING with the working image in the snapshot buffer and
the next generation; PROTECT-BANK of a VALID bank, and UNPROTECT-BANK with SVC high, begin a cell write. No response is placed yet.
(Where the spec leaves it open, as the model chose: log 34.) -/
def Obligations.StoreOperationsBegin : Prop :=
  ∀ (s : State) (p : Port) (tag arg : Byte) (rest : List QEntry) (b : Bank) (high : Nat), s.store.phase = .idle →
    arg = (match b with | .bankA => 0x00#8 | .bankB => 0x01#8) →
    high = max (s.store.records.a.generation.getD 0) (s.store.records.b.generation.getD 0) →
    (HeadFrame s p .saveBank tag [arg] rest →
      ((s.store.records.get b).protected_ = true →
        exec .saveBank s = .next (answered p .bankProtected tag [arg] rest s))
      ∧ ((s.store.records.get b).protected_ = false → 0xFFFFFFFE ≤ high →
        exec .saveBank s = .next (answered p .storeExhausted tag [] rest s))
      ∧ ((s.store.records.get b).protected_ = false → high < 0xFFFFFFFE →
        After .saveBank s fun t =>
          t = { s with cmdQueue := rest, store := t.store }
            ∧ t.store.phase = .erasing ∧ t.store.op = some ⟨.save, b, p, tag⟩ ∧ t.store.buffer = some s.working
            ∧ t.store.newGeneration = some (high + 1) ∧ t.store.originMark = true
            ∧ (t.store.records.get b).valid = false ∧ (t.store.records.get b).protected_ = false
            ∧ (t.store.banks.get b).header = Header.erased
            ∧ (t.store.banks.get b).image = (s.store.banks.get b).image
            ∧ ∀ b', b' ≠ b → t.store.banks.get b' = s.store.banks.get b'
              ∧ t.store.records.get b' = s.store.records.get b'))
      ∧ (HeadFrame s p .protectBank tag [arg] rest →
        ((s.store.records.get b).valid = true →
          exec .protectBank s = .next { s with
            cmdQueue := rest, store := { s.store with op := some ⟨.protect, b, p, tag⟩, phase := .cellWrite } })
        ∧ ((s.store.records.get b).valid = false →
          exec .protectBank s = .next (answered p .bankInvalid tag [arg, reasonCode .notValid, 0xFF#8] rest s)))
      ∧ ∀ svc, HeadFrame s p .unprotectBank tag [arg] rest →
        exec (.unprotectBank svc) s = .next (if svc then
          { s with
            cmdQueue := rest, store := { s.store with op := some ⟨.unprotect, b, p, tag⟩, phase := .cellWrite } }
          else answered p .notService tag [] rest s)

/-- R145, R146: the completions of a SAVE in order: the image is erased, then written, then read back; a match leads to the header, a mismatch ends in
STORE_FAULT with the header erased; the header's completion makes the bank VALID under the new generation, moves the origin if the mark
stands, and answers OK.
R146, R140, 13.3: with the image written as it was saved, and valid under the held strap value, the bank that a completed SAVE leaves is valid, and its
image reads back as the saved one.
R149, R150: a cell write's completion leaves the cell and the bank record at the new value, SET for PROTECT and CLEAR for UNPROTECT, and answers OK.
(Where the spec leaves it open, as the model chose: log 8, 25, 46.) -/
def Obligations.StoreCompletions : Prop :=
  (∀ (s : State) (o : StoreOp) (i : Image) (n : Nat) (readBack : List Byte), s.run = .running → s.store.op = some o →
      s.store.buffer = some i → s.store.newGeneration = some n →
      (s.store.phase = .erasing → After .erasingComplete s fun t =>
        t = { s with store := t.store } ∧ t.store.phase = .writing
          ∧ t.store = { s.store with
              phase := .writing
              banks := s.store.banks.set o.bank { s.store.banks.get o.bank with image := List.replicate 336 0xFF#8 } })
        ∧ (s.store.phase = .writing → exec .writingComplete s = .next { s with
            store := { s.store with
              phase := .verifying
              banks := s.store.banks.set o.bank { s.store.banks.get o.bank with image := i.bytes } } })
        ∧ (s.store.phase = .verifying → readBack = i.bytes → exec (.verifyingComplete readBack) s = .next { s with
            store := { s.store with phase := .header } })
        ∧ (s.store.phase = .verifying → readBack ≠ i.bytes → readBack.length = 336 →
          After (.verifyingComplete readBack) s fun t =>
            t.store.phase = .idle ∧ t.store.op = none ∧ t.store.buffer = none ∧ t.store.newGeneration = none
              ∧ t.store.originMark = false ∧ t.origin = s.origin ∧ t.working = s.working
              ∧ t.store.records = s.store.records
              ∧ t.store.banks = s.store.banks.set o.bank
                { s.store.banks.get o.bank with image := readBack, header := Header.erased }
              ∧ t = { s with store := t.store, ports := (answered o.port .storeFault o.tag [bankCode o.bank] [] s).ports })
        ∧ (s.store.phase = .header → After .headerComplete s fun t =>
          t.store.phase = .idle ∧ t.store.op = none ∧ t.store.buffer = none ∧ t.store.newGeneration = none
            ∧ t.store.originMark = false
            ∧ t.origin = (if s.store.originMark then .bank o.bank n else s.origin)
            ∧ t.store.records = s.store.records.set o.bank
              { s.store.records.get o.bank with valid := true, generation := some n }
            ∧ t.store.banks = s.store.banks.set o.bank { s.store.banks.get o.bank with
                header := ⟨0x7E42#16, BitVec.ofNat 32 n, crc16List i.bytes⟩ }
            ∧ t = { s with
                store := t.store, origin := t.origin,
                ports := (answered o.port .ok o.tag (bankCode o.bank :: bytes4 n) [] s).ports }))
    ∧ (∀ (s : State) (o : StoreOp), s.run = .running → s.store.op = some o → s.store.phase = .cellWrite →
      After .cellWriteComplete s fun t =>
        t.store.phase = .idle ∧ t.store.op = none
          ∧ t.store.banks = s.store.banks.set o.bank
            { s.store.banks.get o.bank with cell := decide (o.kind = .protect) }
          ∧ t.store.records = s.store.records.set o.bank
            { s.store.records.get o.bank with protected_ := decide (o.kind = .protect) }
          ∧ t = { s with store := t.store, ports := (answered o.port .ok o.tag [bankCode o.bank] [] s).ports })
    ∧ (∀ (s : State) (o : StoreOp) (i : Image) (n : Nat), s.run = .running → s.store.op = some o →
      s.store.buffer = some i → s.store.newGeneration = some n → s.store.phase = .header → 1 ≤ n → n ≤ 0xFFFFFFFE →
      (s.store.banks.get o.bank).image = i.bytes → i.slots.length = 32 → validate s.strap i.fields = none →
      After .headerComplete s fun t =>
        bankValid s.strap (t.store.banks.get o.bank) = true
          ∧ (t.store.banks.get o.bank).image.length = 336
          ∧ (imageFieldsOf (t.store.banks.get o.bank).image).toImage = i
          ∧ (t.store.banks.get o.bank).header.generation.toNat = n)

/-! ### Commands on segments (R99, R100, R178, R179, R181, R182) -/

/-- R178, R179, R181, R182: SEGMENT-RESET of a free EXCLUSIVE or a FAULTED segment is handed off and puts it in RECOVERING under MGMT; one
a record owns, or that recovers without an owner, has the claim at the tail of its wait list; one MGMT has already, as its owner or in its wait list, is
SEG_BUSY, one out of service SEG_DISABLED. SEGMENT-DISABLE and SEGMENT-ENABLE act by the segment's state and report it; a FAULTED segment is
refused.
R121, R108: a DISABLED segment that is enabled takes the working mode and speed, and in SHARED mode its watch begins: its next SCL edge is awaited, and
lines that are low start the quiet timer.
(Where the spec leaves it open, as the model chose: log 37, 45.) -/
def Obligations.SegmentCommands : Prop :=
  ∀ (s : State) (p : Port) (tag : Byte) (rest : List QEntry) (g : Seg), Settled s → TimersLaw s → ArbiterLaw s →
    (HeadFrame s p .segmentReset tag [byteOf (segNumber g)] rest →
      ((s.seg g).owner = some .mgmt ∨ .mgmt ∈ (s.seg g).waiters →
        exec .segmentReset s = .next (answered p .segBusy tag [byteOf (segNumber g)] rest s))
      ∧ ((s.seg g).owner ≠ some .mgmt → (s.seg g).cond = .disabled ∨ (s.seg g).pendingDisable = true →
        exec .segmentReset s = .next (answered p .segDisabled tag [byteOf (segNumber g)] rest s))
      ∧ ((s.seg g).owner = none → (s.seg g).pendingDisable = false →
        (s.seg g).cond = .idle ∨ (s.seg g).cond = .faulted →
        After .segmentReset s fun t =>
          (t.seg g).cond = .recovering ∧ (t.seg g).owner = some .mgmt ∧ (t.seg g).attempts = 0
            ∧ (t.seg g).activity = none ∧ (t.seg g).attemptLimit = some s.working.params.clockLimit
            ∧ (t.seg g).mode = (s.working.params.segs.get g).mode ∧ (t.seg g).speed = (s.working.params.segs.get g).speed
            ∧ (∀ h, h ≠ g → t.seg h = s.seg h)
            ∧ t = { s with cmdQueue := rest, segs := t.segs, segResets := s.segResets ++ [⟨g, p, tag⟩] })
      ∧ ((s.seg g).owner = none → (s.seg g).pendingDisable = false → (s.seg g).cond = .foreign →
        (s.working.params.segs.get g).mode = .shared → After .segmentReset s fun t =>
          (t.seg g).cond = .owned ∧ (t.seg g).owner = some .mgmt ∧ (t.seg g).activity = none
            ∧ (t.seg g).foreignBusy = true ∧ (∀ h, h ≠ g → t.seg h = s.seg h)
            ∧ t = { s with cmdQueue := rest, segs := t.segs, segResets := s.segResets ++ [⟨g, p, tag⟩] })
      ∧ ((∃ q, (s.seg g).owner = some (.port q)) ∨ ((s.seg g).owner = none ∧ (s.seg g).cond = .recovering) →
        (s.seg g).pendingDisable = false → .mgmt ∉ (s.seg g).waiters → After .segmentReset s fun t =>
          t.seg g = { s.seg g with waiters := (s.seg g).waiters ++ [.mgmt] } ∧ (∀ h, h ≠ g → t.seg h = s.seg h)
            ∧ t = { s with cmdQueue := rest, segs := t.segs, segResets := s.segResets ++ [⟨g, p, tag⟩] }))
      ∧ (HeadFrame s p .segmentDisable tag [byteOf (segNumber g)] rest →
        ((s.seg g).cond = .faulted →
          exec .segmentDisable s = .next (answered p .segFaulted tag [byteOf (segNumber g)] rest s))
        ∧ ((s.seg g).cond ≠ .faulted → (s.seg g).waiters = [] → After .segmentDisable s fun t =>
          ((s.seg g).owner = none → (s.seg g).cond ≠ .recovering → (t.seg g).cond = .disabled ∧ (t.seg g).quiet = none)
            ∧ ((s.seg g).owner ≠ none ∨ (s.seg g).cond = .recovering →
              (t.seg g).cond = (s.seg g).cond ∧ (t.seg g).pendingDisable = true ∧ (t.seg g).owner = (s.seg g).owner)
            ∧ (∀ h, h ≠ g → t.seg h = s.seg h)
            ∧ t = { answered p .ok tag [byteOf (segNumber g), condCode (t.seg g).cond, boolByte (t.seg g).pendingDisable]
                rest s with segs := t.segs }))
      ∧ (HeadFrame s p .segmentEnable tag [byteOf (segNumber g)] rest →
        ((s.seg g).cond = .faulted →
          exec .segmentEnable s = .next (answered p .segFaulted tag [byteOf (segNumber g)] rest s))
        ∧ ((s.seg g).cond ≠ .faulted → After .segmentEnable s fun t =>
          (t.seg g).cond = (if (s.seg g).cond = .disabled then .idle else (s.seg g).cond)
            ∧ (t.seg g).pendingDisable = false ∧ (t.seg g).owner = (s.seg g).owner
            ∧ (t.seg g).waiters = (s.seg g).waiters
            ∧ ((s.seg g).cond = .disabled →
              (t.seg g).mode = (s.working.params.segs.get g).mode ∧ (t.seg g).speed = (s.working.params.segs.get g).speed
                ∧ (t.seg g).foreignBusy = false
                ∧ (t.seg g).newWatch = ((s.working.params.segs.get g).mode == .shared)
                ∧ (t.seg g).quiet = (if (s.working.params.segs.get g).mode = .shared ∧ (s.seg g).lines.bothHigh = false
                  then some s.working.params.clockLimit else none))
            ∧ (∀ h, h ≠ g → t.seg h = s.seg h)
            ∧ t = { answered p .ok tag [byteOf (segNumber g), condCode (t.seg g).cond, boolByte (t.seg g).pendingDisable]
                rest s with segs := t.segs }))

end T420Obligations
end

