-- ==== Sys2Proof/Laws/State.lean ====
section
/-!
SUPPORT. One lemma for each field under each of the state's updates, so that no later proof unfolds a record update.
-/
namespace Sys2Proof

/-! ### Values held for a port, a segment, a bank -/

@[simp] theorem PerPort.get_set_self {α : Type} (v : PerPort α) (p : Port) (x : α) : (v.set p x).get p = x := by
  cases p <;> rfl

theorem PerPort.get_set_ne {α : Type} (v : PerPort α) {p q : Port} (x : α) (h : q ≠ p) :
    (v.set p x).get q = v.get q := by
  cases p <;> cases q <;> first | rfl | exact absurd rfl h

theorem PerPort.get_set {α : Type} (v : PerPort α) (p q : Port) (x : α) :
    (v.set p x).get q = if q = p then x else v.get q := by
  cases p <;> cases q <;> rfl

@[simp] theorem PerPort.set_get {α : Type} (v : PerPort α) (p : Port) : v.set p (v.get p) = v := by
  cases p <;> rfl

@[simp] theorem PerPort.set_set {α : Type} (v : PerPort α) (p : Port) (x y : α) : (v.set p x).set p y = v.set p y := by
  cases p <;> rfl

theorem PerPort.ext_get {α : Type} {v w : PerPort α} (h : ∀ p, v.get p = w.get p) : v = w := by
  cases v; cases w
  have h0 := h .u0
  have h1 := h .u1
  simp only [PerPort.get] at h0 h1
  rw [h0, h1]

@[simp] theorem PerPort.get_all {α : Type} (x : α) (p : Port) : (PerPort.all x).get p = x := by cases p <;> rfl

@[simp] theorem PerSeg.get_set_self {α : Type} (v : PerSeg α) (g : Seg) (x : α) : (v.set g x).get g = x := by
  cases g <;> rfl

theorem PerSeg.get_set_ne {α : Type} (v : PerSeg α) {g h : Seg} (x : α) (e : h ≠ g) : (v.set g x).get h = v.get h := by
  cases g <;> cases h <;> first | rfl | exact absurd rfl e

theorem PerSeg.get_set {α : Type} (v : PerSeg α) (g h : Seg) (x : α) :
    (v.set g x).get h = if h = g then x else v.get h := by
  cases g <;> cases h <;> rfl

@[simp] theorem PerSeg.set_get {α : Type} (v : PerSeg α) (g : Seg) : v.set g (v.get g) = v := by
  cases g <;> rfl

@[simp] theorem PerSeg.set_set {α : Type} (v : PerSeg α) (g : Seg) (x y : α) : (v.set g x).set g y = v.set g y := by
  cases g <;> rfl

theorem PerSeg.ext_get {α : Type} {v w : PerSeg α} (h : ∀ g, v.get g = w.get g) : v = w := by
  cases v; cases w
  have h0 := h .s0
  have h1 := h .s1
  have h2 := h .s2
  have h3 := h .s3
  simp only [PerSeg.get] at h0 h1 h2 h3
  rw [h0, h1, h2, h3]

@[simp] theorem PerSeg.get_all {α : Type} (x : α) (g : Seg) : (PerSeg.all x).get g = x := by cases g <;> rfl

@[simp] theorem PerBank.get_set_self {α : Type} (v : PerBank α) (b : Bank) (x : α) : (v.set b x).get b = x := by
  cases b <;> rfl

theorem PerBank.get_set {α : Type} (v : PerBank α) (b c : Bank) (x : α) :
    (v.set b x).get c = if c = b then x else v.get c := by
  cases b <;> cases c <;> rfl

@[simp] theorem Seg.mem_list (g : Seg) : g ∈ Seg.list := by cases g <;> decide

@[simp] theorem Port.mem_list (p : Port) : p ∈ Port.list := by cases p <;> decide

namespace Machine

/-! ### Access -/

@[simp] theorem State.port_updPort_self (s : State) (p : Port) (f : PortState → PortState) :
    (s.updPort p f).port p = f (s.port p) := by
  simp [State.port, State.updPort]

theorem State.port_updPort (s : State) (p q : Port) (f : PortState → PortState) :
    (s.updPort p f).port q = if q = p then f (s.port p) else s.port q := by
  simp only [State.port, State.updPort, PerPort.get_set]

@[simp] theorem State.port_updSeg (s : State) (g : Seg) (f : SegState → SegState) (p : Port) :
    (s.updSeg g f).port p = s.port p := rfl

@[simp] theorem State.seg_updPort (s : State) (p : Port) (f : PortState → PortState) (g : Seg) :
    (s.updPort p f).seg g = s.seg g := rfl

@[simp] theorem State.seg_updSeg_self (s : State) (g : Seg) (f : SegState → SegState) :
    (s.updSeg g f).seg g = f (s.seg g) := by
  simp [State.seg, State.updSeg]

theorem State.seg_updSeg (s : State) (g h : Seg) (f : SegState → SegState) :
    (s.updSeg g f).seg h = if h = g then f (s.seg g) else s.seg h := by
  simp only [State.seg, State.updSeg, PerSeg.get_set]

@[simp] theorem State.port_updStore (s : State) (f : Store → Store) (p : Port) : (s.updStore f).port p = s.port p := rfl

@[simp] theorem State.seg_updStore (s : State) (f : Store → Store) (g : Seg) : (s.updStore f).seg g = s.seg g := rfl

@[simp] theorem State.updStore_store (s : State) (f : Store → Store) : (s.updStore f).store = f s.store := rfl

/-! ### State.updPort -/

@[simp] theorem State.updPort_run (s : State) (p : Port) (f : PortState → PortState) : (s.updPort p f).run = s.run := rfl
@[simp] theorem State.updPort_strap (s : State) (p : Port) (f : PortState → PortState) : (s.updPort p f).strap = s.strap := rfl
@[simp] theorem State.updPort_working (s : State) (p : Port) (f : PortState → PortState) : (s.updPort p f).working = s.working := rfl
@[simp] theorem State.updPort_origin (s : State) (p : Port) (f : PortState → PortState) : (s.updPort p f).origin = s.origin := rfl
@[simp] theorem State.updPort_segs (s : State) (p : Port) (f : PortState → PortState) : (s.updPort p f).segs = s.segs := rfl
@[simp] theorem State.updPort_session (s : State) (p : Port) (f : PortState → PortState) : (s.updPort p f).session = s.session := rfl
@[simp] theorem State.updPort_lease (s : State) (p : Port) (f : PortState → PortState) : (s.updPort p f).lease = s.lease := rfl
@[simp] theorem State.updPort_store (s : State) (p : Port) (f : PortState → PortState) : (s.updPort p f).store = s.store := rfl
@[simp] theorem State.updPort_cmdQueue (s : State) (p : Port) (f : PortState → PortState) : (s.updPort p f).cmdQueue = s.cmdQueue := rfl
@[simp] theorem State.updPort_executing (s : State) (p : Port) (f : PortState → PortState) : (s.updPort p f).executing = s.executing := rfl
@[simp] theorem State.updPort_segResets (s : State) (p : Port) (f : PortState → PortState) : (s.updPort p f).segResets = s.segResets := rfl
@[simp] theorem State.updPort_notices (s : State) (p : Port) (f : PortState → PortState) : (s.updPort p f).notices = s.notices := rfl
@[simp] theorem State.updPort_lost (s : State) (p : Port) (f : PortState → PortState) : (s.updPort p f).lost = s.lost := rfl
@[simp] theorem State.updPort_nextSeq (s : State) (p : Port) (f : PortState → PortState) : (s.updPort p f).nextSeq = s.nextSeq := rfl
@[simp] theorem State.updPort_freeCtr (s : State) (p : Port) (f : PortState → PortState) : (s.updPort p f).freeCtr = s.freeCtr := rfl
@[simp] theorem State.updPort_pending (s : State) (p : Port) (f : PortState → PortState) : (s.updPort p f).pending = s.pending := rfl

/-! ### State.updSeg -/

@[simp] theorem State.updSeg_run (s : State) (g : Seg) (f : SegState → SegState) : (s.updSeg g f).run = s.run := rfl
@[simp] theorem State.updSeg_strap (s : State) (g : Seg) (f : SegState → SegState) : (s.updSeg g f).strap = s.strap := rfl
@[simp] theorem State.updSeg_working (s : State) (g : Seg) (f : SegState → SegState) : (s.updSeg g f).working = s.working := rfl
@[simp] theorem State.updSeg_origin (s : State) (g : Seg) (f : SegState → SegState) : (s.updSeg g f).origin = s.origin := rfl
@[simp] theorem State.updSeg_ports (s : State) (g : Seg) (f : SegState → SegState) : (s.updSeg g f).ports = s.ports := rfl
@[simp] theorem State.updSeg_session (s : State) (g : Seg) (f : SegState → SegState) : (s.updSeg g f).session = s.session := rfl
@[simp] theorem State.updSeg_lease (s : State) (g : Seg) (f : SegState → SegState) : (s.updSeg g f).lease = s.lease := rfl
@[simp] theorem State.updSeg_store (s : State) (g : Seg) (f : SegState → SegState) : (s.updSeg g f).store = s.store := rfl
@[simp] theorem State.updSeg_cmdQueue (s : State) (g : Seg) (f : SegState → SegState) : (s.updSeg g f).cmdQueue = s.cmdQueue := rfl
@[simp] theorem State.updSeg_executing (s : State) (g : Seg) (f : SegState → SegState) : (s.updSeg g f).executing = s.executing := rfl
@[simp] theorem State.updSeg_segResets (s : State) (g : Seg) (f : SegState → SegState) : (s.updSeg g f).segResets = s.segResets := rfl
@[simp] theorem State.updSeg_notices (s : State) (g : Seg) (f : SegState → SegState) : (s.updSeg g f).notices = s.notices := rfl
@[simp] theorem State.updSeg_lost (s : State) (g : Seg) (f : SegState → SegState) : (s.updSeg g f).lost = s.lost := rfl
@[simp] theorem State.updSeg_nextSeq (s : State) (g : Seg) (f : SegState → SegState) : (s.updSeg g f).nextSeq = s.nextSeq := rfl
@[simp] theorem State.updSeg_freeCtr (s : State) (g : Seg) (f : SegState → SegState) : (s.updSeg g f).freeCtr = s.freeCtr := rfl
@[simp] theorem State.updSeg_pending (s : State) (g : Seg) (f : SegState → SegState) : (s.updSeg g f).pending = s.pending := rfl

/-! ### State.updStore -/

@[simp] theorem State.updStore_run (s : State) (f : Store → Store) : (s.updStore f).run = s.run := rfl
@[simp] theorem State.updStore_strap (s : State) (f : Store → Store) : (s.updStore f).strap = s.strap := rfl
@[simp] theorem State.updStore_working (s : State) (f : Store → Store) : (s.updStore f).working = s.working := rfl
@[simp] theorem State.updStore_origin (s : State) (f : Store → Store) : (s.updStore f).origin = s.origin := rfl
@[simp] theorem State.updStore_ports (s : State) (f : Store → Store) : (s.updStore f).ports = s.ports := rfl
@[simp] theorem State.updStore_segs (s : State) (f : Store → Store) : (s.updStore f).segs = s.segs := rfl
@[simp] theorem State.updStore_session (s : State) (f : Store → Store) : (s.updStore f).session = s.session := rfl
@[simp] theorem State.updStore_lease (s : State) (f : Store → Store) : (s.updStore f).lease = s.lease := rfl
@[simp] theorem State.updStore_cmdQueue (s : State) (f : Store → Store) : (s.updStore f).cmdQueue = s.cmdQueue := rfl
@[simp] theorem State.updStore_executing (s : State) (f : Store → Store) : (s.updStore f).executing = s.executing := rfl
@[simp] theorem State.updStore_segResets (s : State) (f : Store → Store) : (s.updStore f).segResets = s.segResets := rfl
@[simp] theorem State.updStore_notices (s : State) (f : Store → Store) : (s.updStore f).notices = s.notices := rfl
@[simp] theorem State.updStore_lost (s : State) (f : Store → Store) : (s.updStore f).lost = s.lost := rfl
@[simp] theorem State.updStore_nextSeq (s : State) (f : Store → Store) : (s.updStore f).nextSeq = s.nextSeq := rfl
@[simp] theorem State.updStore_freeCtr (s : State) (f : Store → Store) : (s.updStore f).freeCtr = s.freeCtr := rfl
@[simp] theorem State.updStore_pending (s : State) (f : Store → Store) : (s.updStore f).pending = s.pending := rfl

end Machine
end Sys2Proof
end

