-- ==== Sys2Proof/Laws/Bus.lean ====
section
/-!
SUPPORT. What the shared operations can do, said once: every change an event of a bus or a timer makes is a sequence of the changes
of `BusChange`. One lemma for each operation; the laws of Safety.lean follow for all of them together.
-/
namespace Sys2Proof.Machine

/-- R12 for one port. -/
def PortState.lawful (r : PortState) : Prop := r.phase.unrouted = true → r.snapshot = none

/-- The credits a record holds itself: a frame in assembly and the responses waiting. -/
def PortState.credits (r : PortState) : Nat := one r.assembler.isSome + r.responses.length

/-- The changes an event of a bus or a timer is made of. -/
inductive BusChange : State → State → Prop where
  | refl (s : State) : BusChange s s
  | seq {s t u : State} : BusChange s t → BusChange t u → BusChange s u
  | port {s : State} {p : Port} {f : PortState → PortState} (hc : (f (s.port p)).credits ≤ (s.port p).credits)
      (hs : (s.port p).lawful → (f (s.port p)).lawful) : BusChange s (s.updPort p f)
  | seg {s : State} {g : Seg} {f : SegState → SegState} (h : (s.seg g).lawful → (f (s.seg g)).lawful) :
      BusChange s (s.updSeg g f)
  | note (s : State) (k : Kind) (p : Option PortPos) (g : Option SegPos) (n : Option Nat) (d : Half) :
      BusChange s (note k p g n d s)
  | lease (s : State) (l : Option Nat) : BusChange s { s with lease := l }
  | frame {s : State} {p : Port} (e : QEntry) (he : e.port = p) (h : (s.port p).assembler.isSome = true) :
      BusChange s { (s.updPort p fun r => { r with assembler := none }) with cmdQueue := s.cmdQueue ++ [e] }
  | openFrame {s : State} {p : Port} {f : PortState → PortState} (h : creditFree s p = true)
      (hr : (f (s.port p)).responses = (s.port p).responses)
      (hs : (s.port p).lawful → (f (s.port p)).lawful) : BusChange s (s.updPort p f)
  | answer {s : State} {g : Seg} {r : SegReset} (status : Status) (payload : List Byte)
      (h : s.segResets.find? (fun x => x.seg == g) = some r) :
      BusChange s
        (respond r.port status r.tag payload
          { s with segResets := s.segResets.filter fun x => !(x.seg == g) })

namespace BusChange

/-- A change of a record that touches neither its assembler, its responses, its phase nor its snapshot. -/
theorem port' {s : State} {p : Port} {f : PortState → PortState}
    (h : ∀ r, (f r).assembler = r.assembler ∧ (f r).responses = r.responses ∧ (f r).phase = r.phase
      ∧ (f r).snapshot = r.snapshot) : BusChange s (s.updPort p f) := by
  obtain ⟨h1, h2, h3, h4⟩ := h (s.port p)
  refine port ?_ ?_
  · simp only [PortState.credits, h1, h2]; exact Nat.le_refl _
  · intro hl; simpa only [PortState.lawful, h3, h4] using hl

/-- A change of a record to a phase that may hold a snapshot. -/
theorem portRouted {s : State} {p : Port} {f : PortState → PortState}
    (h : ∀ r, (f r).assembler = r.assembler ∧ (f r).responses = r.responses ∧ (f r).phase.unrouted = false) :
    BusChange s (s.updPort p f) := by
  obtain ⟨h1, h2, h3⟩ := h (s.port p)
  refine port ?_ ?_
  · simp only [PortState.credits, h1, h2]; exact Nat.le_refl _
  · intro _ hu; rw [h3] at hu; exact absurd hu (by decide)

/-- A change of a record that leaves it without a snapshot. -/
theorem portBare {s : State} {p : Port} {f : PortState → PortState}
    (h : (f (s.port p)).credits ≤ (s.port p).credits) (h3 : (f (s.port p)).snapshot = none) :
    BusChange s (s.updPort p f) :=
  port h fun _ _ => h3

/-- A change of a segment that touches neither its owner, its wait list nor its state. -/
theorem seg' {s : State} {g : Seg} {f : SegState → SegState}
    (h : ∀ c, (f c).owner = c.owner ∧ (f c).waiters = c.waiters ∧ (f c).cond = c.cond) :
    BusChange s (s.updSeg g f) := by
  refine seg ?_
  obtain ⟨h1, h2, h3⟩ := h (s.seg g)
  intro hl
  unfold SegState.lawful at *
  rw [h1, h2, h3]
  exact hl

/-- A fold of changes is a change. -/
theorem foldl {α : Type} {f : State → α → State} (h : ∀ t x, BusChange t (f t x)) :
    ∀ (l : List α) (s : State), BusChange s (l.foldl f s)
  | [], s => refl s
  | x :: l, s => seq (h s x) (foldl h l (f s x))

end BusChange

open BusChange

/-! ### Ops.lean -/

theorem busChange_notePort (k : Kind) (p : Port) (g : Option Seg) (n : Option Nat) (d : Half) (s : State) :
    BusChange s (notePort k p g n d s) := .note s _ _ _ _ _

theorem busChange_updLeg (p : Port) (g : Seg) (f : Leg → Leg) (s : State) : BusChange s (updLeg p g f s) :=
  port' fun _ => ⟨rfl, rfl, rfl, rfl⟩

theorem busChange_dropEndedLeg (p : Port) (g : Seg) (s : State) : BusChange s (dropEndedLeg p g s) :=
  port' fun _ => ⟨rfl, rfl, rfl, rfl⟩

theorem busChange_dropSnapshot (p : Port) (s : State) : BusChange s (dropSnapshot p s) := by
  refine seq ?_ (portBare (Nat.le_refl _) rfl)
  refine BusChange.foldl ?_ _ s
  intro t g
  exact seg' fun _ => ⟨rfl, rfl, rfl⟩

theorem busChange_holdScl (p : Port) (s : State) : BusChange s (holdScl p s) := port' fun _ => ⟨rfl, rfl, rfl, rfl⟩

theorem busChange_giveAck (p : Port) (a : Ack) (s : State) : BusChange s (giveAck p a s) :=
  port' fun _ => ⟨rfl, rfl, rfl, rfl⟩

theorem busChange_supply (p : Port) (b : Byte) (s : State) : BusChange s (supply p b s) :=
  port' fun _ => ⟨rfl, rfl, rfl, rfl⟩

theorem busChange_toDrain (p : Port) (s : State) : BusChange s (toDrain p s) :=
  portRouted fun _ => ⟨rfl, rfl, rfl⟩

theorem busChange_startClock (g : Seg) (s : State) : BusChange s (startClock g s) := seg' fun _ => ⟨rfl, rfl, rfl⟩

theorem busChange_retimeStall (p : Port) (s : State) : BusChange s (retimeStall p s) :=
  port' fun _ => ⟨rfl, rfl, rfl, rfl⟩

theorem busChange_retimeQuiet (g : Seg) (s : State) : BusChange s (retimeQuiet g s) := seg' fun _ => ⟨rfl, rfl, rfl⟩

theorem busChange_retime (s : State) : BusChange s (retime s) :=
  seq (seq (seq (seq (seq (busChange_retimeQuiet .s3 s) (busChange_retimeQuiet .s2 _))
    (busChange_retimeQuiet .s1 _)) (busChange_retimeQuiet .s0 _)) (busChange_retimeStall .u1 _))
    (busChange_retimeStall .u0 _)

/-- A segment whose owner becomes none, in a state other than OWNED, is lawful. -/
theorem SegState.lawful_unowned {c d : SegState} (h : c.lawful) (ho : d.owner = none) (hw : d.waiters = c.waiters)
    (hc : d.cond ≠ .owned) : d.lawful := by
  unfold SegState.lawful at *
  rw [ho, hw]
  exact ⟨h.1, (fun _ e => nomatch e), (fun _ e => nomatch e), (fun e => nomatch e), (fun e => absurd e hc)⟩

theorem busChange_release (g : Seg) (foreign : Bool) (s : State) : BusChange s (release g foreign s) := by
  refine seg fun h => SegState.lawful_unowned h rfl rfl ?_
  show (if _ then _ else _) ≠ _
  split
  · exact fun e => nomatch e
  · split <;> exact fun e => nomatch e

theorem busChange_startAttempt (g : Seg) (s : State) : BusChange s (startAttempt g s) :=
  seg' fun _ => ⟨rfl, rfl, rfl⟩

theorem busChange_beginRecovery_none (g : Seg) (s : State) : BusChange s (beginRecovery g none s) := by
  refine seq ?_ (busChange_startAttempt g _)
  refine seg fun h => SegState.lawful_unowned h rfl rfl ?_
  intro e
  cases e

theorem busChange_beginRecovery_mgmt (g : Seg) (s : State) (hw : Claimant.mgmt ∉ (s.seg g).waiters) :
    BusChange s (beginRecovery g (some .mgmt) s) := by
  refine seq (seg fun h => ?_) (busChange_startAttempt g _)
  refine ⟨h.1, ?_, fun p e => ?_, (fun _ => Or.inr rfl), fun e => ?_⟩
  · intro x e hx
    cases e
    exact hw hx
  · cases e
  · cases e

theorem busChange_closeSegment (g : Seg) (c : Option Byte) (s : State) : BusChange s (closeSegment g c s) := by
  have h : BusChange s (s.updSeg g fun x => { x with activity := some (.closing c) }) := seg' fun _ => ⟨rfl, rfl, rfl⟩
  unfold closeSegment
  generalize (s.seg g).activity = a
  rcases a with _ | ((_ | _ | _) | _ | _ | _ | _)
  case some.addressing.waitFresh => exact busChange_release g _ s
  case some.closing => exact .refl s
  case some.paused => exact seq h (busChange_startClock g _)
  all_goals exact h

theorem busChange_endLeg (p : Port) (c : Leg → Option Byte) (g : Seg) (s : State) : BusChange s (endLeg p c g s) :=
  seq (busChange_updLeg p g _ s) (busChange_closeSegment g _ _)

theorem busChange_endActive (p : Port) (c : Leg → Option Byte) (s : State) : BusChange s (endActive p c s) :=
  BusChange.foldl (fun t g => busChange_endLeg p c g t) _ s

theorem busChange_endClaiming (p : Port) (s : State) : BusChange s (endClaiming p s) :=
  port' fun _ => ⟨rfl, rfl, rfl, rfl⟩

theorem busChange_answerSegReset (g : Seg) (st : Status) (pl : List Byte) (s : State) :
    BusChange s (answerSegReset g st pl s) := by
  unfold answerSegReset
  split
  · exact .refl s
  · rename_i r h
    exact .answer st pl h

/-! ### Frames.lean -/

theorem busChange_renewLease (p : Port) (s : State) : BusChange s (renewLease p s) := by
  unfold renewLease
  split
  · exact .refl s
  · split
    · exact .lease s _
    · exact .refl s

theorem QEntry.port_judge (p : Port) (m : Assembler) : (m.judge p).port = p := by
  unfold Assembler.judge
  dsimp only
  repeat' split
  all_goals rfl

theorem busChange_frameEnd (p : Port) (s : State) : BusChange s (frameEnd p s) := by
  unfold frameEnd
  split
  · exact .refl s
  · rename_i m h
    dsimp only
    split
    · refine port ?_ (fun hl => hl)
      show one false + _ ≤ one _ + _
      simp only [one, Bool.false_eq_true, if_false, Nat.zero_add]
      exact Nat.le_add_left _ _
    · refine seq (BusChange.frame (p := p) (m.judge p) (QEntry.port_judge p m) ?_) (busChange_renewLease p _)
      rw [h]; rfl

theorem busChange_readEnd (p : Port) (w : Bool) (s : State) : BusChange s (readEnd p w s) := by
  unfold readEnd
  split
  · exact .refl s
  · refine port ?_ (fun hl => hl)
    unfold PortState.credits
    dsimp only
    refine Nat.add_le_add_left ?_ _
    generalize (!_ && ReadPos.checkDone _) = d
    cases d
    · exact Nat.le_refl _
    · exact List.length_drop ▸ Nat.sub_le _ _

/-- R54: the counts of edges at which a condition finds a read byte whole. -/
theorem suppliedWhole_iff {n : Nat} : suppliedWhole n = true ↔ n = 0 ∨ 16 ≤ n := by
  unfold suppliedWhole
  rw [Bool.or_eq_true, beq_iff_eq, decide_eq_true_eq]
  exact Iff.rfl

/-- R164: with its eighth bit ended, the byte now supplied is whole at a boundary. -/
theorem ReadPos.atBoundary_whole {m : ReadPos} (h : 16 ≤ m.edges) : m.atBoundary = m.whole := if_pos h

/-- R164: with a bit of it still to come, it is not. -/
theorem ReadPos.atBoundary_begun {m : ReadPos} (h : m.edges < 16) : m.atBoundary = m := if_neg (Nat.not_le.mpr h)

/-- R180: what the answer to a handed-off SEGMENT-RESET changes. -/
theorem resetAnswered_answerSegReset (g : Seg) (st : Status) (pl : List Byte) (s : State) :
    ResetAnswered s (answerSegReset g st pl s) g (s.segResets.find? fun r => r.seg == g) st pl := by
  unfold ResetAnswered answerSegReset
  cases s.segResets.find? fun r => r.seg == g
  · exact ⟨rfl, rfl⟩
  · exact ⟨rfl, rfl⟩

/-! ### Arbiter.lean -/

theorem SegState.lawful_unwait {c : SegState} (h : c.lawful) (w : Claimant) :
    SegState.lawful { c with waiters := c.waiters.filter fun x => !(x == w) } :=
  ⟨h.1.filter _, fun x e hx => h.2.1 x e (List.mem_of_mem_filter hx), h.2.2⟩

theorem busChange_unwait (c : Claimant) (g : Seg) (s : State) : BusChange s (unwait c g s) :=
  seg fun h => SegState.lawful_unwait h c

theorem not_mem_unwait (c : Claimant) (g : Seg) (s : State) : c ∉ ((unwait c g s).seg g).waiters := by
  simp [unwait]

theorem busChange_grantPort (g : Seg) (p : Port) (s : State) (hw : Claimant.port p ∉ (s.seg g).waiters) :
    BusChange s (grantPort g p s) := by
  refine seq (seg fun h => ?_) (busChange_updLeg p g _ _)
  refine ⟨h.1, ?_, (fun _ _ => rfl), (fun _ => Or.inl rfl), (fun _ e => nomatch e)⟩
  intro x e hx
  cases e
  exact hw hx

theorem busChange_grantMgmt (g : Seg) (s : State) (hw : Claimant.mgmt ∉ (s.seg g).waiters) :
    BusChange s (grantMgmt g s) := by
  unfold grantMgmt
  split
  · refine seg fun h => ⟨h.1, ?_, (fun _ _ => rfl), (fun _ => Or.inl rfl), (fun _ e => nomatch e)⟩
    intro x e hx
    cases e
    exact hw hx
  · exact busChange_beginRecovery_mgmt g s hw

theorem busChange_grant (g : Seg) (c : Claimant) (s : State) : BusChange s (grant g c s) := by
  cases c with
  | port p => exact seq (busChange_unwait _ g s) (busChange_grantPort g p _ (not_mem_unwait _ g s))
  | mgmt => exact seq (busChange_unwait _ g s) (busChange_grantMgmt g _ (not_mem_unwait _ g s))

theorem busChange_failAddress (p : Port) (g : Seg) (s : State) : BusChange s (failAddress p g s) := by
  refine seq ?_ (busChange_toDrain p _)
  refine seq ?_ (busChange_notePort _ p _ _ _ _)
  refine seq ?_ (port' fun _ => ⟨rfl, rfl, rfl, rfl⟩)
  refine seq ?_ (busChange_giveAck p _ _)
  exact seq (busChange_endClaiming p s) (busChange_endActive p noCheck _)

theorem busChange_refuseMgmt (g : Seg) (s : State) : BusChange s (refuseMgmt g s) := by
  unfold refuseMgmt
  split <;> exact busChange_answerSegReset g _ _ s

theorem busChange_refuse (g : Seg) (c : Claimant) (s : State) : BusChange s (refuse g c s) := by
  cases c with
  | port p => exact seq (busChange_unwait _ g s) (busChange_failAddress p g _)
  | mgmt => exact seq (busChange_unwait _ g s) (busChange_refuseMgmt g _)

theorem busChange_joinWaiters (g : Seg) (c : Claimant) (s : State) (hw : c ∉ (s.seg g).waiters)
    (ho : (s.seg g).owner ≠ some c) : BusChange s (joinWaiters g c s) := by
  refine seg fun h => ⟨?_, ?_, h.2.2⟩
  · refine List.nodup_append.mpr ⟨h.1, List.nodup_cons.mpr ⟨List.not_mem_nil, List.nodup_nil⟩, ?_⟩
    intro a ha b hb e
    cases List.mem_singleton.mp hb
    exact hw (e ▸ ha)
  · intro x e hx
    rcases List.mem_append.mp hx with hx | hx
    · exact h.2.1 x e hx
    · cases List.mem_singleton.mp hx
      exact ho e

theorem busChange_claim (g : Seg) (c : Claimant) (s : State) (hw : c ∉ (s.seg g).waiters)
    (ho : (s.seg g).owner ≠ some c) : BusChange s (claim g c s) := by
  unfold claim
  split
  · exact busChange_refuse g c s
  · split
    · exact busChange_grant g c s
    · exact busChange_joinWaiters g c s hw ho

theorem creditFree_updPort (s : State) (p : Port) (f : PortState → PortState)
    (h : (f (s.port p)).responses = (s.port p).responses) : creditFree (s.updPort p f) p = creditFree s p := by
  unfold creditFree
  rw [State.port_updPort_self, h]
  rfl

theorem busChange_answerMgmtWrite (p : Port) (b : Byte) (s : State) : BusChange s (answerMgmtWrite p b s) := by
  unfold answerMgmtWrite
  split
  · rename_i h
    exact seq (BusChange.openFrame h rfl fun _ _ => rfl) (busChange_giveAck p .ack _)
  · exact seq (portBare (Nat.le_refl _) rfl) (busChange_giveAck p .nack _)

theorem busChange_answerMgmtRead (p : Port) (b : Byte) (s : State) : BusChange s (answerMgmtRead p b s) :=
  seq (portBare (Nat.le_refl _) rfl) (busChange_giveAck p .ack _)

theorem busChange_answerAddress (p : Port) (w : AddrWait) (s : State) : BusChange s (answerAddress p w s) := by
  have h : BusChange s (s.updPort p fun r => { r with addrWait := none }) := port' fun _ => ⟨rfl, rfl, rfl, rfl⟩
  cases w with
  | mgmtWrite b => exact seq h (busChange_answerMgmtWrite p b _)
  | mgmtRead b => exact seq h (busChange_answerMgmtRead p b _)
  | miss => exact seq h (seq (portBare (Nat.le_refl _) rfl) (busChange_giveAck p .nack _))
  | denied n =>
    exact seq h (seq (busChange_giveAck p .nack _) (seq (busChange_notePort _ p _ _ _ _) (busChange_toDrain p _)))
  | noOffset n =>
    exact seq h (seq (busChange_giveAck p .nack _) (seq (busChange_notePort _ p _ _ _ _) (busChange_toDrain p _)))

/-- A port that places a claim stands in no wait list and does not own the segment. -/
theorem nextClaim_spec {s : State} {p q : Port} {g : Seg} (h : nextClaim s p = some (q, g)) :
    q = p ∧ Claimant.port q ∉ (s.seg g).waiters ∧ (s.seg g).owner ≠ some (.port q) := by
  unfold nextClaim at h
  split at h
  · rename_i hc
    cases hh : (claimingSegs s p).head? with
    | none => rw [hh] at h; exact nomatch h
    | some x =>
      rw [hh] at h
      simp only [Option.bind_some] at h
      split at h
      · exact nomatch h
      · rename_i hn
        cases h
        refine ⟨rfl, ?_, ?_⟩
        · intro hm
          have : waits s p = true := List.any_eq_true.mpr ⟨g, Seg.mem_list g, by simpa using hm⟩
          simp [this] at hc
        · intro e
          exact hn (by simp [owns, e])
  · exact nomatch h

theorem busChange_micro {s t : State} (h : micro s = some t) : BusChange s t := by
  unfold micro at h
  split at h
  · cases h; exact busChange_refuse _ _ s
  split at h
  · cases h; exact busChange_grant _ _ s
  split at h
  · cases h; exact busChange_answerAddress _ _ s
  split at h
  · rename_i p g hf
    cases h
    obtain ⟨q, hq, hp⟩ := List.exists_of_findSome?_eq_some hf
    obtain ⟨h1, h2, h3⟩ := nextClaim_spec hp
    exact busChange_claim g _ s h2 h3
  split at h
  · cases h
    exact portRouted fun _ => ⟨rfl, rfl, rfl⟩
  · exact nomatch h

theorem busChange_settle : ∀ (n : Nat) (s : State), BusChange s (settle n s)
  | 0, s => .refl s
  | n + 1, s => by
    unfold settle
    split
    · exact .refl s
    · rename_i t h
      exact seq (busChange_micro h) (busChange_settle n t)

theorem busChange_finish (s : State) : BusChange s (finish s) := seq (busChange_settle _ s) (busChange_retime _)

/-! ### Transaction.lean -/

theorem busChange_enterData (p : Port) (a : Ack) (s : State) : BusChange s (enterData p a s) := by
  refine seq ?_ (busChange_giveAck p a _)
  refine portRouted fun r => ⟨rfl, rfl, ?_⟩
  show (dataPhase r.dir).unrouted = false
  cases r.dir <;> rfl

theorem busChange_stopHold (p : Port) (s : State) : BusChange s (stopHold p s) := port' fun _ => ⟨rfl, rfl, rfl, rfl⟩

theorem busChange_joinAddress (p : Port) (s : State) : BusChange s (joinAddress p s) := by
  unfold joinAddress
  split
  · split
    · exact seq (busChange_stopHold p s) (seq (busChange_giveAck p _ _) (busChange_toDrain p _))
    · split <;> exact busChange_enterData p _ s
  · exact .refl s

theorem busChange_endMarked (p : Port) (s : State) : BusChange s (endMarked p s) :=
  BusChange.foldl (fun t g => busChange_endLeg p noCheck g t) _ s

theorem busChange_reopen (p : Port) (slot : Nat) (s : State) : BusChange s (reopen p slot s) := by
  refine BusChange.foldl ?_ _ s
  intro t g
  refine seq ?_ (busChange_startClock g _)
  exact seg' fun _ => ⟨rfl, rfl, rfl⟩

/-- R30: the snapshot is taken with the phase that may hold one. -/
theorem busChange_takeRoute (p : Port) (sn : Snapshot) {phase : Phase} (h : phase.unrouted = false) (s : State) :
    BusChange s (takeRoute p sn phase s) :=
  portRouted fun _ => ⟨rfl, rfl, h⟩

theorem busChange_route (p : Port) (sn : Snapshot) (s : State) : BusChange s (route p sn s) := by
  unfold route
  split
  · refine seq (seq (busChange_takeRoute p sn (phase := .awaitTarget) rfl s) (busChange_reopen p sn.slot _)) ?_
    exact port' fun _ => ⟨rfl, rfl, rfl, rfl⟩
  · refine seq (seq (busChange_endActive p noCheck s) (busChange_takeRoute p sn (phase := .awaitGrant) rfl _)) ?_
    exact port' fun _ => ⟨rfl, rfl, rfl, rfl⟩

theorem busChange_awaitClosed (p : Port) (w : AddrWait) (s : State) : BusChange s (awaitClosed p w s) := by
  refine seq (seq (busChange_holdScl p s) (busChange_endActive p noCheck _)) ?_
  exact port' fun _ => ⟨rfl, rfl, rfl, rfl⟩

theorem busChange_takeAddress (p : Port) (a : Addr) (d : Dir) (s : State) : BusChange s (takeAddress p a d s) :=
  port' fun _ => ⟨rfl, rfl, rfl, rfl⟩

theorem busChange_addressTaken (p : Port) (a : Addr) (d : Dir) (found : Found) (s : State) :
    BusChange s (addressTaken p a d found s) := by
  unfold addressTaken
  split
  · exact seq (busChange_takeAddress p a d s) (busChange_awaitClosed p _ _)
  · rename_i sn _
    refine seq (busChange_takeAddress p a d s) (seq (u := route p sn _) ?_ (busChange_route p sn _))
    exact port' fun _ => ⟨rfl, rfl, rfl, rfl⟩

theorem busChange_decideAddress (p : Port) (a : Addr) (d : Dir) (found : Found) (s : State) :
    BusChange s (decideAddress p a d found s) :=
  seq (busChange_addressTaken p a d found s) (busChange_settle _ _)

theorem busChange_beginAddress (p : Port) (s : State) : BusChange s (beginAddress p s) := by
  refine seq (seq (busChange_endMarked p s) (busChange_dropSnapshot p _)) ?_
  unfold beginAddress
  exact portBare (Nat.le_refl _) (by simp [dropSnapshot])

theorem busChange_toAddress (p : Port) (s : State) : BusChange s (toAddress p s) := by
  unfold toAddress
  split
  · exact busChange_beginAddress p s
  · exact seq (busChange_beginAddress p s) (busChange_decideAddress p _ _ _ _)

theorem busChange_refuseByte (p : Port) (d : PolicyDetail) (after : AfterJoin) (s : State) :
    BusChange s (refuseByte p d after s) := by
  have h : BusChange s (notePort .policy p none (slotOf s p) (policyCode d) (endActive p noCheck s)) :=
    seq (busChange_endActive p noCheck s) (busChange_notePort _ p _ _ _ _)
  cases after with
  | repeatedStart => exact seq h (busChange_toAddress p _)
  | answer => exact seq h (seq (busChange_giveAck p _ _) (busChange_toDrain p _))
  | hold b => exact seq h (seq (busChange_giveAck p _ _) (busChange_toDrain p _))

theorem busChange_handOut (p : Port) (b : Byte) (after : AfterJoin) (s : State) : BusChange s (handOut p b after s) := by
  unfold handOut
  dsimp only
  refine seq ?_ (port' fun _ => ⟨rfl, rfl, rfl, rfl⟩)
  refine BusChange.foldl ?_ _ s
  intro t g
  refine seq ?_ (busChange_startClock g _)
  exact seg' fun _ => ⟨rfl, rfl, rfl⟩

theorem busChange_submit (p : Port) (b : Byte) (after : AfterJoin) (s : State) : BusChange s (submit p b after s) := by
  unfold submit
  split
  · exact .refl s
  · split
    · exact busChange_refuseByte p _ after s
    · exact busChange_handOut p b after s

theorem busChange_bytePlaced (p : Port) (g : Seg) (b : Byte) (s : State) : BusChange s (bytePlaced p g b s) := by
  have h : BusChange s (updLeg p g (fun l => { l with down := crc8 l.down b })
      (startClock g (s.updSeg g fun c => { c with activity := some (.writing b true) }))) := by
    refine seq (seq ?_ (busChange_startClock g _)) (busChange_updLeg p g _ _)
    exact seg' fun _ => ⟨rfl, rfl, rfl⟩
  unfold bytePlaced
  dsimp only
  split
  · split
    · exact h
    · refine seq h ?_
      exact port' fun _ => ⟨rfl, rfl, rfl, rfl⟩
  · exact h

theorem busChange_joinData (p : Port) (s : State) : BusChange s (joinData p s) := by
  have h : BusChange s (s.updPort p fun r => { r with inFlight := none }) := port' fun _ => ⟨rfl, rfl, rfl, rfl⟩
  unfold joinData
  split
  · exact .refl s
  · split
    · dsimp only
      split
      · exact seq h (busChange_toAddress p _)
      · split
        · exact seq h (seq (busChange_giveAck p _ _) (busChange_toDrain p _))
        · exact seq h (busChange_giveAck p _ _)
      · split
        · exact seq h (seq (busChange_giveAck p _ _) (busChange_toDrain p _))
        · refine seq h (seq ?_ (busChange_giveAck p _ _))
          exact port' fun _ => ⟨rfl, rfl, rfl, rfl⟩
    · exact .refl s

theorem busChange_loseLeg (p : Port) (s : State) : BusChange s (loseLeg p s) := port' fun _ => ⟨rfl, rfl, rfl, rfl⟩

theorem busChange_beginFetch (p : Port) (what : Reading) (stage : ReadStage) (s : State) :
    BusChange s (beginFetch p what stage s) := by
  unfold beginFetch
  dsimp only
  refine seq ?_ (port' fun _ => ⟨rfl, rfl, rfl, rfl⟩)
  refine BusChange.foldl ?_ _ s
  intro t g
  refine seq ?_ (busChange_startClock g _)
  exact seg' fun _ => ⟨rfl, rfl, rfl⟩

theorem busChange_refuseRead (p : Port) (s : State) : BusChange s (refuseRead p s) :=
  seq (seq (seq (busChange_endActive p noCheck s) (busChange_notePort _ p _ _ _ _)) (busChange_toDrain p _))
    (busChange_supply p _ _)

theorem busChange_readRequest (p : Port) (s : State) : BusChange s (readRequest p s) := by
  have h : BusChange s ((holdScl p s).updPort p fun r => { r with sdaByte := none }) := by
    refine seq (busChange_holdScl p s) ?_
    exact port' fun _ => ⟨rfl, rfl, rfl, rfl⟩
  unfold readRequest
  dsimp only
  split
  · exact h
  · split
    · exact seq h (busChange_beginFetch p _ _ _)
    · split
      · exact seq h (busChange_refuseRead p _)
      · exact seq h (busChange_beginFetch p _ _ _)

theorem busChange_countRead (p : Port) (b : Byte) (edges : Nat) (s : State) : BusChange s (countRead p b edges s) :=
  port' fun _ => ⟨rfl, rfl, rfl, rfl⟩

/-- An edge changes nothing of a record but how far a supplied byte has gone, and the upstream value. -/
theorem edgeSeen_frame (r : PortState) : (mgmtEdge (edgeSeen r)).assembler = r.assembler
    ∧ (mgmtEdge (edgeSeen r)).responses = r.responses ∧ (mgmtEdge (edgeSeen r)).phase = r.phase
    ∧ (mgmtEdge (edgeSeen r)).snapshot = r.snapshot := by
  unfold mgmtEdge edgeSeen
  split <;> exact ⟨rfl, rfl, rfl, rfl⟩

theorem busChange_markForStop (p : Port) (s : State) : BusChange s (markForStop p s) := by
  refine BusChange.foldl ?_ _ s
  intro t g
  refine seq ?_ (busChange_updLeg p g _ _)
  refine seq ?_ (busChange_startClock g _)
  exact seg' fun _ => ⟨rfl, rfl, rfl⟩

theorem busChange_readFill (p : Port) (s : State) : BusChange s (readFill p s) := port' fun _ => ⟨rfl, rfl, rfl, rfl⟩

theorem busChange_abortLeg (p : Port) (g : Seg) (s : State) : BusChange s (abortLeg p g s) := busChange_updLeg p g _ s

theorem busChange_abortRead (p : Port) (a : Reading) (s : State) : BusChange s (abortRead p a s) := by
  cases a with
  | nackClock => exact busChange_toDrain p s
  | data => exact seq (busChange_toDrain p s) (busChange_supply p _ _)
  | check => exact seq (busChange_toDrain p s) (busChange_supply p _ _)

theorem busChange_tellAbort (p : Port) (g : Seg) (a : Option Activity) (s : State) :
    BusChange s (tellAbort p g a s) := by
  unfold tellAbort
  split
  · exact busChange_dropEndedLeg p g s
  · exact seq (busChange_abortLeg p g s) (busChange_joinAddress p _)
  · exact seq (seq (busChange_abortLeg p g s) (busChange_loseLeg p _)) (busChange_joinData p _)
  · split
    · exact seq (busChange_abortLeg p g s) (busChange_abortRead p _ _)
    · exact busChange_abortLeg p g s
  · exact busChange_abortLeg p g s
  · exact busChange_abortLeg p g s

theorem busChange_closeTransaction (p : Port) (c : Leg → Option Byte) (s : State) :
    BusChange s (closeTransaction p c s) := by
  refine seq (seq (busChange_endActive p c s) (busChange_dropSnapshot p _)) ?_
  refine portBare (Nat.le_refl _) ?_
  simp [dropSnapshot]

theorem busChange_checkDecision (p : Port) (h : Byte) (s : State) : BusChange s (checkDecision p h s) := by
  unfold checkDecision
  split
  · exact busChange_closeTransaction p _ s
  · exact seq (busChange_notePort _ p _ _ _ s) (busChange_closeTransaction p _ _)

/-! ### Upstream.lean -/

theorem busChange_whenRunning (s : State) (f : State → State) (h : BusChange s (f s)) : BusChange s (whenRunning s f) := by
  unfold whenRunning
  split
  · exact h
  · exact .refl s

theorem busChange_retimed {s t : State} (h : BusChange s t) : BusChange s (retime t) := seq h (busChange_retime t)

theorem busChange_finished {s t : State} (h : BusChange s t) : BusChange s (finish t) := seq h (busChange_finish t)

theorem busChange_freshStart (p : Port) (s : State) : BusChange s (freshStart p s) :=
  portBare (Nat.le_refl _) rfl

theorem busChange_nackInPlace (p : Port) (s : State) : BusChange s (nackInPlace p s) := by
  unfold nackInPlace
  split
  · refine seq ?_ (busChange_markForStop p _)
    split
    · exact busChange_countRead p _ _ s
    · exact .refl s
  all_goals exact .refl s

theorem busChange_repeatedInWrite (p : Port) (s : State) : BusChange s (repeatedInWrite p s) := by
  unfold repeatedInWrite
  split
  · exact .refl s
  · split
    · exact busChange_submit p _ _ s
    · exact busChange_toAddress p s

theorem busChange_repeatedStart (p : Port) (s : State) : BusChange s (repeatedStart p s) := by
  unfold repeatedStart
  split
  · exact busChange_repeatedInWrite p s
  · exact seq (busChange_nackInPlace p s) (busChange_toAddress p _)
  · exact seq (busChange_frameEnd p s) (busChange_toAddress p _)
  · exact seq (busChange_readEnd p _ s) (busChange_toAddress p _)
  all_goals exact busChange_toAddress p s

theorem busChange_startCondition (p : Port) (s : State) : BusChange s (startCondition p s) := by
  unfold startCondition
  split
  · exact .refl s
  · split
    · exact busChange_repeatedStart p s
    · exact busChange_freshStart p s

theorem busChange_stopInWrite (p : Port) (s : State) : BusChange s (stopInWrite p s) := by
  unfold stopInWrite
  split
  · exact busChange_checkDecision p _ s
  · exact busChange_closeTransaction p _ s

theorem busChange_stopCondition (p : Port) (s : State) : BusChange s (stopCondition p s) := by
  unfold stopCondition
  split
  · exact .refl s
  · exact busChange_stopInWrite p s
  · exact seq (busChange_nackInPlace p s) (busChange_closeTransaction p _ _)
  · exact seq (busChange_frameEnd p s) (busChange_closeTransaction p _ _)
  · exact seq (busChange_readEnd p _ s) (busChange_closeTransaction p _ _)
  all_goals exact busChange_closeTransaction p _ s

theorem busChange_cutByStop (p : Port) (s : State) : BusChange s (cutByStop p s) :=
  seq (busChange_notePort _ p _ _ _ s) (busChange_closeTransaction p _ _)

theorem busChange_midByteStop (p : Port) (s : State) : BusChange s (midByteStop p s) := by
  unfold midByteStop
  split
  · exact .refl s
  · split
    · exact busChange_closeTransaction p _ s
    · exact busChange_cutByStop p s
  · exact busChange_cutByStop p s
  · exact seq (busChange_frameEnd p s) (busChange_closeTransaction p _ _)
  · exact seq (busChange_readEnd p _ s) (busChange_closeTransaction p _ _)
  all_goals exact busChange_closeTransaction p _ s

theorem busChange_cutWriteByStart (p : Port) (s : State) : BusChange s (cutWriteByStart p s) := by
  unfold cutWriteByStart
  dsimp only
  split
  · exact seq (busChange_notePort _ p _ _ _ s) (seq (busChange_endActive p _ _) (busChange_toAddress p _))
  · exact seq (busChange_notePort _ p _ _ _ s) (busChange_toAddress p _)

theorem busChange_cutReadByStart (p : Port) (s : State) : BusChange s (cutReadByStart p s) :=
  seq (busChange_notePort _ p _ _ _ s) (seq (busChange_markForStop p _) (busChange_toAddress p _))

theorem busChange_midByteStart (p : Port) (s : State) : BusChange s (midByteStart p s) := by
  unfold midByteStart
  split
  · split
    · split
      · exact .refl s
      · exact busChange_cutWriteByStart p s
    · exact busChange_cutReadByStart p s
    · exact seq (busChange_frameEnd p s) (busChange_toAddress p _)
    · exact seq (busChange_readEnd p _ s) (busChange_toAddress p _)
    all_goals exact busChange_toAddress p s
  · exact busChange_freshStart p s

theorem busChange_addressByte (p : Port) (a : Addr) (d : Dir) (s : State) : BusChange s (addressByte p a d s) := by
  unfold addressByte
  split
  · exact .refl s
  · split
    · exact busChange_decideAddress p a d _ s
    · split
      · refine seq (busChange_holdScl p s) ?_
        exact port' fun _ => ⟨rfl, rfl, rfl, rfl⟩
      · exact .refl s

theorem busChange_takeWriteByte (p : Port) (b : Byte) (s : State) : BusChange s (takeWriteByte p b s) := by
  unfold takeWriteByte
  split
  · split
    · refine seq (seq (busChange_holdScl p s) ?_) (busChange_giveAck p _ _)
      exact port' fun _ => ⟨rfl, rfl, rfl, rfl⟩
    · exact seq (busChange_holdScl p s) (busChange_submit p _ _ _)
  · exact seq (busChange_holdScl p s) (busChange_submit p _ _ _)

theorem busChange_readAnswer (p : Port) (a : Ack) (s : State) : BusChange s (readAnswer p a s) := by
  unfold readAnswer
  split
  · split
    · exact seq (busChange_countRead p _ _ s) (busChange_readRequest p _)
    · exact seq (seq (busChange_countRead p _ _ s) (busChange_markForStop p _)) (busChange_readFill p _)
  · exact busChange_readFill p s
  all_goals exact .refl s

theorem busChange_withdraw (p : Port) (s : State) : BusChange s (withdraw p s) :=
  seq (seq (seq (busChange_unwait _ .s3 s) (busChange_unwait _ .s2 _)) (busChange_unwait _ .s1 _))
    (busChange_unwait _ .s0 _)

theorem busChange_holdExpired (p : Port) (s : State) : BusChange s (holdExpired p s) := by
  refine seq ?_ (busChange_toDrain p _)
  refine seq ?_ (busChange_notePort _ p _ _ _ _)
  refine seq ?_ (busChange_stopHold p _)
  refine seq ?_ (busChange_giveAck p _ _)
  exact seq (seq (busChange_withdraw p s) (busChange_endClaiming p _)) (busChange_endActive p noCheck _)

theorem busChange_stallExpired (p : Port) (s : State) : BusChange s (stallExpired p s) := by
  unfold stallExpired
  refine seq (t := dropSnapshot p _) ?_ (portBare (Nat.le_refl _) ?_)
  · refine seq ?_ (busChange_dropSnapshot p _)
    refine seq ?_ (busChange_endActive p noCheck _)
    exact busChange_notePort _ p _ _ _ s
  · simp [dropSnapshot]

/-! ### Segments.lean -/

theorem busChange_placeAddress (p : Port) (g : Seg) (f : Leg → Byte) (s : State) : BusChange s (placeAddress p g f s) := by
  unfold placeAddress
  split
  · exact .refl s
  · refine seq (seq ?_ (busChange_startClock g _)) (busChange_updLeg p g _ _)
    exact seg' fun _ => ⟨rfl, rfl, rfl⟩

theorem busChange_linesLowAtStart (p : Port) (g : Seg) (s : State) : BusChange s (linesLowAtStart p g s) :=
  seq (seq (busChange_notePort _ p _ _ _ s) (busChange_beginRecovery_none g _)) (busChange_tellAbort p g _ _)

theorem busChange_sampleLines (g : Seg) (l : Lines) (s : State) : BusChange s (sampleLines g l s) :=
  seg' fun _ => ⟨rfl, rfl, rfl⟩

theorem busChange_openFresh (p : Port) (g : Seg) (l : Lines) (s : State) : BusChange s (openFresh p g l s) := by
  have h := busChange_sampleLines g l s
  unfold openFresh
  dsimp only
  split
  · split
    · exact .refl s
    · split
      · exact busChange_retimed (seq h (busChange_placeAddress p g _ _))
      · exact busChange_retimed h
  · split
    · exact busChange_retimed (seq h (busChange_placeAddress p g _ _))
    · exact busChange_finished (seq h (busChange_linesLowAtStart p g _))

theorem busChange_pause (g : Seg) (s : State) : BusChange s (pause g s) := seg' fun _ => ⟨rfl, rfl, rfl⟩

theorem busChange_targetAnswer (p : Port) (g : Seg) (a : Ack) (s : State) : BusChange s (targetAnswer p g a s) := by
  cases a with
  | ack => exact seq (busChange_pause g s) (busChange_joinAddress p _)
  | nack => exact seq (seq (busChange_pause g s) (busChange_endLeg p _ g _)) (busChange_joinAddress p _)

theorem busChange_deviceAnswer (p : Port) (g : Seg) (a : Ack) (s : State) : BusChange s (deviceAnswer p g a s) := by
  cases a with
  | ack => exact seq (busChange_pause g s) (busChange_joinData p _)
  | nack =>
    refine seq ?_ (busChange_joinData p _)
    exact seq (seq (busChange_pause g s) (busChange_endLeg p _ g _)) (busChange_loseLeg p _)

theorem busChange_byteFetched (p : Port) (g : Seg) (b : Byte) (s : State) : BusChange s (byteFetched p g b s) := by
  refine seq ?_ (busChange_supply p b _)
  refine seq ?_ (port' fun _ => ⟨rfl, rfl, rfl, rfl⟩)
  refine seq ?_ (busChange_updLeg p g _ _)
  exact busChange_pause g s

theorem busChange_checkFetched (p : Port) (g : Seg) (b : Byte) (l : Leg) (s : State) :
    BusChange s (checkFetched p g b l s) := by
  refine seq ?_ (busChange_supply p _ _)
  refine seq ?_ (port' fun _ => ⟨rfl, rfl, rfl, rfl⟩)
  refine seq (seq ?_ (busChange_pause g _)) (busChange_updLeg p g _ _)
  split
  · exact .refl s
  · exact busChange_notePort _ p _ _ _ s

theorem busChange_retryAddress (p : Port) (g : Seg) (s : State) : BusChange s (retryAddress p g s) := by
  refine seq ?_ (busChange_updLeg p g _ _)
  exact seg' fun _ => ⟨rfl, rfl, rfl⟩

theorem busChange_loseArbitration (p : Port) (g : Seg) (d : Half) (s : State) :
    BusChange s (loseArbitration p g d s) :=
  seq (seq (busChange_notePort _ p _ _ _ s) (busChange_release g _ _)) (busChange_tellAbort p g _ _)

theorem busChange_arbitrationLost (p : Port) (g : Seg) (a : Activity) (s : State) :
    BusChange s (arbitrationLost p g a s) := by
  unfold arbitrationLost
  split
  · split
    · exact busChange_retimed (busChange_retryAddress p g s)
    · exact busChange_finished (busChange_loseArbitration p g _ s)
  · exact busChange_finished (busChange_loseArbitration p g _ s)

/-- The sight of another controller's transaction keeps a segment lawful. -/
theorem SegState.lawful_foreignSeen {c : SegState} (hl : c.lawful) : (foreignSeen c).lawful := by
  unfold SegState.lawful foreignSeen at *
  dsimp only
  obtain ⟨h1, h2, h3, h4, h5⟩ := hl
  refine ⟨h1, h2, fun p e => ?_, fun e => ?_, fun e => ?_⟩
  · rw [h3 p e]; rfl
  · rcases h4 e with h4 | h4 <;> rw [h4] <;> simp
  · split at e
    · cases e
    · exact h5 e

theorem busChange_foreignStart (g : Seg) (k : ForeignKind) (s : State) :
    BusChange s (s.updSeg g (foreignStart k)) :=
  seg fun hl => SegState.lawful_foreignSeen hl

theorem busChange_foreignOver (g : Seg) (s : State) (hw : (s.seg g).owner = some .mgmt → Claimant.mgmt ∉ (s.seg g).waiters) :
    BusChange s (foreignOver g s) := by
  unfold foreignOver
  split
  · rename_i h
    exact busChange_beginRecovery_mgmt g s (hw h.2)
  · refine seg fun hl => ?_
    unfold SegState.lawful at *
    dsimp only
    obtain ⟨h1, h2, h3, h4, h5⟩ := hl
    refine ⟨h1, h2, fun p e => ?_, fun e => ?_, fun e => ?_⟩
    · rw [h3 p e]; rfl
    · rcases h4 e with h4 | h4 <;> rw [h4] <;> simp
    · split at e
      · cases e
      · exact h5 e

/-- MGMT, owner of a lawful segment, is not in its wait list. -/
theorem SegState.mgmt_not_waiting {c : SegState} (h : c.lawful) (e : c.owner = some .mgmt) : Claimant.mgmt ∉ c.waiters :=
  h.2.1 _ e

theorem busChange_recovered (g : Seg) (k : Nat) (s : State) : BusChange s (recovered g k s) := by
  have h : ∀ t : State, BusChange t (t.updSeg g fun c =>
      { c with
        owner := none
        attempts := 0
        attemptLimit := none
        foreignBusy := false
        mode := (s.working.params.segs.get g).mode
        lines := ⟨true, true⟩
        pendingDisable := false
        cond := if c.pendingDisable then .disabled else .idle }) := by
    intro t
    refine seg fun hl => SegState.lawful_unowned hl rfl rfl ?_
    show (if _ then _ else _) ≠ _
    split <;> exact fun e => nomatch e
  unfold recovered
  dsimp only
  split
  · exact seq (seq (.note s _ _ _ _ _) (h _)) (busChange_answerSegReset g _ _ _)
  · exact seq (.note s _ _ _ _ _) (h _)

theorem busChange_faulted (g : Seg) (s : State) : BusChange s (faulted g s) := by
  have h : ∀ (t : State) (k : Nat), BusChange t (t.updSeg g fun c =>
      { c with
        owner := none
        attempts := 0
        attemptLimit := none
        faults := k
        foreignBusy := false
        pendingDisable := false
        cond := .faulted }) := by
    intro t k
    exact seg fun hl => SegState.lawful_unowned hl rfl rfl (fun e => SegCondition.noConfusion e)
  unfold faulted
  dsimp only
  split
  · exact seq (seq (.note s _ _ _ _ _) (h _ _)) (busChange_answerSegReset g _ _ _)
  · exact seq (.note s _ _ _ _ _) (h _ _)

theorem busChange_attemptFailed (g : Seg) (s : State) : BusChange s (attemptFailed g s) := by
  unfold attemptFailed
  split
  · refine seq ?_ (busChange_startAttempt g _)
    exact seg' fun _ => ⟨rfl, rfl, rfl⟩
  · exact busChange_faulted g s

theorem busChange_attemptEnded (g : Seg) (l : Lines) (s : State) : BusChange s (attemptEnded g l s) := by
  unfold attemptEnded
  split
  · exact busChange_recovered g _ s
  · exact seq (busChange_sampleLines g l s) (busChange_attemptFailed g _)

/-- With no SEGMENT-DISABLE due the check is taken alone. -/
theorem takeDueDisable_none {g : Seg} {s : State} (h : disableDue g s = false) : takeDueDisable g s = s := by
  unfold takeDueDisable
  rw [h]
  rfl

theorem busChange_clockExpired (p : Port) (g : Seg) (s : State) : BusChange s (clockExpired p g s) :=
  seq (seq (busChange_notePort _ p _ _ _ s) (busChange_beginRecovery_none g _)) (busChange_tellAbort p g _ _)

theorem busChange_quietLow (g : Seg) (s : State) (hw : (s.seg g).owner = some .mgmt → Claimant.mgmt ∉ (s.seg g).waiters) :
    BusChange s (quietLow g s) := by
  unfold quietLow
  split
  · exact seq (.note s _ _ _ _ _) (busChange_beginRecovery_none g _)
  · exact busChange_linesLowAtStart _ g s
  · rename_i h
    exact busChange_beginRecovery_mgmt g s (hw h)

theorem sclEdge_frame (high : Bool) (n : Nat) (c : SegState) :
    (sclEdge high n c).owner = c.owner ∧ (sclEdge high n c).waiters = c.waiters ∧ (sclEdge high n c).cond = c.cond := by
  unfold sclEdge
  split
  · exact ⟨rfl, rfl, rfl⟩
  · split <;> exact ⟨rfl, rfl, rfl⟩

/-- An edge changes neither the owner nor the wait list of a segment. -/
theorem lineEdge_frame (w : Wire) (high : Bool) (n : Nat) (c : SegState) :
    (lineEdge w high n c).owner = c.owner ∧ (lineEdge w high n c).waiters = c.waiters := by
  unfold lineEdge
  cases w <;> dsimp only <;> split
  · exact ⟨(sclEdge_frame high n _).1, (sclEdge_frame high n _).2.1⟩
  · exact ⟨(sclEdge_frame high n _).1, (sclEdge_frame high n _).2.1⟩
  · exact ⟨rfl, rfl⟩
  · exact ⟨rfl, rfl⟩

/-- An edge keeps a segment lawful. -/
theorem SegState.lawful_lineEdge (w : Wire) (high : Bool) (n : Nat) {c : SegState} (hl : c.lawful) :
    (lineEdge w high n c).lawful := by
  have same : ∀ {d e : SegState}, d.lawful → e.owner = d.owner ∧ e.waiters = d.waiters ∧ e.cond = d.cond → e.lawful := by
    intro d e hd h
    unfold SegState.lawful at *
    rw [h.1, h.2.1, h.2.2]
    exact hd
  have seen : SegState.lawful (if c.watched && edgeBegins w high c.newWatch c.lines
      then foreignSeen { c with lines := setWire c.lines w high, quiet := none }
      else { c with lines := setWire c.lines w high, quiet := none }) := by
    split
    · exact SegState.lawful_foreignSeen (c := { c with lines := setWire c.lines w high, quiet := none }) hl
    · exact hl
  unfold lineEdge
  cases w
  · exact same (same seen ⟨rfl, rfl, rfl⟩) (sclEdge_frame high n _)
  · exact seen

theorem busChange_lineEdge (g : Seg) (w : Wire) (high : Bool) (n : Nat) (s : State) :
    BusChange s (s.updSeg g (lineEdge w high n)) :=
  seg fun hl => SegState.lawful_lineEdge w high n hl

/-- R114: on a watched segment the edge of a START is what FOREIGN_START brings. -/
theorem lineEdge_of_start {c : SegState} (hw : c.watched = true) (hs : c.lines.scl = true) (n : Nat) :
    lineEdge .sda false n c = foreignStart .start c := by
  simp [lineEdge, edgeBegins, setWire, foreignStart, foreignLines, hw, hs]

/-- R114: on a watched segment whose leg, if it has one, waits to place its START, a fall of SCL is what FOREIGN_START brings. -/
theorem lineEdge_of_fall {c : SegState} (hw : c.watched = true)
    (ha : c.activity = none ∨ c.activity = some (.addressing .waitFresh)) (hn : c.newWatch = true → c.lines.scl = true)
    (n : Nat) : lineEdge .scl false n c = foreignStart .sclEdge c := by
  have hf : (c.newWatch && !c.lines.scl) = false := by
    cases hb : c.newWatch
    · rfl
    · rw [hn hb]; rfl
  rcases ha with ha | ha <;>
    simp [lineEdge, edgeBegins, setWire, foreignStart, foreignLines, foreignSeen, sclEdge, hw, ha, hf]

/-- R121: a rise of SCL is what FOREIGN_START brings where it is the first edge of a new watch that found SCL low; as any rise, it stops the
clock-limit timer. -/
theorem lineEdge_of_first_rise {c : SegState} (hw : c.watched = true) (hn : c.newWatch = true) (hs : c.lines.scl = false)
    (n : Nat) : lineEdge .scl true n c = { foreignStart .sclEdge c with clock := none } := by
  simp [lineEdge, edgeBegins, setWire, foreignStart, foreignLines, foreignSeen, sclEdge, hw, hn, hs]

/-- R114: the edge of a STOP leaves the lines as the STOP does, and stops the quiet timer. -/
theorem lineEdge_of_stop {c : SegState} (hs : c.lines.scl = true) (n : Nat) :
    lineEdge .sda true n c = { c with lines := ⟨true, true⟩, quiet := none } := by
  simp [lineEdge, edgeBegins, setWire, hs]

/-! ### Every event of a bus or a timer -/

/-- The commands that are events of a bus, a device or a timer of a port or a segment. -/
def Instr.busEvent : Instr → Bool
  | .start _ | .repeatedStart _ | .stop _ | .midByteStop _ | .midByteStart _ | .addressByte _ _ _ | .writeByte _ _
  | .drainByte _ | .readByteAck _ _ | .mgmtWriteByte _ _ | .mgmtReadAck _ _ | .holdExpired _ | .stall _ | .legOpen _ _
  | .targetAck _ _ | .bytePlaced _ | .deviceAck _ _ | .readByteFetched _ _ | .checkByteFetched _ _ | .stopPlaced _
  | .arbLoss _ | .foreignStart _ _ | .foreignStop _ | .clockLimitExpiry _ | .quietTimerExpiry _ _
  | .recoveryAttemptEnd _ _ | .readAddressAckEnd _ | .upstreamSclEdge _ | .segmentLineEdge _ _ _ => true
  | .powerOn _ | .resetLineLow | .resetLineRelease _ | .editLapsed | .errorEntry | .identify | .getStatus | .readEntry
  | .readParams | .takeNotices | .openEdit | .putEntry | .dropEntry | .putParam | .commit | .abandon | .loadBank
  | .saveBank | .protectBank | .unprotectBank _ | .segmentReset | .segmentDisable | .segmentEnable | .restart _
  | .erasingComplete | .writingComplete | .verifyingComplete _ | .headerComplete | .cellWriteComplete | .supplyLoss => false

/-- Every event of a bus or a timer is a sequence of the changes of `BusChange`, but for a final check with which a SEGMENT-DISABLE
falls together (R123). -/
theorem busChange_exec {c : Instr} {s t : State} (hc : Instr.busEvent c = true) (hl : ArbiterLaw s)
    (hd : ∀ g l, c = .recoveryAttemptEnd g l → disableDue g s = false) (h : exec c s = .next t) : BusChange s t := by
  have hm : ∀ g, (s.seg g).owner = some .mgmt → Claimant.mgmt ∉ (s.seg g).waiters :=
    fun g e => SegState.mgmt_not_waiting (hl g) e
  cases c <;> try exact absurd hc Bool.false_ne_true
  all_goals
    injection h with h
    subst h
    refine busChange_whenRunning s _ ?_
  case start p => exact busChange_retimed (busChange_startCondition p s)
  case repeatedStart p => exact busChange_retimed (busChange_startCondition p s)
  case stop p =>
    split
    · exact .refl s
    · exact busChange_retimed (busChange_stopCondition p s)
  case midByteStop p =>
    split
    · exact .refl s
    · exact busChange_retimed (busChange_midByteStop p s)
  case midByteStart p =>
    split
    · exact .refl s
    · exact busChange_retimed (busChange_midByteStart p s)
  case addressByte p a d => exact busChange_retimed (busChange_addressByte p a d s)
  case writeByte p b =>
    split
    · exact busChange_retimed (busChange_takeWriteByte p b s)
    · exact .refl s
  case drainByte p =>
    split
    · refine port' fun r => ?_
      cases r.dir <;> exact ⟨rfl, rfl, rfl, rfl⟩
    · exact .refl s
  case readByteAck p a =>
    split
    · exact busChange_retimed (busChange_readAnswer p a s)
    · exact .refl s
  case mgmtWriteByte p b =>
    split
    · split
      · exact .refl s
      · rename_i m hm
        refine port ?_ (fun hl => hl)
        simp [PortState.credits, hm]
    · exact .refl s
  case mgmtReadAck p a =>
    split
    · split
      · exact .refl s
      · exact port' fun _ => ⟨rfl, rfl, rfl, rfl⟩
    · exact .refl s
  case holdExpired p =>
    split
    · exact busChange_finished (busChange_holdExpired p s)
    · exact .refl s
  case stall p =>
    split
    · exact busChange_retimed (busChange_stallExpired p s)
    · exact .refl s
  case legOpen g l =>
    split
    · exact busChange_openFresh _ g l s
    · exact busChange_retimed (busChange_placeAddress _ g _ s)
    · exact .refl s
  case targetAck g a =>
    split
    · exact busChange_retimed (busChange_targetAnswer _ g a s)
    · exact .refl s
  case bytePlaced g =>
    split
    · exact busChange_bytePlaced _ g _ s
    · exact .refl s
  case deviceAck g a =>
    split
    · exact busChange_retimed (busChange_deviceAnswer _ g a s)
    · exact .refl s
  case readByteFetched g b =>
    split
    · split
      · exact busChange_retimed (busChange_byteFetched _ g b s)
      · exact .refl s
    · exact .refl s
  case checkByteFetched g b =>
    split
    · split
      · split
        · exact busChange_retimed (busChange_checkFetched _ g b _ s)
        · exact .refl s
      · exact .refl s
    · exact .refl s
  case stopPlaced g =>
    split
    · exact busChange_finished (seq (busChange_dropEndedLeg _ g s) (busChange_release g _ _))
    · exact .refl s
  case arbLoss g =>
    split
    · split
      · split
        · exact busChange_arbitrationLost _ g _ s
        · exact .refl s
      · exact .refl s
    · exact .refl s
  case foreignStart g k =>
    split
    · exact busChange_retimed (busChange_foreignStart g k s)
    · exact .refl s
  case foreignStop g =>
    split
    · refine busChange_finished (seq (busChange_sampleLines g _ s) (busChange_foreignOver g _ ?_))
      simpa [sampleLines] using hm g
    · exact .refl s
  case clockLimitExpiry g =>
    split
    · exact busChange_finished (busChange_attemptFailed g s)
    · split
      · split
        · exact busChange_finished (busChange_clockExpired _ g s)
        · exact .refl s
      · exact .refl s
  case quietTimerExpiry g l =>
    split
    · split
      · refine busChange_finished (seq (busChange_sampleLines g _ s) (busChange_foreignOver g _ ?_))
        simpa [sampleLines] using hm g
      · refine busChange_finished (seq (busChange_sampleLines g _ s) (busChange_quietLow g _ ?_))
        simpa [sampleLines] using hm g
    · exact .refl s
  case recoveryAttemptEnd g l =>
    split
    · rw [takeDueDisable_none (hd g l rfl)]
      exact busChange_finished (busChange_attemptEnded g l s)
    · exact .refl s
  case readAddressAckEnd p =>
    split
    · exact busChange_retimed (busChange_readRequest p s)
    · exact .refl s
  case upstreamSclEdge p => exact port' fun r => edgeSeen_frame _
  case segmentLineEdge g w h =>
    dsimp only
    split
    · refine busChange_finished (seq (busChange_lineEdge g w h _ s) (busChange_foreignOver g _ ?_))
      have hf := lineEdge_frame w h s.working.params.clockLimit (s.seg g)
      have := hm g
      rw [← hf.1, ← hf.2] at this
      simpa using this
    · exact busChange_retimed (busChange_lineEdge g w h _ s)

/-! ### What the changes keep -/

theorem keepsImage_refl (s : State) : KeepsImage s s := ⟨rfl, rfl, rfl, rfl, rfl, rfl, rfl, rfl, rfl⟩

theorem KeepsImage.seq {s t u : State} (h : KeepsImage s t) (k : KeepsImage t u) : KeepsImage s u := by
  obtain ⟨a1, a2, a3, a4, a5, a6, a7, a8, a9⟩ := h
  obtain ⟨b1, b2, b3, b4, b5, b6, b7, b8, b9⟩ := k
  exact ⟨b1.trans a1, b2.trans a2, b3.trans a3, b4.trans a4, b5.trans a5, b6.trans a6, b7.trans a7, b8.trans a8,
    b9.trans a9⟩

theorem keepsImage_note (k : Kind) (p : Option PortPos) (g : Option SegPos) (n : Option Nat) (d : Half) (s : State) :
    KeepsImage s (note k p g n d s) := by
  unfold note
  split <;> exact keepsImage_refl s

/-- The image, the store, the session and the part-wide state outlive every event of a bus or a timer. -/
theorem BusChange.keepsImage {s t : State} (h : BusChange s t) : KeepsImage s t := by
  induction h with
  | refl s => exact keepsImage_refl s
  | seq _ _ ih1 ih2 => exact ih1.seq ih2
  | note s k p g n d => exact keepsImage_note k p g n d s
  | port | seg | lease | frame | openFrame | answer => exact ⟨rfl, rfl, rfl, rfl, rfl, rfl, rfl, rfl, rfl⟩

theorem ArbiterLaw.updSeg {s : State} {g : Seg} {f : SegState → SegState} (hl : ArbiterLaw s)
    (h : (s.seg g).lawful → (f (s.seg g)).lawful) : ArbiterLaw (s.updSeg g f) := by
  intro k
  rw [State.seg_updSeg]
  split
  · exact h (hl g)
  · exact hl k

theorem note_seg (k : Kind) (p : Option PortPos) (g : Option SegPos) (n : Option Nat) (d : Half) (s : State) (x : Seg) :
    (note k p g n d s).seg x = s.seg x := by
  unfold note
  split <;> rfl

theorem note_port (k : Kind) (p : Option PortPos) (g : Option SegPos) (n : Option Nat) (d : Half) (s : State) (x : Port) :
    (note k p g n d s).port x = s.port x := by
  unfold note
  split <;> rfl

/-- R91's law outlives the changes. -/
theorem BusChange.arbiterLaw {s t : State} (h : BusChange s t) (hl : ArbiterLaw s) : ArbiterLaw t := by
  induction h with
  | refl s => exact hl
  | seq _ _ ih1 ih2 => exact ih2 (ih1 hl)
  | note s k p g n d => intro x; rw [note_seg]; exact hl x
  | seg h => exact hl.updSeg h
  | port | lease | frame | openFrame | answer => exact hl

theorem SnapshotLaw.updPort {s : State} {p : Port} {f : PortState → PortState} (hl : SnapshotLaw s)
    (h : (s.port p).lawful → (f (s.port p)).lawful) : SnapshotLaw (s.updPort p f) := by
  intro q
  rw [State.port_updPort]
  split
  · exact h (hl p)
  · exact hl q

/-- R12's law outlives the changes. -/
theorem BusChange.snapshotLaw {s t : State} (h : BusChange s t) (hl : SnapshotLaw s) : SnapshotLaw t := by
  induction h with
  | refl s => exact hl
  | seq _ _ ih1 ih2 => exact ih2 (ih1 hl)
  | note s k p g n d => intro x; rw [note_port]; exact hl x
  | seg | lease => exact hl
  | port _ h => exact hl.updPort h
  | openFrame _ _ h => exact hl.updPort h
  | @frame s p e he h =>
    exact SnapshotLaw.updPort (s := s) (p := p) (f := fun r => { r with assembler := none }) hl (fun h => h)
  | @answer s g r st pl h =>
    exact SnapshotLaw.updPort (s := s) (p := r.port)
      (f := fun x => { x with responses := x.responses ++ [⟨st, r.tag, pl⟩] }) hl (fun h => h)

theorem nextSeqAfter_range (n : Nat) : 1 ≤ nextSeqAfter n ∧ nextSeqAfter n ≤ 0xFFFF := by
  unfold nextSeqAfter
  split <;> omega

theorem noticeLaw_note (k : Kind) (p : Option PortPos) (g : Option SegPos) (n : Option Nat) (d : Half) {s : State}
    (h : NoticeLaw s) : NoticeLaw (note k p g n d s) := by
  obtain ⟨h1, h2, h3, h4, h5⟩ := h
  unfold note
  split
  · rename_i hn
    refine ⟨?_, h2, nextSeqAfter_range _, ?_, ?_⟩
    · have h32 : Config.noticeMax = 32 := rfl
      rw [List.length_append, List.length_singleton]
      omega
    · intro m hm
      rcases List.mem_append.mp hm with hm | hm
      · exact h4 m hm
      · cases List.mem_singleton.mp hm
        exact h3
    · intro _ e
      exact absurd (List.append_eq_nil_iff.mp e).2 (List.cons_ne_nil _ _)
  · rename_i hn
    refine ⟨h1, ?_, nextSeqAfter_range _, h4, ?_⟩
    · show (if s.lost < 255 then s.lost + 1 else s.lost) ≤ 255
      split
      · assumption
      · exact h2
    · intro _ e
      have e' : s.notices = [] := e
      rw [e'] at hn
      exact hn (by decide)

/-- R188's law outlives the changes. -/
theorem BusChange.noticeLaw {s t : State} (h : BusChange s t) (hl : NoticeLaw s) : NoticeLaw t := by
  induction h with
  | refl s => exact hl
  | seq _ _ ih1 ih2 => exact ih2 (ih1 hl)
  | note s k p g n d => exact noticeLaw_note k p g n d hl
  | port | seg | lease | frame | openFrame | answer => exact hl

/-! ### Credits (R154) -/

theorem creditsInUse_eq (s : State) (p : Port) : creditsInUse s p = (s.port p).credits + accepted s p := by
  unfold creditsInUse PortState.credits
  omega

theorem accepted_note (k : Kind) (p : Option PortPos) (g : Option SegPos) (n : Option Nat) (d : Half) (s : State) (x : Port) :
    accepted (note k p g n d s) x = accepted s x := by
  unfold note
  split <;> rfl

theorem creditsInUse_note (k : Kind) (p : Option PortPos) (g : Option SegPos) (n : Option Nat) (d : Half) (s : State)
    (x : Port) : creditsInUse (note k p g n d s) x = creditsInUse s x := by
  rw [creditsInUse_eq, creditsInUse_eq, accepted_note, note_port]

/-- Removing a segment's entry from the list of SEGMENT-RESETs leaves its port one fewer. -/
theorem segResets_removed (g : Seg) (r : SegReset) : ∀ l : List SegReset, l.find? (fun x => x.seg == g) = some r →
    ∀ p : Port, ((l.filter fun x => !(x.seg == g)).filter fun x => x.port == p).length + one (r.port == p)
      ≤ (l.filter fun x => x.port == p).length
  | [], h, _ => nomatch h
  | x :: l, h, p => by
    by_cases hx : (x.seg == g) = true
    · have hr : x = r := by simpa [List.find?_cons, hx] using h
      subst hr
      have hle : ((l.filter fun x => !(x.seg == g)).filter fun x => x.port == p).length
          ≤ (l.filter fun x => x.port == p).length :=
        (List.filter_sublist.filter _).length_le
      have he : ((x :: l).filter fun x => !(x.seg == g)) = l.filter fun x => !(x.seg == g) :=
        List.filter_cons_of_neg (by simp [hx])
      rw [he, List.filter_cons]
      unfold one
      split <;> simp_all
    · have hr : l.find? (fun x => x.seg == g) = some r := by simpa [List.find?_cons, hx] using h
      have ih := segResets_removed g r l hr p
      have he : ((x :: l).filter fun x => !(x.seg == g)) = x :: l.filter fun x => !(x.seg == g) :=
        List.filter_cons_of_pos (by simp [hx])
      rw [he, List.filter_cons, List.filter_cons]
      split
      · simp only [List.length_cons]
        omega
      · exact ih

theorem creditsInUse_updPort (s : State) (p q : Port) (f : PortState → PortState) :
    creditsInUse (s.updPort p f) q = (if q = p then (f (s.port p)).credits else (s.port q).credits) + accepted s q := by
  rw [creditsInUse_eq, State.port_updPort]
  split <;> rfl

/-- R155's law outlives the changes. -/
theorem BusChange.creditLaw {s t : State} (h : BusChange s t) (hl : CreditLaw s) : CreditLaw t := by
  induction h with
  | refl s => exact hl
  | seq _ _ ih1 ih2 => exact ih2 (ih1 hl)
  | note s k p g n d => intro x; rw [creditsInUse_note]; exact hl x
  | seg | lease => exact hl
  | @port s p f hc _ =>
    intro q
    have := hl q
    rw [creditsInUse_eq] at this
    rw [creditsInUse_updPort]
    split
    · rename_i e
      subst e
      omega
    · exact this
  | @openFrame s p f h hr _ =>
    intro q
    have hq := hl q
    rw [creditsInUse_eq] at hq
    rw [creditsInUse_updPort]
    split
    · rename_i e
      subst e
      have h' := of_decide_eq_true h
      have h1 : (f (s.port q)).credits = one (f (s.port q)).assembler.isSome + (s.port q).responses.length := by
        unfold PortState.credits
        rw [hr]
      have h2 : one (f (s.port q)).assembler.isSome ≤ 1 := by
        unfold one
        split <;> omega
      have h3 : Config.creditMax = 4 := rfl
      omega
    · exact hq
  | @frame s p e he h =>
    intro q
    have hq := hl q
    unfold creditsInUse accepted at *
    simp only [State.port, State.updPort, PerPort.get_set, List.filter_append, List.length_append] at *
    by_cases hqp : q = p
    · subst hqp
      have hf : (List.filter (fun x => x.port == q) [e]).length = 1 := by simp [he]
      have ho : one true = 1 := rfl
      have hz : one false = 0 := rfl
      simp only [if_pos, h, hf, Option.isSome_none, ho, hz] at *
      omega
    · have hf : (List.filter (fun x => x.port == q) [e]).length = 0 := by
        simp [he, Ne.symm hqp]
      simp only [if_neg hqp, hf] at *
      omega
  | @answer s g r status payload h =>
    intro q
    have hq := hl q
    have hr := segResets_removed g r s.segResets h q
    unfold creditsInUse accepted respond at *
    simp only [State.port, State.updPort, PerPort.get_set] at *
    by_cases hqr : q = r.port
    · subst hqr
      have ho : one (r.port == r.port) = 1 := by simp [one]
      simp only [if_pos, List.length_append, List.length_singleton, ho] at *
      omega
    · simp only [if_neg hqr] at *
      omega

end Sys2Proof.Machine
end

