-- ==== Sys2Proof/Laws/Timers.lean ====
section
/-!
SUPPORT. What `retime` and `settle` do: `retime` touches the stall and quiet timers alone and leaves the law of the timers holding, and is
nothing where it holds already; `settle` is nothing where no claim and no answer is outstanding.
-/
namespace Sys2Proof.Machine

/-! ### retime (R59, R114) -/

/-- A record's stall timer after `retime`. -/
def stallAfter (s : State) (p : Port) : Option Nat :=
  if stallRuns s p then
    (match (s.port p).stall with
    | some n => some n
    | none => some s.working.params.stallLimit)
  else none

/-- A segment's quiet timer after `retime`. -/
def quietAfter (limit : Nat) (c : SegState) : Option Nat :=
  if c.quietRuns then
    (match c.quiet with
    | some n => some n
    | none => some limit)
  else none

theorem owns_congr {s t : State} {p : Port} (h : ∀ g, (t.seg g).owner = (s.seg g).owner) : owns t p = owns s p := by
  funext g
  unfold owns
  rw [h g]

/-- What the stall timer's condition looks at. -/
theorem stallRuns_congr {s t : State} {p : Port} (h : ∀ g, (t.seg g).owner = (s.seg g).owner)
    (hp : (t.port p).phase = (s.port p).phase) (hc : (t.port p).sclHeld = (s.port p).sclHeld) :
    stallRuns t p = stallRuns s p := by
  unfold stallRuns ownedSegs
  rw [owns_congr h, hp, hc]

theorem seg_retimeQuiet (g h : Seg) (s : State) : (retimeQuiet g s).seg h =
    if h = g then { s.seg g with quiet := quietAfter s.working.params.clockLimit (s.seg g) } else s.seg h :=
  State.seg_updSeg s g h _

theorem owner_retimeQuiet (g h : Seg) (s : State) : ((retimeQuiet g s).seg h).owner = (s.seg h).owner := by
  rw [seg_retimeQuiet]
  split
  · rename_i e
    rw [e]
  · rfl

theorem port_retimeStall (p q : Port) (s : State) : (retimeStall p s).port q =
    if q = p then { s.port p with stall := stallAfter s p } else s.port q :=
  State.port_updPort s p q _

theorem stallAfter_congr {s t : State} {p : Port} (h : ∀ g, (t.seg g).owner = (s.seg g).owner)
    (hp : t.port p = s.port p) (hw : t.working = s.working) : stallAfter t p = stallAfter s p := by
  unfold stallAfter
  rw [stallRuns_congr h (by rw [hp]) (by rw [hp]), hp, hw]

/-- The quiet timers of every segment, retimed. -/
def retimeQuiets (s : State) : State :=
  retimeQuiet .s0 (retimeQuiet .s1 (retimeQuiet .s2 (retimeQuiet .s3 s)))

theorem retime_eq (s : State) : retime s = retimeStall .u0 (retimeStall .u1 (retimeQuiets s)) := rfl

theorem owner_retimeQuiets (s : State) (g : Seg) : ((retimeQuiets s).seg g).owner = (s.seg g).owner := by
  unfold retimeQuiets
  simp only [owner_retimeQuiet]

theorem seg_retimeQuiets (s : State) (g : Seg) : (retimeQuiets s).seg g =
    { s.seg g with quiet := quietAfter s.working.params.clockLimit (s.seg g) } := by
  have hw : ∀ (h : Seg) (t : State), (retimeQuiet h t).working = t.working := fun _ _ => rfl
  unfold retimeQuiets
  cases g <;> simp [seg_retimeQuiet, hw]

theorem port_retimeQuiets (s : State) (p : Port) : (retimeQuiets s).port p = s.port p := rfl

theorem port_retime (s : State) (p : Port) : (retime s).port p = { s.port p with stall := stallAfter s p } := by
  have h : ∀ q, stallAfter (retimeQuiets s) q = stallAfter s q :=
    fun q => stallAfter_congr (owner_retimeQuiets s) rfl rfl
  have h1 : stallAfter (retimeStall .u1 (retimeQuiets s)) .u0 = stallAfter s .u0 := by
    rw [← h .u0]
    refine stallAfter_congr (fun _ => rfl) ?_ rfl
    rw [port_retimeStall]
    rfl
  rw [retime_eq, port_retimeStall]
  cases p with
  | u0 => rw [if_pos rfl, h1, port_retimeStall, if_neg (by decide), port_retimeQuiets]
  | u1 => rw [if_neg (by decide), port_retimeStall, if_pos rfl, h, port_retimeQuiets]

theorem seg_retime (s : State) (g : Seg) :
    (retime s).seg g = { s.seg g with quiet := quietAfter s.working.params.clockLimit (s.seg g) } :=
  seg_retimeQuiets s g

theorem stallRuns_retime (s : State) (p : Port) : stallRuns (retime s) p = stallRuns s p := by
  refine stallRuns_congr (fun g => ?_) ?_ ?_
  · rw [seg_retime]
  · rw [port_retime]
  · rw [port_retime]

theorem isSome_stallAfter (s : State) (p : Port) : (stallAfter s p).isSome = stallRuns s p := by
  unfold stallAfter
  split
  · rename_i h
    rw [h]
    split <;> rfl
  · rename_i h
    rw [Bool.eq_false_iff.mpr h]
    rfl

theorem isSome_quietAfter (n : Nat) (c : SegState) : (quietAfter n c).isSome = c.quietRuns := by
  unfold quietAfter
  split
  · rename_i h
    rw [h]
    split <;> rfl
  · rename_i h
    rw [Bool.eq_false_iff.mpr h]
    rfl

/-- `retime` leaves every timer as the rules ask. -/
theorem timersLaw_retime (s : State) : TimersLaw (retime s) := by
  refine ⟨fun p => ?_, fun g => ?_⟩
  · rw [stallRuns_retime, port_retime]
    exact isSome_stallAfter s p
  · rw [seg_retime]
    exact isSome_quietAfter _ (s.seg g)

theorem stallAfter_of_law {s : State} {p : Port} (h : (s.port p).stall.isSome = stallRuns s p) :
    stallAfter s p = (s.port p).stall := by
  unfold stallAfter
  rw [← h]
  cases hs : (s.port p).stall <;> rfl

theorem quietAfter_of_law {n : Nat} {c : SegState} (h : c.quiet.isSome = c.quietRuns) : quietAfter n c = c.quiet := by
  unfold quietAfter
  rw [← h]
  cases hs : c.quiet <;> rfl

theorem State.updSeg_self {s : State} {g : Seg} {f : SegState → SegState} (h : f (s.seg g) = s.seg g) :
    s.updSeg g f = s := by
  have e : s.segs.set g (f (s.segs.get g)) = s.segs := by
    rw [show f (s.segs.get g) = s.segs.get g from h, PerSeg.set_get]
  unfold State.updSeg
  rw [e]

theorem State.updPort_self {s : State} {p : Port} {f : PortState → PortState} (h : f (s.port p) = s.port p) :
    s.updPort p f = s := by
  have e : s.ports.set p (f (s.ports.get p)) = s.ports := by
    rw [show f (s.ports.get p) = s.ports.get p from h, PerPort.set_get]
  unfold State.updPort
  rw [e]

theorem retimeQuiet_of_law {s : State} {g : Seg} (h : (s.seg g).quiet.isSome = (s.seg g).quietRuns) :
    retimeQuiet g s = s := by
  refine State.updSeg_self ?_
  show { s.seg g with quiet := quietAfter s.working.params.clockLimit (s.seg g) } = s.seg g
  rw [quietAfter_of_law h]

theorem retimeStall_of_law {s : State} {p : Port} (h : (s.port p).stall.isSome = stallRuns s p) :
    retimeStall p s = s := by
  refine State.updPort_self ?_
  show { s.port p with stall := stallAfter s p } = s.port p
  rw [stallAfter_of_law h]

/-- Where the timers run as the rules ask, `retime` changes nothing. -/
theorem retime_of_law {s : State} (h : TimersLaw s) : retime s = s := by
  unfold retime
  rw [retimeQuiet_of_law (h.2 _), retimeQuiet_of_law (h.2 _), retimeQuiet_of_law (h.2 _), retimeQuiet_of_law (h.2 _),
    retimeStall_of_law (h.1 _), retimeStall_of_law (h.1 _)]

/-! ### settle (R31, R39, R95, R98) -/

theorem nextRefusal_of_empty {s : State} {g : Seg} (h : (s.seg g).waiters = []) : nextRefusal s g = none := by
  unfold nextRefusal
  rw [h]

theorem nextGrant_of_empty {s : State} {g : Seg} (h : (s.seg g).waiters = []) : nextGrant s g = none := by
  unfold nextGrant
  rw [h]

/-- With no claim and no answer outstanding, an event sets off nothing more. -/
theorem micro_of_uncontended {s : State} (h : Uncontended s) : micro s = none := by
  have h1 : Seg.list.findSome? (nextRefusal s) = none :=
    List.findSome?_eq_none_iff.mpr fun g _ => nextRefusal_of_empty (h.1 g)
  have h2 : Seg.list.findSome? (nextGrant s) = none :=
    List.findSome?_eq_none_iff.mpr fun g _ => nextGrant_of_empty (h.1 g)
  have h3 : Port.list.findSome? (nextAnswer s) = none := by
    refine List.findSome?_eq_none_iff.mpr fun p _ => ?_
    unfold nextAnswer
    rw [(h.2 p).1]
  have hq : ∀ p, ((s.port p).phase == Phase.awaitGrant) = false := fun p => beq_eq_false_iff_ne.mpr (h.2 p).2
  have h4 : Port.list.findSome? (nextClaim s) = none := by
    refine List.findSome?_eq_none_iff.mpr fun p _ => ?_
    unfold nextClaim
    rw [hq p]
    rfl
  have h5 : Port.list.find? (acquired s) = none := by
    refine List.find?_eq_none.mpr fun p _ => ?_
    unfold acquired
    rw [hq p]
    exact Bool.false_ne_true
  unfold micro
  rw [h1, h2, h3, h4, h5]

theorem settle_of_none {s : State} (h : micro s = none) : ∀ n, settle n s = s
  | 0 => rfl
  | n + 1 => by
    unfold settle
    rw [h]

theorem settle_step {s t : State} (h : micro s = some t) (n : Nat) : settle (n + 1) s = settle n t := by
  rw [settle, h]

theorem finish_of_uncontended {s : State} (h : Uncontended s) : finish s = retime s := by
  unfold finish
  rw [settle_of_none (micro_of_uncontended h)]

end Sys2Proof.Machine
end

