-- ==== Sys2Proof/Laws/Executor.lean ====
section
/-!
SUPPORT. What the executor does with the head entry (R159, R160), in the words the statements use.
-/
namespace Sys2Proof.Machine

theorem whenRunning_running {s : State} (h : s.run = .running) (f : State → State) : whenRunning s f = f s := by
  unfold whenRunning
  rw [if_pos h]

theorem whenRunning_stopped {s : State} (h : s.run ≠ .running) (f : State → State) : whenRunning s f = s := by
  unfold whenRunning
  rw [if_neg h]

theorem permitted_full {s : State} {p : Port} (h : s.working.params.priv.get p = .full) (c : Command) :
    permitted s p c = true := by
  unfold permitted
  rw [h]

theorem permitted_read {s : State} {p : Port} {c : Command} (h : s.working.params.priv.get p = .read)
    (hc : c ∈ [Command.identify, .getStatus, .readEntry, .readParams, .takeNotices]) : permitted s p c = true := by
  unfold permitted
  rw [h]
  revert hc
  cases c <;> decide

/-- A response placed at the execution leaves the head entry answered and nothing else changed. -/
theorem respond_takeHead {s : State} (he : s.executing = none) (p : Port) (st : Status) (tag : Byte) (pl : List Byte)
    (e : QEntry) (rest : List QEntry) :
    freeExecutor (respond p st tag pl (takeHead e rest s)) = answered p st tag pl rest s := by
  show ({ answered p st tag pl rest s with executing := none } : State) = answered p st tag pl rest s
  have : (answered p st tag pl rest s).executing = none := he
  rw [← this]

/-- A frame at the head, whose command the port's privilege admits, runs its command's body on the state without it. -/
theorem runFrame_head {s : State} {p : Port} {c : Command} {tag : Byte} {payload : List Byte} {rest : List QEntry}
    (he : s.executing = none) (hq : s.cmdQueue = .frame p c tag payload :: rest) (hp : permitted s p c = true)
    (body : Body) :
    runFrame c body s = freeExecutor (body p tag payload (takeHead (.frame p c tag payload) rest s)) := by
  unfold runFrame
  rw [he, hq]
  dsimp only
  rw [if_pos rfl, if_pos hp]

/-- A frame at the head, whose command the port's privilege does not admit, is answered NOT_PERMITTED. -/
theorem runFrame_denied {s : State} {p : Port} {c : Command} {tag : Byte} {payload : List Byte} {rest : List QEntry}
    (he : s.executing = none) (hq : s.cmdQueue = .frame p c tag payload :: rest) (hp : permitted s p c = false)
    (body : Body) : runFrame c body s = answered p .notPermitted tag [] rest s := by
  unfold runFrame
  rw [he, hq]
  dsimp only
  rw [if_pos rfl, hp]
  exact respond_takeHead he p _ tag [] _ rest

/-- A head entry that is no frame of the command is left where it is. -/
theorem runFrame_other {s : State} {c : Command} (h : ∀ p tag payload rest, s.cmdQueue ≠ .frame p c tag payload :: rest)
    (body : Body) : runFrame c body s = s := by
  unfold runFrame
  split
  · rename_i hq
    split
    · rename_i e
      subst e
      exact absurd hq (h _ _ _ _)
    · rfl
  · rfl

/-- An error entry at the head is answered with its own status. -/
theorem runError_head {s : State} {p : Port} {st : Status} {tag : Byte} {rest : List QEntry} (he : s.executing = none)
    (hq : s.cmdQueue = .error p st tag :: rest) : runError s = answered p st tag [] rest s := by
  unfold runError
  rw [he, hq]
  exact respond_takeHead he p st tag [] _ rest

/-- A frame of a command at the head of the queue, from a port whose privilege admits it: the row runs its body. -/
theorem HeadFrame.run {s : State} {p : Port} {c : Command} {tag : Byte} {payload : List Byte} {rest : List QEntry}
    (h : HeadFrame s p c tag payload rest) (body : Body) :
    whenRunning s (runFrame c body) = freeExecutor (body p tag payload (takeHead (.frame p c tag payload) rest s)) := by
  have hp : permitted s p c = true := h.2.2.2.elim (permitted_full · c) fun r => permitted_read r.1 r.2
  rw [whenRunning_running h.1, runFrame_head h.2.1 h.2.2.1 hp]

/-- A SEGMENT-DISABLE of a segment without the mark, at the head of the queue of a free executor, is due. -/
theorem disableDue_head {s : State} {p : Port} {g : Seg} {tag : Byte} {rest : List QEntry}
    (h : HeadFrame s p .segmentDisable tag [byteOf (segNumber g)] rest) (hm : (s.seg g).pendingDisable = false) :
    disableDue g s = true := by
  have hp : permitted s p .segmentDisable = true := h.2.2.2.elim (permitted_full · _) fun r => permitted_read r.1 r.2
  have hg : segOfByte (byteAt [byteOf (segNumber g)] 0) = some g := by cases g <;> rfl
  unfold disableDue
  rw [h.2.1, h.2.2.1]
  dsimp only
  rw [hp, hg, hm, beq_self_eq_true]
  rfl

/-- On a segment that has the mark, none is. -/
theorem disableDue_marked {s : State} {g : Seg} (hm : (s.seg g).pendingDisable = true) : disableDue g s = false := by
  unfold disableDue
  split
  · rw [hm, Bool.not_true, Bool.and_false]
  · rfl

/-- With no frame of SEGMENT-DISABLE at the head of the queue, none is. -/
theorem disableDue_other {s : State} {g : Seg}
    (h : ∀ p tag payload rest, s.cmdQueue ≠ .frame p .segmentDisable tag payload :: rest) : disableDue g s = false := by
  unfold disableDue
  split
  · rename_i hq
    exact absurd hq (h _ _ _ _)
  · rfl

end Sys2Proof.Machine
end

