-- ==== Sys2Proof/Laws/Image.lean ====
section
/-!
SUPPORT. The bank image and its fields (13.2, 13.3): an image that passes validation reads back from its 336 bytes as it is.
-/
namespace Sys2Proof.Machine

/-! ### One field at a time (R192, R193) -/

theorem addrOfByte_routable {a : Addr} (h : routable a = true) : addrOfByte (0#1 ++ a) = some a := by
  revert a
  decide +kernel

theorem byteOf_toNat {n : Nat} (h : n ≤ 255) : (byteOf n).toNat = n := by
  unfold byteOf
  rw [BitVec.toNat_ofNat]
  omega

theorem portsOfByte_portsByte {v : PerPort Bool} (h : portsNonempty v = true) : portsOfByte (portsByte v) = some v := by
  obtain ⟨a, b⟩ := v
  cases a <;> cases b <;> first | rfl | exact absurd h (by decide)

theorem segSetOfByte_segSetByte (v : PerSeg Bool) : segSetOfByte (segSetByte v) = v := by
  obtain ⟨a, b, c, d⟩ := v
  cases a <;> cases b <;> cases c <;> cases d <;> rfl

theorem accessOfByte_accessByte (a : Access) : accessOfByte (accessByte a) = some a := by cases a <;> rfl

theorem checkOfByte_optionsByte (c : CheckMode) (w : Option Window) : checkOfByte (optionsByte c w) = some c := by
  cases c <;> cases w <;> simp [optionsByte, byteOf, checkOfByte]

theorem windowBit_optionsByte (c : CheckMode) (w : Option Window) : (optionsByte c w).getLsbD 7 = w.isSome := by
  cases c <;> cases w <;> simp [optionsByte, byteOf]

theorem segParamsOfByte_segParamsByte (q : SegParams) : segParamsOfByte (segParamsByte q) = q := by
  obtain ⟨m, v, r⟩ := q
  cases m <;> cases v <;> cases r <;> rfl

theorem privOfByte_privByte (v : Privilege) : privOfByte (privByte v) = some v := by cases v <;> rfl

theorem boolOfByte_boolByte (b : Bool) : boolOfByte (boolByte b) = some b := by cases b <;> rfl

/-! ### An entry -/

/-- The checks of R15 that say an entry's fields are in their sets. -/
def EntryFields.inSets (f : EntryFields) : Prop :=
  addressOutside f.vaddr = false ∧ addressOutside f.target = false ∧ fieldOutside f = false

theorem inSets_of_checkEntry {m : Option Addr} {lower : List EntryFields} {f : EntryFields}
    (h : checkEntry m lower f = none) : f.inSets := by
  unfold checkEntry at h
  split at h
  · cases h
  · rename_i ha
    split at h
    · cases h
    · rename_i hf
      rw [Bool.or_eq_true, not_or] at ha
      exact ⟨Bool.eq_false_of_not_eq_true ha.1, Bool.eq_false_of_not_eq_true ha.2, Bool.eq_false_of_not_eq_true hf⟩

theorem inSets_of_checkSlots {m : Option Addr} {f : EntryFields} : ∀ (slots : List (Option EntryFields)) (n : Nat)
    (lower : List EntryFields), checkSlots m n lower slots = none → some f ∈ slots → f.inSets
  | [], _, _, _, hf => nomatch hf
  | none :: rest, n, lower, h, hf => by
    rcases List.mem_cons.mp hf with e | hf
    · cases e
    · exact inSets_of_checkSlots rest (n + 1) lower h hf
  | some g :: rest, n, lower, h, hf => by
    unfold checkSlots at h
    split at h
    · cases h
    · rename_i hg
      rcases List.mem_cons.mp hf with e | hf
      · cases e
        exact inSets_of_checkEntry hg
      · exact inSets_of_checkSlots rest (n + 1) _ h hf

theorem writeLimitOfByte_getD {l : Option Nat} (h : (match l with | none => false | some n => !inRange 1 255 n) = false) :
    writeLimitOfByte (byteOf (l.getD 0)) = l := by
  cases l with
  | none => rfl
  | some n =>
    have hn : 1 ≤ n ∧ n ≤ 255 := by simpa [inRange] using h
    unfold writeLimitOfByte
    rw [Option.getD_some, byteOf_toNat hn.2, if_neg (by omega)]

theorem readLenOfByte_getD {l : Option Nat}
    (h : (match (some l : Option (Option Nat)) with
      | none => true | some none => false | some (some n) => !inRange 1 64 n) = false) :
    readLenOfByte (byteOf (l.getD 0)) = some l := by
  cases l with
  | none => rfl
  | some n =>
    have hn : 1 ≤ n ∧ n ≤ 64 := by simpa [inRange] using h
    unfold readLenOfByte
    rw [Option.getD_some, byteOf_toNat (by omega), if_neg (by omega), if_pos hn.2]

theorem routable_of_inside {a : Addr} (h : addressOutside (some a) = false) : routable a = true := by
  simpa [addressOutside] using h

theorem entryFieldsOf_bytes {e : Entry} (h : e.fields.inSets) : entryFieldsOf e.bytes = e.fields := by
  obtain ⟨hv, ht, hf⟩ := h
  unfold fieldOutside at hf
  simp only [Bool.or_eq_false_iff] at hf
  obtain ⟨⟨⟨⟨hp, _⟩, _⟩, hw⟩, hr⟩ := hf
  have e1 : portsOfByte (portsByte e.ports) = some e.ports := portsOfByte_portsByte (by simpa [Entry.fields] using hp)
  have e2 := addrOfByte_routable (routable_of_inside hv)
  have e3 := addrOfByte_routable (routable_of_inside ht)
  have e4 : writeLimitOfByte (byteOf (e.writeLimit.getD 0)) = e.writeLimit := writeLimitOfByte_getD hw
  have e5 : readLenOfByte (byteOf (e.readLen.getD 0)) = some e.readLen := readLenOfByte_getD hr
  have e6 := windowBit_optionsByte e.check e.window
  unfold entryFieldsOf Entry.bytes
  simp only [byteAt, List.getD_cons_zero, List.getD_cons_succ]
  rw [e1, e2, e3, e4, e5, e6, segSetOfByte_segSetByte, accessOfByte_accessByte, checkOfByte_optionsByte]
  unfold Entry.fields
  congr 1
  cases e.window <;> rfl

theorem length_slotBytes (o : Option Entry) : (slotBytes o).length = 10 := by cases o <;> rfl

theorem isEmptySlot_bytes {e : Entry} (h : e.fields.inSets) : isEmptySlot e.bytes = false := by
  have hv := routable_of_inside h.1
  have : (0#1 ++ e.vaddr : Byte) ≠ 0#8 := by
    have key : ∀ a : Addr, routable a = true → (0#1 ++ a : Byte) ≠ 0#8 := by decide +kernel
    exact key _ hv
  unfold isEmptySlot Entry.bytes
  simp only [byteAt, List.getD_cons_zero, List.getD_cons_succ]
  rw [beq_false_of_ne this]
  simp

theorem slotFieldsOf_slotBytes {o : Option Entry} (h : ∀ e, o = some e → e.fields.inSets) :
    slotFieldsOf (slotBytes o) = o.map Entry.fields := by
  cases o with
  | none => rfl
  | some e =>
    unfold slotFieldsOf slotBytes
    rw [isEmptySlot_bytes (h e rfl), entryFieldsOf_bytes (h e rfl)]
    rfl

theorem slotFieldsFrom_bytes : ∀ l : List (Option Entry), (∀ e, some e ∈ l → e.fields.inSets) →
    slotFieldsFrom l.length (l.map slotBytes).flatten = l.map (Option.map Entry.fields)
  | [], _ => rfl
  | o :: l, h => by
    have ho : ∀ e, o = some e → e.fields.inSets := fun e he => h e (he ▸ List.mem_cons_self)
    have hl : (slotBytes o).length = 10 := length_slotBytes o
    rw [List.map_cons, List.flatten_cons, List.length_cons, slotFieldsFrom, List.take_left' hl, List.drop_left' hl,
      slotFieldsOf_slotBytes ho, slotFieldsFrom_bytes l fun e he => h e (List.mem_cons_of_mem _ he)]
    rfl

/-! ### The parameter block -/

theorem paramFieldsOf_bytes {q : Params} (h : paramsInSet q.fields = true) : paramFieldsOf q.bytes = q.fields := by
  unfold paramsInSet at h
  simp only [Bool.and_eq_true, inRange, decide_eq_true_eq] at h
  obtain ⟨⟨⟨⟨⟨⟨⟨⟨⟨hm, _⟩, _⟩, _⟩, _⟩, hh⟩, hs⟩, hc⟩, hr⟩, hl⟩ := h
  have hm' : mgmtOfBytes (match q.mgmt with | .strap => 0x00#8 | .fixed _ => 0x01#8)
      (match q.mgmt with | .strap => 0x00#8 | .fixed a => 0#1 ++ a) = some q.mgmt := by
    have hm : mgmtInSet (some q.mgmt) = true := hm
    cases hq : q.mgmt with
    | strap => rfl
    | fixed a =>
      rw [hq] at hm
      show (addrOfByte (0#1 ++ a)).map MgmtMode.fixed = _
      rw [addrOfByte_routable hm]
      rfl
  have eh : (byteOf q.holdLimit).toNat = q.holdLimit := byteOf_toNat (by simp [Params.fields] at hh; omega)
  have ec : (byteOf q.clockLimit).toNat = q.clockLimit := byteOf_toNat (by simp [Params.fields] at hc; omega)
  have er : (byteOf q.retries).toNat = q.retries := byteOf_toNat (by simp [Params.fields] at hr; omega)
  have el : (byteOf q.lease).toNat = q.lease := byteOf_toNat (by simp [Params.fields] at hl; omega)
  have es : (byteOf (q.stallLimit / 0x100)).toNat * 0x100 + (byteOf q.stallLimit).toNat = q.stallLimit := by
    simp only [Params.fields] at hs
    unfold byteOf
    rw [BitVec.toNat_ofNat, BitVec.toNat_ofNat]
    omega
  unfold paramFieldsOf Params.bytes
  simp only [byteAt, List.getD_cons_zero, List.getD_cons_succ]
  rw [eh, ec, er, el, es]
  simp only [privOfByte_privByte, boolOfByte_boolByte, segParamsOfByte_segParamsByte]
  exact congrArg (fun m => ParamFields.mk m _ _ _ _ _ _ _ _) hm'

/-! ### The image (R146, 13.3) -/

/-- An image that passes validation has the fields its bytes give. -/
theorem imageFieldsOf_bytes {strap : BitVec 2} {i : Image} (hs : i.slots.length = 32)
    (h : validate strap i.fields = none) : imageFieldsOf i.bytes = i.fields := by
  unfold validate at h
  split at h
  · cases h
  · rename_i hc
    have hp : paramsInSet i.params.fields = true := by
      unfold checkParams at h
      split at h
      · cases h
      · rename_i hp
        simpa [Image.fields] using hp
    have he : ∀ e, some e ∈ i.slots → e.fields.inSets := fun e me =>
      inSets_of_checkSlots _ _ _ hc (List.mem_map.mpr ⟨some e, me, rfl⟩)
    have hl : i.params.bytes.length = 16 := rfl
    have h32 : Config.slotCount = i.slots.length := hs.symm
    unfold imageFieldsOf Image.bytes
    rw [List.take_left' hl, List.drop_left' hl, paramFieldsOf_bytes hp, h32, slotFieldsFrom_bytes _ he]
    rfl

/-- The fields of an image give it back. -/
theorem toImage_fields (i : Image) : i.fields.toImage = i := by
  have hs : (i.slots.map (Option.map Entry.fields)).map (Option.map EntryFields.toEntry) = i.slots := by
    rw [List.map_map]
    refine (List.map_congr_left fun o _ => ?_).trans (List.map_id _)
    cases o <;> rfl
  show (⟨i.params.fields.toParams, _⟩ : Image) = i
  rw [Image.fields, hs]
  rfl

/-- An image has 336 bytes. -/
theorem length_bytes {i : Image} (h : i.slots.length = 32) : i.bytes.length = 336 := by
  have key : ∀ l : List (Option Entry), (l.map slotBytes).flatten.length = 10 * l.length := by
    intro l
    induction l with
    | nil => rfl
    | cons o l ih =>
      rw [List.map_cons, List.flatten_cons, List.length_append, length_slotBytes, ih, List.length_cons]
      omega
  unfold Image.bytes
  rw [List.length_append, key, h]
  rfl

end Sys2Proof.Machine
end

