-- ==== Sys2Proof/Laws/Settle.lean ====
section
/-!
SUPPORT. What one event sets off comes to an end: every step of `micro` leaves less outstanding, so `settle` leaves nothing that `micro`
would still do.
-/
namespace Sys2Proof.Machine

/-- A record has a CLAIMING leg on a segment. -/
def legClaiming (s : State) (p : Port) (g : Seg) : Bool :=
  (s.port p).legs.any fun l => l.seg == g && l.state == .claiming

theorem mem_claimingSegs {s : State} {p : Port} {g : Seg} : g ∈ claimingSegs s p ↔ legClaiming s p g = true := by
  simp [claimingSegs, legClaiming]

/-! ### What is outstanding -/

/-- What a claimant has outstanding on a segment: a place in the wait list, or a claim still to be placed. -/
def claimDue (s : State) (c : Claimant) (g : Seg) : Nat :=
  if c ∈ (s.seg g).waiters then 1
  else
    match c with
    | .port p => if legClaiming s p g then 2 else 0
    | .mgmt => 0

/-- What a port has outstanding: an answer, and the end of an acquisition. -/
def portDue (s : State) (p : Port) : Nat := one (s.port p).addrWait.isSome + one ((s.port p).phase == .awaitGrant)

/-- What an event can still set off. -/
def dues (s : State) : Nat :=
  (Seg.list.map fun g => claimDue s (.port .u0) g + claimDue s (.port .u1) g + claimDue s .mgmt g).sum
    + (Port.list.map (portDue s)).sum

theorem claimDue_le (s : State) (c : Claimant) (g : Seg) : claimDue s c g ≤ 2 := by
  unfold claimDue
  split
  · decide
  · split
    · split <;> decide
    · decide

theorem portDue_le (s : State) (p : Port) : portDue s p ≤ 2 := by
  unfold portDue one
  split <;> split <;> decide

theorem dues_le (s : State) : dues s ≤ 28 := by
  have h0 := portDue_le s .u0
  have h1 := portDue_le s .u1
  have hc := claimDue_le s
  have g0 := hc (.port .u0); have g1 := hc (.port .u1); have g2 := hc .mgmt
  have a0 := g0 .s0; have a1 := g0 .s1; have a2 := g0 .s2; have a3 := g0 .s3
  have b0 := g1 .s0; have b1 := g1 .s1; have b2 := g1 .s2; have b3 := g1 .s3
  have c0 := g2 .s0; have c1 := g2 .s1; have c2 := g2 .s2; have c3 := g2 .s3
  simp only [dues, Seg.list, Port.list, List.map, List.sum_cons, List.sum_nil]
  omega

theorem dues_lt {s t : State} (hc : ∀ c g, claimDue t c g ≤ claimDue s c g) (hp : ∀ p, portDue t p ≤ portDue s p)
    (h : (∃ c g, claimDue t c g < claimDue s c g) ∨ ∃ p, portDue t p < portDue s p) : dues t < dues s := by
  have h0 := hp .u0
  have h1 := hp .u1
  have g0 := hc (.port .u0); have g1 := hc (.port .u1); have g2 := hc .mgmt
  have a0 := g0 .s0; have a1 := g0 .s1; have a2 := g0 .s2; have a3 := g0 .s3
  have b0 := g1 .s0; have b1 := g1 .s1; have b2 := g1 .s2; have b3 := g1 .s3
  have c0 := g2 .s0; have c1 := g2 .s1; have c2 := g2 .s2; have c3 := g2 .s3
  simp only [dues, Seg.list, Port.list, List.map, List.sum_cons, List.sum_nil]
  rcases h with ⟨c, g, h⟩ | ⟨p, h⟩
  · rcases c with (_ | _) | _ <;> cases g <;> omega
  · cases p <;> omega

/-! ### Changes that put nothing in -/

/-- The wait lists stand, and no claim, answer or acquisition comes to be outstanding. -/
structure Sheds (s t : State) : Prop where
  waiters : ∀ g, (t.seg g).waiters = (s.seg g).waiters
  claiming : ∀ p g, legClaiming t p g = true → legClaiming s p g = true
  answer : ∀ p, (t.port p).addrWait.isSome = true → (s.port p).addrWait.isSome = true
  acquiring : ∀ p, (t.port p).phase = .awaitGrant → (s.port p).phase = .awaitGrant

namespace Sheds

theorem refl (s : State) : Sheds s s := ⟨fun _ => rfl, fun _ _ h => h, fun _ h => h, fun _ h => h⟩

theorem andThen {s t u : State} (h : Sheds s t) (k : Sheds t u) : Sheds s u :=
  ⟨fun g => (k.waiters g).trans (h.waiters g), fun p g e => h.claiming p g (k.claiming p g e),
    fun p e => h.answer p (k.answer p e), fun p e => h.acquiring p (k.acquiring p e)⟩

theorem not_mem {s t : State} (h : Sheds s t) {c : Claimant} {g : Seg} (hn : c ∉ (s.seg g).waiters) :
    c ∉ (t.seg g).waiters := by
  rw [h.waiters g]
  exact hn

theorem foldl {α : Type} {f : State → α → State} (h : ∀ t x, Sheds t (f t x)) :
    ∀ (l : List α) (s : State), Sheds s (l.foldl f s)
  | [], s => refl s
  | x :: l, s => andThen (h s x) (foldl h l (f s x))

/-- A change of a segment that leaves its wait list. -/
theorem seg {s : State} {g : Seg} {f : SegState → SegState} (h : ∀ c, (f c).waiters = c.waiters) :
    Sheds s (s.updSeg g f) := by
  refine ⟨fun k => ?_, fun _ _ e => e, fun _ e => e, fun _ e => e⟩
  rw [State.seg_updSeg]
  split
  · rename_i e; subst e; exact h _
  · rfl

/-- A change of a record that puts nothing in. -/
theorem port {s : State} {p : Port} {f : PortState → PortState}
    (hl : ∀ g, ((f (s.port p)).legs.any fun l => l.seg == g && l.state == .claiming) = true → legClaiming s p g = true)
    (ha : (f (s.port p)).addrWait.isSome = true → (s.port p).addrWait.isSome = true)
    (hp : (f (s.port p)).phase = .awaitGrant → (s.port p).phase = .awaitGrant) : Sheds s (s.updPort p f) := by
  refine ⟨fun _ => rfl, fun q g e => ?_, fun q e => ?_, fun q e => ?_⟩
  · unfold legClaiming at e
    rw [State.port_updPort] at e
    split at e
    · rename_i h; subst h; exact hl g e
    · exact e
  · rw [State.port_updPort] at e
    split at e
    · rename_i h; subst h; exact ha e
    · exact e
  · rw [State.port_updPort] at e
    split at e
    · rename_i h; subst h; exact hp e
    · exact e

/-- A change of a record that leaves its legs, its answer and its phase. -/
theorem port' {s : State} {p : Port} {f : PortState → PortState}
    (h : ∀ r, (f r).legs = r.legs ∧ (f r).addrWait = r.addrWait ∧ (f r).phase = r.phase) : Sheds s (s.updPort p f) := by
  obtain ⟨h1, h2, h3⟩ := h (s.port p)
  refine port (fun g e => ?_) (fun e => ?_) (fun e => ?_)
  · rw [h1] at e; exact e
  · rw [h2] at e; exact e
  · rw [h3] at e; exact e

/-- A change of a record that leaves its legs and its answer, and takes it out of an acquisition. -/
theorem leave {s : State} {p : Port} {f : PortState → PortState}
    (h : ∀ r, (f r).legs = r.legs ∧ (f r).addrWait = r.addrWait ∧ (f r).phase ≠ .awaitGrant) : Sheds s (s.updPort p f) := by
  obtain ⟨h1, h2, h3⟩ := h (s.port p)
  refine port (fun g e => ?_) (fun e => ?_) (fun e => absurd e h3)
  · rw [h1] at e; exact e
  · rw [h2] at e; exact e

/-- A change of a record's legs that makes none CLAIMING, and moves none to another segment. -/
theorem legs {s : State} {p : Port} (k : Leg → Leg)
    (h : ∀ l, (k l).seg = l.seg ∧ ((k l).state = .claiming → l.state = .claiming)) :
    Sheds s (s.updPort p fun r => { r with legs := r.legs.map k }) := by
  refine port (fun g e => ?_) (fun e => e) (fun e => e)
  simp only [List.any_map] at e
  unfold legClaiming
  obtain ⟨l, hl, he⟩ := List.any_eq_true.mp e
  refine List.any_eq_true.mpr ⟨l, hl, ?_⟩
  simp only [Function.comp_apply, Bool.and_eq_true, beq_iff_eq] at he ⊢
  exact ⟨(h l).1 ▸ he.1, (h l).2 he.2⟩

end Sheds

open Sheds

theorem sheds_note (k : Kind) (p : Option PortPos) (g : Option SegPos) (n : Option Nat) (d : Half) (s : State) :
    Sheds s (note k p g n d s) := by
  have hp : ∀ q, (note k p g n d s).port q = s.port q := fun q => by unfold note; split <;> rfl
  have hs : ∀ h, (note k p g n d s).seg h = s.seg h := fun h => by unfold note; split <;> rfl
  refine ⟨fun h => by rw [hs], fun q h e => ?_, fun q e => ?_, fun q e => ?_⟩
  · unfold legClaiming at *; rwa [hp] at e
  · rwa [hp] at e
  · rwa [hp] at e

theorem sheds_toDrain (p : Port) (s : State) : Sheds s (toDrain p s) :=
  port (fun _ e => e) (fun e => e) (fun e => nomatch e)

theorem sheds_giveAck (p : Port) (a : Ack) (s : State) : Sheds s (giveAck p a s) := port' fun _ => ⟨rfl, rfl, rfl⟩

theorem sheds_startClock (g : Seg) (s : State) : Sheds s (startClock g s) := seg fun _ => rfl

theorem sheds_closeSegment (g : Seg) (c : Option Byte) (s : State) : Sheds s (closeSegment g c s) := by
  have h : Sheds s (s.updSeg g fun x => { x with activity := some (.closing c) }) := seg fun _ => rfl
  unfold closeSegment
  generalize (s.seg g).activity = a
  rcases a with _ | ((_ | _ | _) | _ | _ | _ | _)
  case some.addressing.waitFresh => exact seg fun _ => rfl
  case some.closing => exact refl s
  case some.paused => exact andThen h (sheds_startClock g _)
  all_goals exact h

theorem sheds_updLeg (p : Port) (g : Seg) (k : Leg → Leg) (h : ∀ l, (k l).seg = l.seg ∧ (k l).state ≠ .claiming) (s : State) :
    Sheds s (updLeg p g k s) := by
  refine legs _ fun l => ?_
  split
  · exact ⟨(h l).1, fun e => absurd e (h l).2⟩
  · exact ⟨rfl, fun e => e⟩

theorem sheds_endLeg (p : Port) (c : Leg → Option Byte) (g : Seg) (s : State) : Sheds s (endLeg p c g s) :=
  andThen (sheds_updLeg p g (fun l => { l with state := .ended }) (fun _ => ⟨rfl, nofun⟩) s) (sheds_closeSegment g _ _)

theorem sheds_endActive (p : Port) (c : Leg → Option Byte) (s : State) : Sheds s (endActive p c s) :=
  Sheds.foldl (fun t g => sheds_endLeg p c g t) _ s

theorem sheds_endClaiming (p : Port) (s : State) : Sheds s (endClaiming p s) :=
  legs _ fun l => by
    split
    · exact ⟨rfl, fun e => nomatch e⟩
    · exact ⟨rfl, fun e => e⟩

theorem not_claiming_endClaiming (p : Port) (g : Seg) (s : State) : legClaiming (endClaiming p s) p g = false := by
  unfold legClaiming endClaiming
  rw [State.port_updPort_self]
  simp only [List.any_map]
  refine List.any_eq_false.mpr fun l _ => ?_
  simp only [Function.comp_apply]
  split
  · simp
  · rename_i h
    simp only [beq_iff_eq] at h
    simp [h]

/-- A refused record has nothing left to claim, and acquires no longer. -/
theorem failAddress_spec (p : Port) (g : Seg) (s : State) : Sheds s (failAddress p g s)
    ∧ (∀ h, legClaiming (failAddress p g s) p h = false) ∧ ((failAddress p g s).port p).phase ≠ .awaitGrant := by
  have h : Sheds (endClaiming p s) (failAddress p g s) := by
    refine andThen (andThen (andThen (andThen (sheds_endActive p noCheck _) (sheds_giveAck p .nack _)) ?_)
      (sheds_note .segRefused (some (.port p)) _ _ _ _)) (sheds_toDrain p _)
    exact port' fun _ => ⟨rfl, rfl, rfl⟩
  refine ⟨andThen (sheds_endClaiming p s) h, fun k => ?_, ?_⟩
  · refine Bool.eq_false_iff.mpr fun e => ?_
    have := h.claiming p k e
    rw [not_claiming_endClaiming] at this
    cases this
  · simp [failAddress, toDrain]

theorem sheds_answerSegReset (g : Seg) (st : Status) (pl : List Byte) (s : State) : Sheds s (answerSegReset g st pl s) := by
  unfold answerSegReset
  split
  · exact refl s
  · exact andThen (t := { s with segResets := s.segResets.filter fun x => !(x.seg == g) })
      ⟨fun _ => rfl, fun _ _ e => e, fun _ e => e, fun _ e => e⟩
      (port' fun _ => ⟨rfl, rfl, rfl⟩)

theorem sheds_refuseMgmt (g : Seg) (s : State) : Sheds s (refuseMgmt g s) := by
  unfold refuseMgmt
  split <;> exact sheds_answerSegReset g _ _ s

theorem sheds_grantMgmt (g : Seg) (s : State) : Sheds s (grantMgmt g s) := by
  unfold grantMgmt
  split
  · exact seg fun _ => rfl
  · unfold beginRecovery startAttempt
    refine andThen ?_ (seg fun _ => rfl)
    exact seg fun _ => rfl

/-- A granted record has nothing left to claim on the segment. -/
theorem grantPort_spec (g : Seg) (p : Port) (s : State) : Sheds s (grantPort g p s)
    ∧ legClaiming (grantPort g p s) p g = false := by
  constructor
  · refine andThen ?_ (sheds_updLeg p g (fun l => { l with state := .active, down := crc8Start }) (fun _ => ⟨rfl, nofun⟩) _)
    exact seg fun _ => rfl
  · unfold legClaiming grantPort updLeg
    rw [State.port_updPort_self]
    simp only [List.any_map]
    refine List.any_eq_false.mpr fun l _ => ?_
    simp only [Function.comp_apply]
    split
    · simp
    · rename_i h
      simp [h]

/-- An answer given is no longer outstanding. -/
theorem answerAddress_spec (p : Port) (w : AddrWait) (s : State) : Sheds s (answerAddress p w s)
    ∧ ((answerAddress p w s).port p).addrWait = none := by
  have h0 : Sheds s (s.updPort p fun r => { r with addrWait := none }) :=
    port (fun _ e => e) (fun e => nomatch e) (fun e => e)
  have hr : ∀ (t : State) (k : Kind) (n : Nat) (d : Half),
      Sheds t (toDrain p (notePort k p none (some n) d (giveAck p .nack t))) := fun t k n d =>
    andThen (andThen (sheds_giveAck p _ _) (sheds_note k (some (.port p)) _ _ _ _)) (sheds_toDrain p _)
  have h1 : Sheds (s.updPort p fun r => { r with addrWait := none }) (answerAddress p w s) := by
    unfold answerAddress
    cases w with
    | mgmtWrite b =>
      dsimp only
      unfold answerMgmtWrite
      split <;>
      · refine andThen ?_ (sheds_giveAck p _ _)
        exact leave fun _ => ⟨rfl, rfl, fun e => nomatch e⟩
    | mgmtRead b =>
      refine andThen ?_ (sheds_giveAck p _ _)
      exact leave fun _ => ⟨rfl, rfl, fun e => nomatch e⟩
    | miss =>
      refine andThen ?_ (sheds_giveAck p _ _)
      exact leave fun _ => ⟨rfl, rfl, fun e => nomatch e⟩
    | denied n => exact hr _ _ n _
    | noOffset n => exact hr _ _ n _
  refine ⟨andThen h0 h1, ?_⟩
  have := h1.answer p
  cases ha : ((answerAddress p w s).port p).addrWait with
  | none => rfl
  | some x =>
    rw [ha, State.port_updPort_self] at this
    cases this rfl

/-! ### The end of what an event sets off -/

theorem one_le {a b : Bool} (h : a = true → b = true) : one a ≤ one b := by
  cases a <;> cases b <;> simp_all [one]

theorem Sheds.portDue {s t : State} (h : Sheds s t) (p : Port) : portDue t p ≤ portDue s p :=
  Nat.add_le_add (one_le (h.answer p)) (one_le fun e => beq_iff_eq.mpr (h.acquiring p (beq_iff_eq.mp e)))

theorem Sheds.claimDue {s t : State} (h : Sheds s t) (c : Claimant) (g : Seg) : claimDue t c g ≤ claimDue s c g := by
  unfold Machine.claimDue
  rw [h.waiters g]
  split
  · exact Nat.le_refl _
  · cases c with
    | mgmt => exact Nat.le_refl _
    | port p =>
      dsimp only
      split
      · rename_i e
        rw [if_pos (h.claiming p g e)]
      · exact Nat.zero_le _

theorem sheds_unwait_portDue (c : Claimant) (g : Seg) (s : State) (p : Port) : portDue (unwait c g s) p = portDue s p := rfl

/-- A claimant out of a wait list, its claim there at an end: nothing else of a claim changes. -/
theorem claimDue_unwait {c d : Claimant} {g h : Seg} {s : State} (hd : d ≠ c ∨ h ≠ g) :
    claimDue (unwait c g s) d h = claimDue s d h := by
  have hw : d ∈ ((unwait c g s).seg h).waiters ↔ d ∈ (s.seg h).waiters := by
    unfold unwait
    rw [State.seg_updSeg]
    split
    · rename_i e
      subst e
      have : d ≠ c := hd.resolve_right fun x => x rfl
      simp [this]
    · rfl
  unfold claimDue
  simp only [hw]
  rfl

/-- A claim outstanding on a segment, settled: it is gone, and nothing else has come. -/
theorem dues_lt_of_settled {s t : State} {c : Claimant} {g : Seg} (ht : Sheds (unwait c g s) t)
    (hs : 0 < claimDue s c g) (hc : claimDue t c g = 0)
    (hq : ∀ h, h ≠ g → claimDue t c h ≤ claimDue s c h) : dues t < dues s := by
  refine dues_lt (fun d h => ?_) (fun p => ht.portDue p) (.inl ⟨c, g, hc ▸ hs⟩)
  by_cases hd : d = c
  · subst hd
    by_cases hg : h = g
    · subst hg; rw [hc]; exact Nat.zero_le _
    · exact hq h hg
  · exact (ht.claimDue d h).trans (Nat.le_of_eq (claimDue_unwait (.inl hd)))

theorem claimDue_zero {s : State} {c : Claimant} {g : Seg} (hw : c ∉ (s.seg g).waiters)
    (hl : ∀ p, c = .port p → legClaiming s p g = false) : claimDue s c g = 0 := by
  unfold claimDue
  rw [if_neg hw]
  cases c with
  | mgmt => rfl
  | port p => simp [hl p rfl]

theorem dues_refuse {s : State} {c : Claimant} {g : Seg} (hs : 0 < claimDue s c g) : dues (refuse g c s) < dues s := by
  have hn := not_mem_unwait c g s
  cases c with
  | mgmt =>
    have h := sheds_refuseMgmt g (unwait .mgmt g s)
    refine dues_lt_of_settled h hs (claimDue_zero (h.not_mem hn) fun p e => nomatch e) fun k hk => ?_
    exact (h.claimDue .mgmt k).trans (Nat.le_of_eq (claimDue_unwait (.inr hk)))
  | port p =>
    obtain ⟨h, hl, _⟩ := failAddress_spec p g (unwait (.port p) g s)
    refine dues_lt_of_settled h hs (claimDue_zero (h.not_mem hn) fun q e => ?_) fun k hk => ?_
    · cases e; exact hl g
    · exact (h.claimDue _ k).trans (Nat.le_of_eq (claimDue_unwait (.inr hk)))

theorem dues_grant {s : State} {c : Claimant} {g : Seg} (hs : 0 < claimDue s c g) : dues (grant g c s) < dues s := by
  have hn := not_mem_unwait c g s
  cases c with
  | mgmt =>
    have h := sheds_grantMgmt g (unwait .mgmt g s)
    refine dues_lt_of_settled h hs (claimDue_zero (h.not_mem hn) fun p e => nomatch e) fun k hk => ?_
    exact (h.claimDue .mgmt k).trans (Nat.le_of_eq (claimDue_unwait (.inr hk)))
  | port p =>
    obtain ⟨h, hl⟩ := grantPort_spec g p (unwait (.port p) g s)
    refine dues_lt_of_settled h hs (claimDue_zero (h.not_mem hn) fun q e => ?_) fun k hk => ?_
    · cases e; exact hl
    · exact (h.claimDue _ k).trans (Nat.le_of_eq (claimDue_unwait (.inr hk)))

theorem dues_joinWaiters {s : State} {p : Port} {g : Seg} (hw : Claimant.port p ∉ (s.seg g).waiters)
    (hl : legClaiming s p g = true) : dues (joinWaiters g (.port p) s) < dues s := by
  have hd : claimDue s (.port p) g = 2 := by simp [claimDue, hw, hl]
  have ht : claimDue (joinWaiters g (.port p) s) (.port p) g = 1 := by
    unfold claimDue joinWaiters
    rw [if_pos (by simp)]
  refine dues_lt (fun d h => ?_) (fun _ => Nat.le_refl _) (.inl ⟨.port p, g, by omega⟩)
  by_cases e : d = .port p ∧ h = g
  · rw [e.1, e.2, hd, ht]; decide
  · have : d ∈ ((joinWaiters g (.port p) s).seg h).waiters ↔ d ∈ (s.seg h).waiters := by
      unfold joinWaiters
      rw [State.seg_updSeg]
      split
      · rename_i eh
        subst eh
        have : d ≠ .port p := fun x => e ⟨x, rfl⟩
        simp [this]
      · rfl
    unfold claimDue
    simp only [this]
    exact Nat.le_refl _

theorem nextRefusal_mem {s : State} {g h : Seg} {c : Claimant} (e : nextRefusal s g = some (h, c)) :
    c ∈ (s.seg h).waiters := by
  unfold nextRefusal at e
  split at e
  · cases e
  · rename_i d l hw
    split at e
    · cases e; rw [hw]; exact List.mem_cons_self ..
    · cases e

theorem nextGrant_mem {s : State} {g h : Seg} {c : Claimant} (e : nextGrant s g = some (h, c)) :
    c ∈ (s.seg h).waiters := by
  unfold nextGrant at e
  split at e
  · cases e
  · rename_i d l hw
    split at e
    · cases e; rw [hw]; exact List.mem_cons_self ..
    · cases e

theorem claimDue_pos_of_mem {s : State} {c : Claimant} {g : Seg} (h : c ∈ (s.seg g).waiters) : 0 < claimDue s c g := by
  unfold claimDue
  rw [if_pos h]
  exact Nat.one_pos

/-- A record that places a claim has a CLAIMING leg on the segment. -/
theorem nextClaim_claiming {s : State} {p q : Port} {g : Seg} (h : nextClaim s p = some (q, g)) :
    legClaiming s q g = true := by
  unfold nextClaim at h
  split at h
  · cases hh : (claimingSegs s p).head? with
    | none => rw [hh] at h; exact nomatch h
    | some x =>
      rw [hh] at h
      simp only [Option.bind_some] at h
      split at h
      · exact nomatch h
      · cases h
        exact mem_claimingSegs.mp (List.mem_of_head? hh)
  · exact nomatch h

/-- Every step of `micro` leaves less outstanding. -/
theorem dues_micro {s t : State} (h : micro s = some t) : dues t < dues s := by
  unfold micro at h
  split at h
  · rename_i g c hf
    obtain ⟨_, _, e⟩ := List.exists_of_findSome?_eq_some hf
    cases h
    exact dues_refuse (claimDue_pos_of_mem (nextRefusal_mem e))
  split at h
  · rename_i g c hf
    obtain ⟨_, _, e⟩ := List.exists_of_findSome?_eq_some hf
    cases h
    exact dues_grant (claimDue_pos_of_mem (nextGrant_mem e))
  split at h
  · rename_i p w hf
    obtain ⟨q, _, e⟩ := List.exists_of_findSome?_eq_some hf
    have hw : (s.port p).addrWait = some w := by
      unfold nextAnswer at e
      split at e
      · cases e
      · rename_i x hx
        split at e
        · cases e; exact hx
        · cases e
    cases h
    obtain ⟨hs, ha⟩ := answerAddress_spec p w s
    refine dues_lt (hs.claimDue) (hs.portDue) (.inr ⟨p, ?_⟩)
    have hq : one (((answerAddress p w s).port p).phase == .awaitGrant) ≤ one ((s.port p).phase == .awaitGrant) :=
      one_le fun x => beq_iff_eq.mpr (hs.acquiring p (beq_iff_eq.mp x))
    unfold portDue
    rw [ha, hw]
    simp only [Option.isSome, one, if_true, Bool.false_eq_true, if_false] at hq ⊢
    omega
  split at h
  · rename_i p g hf
    obtain ⟨q, _, e⟩ := List.exists_of_findSome?_eq_some hf
    obtain ⟨_, hw, _⟩ := nextClaim_spec e
    have hl := nextClaim_claiming e
    have hd : 0 < claimDue s (.port p) g := by
      simp [claimDue, hw, hl]
    cases h
    unfold claim
    split
    · exact dues_refuse hd
    · split
      · exact dues_grant hd
      · exact dues_joinWaiters hw hl
  split at h
  · rename_i p hf
    have ha := List.find?_some hf
    unfold acquired at ha
    have hq : (s.port p).phase = .awaitGrant := beq_iff_eq.mp (Bool.and_eq_true_iff.mp ha).1
    cases h
    have hs : Sheds s (s.updPort p fun r => { r with phase := .awaitTarget }) :=
      port (fun _ e => e) (fun e => e) (fun e => nomatch e)
    refine dues_lt (hs.claimDue) (hs.portDue) (.inr ⟨p, ?_⟩)
    unfold portDue
    rw [State.port_updPort_self, hq]
    exact Nat.add_lt_add_left Nat.one_pos _
  · exact nomatch h

theorem micro_settle : ∀ (n : Nat) (s : State), dues s ≤ n → micro (settle n s) = none
  | 0, s, h => by
    cases hm : micro s with
    | none => exact hm
    | some t => exact absurd (dues_micro hm) (by omega)
  | n + 1, s, h => by
    cases hm : micro s with
    | none => rw [settle_of_none hm]; exact hm
    | some t =>
      rw [settle_step hm]
      exact micro_settle n t (by have := dues_micro hm; omega)

/-- An event sets off nothing more once `settle` has run: its fuel is enough. -/
theorem micro_settleFuel (s : State) : micro (settle settleFuel s) = none :=
  micro_settle _ s ((dues_le s).trans (by decide))

/-! ### What then holds -/

/-- Where `micro` does nothing, a segment that refuses or would grant has no waiter. -/
theorem served_of_micro {s : State} (h : micro s = none) (g : Seg)
    (hg : (s.seg g).free = true ∨ (s.seg g).refuses = true) : (s.seg g).waiters = [] := by
  unfold micro at h
  split at h
  · cases h
  rename_i hr
  split at h
  · cases h
  rename_i hf
  have h1 := List.findSome?_eq_none_iff.mp hr g (Seg.mem_list g)
  have h2 := List.findSome?_eq_none_iff.mp hf g (Seg.mem_list g)
  unfold nextRefusal at h1
  unfold nextGrant at h2
  cases hw : (s.seg g).waiters with
  | nil => rfl
  | cons c l =>
    rw [hw] at h1 h2
    rcases hg with hg | hg
    · simp [hg] at h2
    · simp [hg] at h1

theorem waitersServed_settle (s : State) : WaitersServed (settle settleFuel s) :=
  fun g hg => served_of_micro (micro_settleFuel s) g hg

theorem waitersServed_finish (s : State) : WaitersServed (finish s) := by
  intro g hg
  unfold finish at *
  rw [seg_retime] at hg ⊢
  exact waitersServed_settle s g hg

/-! ### States in which nothing is due -/

theorem finish_of_settled {s : State} (h : Settled s) : finish s = retime s := by
  unfold finish
  rw [settle_of_none h]

theorem settled_settle (s : State) : Settled (settle settleFuel s) := micro_settleFuel s

/-- What it takes for nothing to be due. -/
theorem settled_iff {s : State} : Settled s ↔ (∀ g, nextRefusal s g = none) ∧ (∀ g, nextGrant s g = none)
    ∧ (∀ p, nextAnswer s p = none) ∧ (∀ p, nextClaim s p = none) ∧ ∀ p, acquired s p = false := by
  have all {α β : Type} {l : List α} {f : α → Option β} (hl : ∀ x, x ∈ l) :
      l.findSome? f = none ↔ ∀ x, f x = none :=
    List.findSome?_eq_none_iff.trans ⟨fun h x => h x (hl x), fun h x _ => h x⟩
  unfold Settled micro
  rw [← all Seg.mem_list, ← all Seg.mem_list, ← all Port.mem_list, ← all Port.mem_list]
  constructor
  · intro h
    split at h
    · cases h
    rename_i h1
    split at h
    · cases h
    rename_i h2
    split at h
    · cases h
    rename_i h3
    split at h
    · cases h
    rename_i h4
    split at h
    · cases h
    rename_i h5
    exact ⟨h1, h2, h3, h4, fun p => Bool.eq_false_of_not_eq_true (List.find?_eq_none.mp h5 p (Port.mem_list p))⟩
  · rintro ⟨h1, h2, h3, h4, h5⟩
    have h6 : Port.list.find? (acquired s) = none :=
      List.find?_eq_none.mpr fun p _ => by rw [h5 p]; exact Bool.false_ne_true
    rw [h1, h2, h3, h4, h6]

theorem settled_of_uncontended {s : State} (h : Uncontended s) : Settled s := by
  obtain ⟨hw, hp⟩ := h
  refine settled_iff.mpr ⟨fun g => ?_, fun g => ?_, fun p => ?_, fun p => ?_, fun p => ?_⟩
  · unfold nextRefusal
    rw [hw g]
  · unfold nextGrant
    rw [hw g]
  · unfold nextAnswer
    rw [(hp p).1]
  · unfold nextClaim
    rw [beq_false_of_ne (hp p).2]
    rfl
  · unfold acquired
    rw [beq_false_of_ne (hp p).2]
    rfl

end Sys2Proof.Machine
end

