-- ==== Sys2Proof/WellFormed.lean ====
section
/-!
DEFINITION. Which commands are well-formed. The operands' types admit only what the part can be sent, but for the read-back
of a bank image, which is the whole image (R145, 13.3).
-/
namespace Sys2Proof

/-- A command a bus partner, a device or the store's cells can send. -/
def Instr.wellFormed : Instr → Bool
  | .verifyingComplete readBack => readBack.length == Config.imageSize
  | .powerOn _ | .resetLineLow | .resetLineRelease _ | .start _ | .repeatedStart _ | .stop _ | .midByteStop _
  | .midByteStart _ | .addressByte _ _ _ | .writeByte _ _ | .drainByte _ | .readByteAck _ _ | .mgmtWriteByte _ _
  | .mgmtReadAck _ _ | .holdExpired _ | .stall _ | .legOpen _ _ | .targetAck _ _ | .bytePlaced _ | .deviceAck _ _
  | .readByteFetched _ _ | .checkByteFetched _ _ | .stopPlaced _ | .arbLoss _ | .foreignStart _ _ | .foreignStop _
  | .clockLimitExpiry _ | .quietTimerExpiry _ _ | .recoveryAttemptEnd _ _ | .editLapsed | .errorEntry | .identify
  | .getStatus | .readEntry | .readParams | .takeNotices | .openEdit | .putEntry | .dropEntry | .putParam | .commit
  | .abandon | .loadBank | .saveBank | .protectBank | .unprotectBank _ | .segmentReset | .segmentDisable
  | .segmentEnable | .restart _ | .erasingComplete | .writingComplete | .headerComplete | .cellWriteComplete
  | .readAddressAckEnd _ | .upstreamSclEdge _ | .segmentLineEdge _ _ _ | .supplyLoss => true

end Sys2Proof
end

