-- ==== Sys2Proof/Tests/Slice0.lean ====
section
/-!
SUPPORT. Tests of the model's own: the well-formedness check, a few commands on small states, and, for the statements of
Obligations.lean, concrete states that meet their hypotheses (`meets_…`).
-/
namespace Sys2Proof.Tests

set_option Elab.async false

open Sys2Proof Sys2Proof.Machine

/-! ### Well-formed commands -/

theorem test_short_read_back_is_ill_formed : (Instr.verifyingComplete [0x57#8]).wellFormed = false := by decide

theorem test_whole_read_back_is_well_formed :
    (Instr.verifyingComplete (List.replicate 336 0xFF#8)).wellFormed = true := by decide +kernel

theorem test_no_row_gives_bits : decodeTableWord 8 0x57 = none := by decide

/-! ### Small states -/

/-- Slot 0: a plain route to S0. -/
def plain : Entry := ⟨⟨true, true⟩, 0x42#7, ⟨true, false, false, false⟩, 0x21#7, .readWrite, none, none, none, .none⟩
/-- Slot 1: a windowed route to S1 with a write limit. -/
def windowed : Entry :=
  ⟨⟨true, true⟩, 0x40#7, ⟨false, true, false, false⟩, 0x48#7, .readWrite, some ⟨0x05#8, 0x3F#8⟩, some 3, none, .none⟩
/-- Slot 2: a route to S2 with check bytes. -/
def checked : Entry := ⟨⟨true, false⟩, 0x41#7, ⟨false, false, true, false⟩, 0x48#7, .readWrite, none, none, some 2, .regen⟩
/-- Slot 3: a fan-out write to S0 and S1. -/
def fan : Entry := ⟨⟨true, false⟩, 0x50#7, ⟨true, true, false, false⟩, 0x20#7, .write, none, none, none, .none⟩

def image : Image :=
  ⟨Params.default, [some plain, some windowed, some checked, some fan] ++ List.replicate 28 none⟩

/-- The part after reset with four routes, U0 FULL and U1 READ. -/
def base : State := { State.reset with working := image }

def legOf (g : Seg) : Leg := ⟨g, .active, 0, some 2, false, 0xFF#8⟩

/-- U0 in a transaction, with legs. -/
def inPhase (ph : Phase) (sn : Option Snapshot) (legs : List Leg) (s : State) : State :=
  s.updPort .u0 fun r => { r with phase := ph, isOpen := true, snapshot := sn, legs := legs }

/-- U0 owns a segment, its leg at an activity. -/
def owned (g : Seg) (a : Activity) (s : State) : State :=
  s.updSeg g fun c => { c with owner := some (.port .u0), cond := .owned, activity := some a, clock := some 12 }

/-- U0's record changed further. -/
def also (f : PortState → PortState) (s : State) : State := s.updPort .u0 f

/-- A frame of U0 at the head of the Command Queue. -/
def frame (c : Command) (payload : List Byte) (s : State) : State := { s with cmdQueue := [.frame .u0 c 0x07#8 payload] }

/-- The state a command answers. -/
def run (c : Instr) (s : State) : State :=
  match exec c s with
  | .next t => t
  | _ => s

/-- U0 in a plain transaction on S0. -/
def onPlain (ph : Phase) (a : Activity) : State := owned .s0 a (inPhase ph (some ⟨0, plain⟩) [legOf .s0] base)
def onWindowed (ph : Phase) (a : Activity) : State := owned .s1 a (inPhase ph (some ⟨1, windowed⟩) [legOf .s1] base)
def onChecked (ph : Phase) (a : Activity) : State := owned .s2 a (inPhase ph (some ⟨2, checked⟩) [legOf .s2] base)
def onFan (ph : Phase) (a b : Activity) : State :=
  owned .s1 b (owned .s0 a (inPhase ph (some ⟨3, fan⟩) [legOf .s0, legOf .s1] base))

theorem headFrame_of {s : State} {p : Port} {c : Command} {tag : Byte} {payload : List Byte} {rest : List QEntry}
    (h : s.run = .running ∧ s.executing = none ∧ s.cmdQueue = .frame p c tag payload :: rest
      ∧ s.working.params.priv.get p = .full) : HeadFrame s p c tag payload rest :=
  ⟨h.1, h.2.1, h.2.2.1, .inl h.2.2.2⟩

theorem forPorts {P : Port → Prop} (h : P .u0 ∧ P .u1) : ∀ p, P p
  | .u0 => h.1
  | .u1 => h.2

theorem forSegs {P : Seg → Prop} (h : P .s0 ∧ P .s1 ∧ P .s2 ∧ P .s3) : ∀ g, P g
  | .s0 => h.1
  | .s1 => h.2.1
  | .s2 => h.2.2.1
  | .s3 => h.2.2.2

theorem forBanks {P : Bank → Prop} (h : P .bankA ∧ P .bankB) : ∀ b, P b
  | .bankA => h.1
  | .bankB => h.2

/-! ### Check values -/

theorem test_crc16_reference :
    crc16List [0x31#8, 0x32#8, 0x33#8, 0x34#8, 0x35#8, 0x36#8, 0x37#8, 0x38#8, 0x39#8] = 0x29B1#16 := by decide +kernel

/-! ### The queue, and the laws that hold between steps -/

/-- A quiet part with a command waiting. -/
def waiting : State := retime { base with pending := [.start .u0] }

theorem meets_stepRunsFront : waiting.pending = [.start .u0] ∧ base.pending = [] := ⟨rfl, rfl⟩

theorem lawful_of {c : SegState} (ho : c.owner = none) (hw : c.waiters = []) (hc : c.cond ≠ .owned) : c.lawful := by
  unfold SegState.lawful
  rw [ho, hw]
  exact ⟨List.nodup_nil, (fun _ h => by cases h), (fun _ h => by cases h), (fun h => by cases h), fun h => absurd h hc⟩

theorem meets_laws_of_ports_and_segments :
    CreditLaw waiting ∧ ArbiterLaw waiting ∧ SnapshotLaw waiting ∧ TimersLaw waiting :=
  ⟨forPorts (by decide +kernel), fun g => by cases g <;> exact lawful_of rfl rfl (by decide +kernel),
    forPorts (by decide +kernel), timersLaw_retime _⟩

theorem meets_laws_of_the_image : WorkingLaw waiting ∧ NoticeLaw waiting := by
  unfold WorkingLaw NoticeLaw
  decide +kernel

theorem meets_laws_of_the_store : StoreLaw waiting ∧ TableLaw waiting :=
  ⟨⟨by decide, (fun _ h => by cases h), (fun _ h => by cases h), fun _ => forBanks (by decide)⟩,
    rfl, (fun _ h => by cases h), (fun _ h => by cases h), forBanks (by decide +kernel)⟩

theorem meets_a_step_that_changes : step waiting = .next (run (.start .u0) { waiting with pending := [] })
    ∧ ((run (.start .u0) { waiting with pending := [] }).port .u0).phase = .address := ⟨rfl, by decide +kernel⟩

/-- A part whose Bank A is protected. -/
def locked : State :=
  { base with store := { base.store with
      banks := ⟨{ BankCells.unwritten with cell := true }, BankCells.unwritten⟩
      records := ⟨⟨false, none, true⟩, ⟨false, none, false⟩⟩ } }

theorem meets_protectedBank : StoreLaw locked ∧ (locked.store.banks.get .bankA).cell = true :=
  ⟨⟨by decide, (fun _ h => by cases h), (fun _ h => by cases h), fun _ => forBanks (by decide)⟩, rfl⟩

/-- U0 waiting for S0, which U1 owns. -/
def queued : State :=
  retime ((also (fun r => { r with
    phase := .awaitGrant, isOpen := true, snapshot := some ⟨0, plain⟩, sclHeld := true, hold := some 30,
    legs := [{ legOf .s0 with state := .claiming }] }) base).updSeg .s0 fun c =>
      { c with owner := some (.port .u1), cond := .owned, activity := some .paused, waiters := [.port .u0] })

theorem meets_waitLaw : WaitLaw queued := by
  have ha : ∀ p g, legActive queued p g = false := forPorts ⟨forSegs (by decide +kernel), forSegs (by decide +kernel)⟩
  refine ⟨forSegs (by decide +kernel), fun p g h => ?_, fun p _ h => ?_, forPorts (by decide +kernel),
    fun p g => ⟨fun h => ?_, fun o h e => ?_⟩⟩
  · have : ∀ p g, Claimant.port p ∈ (queued.seg g).waiters → p = .u0 ∧ g = .s0 :=
      forPorts ⟨forSegs (by decide +kernel), forSegs (by decide +kernel)⟩
    obtain ⟨rfl, rfl⟩ := this p g h
    exact ⟨rfl, by decide +kernel, by decide +kernel, forSegs (by decide +kernel)⟩
  · exact absurd (List.filter_eq_nil_iff.mpr fun g _ => by rw [ha p g]; exact Bool.false_ne_true) h
  · rw [ha p g] at h; cases h
  · have : ∀ g, (queued.seg g).activity = none ∨ (queued.seg g).activity = some .paused := forSegs (by decide +kernel)
    rcases this g with a | a <;> rw [a] at e <;> cases e

theorem meets_waitLawKept : ArbiterLaw { queued with pending := [.holdExpired .u0] }
    ∧ WaitLaw { queued with pending := [.holdExpired .u0] }
    ∧ step { queued with pending := [.holdExpired .u0] } = .next (run (.holdExpired .u0) queued) :=
  ⟨forSegs ⟨⟨List.nodup_singleton _, (fun _ e h => by cases e; exact absurd h (by decide)), (fun _ _ => rfl),
      (fun _ => .inl rfl), fun _ e => by cases e⟩,
      lawful_of rfl rfl (by decide +kernel), lawful_of rfl rfl (by decide +kernel), lawful_of rfl rfl (by decide +kernel)⟩,
    meets_waitLaw, rfl⟩

theorem test_a_withdrawn_claim : ((run (.holdExpired .u0) queued).seg .s0).waiters = [] := by decide +kernel

theorem meets_imageKept : replaces (.start .u0) = false ∧ replaces .headerComplete = false := by decide

theorem meets_stoppedPart : ({ base with run := .held } : State).run ≠ .running
    ∧ ({ base with run := .off } : State).run ≠ .running ∧ reachesStopped (.start .u0) = false := by decide

/-! ### Resets -/

def pins : ResetPins := ⟨false, true, ⟨⟨true, true⟩, ⟨true, false⟩, ⟨true, true⟩, ⟨true, true⟩⟩⟩

theorem meets_resetTaken : ResetTaken (.powerOn pins) .powerOn pins base
    ∧ ResetTaken (.resetLineRelease pins) .resetLine pins { base with run := .held }
    ∧ ResetTaken (.restart pins) .restart pins (frame .restart [] base) :=
  ⟨.inl ⟨rfl, rfl⟩, .inr (.inl ⟨rfl, rfl, rfl⟩), .inr (.inr ⟨rfl, rfl, rfl, rfl, rfl, rfl⟩)⟩

theorem meets_resetLoads_none : base.store.op = none
    ∧ ∀ b, bankValid base.strap (base.store.banks.get b) = false := ⟨rfl, forBanks (by decide +kernel)⟩

/-- Both banks valid, Bank B with the higher generation. -/
def twoBanks : State :=
  { base with store := { base.store with
      banks := ⟨⟨image.bytes, newHeader image 2, false⟩, ⟨Image.empty.bytes, newHeader Image.empty 3, false⟩⟩ } }

theorem bankValid_of {i : Image} {n : Nat} (hg : 1 ≤ n % 4294967296 ∧ n % 4294967296 ≤ 0xFFFFFFFE)
    (hv : (validate 0#2 (imageFieldsOf i.bytes)).isNone = true) : bankValid 0#2 ⟨i.bytes, newHeader i n, false⟩ = true := by
  unfold bankValid Header.good newHeader
  simp [hv]
  exact hg

theorem meets_resetLoads_the_higher : bankValid twoBanks.strap (twoBanks.store.banks.get .bankA) = true
    ∧ bankValid twoBanks.strap (twoBanks.store.banks.get .bankB) = true
    ∧ (2#32).toNat < (3#32).toNat :=
  ⟨bankValid_of (by decide) (by decide +kernel), bankValid_of (by decide) (by decide +kernel), by decide⟩

/-- A store operation in flight on Bank A. -/
def storing (k : StoreKind) (ph : StorePhase) : State :=
  { base with store := { base.store with
      op := some ⟨k, .bankA, .u0, 0x07#8⟩, phase := ph, buffer := some image, newGeneration := some 1 } }

theorem meets_interruptedStore : StoreLaw (storing .save .erasing) ∧ StoreLaw (storing .save .writing)
    ∧ StoreLaw (storing .save .verifying) ∧ StoreLaw (storing .save .header) ∧ StoreLaw (storing .protect .cellWrite)
    ∧ (storing .save .erasing).run ≠ .off := by
  refine ⟨?_, ?_, ?_, ?_, ?_, by decide⟩ <;>
    exact ⟨by decide, fun _ h => Option.some.inj h ▸ (by decide), fun _ h _ => Option.some.inj h ▸ rfl,
      fun _ => forBanks (by decide)⟩

theorem test_an_interrupted_save_leaves_the_header_erased :
    ((run .resetLineLow (storing .save .writing)).store.banks.get .bankA).header = Header.erased
      ∧ ((run .supplyLoss (storing .save .verifying)).store.banks.get .bankA).header = Header.erased := by decide +kernel

theorem test_resetLineLow_keeps_the_bank_not_targeted :
    (run .resetLineLow (storing .save .writing)).store.banks.get .bankB = BankCells.unwritten := by decide +kernel

/-! ### Conditions upstream -/

theorem meets_freshStart : (retime base).run = .running ∧ ((retime base).port .u0).sclHeld = false
    ∧ ((retime base).port .u0).isOpen = false ∧ TimersLaw (retime base) := ⟨rfl, rfl, rfl, timersLaw_retime _⟩

theorem meets_repeatedStart :
    (∀ ph ∈ [Phase.offBus, .address, .drain, .write],
      let s := retime (onPlain ph .paused)
      s.run = .running ∧ (s.port .u0).sclHeld = false ∧ (s.port .u0).isOpen = true ∧ (s.port .u0).earlyAddr = none
        ∧ (s.port .u0).phase = ph ∧ (s.port .u0).held = none ∧ (s.port .u0).inFlight = none
        ∧ ∀ l ∈ (s.port .u0).legs, l.marked = false) := by decide +kernel

/-- A read whose last byte is being supplied, or the check byte, and one that the controller has ended. -/
def supplyingAfter (n : Nat) : State :=
  retime (also (fun r => { r with readStage := .supplying 0x55#8 n }) (onPlain .read .paused))
def supplying : State := supplyingAfter 0
def marked : List Leg := [{ legOf .s0 with marked := true }]
def readOver (stage : ReadStage) (a : Activity) : State :=
  retime (also (fun r => { r with readStage := stage, legs := marked }) (onPlain .read a))

/-- After any number of the byte's edges: none told, some, or all sixteen. -/
theorem meets_readEnded_supplying (n : Nat) : Ready (supplyingAfter n) .u0 .read
    ∧ ((supplyingAfter n).port .u0).isOpen = true ∧ ((supplyingAfter n).port .u0).earlyAddr = none
    ∧ ((supplyingAfter n).port .u0).snapshot = some ⟨0, plain⟩ ∧ TimersLaw (supplyingAfter n)
    ∧ ((supplyingAfter n).port .u0).legs = [legOf .s0] ∧ LegAt (supplyingAfter n) .u0 .s0 .paused
    ∧ ((supplyingAfter n).port .u0).readStage = .supplying 0x55#8 n ∧ ∀ h, h ≠ .s0 → owns (supplyingAfter n) .u0 h = false :=
  ⟨⟨rfl, rfl, rfl⟩, rfl, rfl, rfl, timersLaw_retime _, rfl, ⟨rfl, rfl, rfl⟩, rfl,
    forSegs (by refine ⟨?_, ?_, ?_, ?_⟩ <;> first | exact fun h => absurd rfl h | exact fun _ => rfl)⟩

/-- The check byte being supplied, a read over, and one over whose NACK clock has still to end. -/
theorem meets_readEnded_over (stage : ReadStage) (a : Activity)
    (_ : (stage, a) ∈ [(.supplyingCheck 0x46#8, .paused), (.fill, .paused), (.fill, .reading .nackClock)]) :
    let s := readOver stage a
    Ready s .u0 .read ∧ (s.port .u0).isOpen = true ∧ (s.port .u0).earlyAddr = none
      ∧ (s.port .u0).snapshot = some ⟨0, plain⟩ ∧ TimersLaw s ∧ (s.port .u0).legs = marked
      ∧ LegAt s .u0 .s0 a ∧ (s.port .u0).readStage = stage ∧ ∀ h, h ≠ .s0 → owns s .u0 h = false :=
  ⟨⟨rfl, rfl, rfl⟩, rfl, rfl, rfl, timersLaw_retime _, rfl, ⟨rfl, rfl, rfl⟩, rfl,
    forSegs (by refine ⟨?_, ?_, ?_, ?_⟩ <;> first | exact fun h => absurd rfl h | exact fun _ => rfl)⟩

theorem test_the_condition_ends_the_read :
    ((run (.stop .u0) supplying).port .u0).up = crc8 (supplying.port .u0).up 0x55#8
      ∧ (∀ n ∈ [1, 15, 16], ((run (.stop .u0) (supplyingAfter n)).port .u0).up = (supplying.port .u0).up)
      ∧ (∀ n ∈ [0, 16], ((nackInPlace .u0 (supplyingAfter n)).port .u0).count = 1)
      ∧ ∀ n ∈ [1, 15], ((nackInPlace .u0 (supplyingAfter n)).port .u0).count = 0
        ∧ ((run (.stop .u0) (readOver .fill (.reading .nackClock))).seg .s0).clock = some 12 := by decide +kernel

theorem meets_stopCloses : ∀ ph ∈ [Phase.offBus, .address, .drain, .write],
    let s := retime (onPlain ph .paused)
    s.run = .running ∧ (s.port .u0).sclHeld = false ∧ (s.port .u0).phase = ph ∧ (s.port .u0).held = none
      ∧ legActive s .u0 .s0 = true ∧ owns s .u0 .s0 = true ∧ (s.seg .s0).activity = some .paused := by decide +kernel

theorem meets_stop_in_idle : (retime base).run = .running ∧ ((retime base).port .u0).phase = .idle
    ∧ TimersLaw (retime base) := ⟨rfl, rfl, timersLaw_retime _⟩

theorem test_conditions_inside_an_address_byte : ∀ ph ∈ [Phase.offBus, .address, .drain],
    let s := retime (onPlain ph .paused)
    ((run (.midByteStop .u0) s).port .u0).phase = .idle ∧ (run (.midByteStop .u0) s).notices = s.notices
      ∧ ((run (.midByteStart .u0) s).port .u0).phase = .address ∧ (run (.midByteStart .u0) s).notices = s.notices := by
  decide +kernel

theorem meets_paused : LegsPaused (retime (onPlain .write .paused)) .u0 ∧ LegsPaused (retime (onPlain .read .paused)) .u0
    ∧ LegsPaused (retime (onPlain .address .paused)) .u0 :=
  ⟨forSegs (by decide +kernel), forSegs (by decide +kernel), forSegs (by decide +kernel)⟩

theorem meets_midByteConditions : ∀ ph ∈ [Phase.write, .read],
    let s := retime (onPlain ph .paused)
    s.run = .running ∧ (s.port .u0).phase = ph ∧ (s.port .u0).sclHeld = false ∧ (s.port .u0).inFlight = none
      ∧ (s.port .u0).isOpen = true ∧ (s.port .u0).earlyAddr = none ∧ (s.port .u0).held = none
      ∧ ∀ l ∈ (s.port .u0).legs, l.marked = false := by decide +kernel

theorem meets_midByteStart_with_a_held_byte (h : Byte) (s : State)
    (e : s = retime (also (fun r => { r with held := some h }) (onChecked .write .paused))) :
    Ready s .u0 .write ∧ (s.port .u0).held.isSome = true ∧ (s.port .u0).inFlight = none ∧ (s.port .u0).isOpen = true
      ∧ (s.port .u0).earlyAddr = none ∧ TimersLaw s ∧ LegsPaused s .u0 := by
  subst e
  exact ⟨⟨rfl, rfl, rfl⟩, rfl, rfl, rfl, rfl, timersLaw_retime _, forSegs (by
    refine ⟨?_, ?_, ?_, ?_⟩ <;> first | exact fun _ => ⟨rfl, rfl⟩ | exact fun h => nomatch h)⟩

/-! ### The address phase -/

/-- U0 after its START. -/
def addressing : State := retime (also (fun r => { r with phase := .address, isOpen := true }) base)

theorem uncontended_of {s : State} (h : (∀ g ∈ Seg.list, (s.seg g).waiters = [])
    ∧ ∀ p ∈ [Port.u0, .u1], (s.port p).addrWait = none ∧ (s.port p).phase ≠ .awaitGrant) : Uncontended s :=
  ⟨forSegs ⟨h.1 _ (by decide), h.1 _ (by decide), h.1 _ (by decide), h.1 _ (by decide)⟩,
    forPorts ⟨h.2 _ (by decide), h.2 _ (by decide)⟩⟩

theorem meets_lookup : WorkingLaw addressing ∧ addressing.working.slots[1]? = some (some windowed)
    ∧ windowed.ports.get .u1 = true ∧ windowed.vaddr = 0x40#7 := by
  unfold WorkingLaw
  decide +kernel

theorem test_lookup_misses : lookup addressing.working.slots .u1 0x41#7 = none := by decide +kernel

theorem meets_addressDecision :
    isManagement addressing .u0 0x2C#7 = true ∧ isManagement addressing .u0 0x42#7 = false
      ∧ lookup addressing.working.slots .u0 0x33#7 = none
      ∧ lookup addressing.working.slots .u0 0x50#7 = some ⟨3, fan⟩
      ∧ lookup addressing.working.slots .u0 0x40#7 = some ⟨1, windowed⟩
      ∧ lookup addressing.working.slots .u0 0x42#7 = some ⟨0, plain⟩ := by decide +kernel

theorem meets_address : Ready addressing .u0 .address ∧ (addressing.port .u0).snapshot = none ∧ Uncontended addressing
    ∧ OwnsNothing addressing .u0 ∧ TimersLaw addressing :=
  ⟨⟨rfl, rfl, rfl⟩, rfl, uncontended_of (by decide +kernel), ⟨by decide +kernel, by decide +kernel⟩, timersLaw_retime _⟩

theorem meets_management_credits : creditFree addressing .u0 = true
    ∧ creditFree (also (fun r => { r with responses := List.replicate 4 ⟨.ok, 0#8, []⟩ }) addressing) .u0 = false
    ∧ creditFree (also (fun r => { r with responses := List.replicate 3 ⟨.ok, 0#8, []⟩ }) addressing) .u0 = true := by
  decide +kernel

theorem meets_addressRefused : decide25 addressing .u0 0x33#7 .write = .wait .miss
    ∧ decide25 addressing .u0 0x50#7 .read = .wait (.denied 3)
    ∧ decide25 addressing .u0 0x40#7 .read = .wait (.noOffset 1) := by decide +kernel

theorem meets_routedGranted : decide25 addressing .u0 0x50#7 .write = .routed ⟨3, fan⟩
    ∧ ∀ g ∈ Seg.list, (addressing.seg g).owner = none ∧ (addressing.seg g).pendingDisable = false
      ∧ (addressing.seg g).cond = .idle := by decide +kernel

theorem test_routed_address_is_granted :
    let t := run (.addressByte .u0 0x50#7 .write) addressing
    (t.port .u0).phase = .awaitTarget ∧ (t.port .u0).sclHeld = true ∧ (t.seg .s1).owner = some (.port .u0)
      ∧ (t.seg .s2).owner = none := by decide +kernel

/-- The first segment of the fan-out route faulted, out of service, about to be, recovering, or another port's. -/
def first (f : SegState → SegState) : State := retime (addressing.updSeg .s0 f)

theorem meets_routedRefusedOrWaiting : (PerSeg.members fan.segs).head? = some .s0
    ∧ ((first fun c => { c with cond := .faulted }).seg .s0).cond = .faulted
    ∧ ((first fun c => { c with cond := .disabled }).seg .s0).cond = .disabled
    ∧ ((first fun c => { c with cond := .owned, owner := some (.port .u1), pendingDisable := true }).seg .s0).pendingDisable
      = true
    ∧ ((first fun c => { c with cond := .recovering }).seg .s0).cond = .recovering
    ∧ ((first fun c => { c with cond := .owned, owner := some (.port .u1) }).seg .s0).owner ≠ none
    ∧ decide25 (first fun c => { c with cond := .recovering }) .u0 0x50#7 .write = .routed ⟨3, fan⟩ := by decide +kernel

/-- A repeated START on a port that keeps its leg on S0. -/
def kept : State := retime (onPlain .address .paused)

theorem meets_keptLegs : Ready kept .u0 .address ∧ decide25 kept .u0 0x42#7 .write = .routed ⟨0, plain⟩
    ∧ decide25 kept .u0 0x33#7 .write = .wait .miss ∧ Uncontended kept ∧ TimersLaw kept ∧ LegsPaused kept .u0
    ∧ (∀ g, legActive kept .u0 g = plain.segs.get g) ∧ activeSegs kept .u0 ≠ [] ∧ ownedSegs kept .u0 ≠ [] :=
  ⟨⟨rfl, rfl, rfl⟩, by decide +kernel, by decide +kernel, uncontended_of (by decide +kernel), timersLaw_retime _,
    forSegs (by decide +kernel), forSegs (by decide +kernel), by decide +kernel, by decide +kernel⟩

/-- A START on a port whose last leg, ended by the STOP before it, still places its own STOP on S0. -/
def stillClosing : State :=
  retime (also (fun r => { r with legs := [{ legOf .s0 with state := .ended }] })
    (owned .s0 (.closing none) (inPhase .address none [] base)))

theorem meets_closingLegs : Ready stillClosing .u0 .address ∧ decide25 stillClosing .u0 0x42#7 .write = .routed ⟨0, plain⟩
    ∧ decide25 stillClosing .u0 0x40#7 .write = .routed ⟨1, windowed⟩
    ∧ decide25 stillClosing .u0 0x33#7 .write = .wait .miss ∧ Uncontended stillClosing ∧ TimersLaw stillClosing
    ∧ LegsPaused stillClosing .u0 ∧ activeSegs stillClosing .u0 = [] ∧ ownedSegs stillClosing .u0 ≠ []
    ∧ legActive stillClosing .u0 .s0 ≠ plain.segs.get .s0 ∧ PerSeg.members plain.segs ≠ [] :=
  ⟨⟨rfl, rfl, rfl⟩, by decide +kernel, by decide +kernel, by decide +kernel, uncontended_of (by decide +kernel),
    timersLaw_retime _, forSegs ⟨nofun, nofun, nofun, nofun⟩, by decide +kernel, by decide +kernel, by decide +kernel,
    by decide +kernel⟩

theorem test_an_address_byte_while_a_stop_is_awaited :
    let t (a : Addr) := (run (.addressByte .u0 a .write) stillClosing).port .u0
    (t 0x42#7).phase = .awaitGrant ∧ (t 0x42#7).legs.map (fun l => (l.seg, l.state)) = [(.s0, .claiming)]
      ∧ (t 0x40#7).legs.map (fun l => (l.seg, l.state)) = [(.s0, .ended), (.s1, .claiming)]
      ∧ (t 0x33#7).addrWait = some .miss ∧ (t 0x33#7).sclHeld = true := by decide +kernel

theorem meets_keptLegs_of_another_set : decide25 kept .u0 0x40#7 .write = .routed ⟨1, windowed⟩
    ∧ legActive kept .u0 .s0 ≠ windowed.segs.get .s0 ∧ PerSeg.members windowed.segs ≠ [] := by decide +kernel

theorem test_another_set_waits_for_the_stop :
    let t := run (.addressByte .u0 0x40#7 .write) kept
    (t.port .u0).phase = .awaitGrant ∧ (t.seg .s0).activity = some (.closing none) ∧ (t.seg .s1).owner = none := by
  decide +kernel

/-- U0 after its answer had to wait for the STOP on S0, or a routed address had. -/
def closingFor (f : PortState → PortState) : State :=
  retime (also (fun r => f { r with sclHeld := true, legs := [{ legOf .s0 with state := .ended }] })
    (owned .s0 (.closing none) (inPhase .address none [] base)))
def answerDue (w : AddrWait) : State := closingFor fun r => { r with addrWait := some w }
def routeDue : State :=
  closingFor fun r => { r with
    phase := .awaitGrant, snapshot := some ⟨3, fan⟩, hold := some 30,
    legs := [{ legOf .s0 with state := .claiming }, { legOf .s1 with state := .claiming }] }

theorem meets_closedThenAnswered (w : AddrWait) : LegAt (answerDue w) .u0 .s0 (.closing none)
    ∧ ((answerDue w).seg .s0).cond = .owned ∧ TimersLaw (answerDue w) ∧ (∀ h, ((answerDue w).seg h).waiters = [])
    ∧ (∀ h, owns (answerDue w) .u0 h = true → h = .s0)
    ∧ (∀ q, q ≠ .u0 → ((answerDue w).port q).addrWait = none) ∧ (∀ q, ((answerDue w).port q).phase ≠ .awaitGrant)
    ∧ ((answerDue w).port .u0).phase = .address ∧ ((answerDue w).port .u0).sclHeld = true
    ∧ ((answerDue w).port .u0).snapshot = none ∧ ((answerDue w).port .u0).addrWait = some w :=
  ⟨⟨rfl, rfl, rfl⟩, rfl, timersLaw_retime _, forSegs ⟨rfl, rfl, rfl, rfl⟩,
    forSegs (by refine ⟨?_, ?_, ?_, ?_⟩ <;> first | exact fun _ => rfl | exact fun h => nomatch h),
    forPorts ⟨fun h => absurd rfl h, fun _ => rfl⟩, forPorts ⟨nofun, nofun⟩, rfl, rfl, rfl, rfl⟩

theorem meets_closedThenAnswered_routed : LegAt routeDue .u0 .s0 (.closing none) ∧ TimersLaw routeDue
    ∧ (routeDue.seg .s0).cond = .owned ∧ (∀ h, (routeDue.seg h).waiters = [])
    ∧ (∀ h, owns routeDue .u0 h = true → h = .s0) ∧ (∀ q, (routeDue.port q).addrWait = none)
    ∧ (∀ q, q ≠ .u0 → (routeDue.port q).phase ≠ .awaitGrant) ∧ (routeDue.port .u0).phase = .awaitGrant
    ∧ (routeDue.port .u0).sclHeld = true ∧ activeSegs routeDue .u0 = [] ∧ claimingSegs routeDue .u0 = [.s0, .s1]
    ∧ (∀ h, (routeDue.seg h).pendingDisable = false) ∧ (routeDue.seg .s1).owner = none ∧ (routeDue.seg .s1).cond = .idle :=
  ⟨⟨rfl, rfl, rfl⟩, timersLaw_retime _, rfl, forSegs (by decide +kernel), forSegs (by decide +kernel),
    forPorts (by decide +kernel), forPorts (by decide +kernel), rfl, rfl, by decide +kernel, by decide +kernel,
    forSegs (by decide +kernel), by decide +kernel, by decide +kernel⟩

theorem meets_closedThenAnswered_by_the_clock (w : AddrWait) : ((answerDue w).seg .s0).clock.isSome = true
    ∧ (routeDue.seg .s0).clock.isSome = true := ⟨rfl, rfl⟩

theorem test_the_clock_limit_answers :
    ((run (.clockLimitExpiry .s0) (answerDue .miss)).port .u0).phase = .offBus
      ∧ (run (.clockLimitExpiry .s0) (answerDue (.denied 3))).notices.map (·.kind) = [.tableEmpty, .segTimeout, .accessDenied]
      ∧ ((run (.clockLimitExpiry .s0) routeDue).seg .s0).waiters = [.port .u0]
      ∧ ((run (.clockLimitExpiry .s0) routeDue).port .u0).phase = .awaitGrant := by decide +kernel

theorem test_the_last_stop_answers :
    ((run (.stopPlaced .s0) (answerDue .miss)).port .u0).phase = .offBus
      ∧ ((run (.stopPlaced .s0) (answerDue (.denied 3))).port .u0).phase = .drain
      ∧ ((run (.stopPlaced .s0) (answerDue (.mgmtRead 0x59#8))).port .u0).phase = .mgmtRead
      ∧ ((run (.stopPlaced .s0) routeDue).port .u0).phase = .awaitTarget
      ∧ ((run (.stopPlaced .s0) routeDue).seg .s0).activity = some (.addressing .waitFresh) := by decide +kernel

/-! ### Write bytes -/

theorem test_writeByteTests_at_the_bounds :
    judge windowed 0 none 0x04#8 = some .offsetLow ∧ judge windowed 0 none 0x05#8 = none
      ∧ judge windowed 0 none 0x3F#8 = none ∧ judge windowed 0 none 0x40#8 = some .offsetHigh
      ∧ judge windowed 2 (some 0x3F) 0#8 = none ∧ judge windowed 2 (some 0x40) 0#8 = some .offsetHigh
      ∧ judge windowed 3 (some 0x05) 0#8 = some .length ∧ judge plain 255 none 0#8 = none := by decide

/-- A write that may take a byte. -/
def writing : State := retime (onWindowed .write .paused)

theorem meets_writeByte : Ready writing .u0 .write ∧ (writing.port .u0).inFlight = none
    ∧ (writing.port .u0).snapshot = some ⟨1, windowed⟩ ∧ windowed.check = .none ∧ TimersLaw writing
    ∧ LegsPaused writing .u0 ∧ judge windowed (writing.port .u0).count (writing.port .u0).pointer 0x05#8 = none
    ∧ judge windowed (writing.port .u0).count (writing.port .u0).pointer 0x40#8 = some .offsetHigh :=
  ⟨⟨rfl, rfl, rfl⟩, rfl, rfl, rfl, timersLaw_retime _, forSegs (by decide +kernel), by decide +kernel, by decide +kernel⟩

/-- A write with check bytes, with a byte held or not. -/
def holding (h : Option Byte) : State := retime (also (fun r => { r with held := h }) (onChecked .write .paused))

theorem meets_regenWriteByte : ∀ h ∈ [none, some 0x10#8],
    Ready (holding h) .u0 .write ∧ ((holding h).port .u0).inFlight = none
      ∧ ((holding h).port .u0).snapshot = some ⟨2, checked⟩ ∧ checked.check = .regen ∧ TimersLaw (holding h)
      ∧ LegsPaused (holding h) .u0 ∧ ((holding h).port .u0).held = h ∧ judge checked 0 none 0x10#8 = none :=
  fun _ _ => ⟨⟨rfl, rfl, rfl⟩, rfl, rfl, rfl, timersLaw_retime _, forSegs (by
    refine ⟨?_, ?_, ?_, ?_⟩ <;> first | exact fun _ => ⟨rfl, rfl⟩ | exact fun h => nomatch h), rfl, by decide⟩

theorem meets_regenRefused : judge { checked with window := some ⟨0x11#8, 0x20#8⟩ } 0 none 0x10#8 = some .offsetLow := by
  decide

/-- A byte on its way to a device, before and after it has been placed whole. -/
def forwarding (placed : Bool) : State :=
  retime (also (fun r => { r with inFlight := some ⟨0x05#8, placed, false, .answer⟩, sclHeld := true })
    (onWindowed .write (.writing 0x05#8 placed)))

theorem meets_bytePlaced : LegAt (forwarding false) .u0 .s1 (.writing 0x05#8 false)
    ∧ ((forwarding false).port .u0).inFlight = some ⟨0x05#8, false, false, .answer⟩
    ∧ ((forwarding false).port .u0).snapshot = some ⟨1, windowed⟩ := ⟨⟨rfl, rfl, rfl⟩, rfl, rfl⟩

theorem meets_deviceAck : LegAt (forwarding true) .u0 .s1 (.writing 0x05#8 true) ∧ TimersLaw (forwarding true)
    ∧ ((forwarding true).port .u0).phase = .write ∧ ((forwarding true).port .u0).sclHeld = true
    ∧ legActive (forwarding true) .u0 .s1 = true
    ∧ (Seg.list.any fun h => h != .s1 && legActive (forwarding true) .u0 h) = false :=
  ⟨⟨rfl, rfl, rfl⟩, timersLaw_retime _, rfl, rfl, by decide +kernel, by decide +kernel⟩

/-- A byte that two devices take, S1's still on its way. -/
def fanning : State :=
  retime (also (fun r => { r with inFlight := some ⟨0x05#8, true, false, .answer⟩, sclHeld := true })
    (onFan .write (.writing 0x05#8 true) (.writing 0x05#8 false)))

theorem meets_deviceAck_of_several : LegAt fanning .u0 .s0 (.writing 0x05#8 true) ∧ legActive fanning .u0 .s1 = true
    ∧ (fanning.seg .s1).activity ≠ some .paused ∧ TimersLaw fanning :=
  ⟨⟨rfl, rfl, rfl⟩, by decide +kernel, by decide +kernel, timersLaw_retime _⟩

/-- The same byte, S1's leg PAUSED after it. -/
def fanningLast : State := retime (fanning.updSeg .s1 fun c => { c with activity := some .paused, clock := none })

theorem meets_deviceAck_as_the_last : LegAt fanningLast .u0 .s0 (.writing 0x05#8 true) ∧ TimersLaw fanningLast
    ∧ (fanningLast.port .u0).inFlight = some ⟨0x05#8, true, false, .answer⟩ ∧ legActive fanningLast .u0 .s0 = true
    ∧ (fanningLast.port .u0).phase = .write ∧ (fanningLast.port .u0).sclHeld = true
    ∧ (Seg.list.any fun h => h != .s0 && legActive fanningLast .u0 h) = true
    ∧ ∀ h, legActive fanningLast .u0 h = true → h ≠ .s0 → (fanningLast.seg h).activity = some .paused :=
  ⟨⟨rfl, rfl, rfl⟩, timersLaw_retime _, rfl, rfl, rfl, rfl, rfl,
    forSegs ⟨fun _ h => absurd rfl h, fun _ _ => rfl, nofun, nofun⟩⟩

theorem test_the_last_deviceAck_joins :
    ((run (.deviceAck .s0 .ack) fanningLast).port .u0).ackOut = some .ack
      ∧ ((run (.deviceAck .s0 .nack) fanningLast).port .u0).ackOut = some .nack
      ∧ ((run (.deviceAck .s0 .nack) fanningLast).port .u0).phase = .write := by decide +kernel

theorem test_deviceAck_relays_the_answer : ((run (.deviceAck .s1 .ack) (forwarding true)).port .u0).ackOut = some .ack
    ∧ ((run (.deviceAck .s1 .nack) (forwarding true)).port .u0).phase = .drain := by decide +kernel

/-! ### The confirmation of a held byte (R69) -/

/-- The entry with check bytes, with a window. -/
def checkedWindow : Entry := { checked with window := some ⟨0x11#8, 0x20#8⟩ }
def holdingIn (e : Entry) (h : Byte) : State :=
  retime (also (fun r => { r with held := some h, snapshot := some ⟨2, e⟩ }) (onChecked .write .paused))

theorem meets_confirmationBegins (e : Entry) (h : Byte) : Ready (holdingIn e h) .u0 .write
    ∧ ((holdingIn e h).port .u0).isOpen = true ∧ ((holdingIn e h).port .u0).earlyAddr = none
    ∧ ((holdingIn e h).port .u0).inFlight = none ∧ ((holdingIn e h).port .u0).held = some h
    ∧ ((holdingIn e h).port .u0).snapshot = some ⟨2, e⟩ ∧ TimersLaw (holdingIn e h) ∧ LegsPaused (holdingIn e h) .u0
    ∧ ((holdingIn e h).port .u0).count = 0 ∧ ((holdingIn e h).port .u0).pointer = none :=
  ⟨⟨rfl, rfl, rfl⟩, rfl, rfl, rfl, rfl, rfl, timersLaw_retime _, forSegs (by
    refine ⟨?_, ?_, ?_, ?_⟩ <;> first | exact fun _ => ⟨rfl, rfl⟩ | exact fun h => nomatch h), rfl, rfl⟩

theorem meets_confirmationBegins_at_the_bounds : judge checkedWindow 0 none 0x10#8 = some .offsetLow
    ∧ judge checkedWindow 0 none 0x11#8 = none ∧ judge checkedWindow 0 none 0x20#8 = none
    ∧ judge checkedWindow 0 none 0x21#8 = some .offsetHigh := by decide

/-- A byte confirmed by a repeated START, placed on S2 but for its acknowledge, with an address byte waiting or not. -/
def confirming (early : Option EarlyAddr) : State :=
  retime (also (fun r => { r with
    inFlight := some ⟨0x10#8, true, false, .repeatedStart⟩, earlyAddr := early, sclHeld := early.isSome })
    (onChecked .write (.writing 0x10#8 true)))

theorem meets_an_early_address : Ready (confirming none) .u0 .write ∧ ((confirming none).port .u0).inFlight.isSome = true
    ∧ TimersLaw (confirming none) := ⟨⟨rfl, rfl, rfl⟩, rfl, timersLaw_retime _⟩

theorem meets_confirmationJoined (early : Option EarlyAddr) : LegAt (confirming early) .u0 .s2 (.writing 0x10#8 true)
    ∧ ((confirming early).port .u0).phase = .write
    ∧ ((confirming early).port .u0).inFlight = some ⟨0x10#8, true, false, .repeatedStart⟩
    ∧ ((confirming early).port .u0).snapshot = some ⟨2, checked⟩ ∧ ((confirming early).port .u0).earlyAddr = early
    ∧ ((confirming early).port .u0).sclHeld = early.isSome ∧ TimersLaw (confirming early) ∧ Uncontended (confirming early)
    ∧ legActive (confirming early) .u0 .s2 = true ∧ owns (confirming early) .u0 .s2 = true
    ∧ (∀ h, legActive (confirming early) .u0 h = true → h = .s2)
    ∧ ∀ l ∈ ((confirming early).port .u0).legs, l.marked = false ∧ l.state ≠ .claiming :=
  ⟨⟨rfl, rfl, rfl⟩, rfl, rfl, rfl, rfl, rfl, timersLaw_retime _,
    uncontended_of ⟨fun g h => by cases g <;> rfl, fun p h => by cases p <;> exact ⟨rfl, nofun⟩⟩, rfl, rfl,
    forSegs (by refine ⟨?_, ?_, ?_, ?_⟩ <;> first | exact fun _ => rfl | exact fun h => nomatch h),
    fun l h => by
      have : l = legOf .s2 := List.mem_singleton.mp h
      rw [this]; exact ⟨rfl, nofun⟩⟩

theorem meets_confirmationJoined_decisions (r : PortState) :
    decideFound r 0x41#7 .write (.matched ⟨2, checked⟩) = .routed ⟨2, checked⟩
      ∧ decideFound r 0x42#7 .write (.matched ⟨0, plain⟩) = .routed ⟨0, plain⟩
      ∧ decideFound r 0x33#7 .write .missed = .wait .miss
      ∧ PerSeg.members checked.segs ≠ [] ∧ PerSeg.members plain.segs ≠ [] := ⟨rfl, rfl, rfl, by decide, by decide⟩

theorem test_a_confirmation_by_what_stood_at_the_address_byte :
    let found (s : State) := ((run (.addressByte .u0 0x41#7 .write) s).port .u0).earlyAddr.map (·.found)
    let after (a : Ack) := run (.deviceAck .s2 a) (confirming (some ⟨0x41#7, .write, .matched ⟨2, checked⟩⟩))
    found (confirming none) = some (.matched ⟨2, checked⟩)
      ∧ found { confirming none with working := { image with slots := List.replicate 32 none } } = some .missed
      ∧ ((after .ack).port .u0).phase = .awaitTarget
      ∧ ((after .nack).port .u0).phase = .awaitGrant := by decide +kernel

theorem test_an_abort_of_a_confirmed_byte_goes_on_to_address :
    let t := run (.clockLimitExpiry .s2) ((confirming none).updSeg .s2 fun c => { c with clock := some 25 })
    (t.port .u0).phase = .address ∧ activeSegs t .u0 = [] ∧ (t.seg .s2).cond = .recovering := by decide +kernel

theorem test_a_stall_leaves_a_confirmed_byte_out :
    let s := run (.stall .u0) ((confirming none).updSeg .s2 fun c => { c with activity := some (.writing 0x10#8 false) })
    (s.port .u0).phase = .offBus ∧ (s.port .u0).up = ((confirming none).port .u0).up
      ∧ run (.bytePlaced .s2) s = s := by decide +kernel

theorem meets_checkDecision : ((holding (some 0xFF#8)).port .u0).held = some ((holding (some 0xFF#8)).port .u0).up
    ∧ ((holding (some 0x10#8)).port .u0).held ≠ some ((holding (some 0x10#8)).port .u0).up
    ∧ legOn (holding (some 0xFF#8)) .u0 .s2 = some (legOf .s2) := by decide +kernel

/-! ### Read bytes -/

/-- A read whose address has been ACKed. -/
def asking (n : Option Nat) : State :=
  retime (also (fun r => { r with readStage := .addressAcked, pointer := n }) (onWindowed .read .paused))
def askingChecked : State := retime (also (fun r => { r with readStage := .addressAcked }) (onChecked .read .paused))

theorem meets_readRequest : ∀ n ∈ [some 0x04, some 0x05, some 0x3F, some 0x40],
    Ready (asking n) .u0 .read ∧ ((asking n).port .u0).readStage = .addressAcked
      ∧ ((asking n).port .u0).snapshot = some ⟨1, windowed⟩ ∧ TimersLaw (asking n) ∧ LegsPaused (asking n) .u0
      ∧ ((asking n).port .u0).pointer = n :=
  fun _ _ => ⟨⟨rfl, rfl, rfl⟩, rfl, rfl, timersLaw_retime _, forSegs (by
    refine ⟨?_, ?_, ?_, ?_⟩ <;> first | exact fun _ => ⟨rfl, rfl⟩ | exact fun h => nomatch h), rfl⟩

theorem meets_readRequest_check : Ready askingChecked .u0 .read ∧ (askingChecked.port .u0).readStage = .addressAcked
    ∧ (askingChecked.port .u0).snapshot = some ⟨2, checked⟩ ∧ (askingChecked.port .u0).readRemaining = 0
    ∧ TimersLaw askingChecked ∧ LegsPaused askingChecked .u0 :=
  ⟨⟨rfl, rfl, rfl⟩, rfl, rfl, rfl, timersLaw_retime _, forSegs (by decide +kernel)⟩

theorem test_readRequest_beyond_the_window :
    ((run (.readAddressAckEnd .u0) (asking (some 0x40))).port .u0).phase = .drain
      ∧ ((run (.readAddressAckEnd .u0) (asking (some 0x40))).port .u0).sdaByte = some 0xFF#8
      ∧ ((run (.readAddressAckEnd .u0) (asking (some 0x3F))).port .u0).readStage = .fetching := by decide +kernel

theorem test_readRequest_of_the_check_byte :
    let t := run (.readAddressAckEnd .u0) askingChecked
    (t.port .u0).readStage = .fetchingCheck ∧ (t.port .u0).sclHeld = true
      ∧ (t.seg .s2).activity = some (.reading .check) := by decide +kernel

/-- A byte, or the check byte, being read from a device. -/
def fetching : State :=
  retime (also (fun r => { r with readStage := .fetching, sclHeld := true }) (onPlain .read (.reading .data)))
def fetchingCheck : State :=
  retime (also (fun r => { r with readStage := .fetchingCheck, sclHeld := true }) (onChecked .read (.reading .check)))

theorem meets_bytesFetched : LegAt fetching .u0 .s0 (.reading .data) ∧ (fetching.port .u0).readStage = .fetching
    ∧ TimersLaw fetching ∧ LegAt fetchingCheck .u0 .s2 (.reading .check)
    ∧ (fetchingCheck.port .u0).readStage = .fetchingCheck ∧ (fetchingCheck.port .u0).legs = [legOf .s2]
    ∧ (legOf .s2).state = .active ∧ TimersLaw fetchingCheck :=
  ⟨⟨rfl, rfl, rfl⟩, rfl, timersLaw_retime _, ⟨rfl, rfl, rfl⟩, rfl, rfl, rfl, timersLaw_retime _⟩

theorem test_checkByteFetched : ((run (.checkByteFetched .s2 0xFF#8) fetchingCheck).port .u0).sdaByte = some 0xFF#8
    ∧ ((run (.checkByteFetched .s2 0x00#8) fetchingCheck).port .u0).sdaByte = some 0x00#8 := by decide +kernel

theorem meets_readBytesAnswered : Ready supplying .u0 .read ∧ (supplying.port .u0).readStage = .supplying 0x55#8 0
    ∧ (supplying.port .u0).snapshot = some ⟨0, plain⟩ ∧ TimersLaw supplying ∧ LegsPaused supplying .u0
    ∧ ∀ l ∈ (supplying.port .u0).legs, l.marked = false :=
  ⟨⟨rfl, rfl, rfl⟩, rfl, rfl, timersLaw_retime _, forSegs (by decide +kernel), by decide +kernel⟩

/-- A byte of a read supplied, at a pointer or with bytes remaining. -/
def suppliedAt (s : State) (pointer : Option Nat) (remaining : Nat) : State :=
  retime (also (fun r => { r with readStage := .supplying 0x55#8 16, pointer := pointer, readRemaining := remaining }) s)

theorem test_an_ack_is_the_next_request :
    let stage (s : State) := ((run (.readByteAck .u0 .ack) s).port .u0).readStage
    let phase (s : State) := ((run (.readByteAck .u0 .ack) s).port .u0).phase
    stage (suppliedAt (onPlain .read .paused) none 0) = .fetching
      ∧ stage (suppliedAt (onWindowed .read .paused) (some 0x3E) 0) = .fetching
      ∧ phase (suppliedAt (onWindowed .read .paused) (some 0x3F) 0) = .drain
      ∧ stage (suppliedAt (onChecked .read .paused) none 2) = .fetching
      ∧ stage (suppliedAt (onChecked .read .paused) none 1) = .fetchingCheck := by decide +kernel

theorem meets_bytesAfterTheEnd :
    let r := retime (also (fun r => { r with readStage := .supplyingCheck 0x46#8 }) (onChecked .read .paused))
    let d := onPlain .drain (.closing none)
    Ready r .u0 .read ∧ (r.port .u0).readStage = .supplyingCheck 0x46#8 ∧ TimersLaw r ∧ d.run = .running
      ∧ (d.port .u0).phase = .drain ∧ (d.port .u0).dir = .write
      ∧ ((also (fun r => { r with dir := .read }) d).port .u0).dir = .read :=
  ⟨⟨rfl, rfl, rfl⟩, rfl, timersLaw_retime _, rfl, rfl, rfl, rfl⟩

/-! ### Management frames -/

/-- U0 in MGMT_WRITE with bytes taken. -/
def assembling (bytes : List Byte) (check : Byte) : State :=
  retime (also (fun r => { r with phase := .mgmtWrite, isOpen := true, assembler := some ⟨bytes, check, false, false⟩ }) base)

theorem meets_mgmtWrite (bytes : List Byte) (check : Byte) : Ready (assembling bytes check) .u0 .mgmtWrite
    ∧ ((assembling bytes check).port .u0).assembler = some ⟨bytes, check, false, false⟩
    ∧ ((assembling bytes check).port .u0).isOpen = true ∧ ((assembling bytes check).port .u0).earlyAddr = none
    ∧ OwnsNothing (assembling bytes check) .u0 ∧ TimersLaw (assembling bytes check) :=
  ⟨⟨rfl, rfl, rfl⟩, rfl, rfl, rfl, ⟨rfl, rfl⟩, timersLaw_retime _⟩

theorem test_mgmtWriteByte_at_the_bounds :
    let answer (bytes : List Byte) (b : Byte) := ((run (.mgmtWriteByte .u0 b) (assembling bytes 0#8)).port .u0).ackOut
    answer [0x01#8, 0x07#8] 0x28#8 = some .ack ∧ answer [0x01#8, 0x07#8] 0x29#8 = some .nack
      ∧ answer [0x01#8, 0x07#8, 0x00#8] 0x55#8 = some .ack
      ∧ answer [0x01#8, 0x07#8, 0x00#8, 0x55#8] 0x55#8 = some .nack := by decide +kernel

theorem test_a_frame_ends :
    let queue (bytes : List Byte) := (run (.stop .u0) (assembling bytes 0x55#8)).cmdQueue
    queue [] = [] ∧ queue [0x01#8] = [.error .u0 .frameShort 0x00#8]
      ∧ queue [0x01#8, 0x07#8, 0x00#8] = [.error .u0 .frameShort 0x07#8]
      ∧ queue [0x01#8, 0x07#8, 0x00#8, 0x56#8] = [.error .u0 .badCheck 0x07#8]
      ∧ queue [0xEE#8, 0x07#8, 0x00#8, 0x55#8] = [.error .u0 .unknown 0x07#8]
      ∧ queue [0x01#8, 0x07#8, 0x01#8, 0x00#8, 0x55#8] = [.error .u0 .badLength 0x07#8]
      ∧ queue [0x01#8, 0x07#8, 0x00#8, 0x55#8] = [.frame .u0 .identify 0x07#8 []] := by decide +kernel

/-- U0 reading a response of one payload byte, the byte numbered `n` being supplied, with this many of its edges told. -/
def answering (n edges : Nat) : State :=
  retime (also (fun r => { r with
    phase := .mgmtRead, isOpen := true, responses := [⟨.ok, 0x07#8, [0x01#8]⟩],
    readPos := some ⟨⟨.ok, 0x07#8, [0x01#8]⟩, false, n, edges, 0#8, false, false⟩ }) base)

theorem meets_mgmtRead (n e : Nat) : (answering n e).run = .running ∧ ((answering n e).port .u0).phase = .mgmtRead
    ∧ ((answering n e).port .u0).readPos = some ⟨⟨.ok, 0x07#8, [0x01#8]⟩, false, n, e, 0#8, false, false⟩
    ∧ ((answering n e).port .u0).sclHeld = false ∧ OwnsNothing (answering n e) .u0 ∧ TimersLaw (answering n e) :=
  ⟨rfl, rfl, rfl, rfl, ⟨rfl, rfl⟩, timersLaw_retime _⟩

/-- The same read after the controller's NACK. -/
def nacked (n : Nat) (done : Bool) : State :=
  also (fun r => { r with readPos := some ⟨⟨.ok, 0x07#8, [0x01#8]⟩, false, n, 0, 0#8, done, true⟩ }) (answering n 0)

theorem meets_mgmtRead_nacked : ∀ n ∈ [1, 5], ((nacked n (n == 5)).port .u0).phase = .mgmtRead
    ∧ ((nacked n (n == 5)).port .u0).readPos = some ⟨⟨.ok, 0x07#8, [0x01#8]⟩, false, n, 0, 0#8, n == 5, true⟩
    ∧ ((nacked n (n == 5)).port .u0).isOpen = true ∧ ((nacked n (n == 5)).port .u0).earlyAddr = none := by decide +kernel

theorem test_the_end_of_a_read_by_each_condition :
    let left (c : Instr) (s : State) := ((run c s).port .u0).responses.length
    left (.stop .u0) (nacked 5 true) = 0 ∧ left (.repeatedStart .u0) (nacked 5 true) = 0
      ∧ left (.midByteStart .u0) (nacked 5 true) = 0 ∧ left (.stop .u0) (nacked 4 false) = 1
      ∧ left (.repeatedStart .u0) (answering 4 16) = 0 ∧ left (.midByteStart .u0) (answering 4 15) = 1 := by decide +kernel

/-- Sixteen edges end the check byte's eighth bit. A STOP right after the ACK of the byte before it finds it not begun. -/
theorem test_a_stop_removes_a_response_read_whole :
    let left (s : State) := ((run (.stop .u0) s).port .u0).responses.length
    left (answering 4 16) = 0 ∧ left (run (.upstreamSclEdge .u0) (answering 4 15)) = 0 ∧ left (answering 4 15) = 1
      ∧ left (run (.mgmtReadAck .u0 .ack) (answering 3 16)) = 1
      ∧ left (run (.upstreamSclEdge .u0) (run (.mgmtReadAck .u0 .ack) (answering 3 16))) = 1
      ∧ left (run (.mgmtReadAck .u0 .ack) (answering 4 0)) = 0 := by decide +kernel

/-! ### The timers of a port -/

/-- A routed address with its leg at an activity. -/
def awaiting (a : Activity) : State :=
  retime (also (fun r => { r with sclHeld := true, hold := some 30 }) (onPlain .awaitTarget a))

theorem meets_holdExpired (a : Activity) (_ : a ∈ [.addressing .placed, .addressing .waitFresh]) :
    (awaiting a).run = .running ∧ ((awaiting a).port .u0).phase = .awaitTarget
      ∧ ((awaiting a).port .u0).hold.isSome = true ∧ Uncontended (awaiting a) ∧ TimersLaw (awaiting a)
      ∧ (∀ g, legActive (awaiting a) .u0 g = true → owns (awaiting a) .u0 g = true)
      ∧ ((awaiting a).seg .s0).activity = some a ∧ ∀ l ∈ ((awaiting a).port .u0).legs, l.state ≠ .claiming :=
  ⟨rfl, rfl, rfl, uncontended_of ⟨fun g h => by cases g <;> rfl, fun p h => by cases p <;> exact ⟨rfl, nofun⟩⟩,
    timersLaw_retime _,
    forSegs (by refine ⟨?_, ?_, ?_, ?_⟩ <;> first | exact fun _ => rfl | exact fun h => nomatch h), rfl,
    fun l h => by
      have : l = legOf .s0 := List.mem_singleton.mp h
      rw [this]; exact nofun⟩

theorem meets_holdExpired_waiting : WaitsAlone queued .u0 .s0 [] ∧ queued.run = .running
    ∧ (queued.port .u0).hold.isSome = true ∧ TimersLaw queued ∧ (queued.seg .s0).refuses = false
    ∧ (queued.seg .s0).free = false :=
  ⟨⟨rfl, rfl, nofun, forSegs (by decide +kernel), forPorts (by decide +kernel), forPorts (by decide +kernel),
      forSegs ⟨nofun, nofun, nofun, nofun⟩⟩,
    rfl, rfl, timersLaw_retime _, by decide +kernel, by decide +kernel⟩

theorem meets_holdExpired_closing : routeDue.run = .running ∧ (routeDue.port .u0).phase = .awaitGrant
    ∧ (routeDue.port .u0).hold.isSome = true ∧ (∀ h, Claimant.port .u0 ∉ (routeDue.seg h).waiters)
    ∧ activeSegs routeDue .u0 = [] ∧ ownedSegs routeDue .u0 = [.s0] ∧ (routeDue.port .u0).addrWait = none
    ∧ Settled routeDue ∧ TimersLaw routeDue :=
  ⟨rfl, rfl, rfl, forSegs ⟨nofun, nofun, nofun, nofun⟩, by decide +kernel, by decide +kernel, rfl,
    by unfold Settled; decide +kernel, timersLaw_retime _⟩

theorem test_hold_expires_while_a_stop_is_awaited :
    (run (.holdExpired .u0) routeDue).notices.getLast?.map (·.seg) = some (some (.seg .s0))
      ∧ ((run (.holdExpired .u0) routeDue).seg .s0).activity = some (.closing none) := by decide +kernel

theorem meets_stallTimer : (supplying.port .u0).stall.isSome = true ∧ LegsPaused supplying .u0 :=
  ⟨rfl, forSegs (by decide +kernel)⟩

theorem test_the_sixteenth_edge_takes_the_byte_in :
    let up (n : Nat) :=
      ((run (.upstreamSclEdge .u0) (also (fun r => { r with readStage := .supplying 0x55#8 n }) supplying)).port .u0).up
    up 14 = 0xFF#8 ∧ up 15 = crc8 0xFF#8 0x55#8 ∧ up 16 = 0xFF#8 := by decide +kernel

/-! ### Segments -/

theorem meets_legOpen : LegAt (awaiting (.addressing .waitFresh)) .u0 .s0 (.addressing .waitFresh)
    ∧ LegAt (awaiting (.addressing .waitRepeated)) .u0 .s0 (.addressing .waitRepeated)
    ∧ ((awaiting (.addressing .waitFresh)).port .u0).snapshot = some ⟨0, plain⟩
    ∧ ((awaiting (.addressing .waitFresh)).seg .s0).mode = .exclusive
    ∧ AbortMet (awaiting (.addressing .waitFresh)) .u0 .s0 (.addressing .waitFresh)
    ∧ Settled (awaiting (.addressing .waitFresh)) ∧ TimersLaw (awaiting (.addressing .waitFresh)) :=
  ⟨⟨rfl, rfl, rfl⟩, ⟨rfl, rfl, rfl⟩, rfl, rfl,
    ⟨rfl, rfl, .inl ⟨rfl, fun sn e => by
      cases (show some (⟨0, plain⟩ : Snapshot) = some sn from e); exact forSegs ⟨fun _ => rfl, nofun, nofun, nofun⟩⟩⟩,
    by unfold Settled; decide +kernel, timersLaw_retime _⟩

theorem meets_targetAck : LegAt (awaiting (.addressing .placed)) .u0 .s0 (.addressing .placed)
    ∧ ((awaiting (.addressing .placed)).port .u0).sclHeld = true
    ∧ legActive (awaiting (.addressing .placed)) .u0 .s0 = true
    ∧ ∀ h, legActive (awaiting (.addressing .placed)) .u0 h = true → plain.segs.get h = true :=
  ⟨⟨rfl, rfl, rfl⟩, rfl, by decide +kernel, forSegs (by decide +kernel)⟩

/-- A fan-out address with S0's target still to answer, and S1's leg at an activity. -/
def acquiring (a : Activity) : State :=
  retime (also (fun r => { r with sclHeld := true, hold := some 30 }) (onFan .awaitTarget (.addressing .placed) a))

theorem meets_targetAck_of_several (a : Activity) : LegAt (acquiring a) .u0 .s0 (.addressing .placed)
    ∧ ((acquiring a).port .u0).phase = .awaitTarget ∧ ((acquiring a).port .u0).sclHeld = true
    ∧ ((acquiring a).port .u0).snapshot = some ⟨3, fan⟩ ∧ TimersLaw (acquiring a)
    ∧ legActive (acquiring a) .u0 .s0 = true ∧ legActive (acquiring a) .u0 .s1 = true
    ∧ ((acquiring a).seg .s1).activity = some a
    ∧ ∀ h, legActive (acquiring a) .u0 h = true → fan.segs.get h = true :=
  ⟨⟨rfl, rfl, rfl⟩, rfl, rfl, rfl, timersLaw_retime _, rfl, rfl, rfl, forSegs ⟨fun _ => rfl, fun _ => rfl, nofun, nofun⟩⟩

theorem test_targetAck_of_several :
    ((run (.targetAck .s0 .ack) (acquiring .paused)).port .u0).ackOut = some .ack
      ∧ ((run (.targetAck .s0 .nack) (acquiring .paused)).port .u0).ackOut = some .nack
      ∧ ((run (.targetAck .s0 .nack) (acquiring .paused)).port .u0).phase = .write
      ∧ ((run (.targetAck .s0 .ack) (acquiring (.addressing .placed))).port .u0).phase = .awaitTarget := by decide +kernel

theorem test_targetAck : ((run (.targetAck .s0 .ack) (awaiting (.addressing .placed))).port .u0).phase = .write
    ∧ ((run (.targetAck .s0 .nack) (awaiting (.addressing .placed))).port .u0).phase = .drain := by decide +kernel

/-- A leg that places its closing STOP, with nobody waiting and with U1 waiting. -/
def closingLeg : State :=
  retime (also (fun r => { r with legs := [{ legOf .s0 with state := .ended }] }) (onPlain .drain (.closing none)))
def handover : State :=
  retime ((closingLeg.updSeg .s0 fun c => { c with waiters := [.port .u1] }).updPort .u1 fun r =>
    { r with
      phase := .awaitGrant, isOpen := true, snapshot := some ⟨0, plain⟩, sclHeld := true, hold := some 30,
      legs := [{ legOf .s0 with state := .claiming }] })

theorem meets_stopPlaced : LegAt closingLeg .u0 .s0 (.closing none) ∧ TimersLaw closingLeg
    ∧ (closingLeg.seg .s0).cond = .owned ∧ (closingLeg.seg .s0).waiters = [] ∧ Uncontended closingLeg :=
  ⟨⟨rfl, rfl, rfl⟩, timersLaw_retime _, rfl, rfl, uncontended_of (by decide +kernel)⟩

theorem meets_stopPlaced_handover : LegAt handover .u0 .s0 (.closing none) ∧ TimersLaw handover
    ∧ (handover.seg .s0).cond = .owned ∧ (handover.seg .s0).waiters = [.port .u1]
    ∧ (handover.seg .s0).pendingDisable = false ∧ (∀ h, h ≠ .s0 → (handover.seg h).waiters = [])
    ∧ (∀ r, (handover.port r).addrWait = none) ∧ (handover.port .u0).phase ≠ .awaitGrant
    ∧ (handover.port .u1).phase = .awaitGrant ∧ claimingSegs handover .u1 = [.s0] :=
  ⟨⟨rfl, rfl, rfl⟩, timersLaw_retime _, rfl, rfl, rfl, forSegs (by decide +kernel), forPorts (by decide +kernel),
    by decide +kernel, rfl, rfl⟩

theorem test_stopPlaced_hands_the_segment_over :
    ((run (.stopPlaced .s0) handover).seg .s0).owner = some (.port .u1)
      ∧ ((run (.stopPlaced .s0) handover).port .u1).phase = .awaitTarget := by decide +kernel

/-- MGMT waiting at the closing STOP, with U1 behind it. -/
def mgmtHandover : State := retime { handover.updSeg .s0 (fun c => { c with waiters := [.mgmt] }) with
  ports := closingLeg.ports, segResets := [⟨.s0, .u1, 0x07#8⟩] }

theorem meets_stopPlaced_mgmt : LegAt mgmtHandover .u0 .s0 (.closing none) ∧ TimersLaw mgmtHandover
    ∧ (mgmtHandover.seg .s0).cond = .owned ∧ (mgmtHandover.seg .s0).waiters = [.mgmt]
    ∧ (mgmtHandover.seg .s0).pendingDisable = false ∧ (∀ h, h ≠ .s0 → (mgmtHandover.seg h).waiters = [])
    ∧ ∀ r, (mgmtHandover.port r).addrWait = none ∧ (mgmtHandover.port r).phase ≠ .awaitGrant :=
  ⟨⟨rfl, rfl, rfl⟩, timersLaw_retime _, rfl, rfl, rfl, forSegs (by decide +kernel), forPorts (by decide +kernel)⟩

theorem test_stopPlaced_begins_the_recovery_of_mgmt :
    ((run (.stopPlaced .s0) mgmtHandover).seg .s0).cond = .recovering
      ∧ ((run (.stopPlaced .s0) mgmtHandover).seg .s0).owner = some .mgmt
      ∧ (run (.stopPlaced .s0) mgmtHandover).segResets = [⟨.s0, .u1, 0x07#8⟩]
      ∧ (run (.stopPlaced .s0) mgmtHandover).port .u0 = leftSegment mgmtHandover .u0 .s0 := by decide +kernel

/-- U1 owns S0; U0, granted S1 below none, waits for S2 alone of a set of S1 and S2, or MGMT waits for it. -/
def pair : Entry := { fan with segs := ⟨false, true, true, false⟩ }
def waitingFor (f : SegState → SegState) : State :=
  retime ((owned .s1 (.addressing .waitFresh) (also (fun r => { r with
    phase := .awaitGrant, isOpen := true, snapshot := some ⟨3, pair⟩, sclHeld := true, hold := some 30,
    legs := [legOf .s1, { legOf .s2 with state := .claiming }] }) base)).updSeg .s2 fun c =>
      f { c with waiters := [.port .u0] })
def heldByU1 (c : SegState) : SegState :=
  { c with owner := some (.port .u1), cond := .owned, activity := some (.closing none) }
def lastAttempt (c : SegState) : SegState := { c with cond := .recovering, attempts := 2 }

theorem meets_waitsAlone : ∀ s ∈ [waitingFor heldByU1, waitingFor lastAttempt],
    (s.port .u0).phase = .awaitGrant ∧ (s.seg .s2).waiters = [.port .u0]
      ∧ (∀ h ∈ Seg.list, h ≠ .s2 → (s.seg h).waiters = [])
      ∧ (∀ q ∈ [Port.u0, .u1], (s.port q).addrWait = none) ∧ (s.port .u1).phase ≠ .awaitGrant
      ∧ (∀ h ∈ Seg.list, legActive s .u0 h = true → owns s .u0 h = true ∧ h ≠ .s2
        ∧ (s.seg h).activity = some (.addressing .waitFresh))
      ∧ claimingSegs s .u0 = [.s2] ∧ (s.seg .s2).pendingDisable = false
      ∧ ((s.seg .s2).cond = .owned ∨ (s.seg .s2).cond = .recovering) := by decide +kernel

/-- The same, S1's leg ADDRESSING. -/
def granting (o : Opening) : State :=
  retime ((waitingFor heldByU1).updSeg .s1 fun c => { c with activity := some (.addressing o) })

theorem meets_targetAck_below_a_claim : LegAt (granting .placed) .u0 .s1 (.addressing .placed)
    ∧ ((granting .placed).port .u0).phase = .awaitGrant ∧ ((granting .placed).port .u0).sclHeld = true
    ∧ TimersLaw (granting .placed) ∧ legActive (granting .placed) .u0 .s1 = true :=
  ⟨⟨rfl, rfl, rfl⟩, rfl, rfl, timersLaw_retime _, rfl⟩

theorem meets_holdExpired_below_a_claim (o : Opening) : WaitsAlone (granting o) .u0 .s2 []
    ∧ ((granting o).port .u0).hold.isSome = true ∧ TimersLaw (granting o) ∧ ((granting o).seg .s2).refuses = false
    ∧ ((granting o).seg .s2).free = false ∧ legActive (granting o) .u0 .s1 = true ∧ (granting o).run = .running :=
  ⟨⟨rfl, rfl, nofun, forSegs ⟨fun _ => rfl, fun _ => rfl, fun h => absurd rfl h, fun _ => rfl⟩, forPorts ⟨rfl, rfl⟩,
      forPorts ⟨fun h => absurd rfl h, fun _ => nofun⟩,
      forSegs ⟨nofun, fun _ => ⟨rfl, nofun, nofun⟩, nofun, nofun⟩⟩,
    rfl, timersLaw_retime _, rfl, rfl, rfl, rfl⟩

theorem test_below_a_claim :
    ((run (.targetAck .s1 .nack) (granting .placed)).port .u0).phase = .awaitGrant
      ∧ ((run (.holdExpired .u0) (granting .placed)).seg .s1).activity = some (.closing none)
      ∧ ((run (.holdExpired .u0) (granting .waitFresh)).seg .s1).owner = none
      ∧ ((run (.holdExpired .u0) (granting .placed)).seg .s2).waiters = [] := by decide +kernel

/-- MGMT waiting for S2. -/
def mgmtWaits (f : SegState → SegState) : State :=
  retime { base.updSeg .s2 (fun c => f { c with waiters := [.mgmt] }) with segResets := [⟨.s2, .u0, 0x07#8⟩] }

theorem meets_mgmtWaits : ∀ s ∈ [mgmtWaits heldByU1, mgmtWaits lastAttempt],
    s.run = .running ∧ (∀ h ∈ Seg.list, (s.seg h).waiters = if h = .s2 then [.mgmt] else [])
      ∧ (∀ q ∈ [Port.u0, .u1], (s.port q).addrWait = none ∧ (s.port q).phase ≠ .awaitGrant)
      ∧ s.segResets = [⟨.s2, .u0, 0x07#8⟩] ∧ (s.seg .s2).pendingDisable = false
      ∧ (s.seg .s2).owner ≠ some .mgmt ∧ (s.seg .s2).faults < 255 := by decide +kernel

/-- A frame on S2 at the head of the Command Queue, or a COMMIT of U0 that takes S2 out of service. -/
def disabling (s : State) : State := frame .segmentDisable [0x02#8] s
def committingOut (s : State) : State :=
  { frame .commit [] s with
    session := some ⟨.u0, { image with params := { image.params with
      segs := image.params.segs.set .s2 { image.params.segs.get .s2 with service := .outOfService } } }⟩ }

/-- A LOAD-BANK of U0 at the head of the Command Queue, of a valid bank whose image takes S2 out of service. -/
def imageOut : Image :=
  { image with params := { image.params with
    segs := image.params.segs.set .s2 { image.params.segs.get .s2 with service := .outOfService } } }
def loadingOut (s : State) : State :=
  { frame .loadBank [0x00#8] s with store := { s.store with
    banks := ⟨⟨imageOut.bytes, newHeader imageOut 2, false⟩, BankCells.unwritten⟩ } }

theorem meets_waitersRefused_by_a_load : HeadFrame (loadingOut (waitingFor heldByU1)) .u0 .loadBank 0x07#8
      [bankCode .bankA] []
    ∧ HeadFrame (loadingOut (mgmtWaits heldByU1)) .u0 .loadBank 0x07#8 [bankCode .bankA] []
    ∧ (loadingOut (waitingFor heldByU1)).session = none ∧ (loadingOut (waitingFor heldByU1)).store.phase = .idle
    ∧ bankValid 0#2 ((loadingOut (waitingFor heldByU1)).store.banks.get .bankA) = true
    ∧ ((imageFieldsOf imageOut.bytes).toImage.params.segs.get .s2).service = .outOfService
    ∧ HeadFrame (committingOut (mgmtWaits heldByU1)) .u0 .commit 0x07#8 [] []
    ∧ (committingOut (mgmtWaits heldByU1)).session = some ⟨.u0, imageOut⟩ ∧ validate 0#2 imageOut.fields = none :=
  ⟨headFrame_of ⟨rfl, rfl, rfl, rfl⟩, headFrame_of ⟨rfl, rfl, rfl, rfl⟩, rfl, rfl,
    bankValid_of (by decide) (by decide +kernel), by decide +kernel, headFrame_of ⟨rfl, rfl, rfl, rfl⟩, rfl,
    by decide +kernel⟩

theorem test_a_load_refuses_the_waiters :
    ((loadImage .bankA 2 imageOut (waitingFor heldByU1)).port .u0).phase = .drain
      ∧ ((loadImage .bankA 2 imageOut (mgmtWaits heldByU1)).port .u0).responses.map (·.status) = [.segDisabled]
      ∧ ((run .commit (committingOut (mgmtWaits heldByU1))).port .u0).responses.map (·.status) = [.segDisabled, .ok] := by
  decide +kernel

theorem meets_waitersRefused : HeadFrame (disabling (waitingFor heldByU1)) .u0 .segmentDisable 0x07#8
      [byteOf (segNumber .s2)] []
    ∧ HeadFrame (committingOut (waitingFor heldByU1)) .u0 .commit 0x07#8 [] []
    ∧ HeadFrame (disabling (mgmtWaits heldByU1)) .u0 .segmentDisable 0x07#8 [byteOf (segNumber .s2)] []
    ∧ ((committingOut (waitingFor heldByU1)).session.any fun e => e.owner == .u0
      && (validate 0#2 e.staging.fields).isNone
      && (e.staging.params.segs.get .s2).service == .outOfService) = true :=
  ⟨headFrame_of ⟨rfl, rfl, rfl, rfl⟩, headFrame_of ⟨rfl, rfl, rfl, rfl⟩, headFrame_of ⟨rfl, rfl, rfl, rfl⟩,
    by decide +kernel⟩

theorem test_a_refused_waiter_gives_up_its_segments :
    (∀ s ∈ [run (.recoveryAttemptEnd .s2 ⟨true, false⟩) (waitingFor lastAttempt),
        run (.clockLimitExpiry .s2) (waitingFor lastAttempt), run .segmentDisable (disabling (waitingFor heldByU1)),
        run .commit (committingOut (waitingFor heldByU1))],
      (s.port .u0).phase = .drain ∧ (s.seg .s2).waiters = [] ∧ (s.seg .s1).owner = none)
      ∧ ((run .segmentDisable (disabling (mgmtWaits heldByU1))).port .u0).responses.map (·.status)
        = [.segDisabled, .ok] := by decide +kernel

theorem test_a_recovery_grants_its_waiter :
    ((run (.recoveryAttemptEnd .s2 ⟨true, true⟩) (waitingFor lastAttempt)).port .u0).phase = .awaitTarget
      ∧ ((run (.recoveryAttemptEnd .s2 ⟨true, true⟩) (waitingFor lastAttempt)).seg .s2).owner = some (.port .u0)
      ∧ ((run (.recoveryAttemptEnd .s2 ⟨true, true⟩) (mgmtWaits lastAttempt)).seg .s2).owner = some .mgmt
      ∧ ((run (.recoveryAttemptEnd .s2 ⟨true, true⟩) (mgmtWaits lastAttempt)).seg .s2).attempts = 0 := by decide +kernel

/-- U1's leg on S0 closes; U0 waits for S0 and has S1 still to claim. -/
def twoClaims (f : SegState → SegState) : State :=
  retime (((also (fun r => { r with
    phase := .awaitGrant, isOpen := true, snapshot := some ⟨3, fan⟩, sclHeld := true, hold := some 30,
    legs := [{ legOf .s0 with state := .claiming }, { legOf .s1 with state := .claiming }] }) base).updSeg .s0 fun c =>
      heldByU1 { c with waiters := [.port .u0] }).updSeg .s1 f)

theorem meets_twoClaims (f : SegState → SegState) (hf : (f (base.seg .s1)).waiters = [])
    (ho : (f (base.seg .s1)).owner ≠ some (.port .u0)) : LegAt (twoClaims f) .u1 .s0 (.closing none)
    ∧ ((twoClaims f).seg .s0).cond = .owned ∧ ((twoClaims f).seg .s0).pendingDisable = false
    ∧ ((twoClaims f).seg .s1).waiters = [] ∧ TimersLaw (twoClaims f)
    ∧ ((twoClaims f).port .u0).phase = .awaitGrant ∧ ((twoClaims f).seg .s0).waiters = [.port .u0]
    ∧ (∀ q, ((twoClaims f).port q).addrWait = none) ∧ ((twoClaims f).port .u1).phase ≠ .awaitGrant
    ∧ claimingSegs (twoClaims f) .u0 = [.s0, .s1] ∧ owns (twoClaims f) .u0 .s1 = false
    ∧ ∀ h, legActive (twoClaims f) .u0 h = false :=
  ⟨⟨rfl, rfl, rfl⟩, rfl, rfl, hf, timersLaw_retime _, rfl, rfl, forPorts ⟨rfl, rfl⟩, nofun, rfl,
    beq_eq_false_iff_ne.mpr ho, forSegs ⟨rfl, rfl, rfl, rfl⟩⟩

theorem test_the_second_claim :
    let t (f : SegState → SegState) := run (.stopPlaced .s0) (twoClaims f)
    ((t id).port .u0).phase = .awaitTarget ∧ ((t id).seg .s1).owner = some (.port .u0)
      ∧ ((t fun c => { c with cond := .recovering }).port .u0).phase = .awaitGrant
      ∧ ((t fun c => { c with cond := .recovering }).seg .s1).waiters = [.port .u0]
      ∧ ((t fun c => { c with cond := .faulted }).port .u0).phase = .drain
      ∧ ((t fun c => { c with cond := .faulted }).seg .s0).owner = none := by decide +kernel

theorem abortMet_target {s : State} {p : Port} {g : Seg} {o : Opening} {sn : Snapshot}
    (h : (s.port p).addrWait = none ∧ legActive s p g = true ∧ (s.port p).phase = .awaitTarget)
    (hs : (s.port p).snapshot = some sn) (hl : ∀ h, legActive s p h = true → sn.entry.segs.get h = true) :
    AbortMet s p g (.addressing o) :=
  ⟨h.1, h.2.1, .inl ⟨h.2.2, fun sn' e => by cases hs.symm.trans e; exact hl⟩⟩

/-- The same address on a SHARED segment, with retries made. -/
def contending (n : Nat) : State :=
  retime ((also (fun r => { r with legs := [{ legOf .s0 with retries := n }] })
    (awaiting (.addressing .placed))).updSeg .s0 fun c => { c with mode := .shared })

theorem meets_arbLoss (n : Nat) : LegAt (contending n) .u0 .s0 (.addressing .placed)
    ∧ ((contending n).seg .s0).mode = .shared
    ∧ AbortMet (contending n) .u0 .s0 (.addressing .placed)
    ∧ Uncontended (contending n) ∧ TimersLaw (contending n) :=
  ⟨⟨rfl, rfl, rfl⟩, rfl, abortMet_target ⟨rfl, rfl, rfl⟩ rfl (forSegs ⟨fun _ => rfl, nofun, nofun, nofun⟩),
    uncontended_of ⟨fun g h => by cases g <;> rfl, fun p h => by cases p <;> exact ⟨rfl, nofun⟩⟩, timersLaw_retime _⟩

theorem test_arbLoss_retries_twice : ((run (.arbLoss .s0) (contending 1)).seg .s0).owner = some (.port .u0)
    ∧ ((run (.arbLoss .s0) (contending 2)).seg .s0).owner = none := by decide +kernel

/-- A SHARED segment that nobody owns, with its quiet timer. -/
def watched : State :=
  retime (base.updSeg .s3 fun c => { c with mode := .shared, cond := .foreign, lines := ⟨false, true⟩ })

theorem meets_foreignConditions : watched.run = .running ∧ (watched.seg .s3).watched = true
    ∧ (watched.seg .s3).owner ≠ some .mgmt ∧ Uncontended watched ∧ TimersLaw watched
    ∧ (watched.seg .s3).quiet.isSome = true :=
  ⟨rfl, by decide +kernel, by decide +kernel, uncontended_of (by decide +kernel), timersLaw_retime _, by decide +kernel⟩

/-- A SHARED segment whose owner, U0 or MGMT, waits for the other controller. -/
def watchedOwned : State :=
  retime ((awaiting (.addressing .waitFresh)).updSeg .s0 fun c =>
    { c with mode := .shared, foreignBusy := true, lines := ⟨false, true⟩ })
def watchedMgmt : State :=
  retime { base.updSeg .s3 (fun c =>
    { c with mode := .shared, cond := .owned, owner := some .mgmt, foreignBusy := true, lines := ⟨false, true⟩ }) with
    segResets := [⟨.s3, .u0, 0x07#8⟩] }

theorem meets_foreignConditions_owned : (watchedOwned.seg .s0).watched = true
    ∧ (watchedOwned.seg .s0).quiet.isSome = true ∧ (watchedOwned.seg .s0).owner = some (.port .u0)
    ∧ (watchedOwned.seg .s0).activity = some (.addressing .waitFresh)
    ∧ (watchedMgmt.seg .s3).watched = true ∧ (watchedMgmt.seg .s3).quiet.isSome = true
    ∧ (watchedMgmt.seg .s3).owner = some .mgmt ∧ watchedOwned.run = .running ∧ watchedMgmt.run = .running := by
  decide +kernel

theorem meets_foreignConditions_owned_settled : Settled watchedOwned ∧ Settled watchedMgmt
    ∧ TimersLaw watchedOwned ∧ TimersLaw watchedMgmt ∧ AbortMet watchedOwned .u0 .s0 (.addressing .waitFresh) :=
  ⟨by unfold Settled; decide +kernel, by unfold Settled; decide +kernel, timersLaw_retime _, timersLaw_retime _,
    abortMet_target ⟨rfl, rfl, rfl⟩ rfl (forSegs ⟨fun _ => rfl, nofun, nofun, nofun⟩)⟩

theorem test_a_line_found_low :
    ((run (.quietTimerExpiry .s0 ⟨true, false⟩) watchedOwned).port .u0).phase = .drain
      ∧ ((run (.quietTimerExpiry .s0 ⟨true, false⟩) watchedOwned).seg .s0).cond = .recovering
      ∧ ((run (.quietTimerExpiry .s3 ⟨true, false⟩) watchedMgmt).seg .s3).owner = some .mgmt
      ∧ (run (.quietTimerExpiry .s3 ⟨true, false⟩) watchedMgmt).notices = watchedMgmt.notices := by decide +kernel

/-- An IDLE watched segment, its lines high, and an OWNED one whose leg waits, its SCL high. -/
def watchedIdle : State := retime (base.updSeg .s3 fun c => { c with mode := .shared })
def watchedWaiting (busy : Bool) : State :=
  retime ((awaiting (.addressing .waitFresh)).updSeg .s0 fun c =>
    { c with mode := .shared, foreignBusy := busy, lines := ⟨true, !busy⟩ })

theorem meets_legOpen_shared (lines : Lines) (_ : lines.bothHigh = false) :
    LegAt watchedOwned .u0 .s0 (.addressing .waitFresh) ∧ (watchedOwned.seg .s0).mode = .shared
      ∧ (watchedOwned.seg .s0).foreignBusy = true ∧ LegAt (watchedWaiting false) .u0 .s0 (.addressing .waitFresh)
      ∧ ((watchedWaiting false).seg .s0).mode = .shared ∧ ((watchedWaiting false).seg .s0).foreignBusy = false
      ∧ ((watchedWaiting false).seg .s0).cond = .owned ∧ TimersLaw (watchedWaiting false) :=
  ⟨⟨rfl, rfl, rfl⟩, rfl, rfl, ⟨rfl, rfl, rfl⟩, rfl, rfl, rfl, timersLaw_retime _⟩

theorem test_legOpen_shared :
    ((run (.legOpen .s0 ⟨true, true⟩) watchedOwned).seg .s0).activity = some (.addressing .waitFresh)
      ∧ ((run (.legOpen .s0 ⟨true, false⟩) (watchedWaiting false)).seg .s0).quiet = some 12
      ∧ (run (.legOpen .s0 ⟨true, false⟩) (watchedWaiting false)).notices = base.notices := by decide +kernel

theorem meets_foreignEdges : (∀ k, ∃ c, ForeignEdge watchedIdle .s3 k c) ∧ (∀ k, ∃ c, ForeignEdge (watchedWaiting false) .s0 k c)
    ∧ watchedIdle.run = .running ∧ (watchedIdle.seg .s3).watched = true ∧ ((watchedWaiting false).seg .s0).watched = true
    ∧ ((watchedWaiting true).seg .s0).watched = true ∧ ((watchedWaiting true).seg .s0).lines.scl = true
    ∧ TimersLaw watchedIdle ∧ TimersLaw (watchedWaiting false) :=
  ⟨fun k => by cases k <;> exact ⟨_, .inl rfl, by first | exact ⟨rfl, rfl⟩ | exact .inl ⟨rfl, fun _ => rfl⟩⟩,
    fun k => by cases k <;> exact ⟨_, .inr rfl, by first | exact ⟨rfl, rfl⟩ | exact .inl ⟨rfl, fun _ => rfl⟩⟩, rfl,
    by decide +kernel,
    by decide +kernel, by decide +kernel, rfl, timersLaw_retime _, timersLaw_retime _⟩

/-- A SHARED segment just enabled with SCL low, unowned and with a leg that waits. -/
def newlyWatched : State :=
  retime (base.updSeg .s3 fun c => { c with mode := .shared, newWatch := true, lines := ⟨false, true⟩ })
def newlyWatchedLeg : State :=
  retime ((awaiting (.addressing .waitFresh)).updSeg .s0 fun c =>
    { c with mode := .shared, newWatch := true, lines := ⟨false, true⟩, clock := none })

theorem meets_firstEdge : ForeignEdge newlyWatched .s3 .sclEdge (.segmentLineEdge .s3 .scl true)
    ∧ ForeignEdge newlyWatchedLeg .s0 .sclEdge (.segmentLineEdge .s0 .scl true)
    ∧ newlyWatched.run = .running ∧ (newlyWatched.seg .s3).watched = true ∧ (newlyWatchedLeg.seg .s0).watched = true
    ∧ Uncontended newlyWatched ∧ TimersLaw newlyWatched ∧ TimersLaw newlyWatchedLeg :=
  ⟨⟨.inl rfl, .inr ⟨rfl, rfl, rfl, rfl⟩⟩, ⟨.inr rfl, .inr ⟨rfl, rfl, rfl, rfl⟩⟩, rfl, by decide +kernel, by decide +kernel,
    uncontended_of (by decide +kernel), timersLaw_retime _, timersLaw_retime _⟩

/-- R121: enabled with SCL low, a SHARED segment is FOREIGN at its next SCL edge, a rise as well as a fall, and only the first rise counts. -/
theorem test_the_next_edge_after_an_enable :
    let out : State := { (frame .segmentEnable [0x03#8] base).updSeg .s3 (fun c =>
        { c with cond := .disabled, lines := ⟨false, true⟩ }) with
      working := { image with params := { image.params with segs := image.params.segs.set .s3 ⟨.shared, .fast, .inService⟩ } } }
    let s := run .segmentEnable out
    let rise (t : State) := run (.segmentLineEdge .s3 .scl true) t
    (s.seg .s3).cond = .idle ∧ (s.seg .s3).quiet = some 12 ∧ ((rise s).seg .s3).cond = .foreign
      ∧ ((run (.segmentLineEdge .s3 .scl false) s).seg .s3).cond = .foreign
      ∧ ((run (.foreignStart .s3 .sclEdge) s).seg .s3) = ((rise s).seg .s3)
      ∧ ((rise (run (.foreignStop .s3) (rise s))).seg .s3).cond = .idle
      ∧ ((run (.segmentLineEdge .s0 .scl true) newlyWatchedLeg).seg .s0).foreignBusy = true := by decide +kernel

theorem test_a_foreign_start_of_edges :
    ((run (.segmentLineEdge .s3 .sda false) watchedIdle).seg .s3).cond = .foreign
      ∧ ((run (.segmentLineEdge .s3 .scl false) watchedIdle).seg .s3).cond = .foreign
      ∧ ((run (.segmentLineEdge .s3 .scl false) watchedIdle).seg .s3).quiet.isSome = true
      ∧ ((run (.segmentLineEdge .s0 .scl false) (watchedWaiting false)).seg .s0).foreignBusy = true
      ∧ ((run (.segmentLineEdge .s0 .sda false) (watchedWaiting false)).seg .s0).foreignBusy = true
      ∧ ((run (.segmentLineEdge .s2 .scl false) watchedIdle).seg .s2).cond = .idle := by decide +kernel

theorem test_a_foreign_stop_of_edges :
    ((run (.segmentLineEdge .s0 .sda true) (watchedWaiting true)).seg .s0).foreignBusy = false
      ∧ ((run (.segmentLineEdge .s3 .sda true) (run (.segmentLineEdge .s3 .sda false) watchedIdle)).seg .s3).cond = .idle
      ∧ ((run (.segmentLineEdge .s3 .sda true) watched).seg .s3).cond = .foreign
      ∧ ((run (.segmentLineEdge .s3 .sda true) watchedMgmt).seg .s3).cond = .owned
      ∧ ((run (.segmentLineEdge .s3 .sda true) (run (.segmentLineEdge .s3 .sda false)
        (run (.segmentLineEdge .s3 .scl true) watchedMgmt))).seg .s3).cond = .recovering := by decide +kernel

/-- The activities at which the single leg of U0 is taken from it. -/
theorem meets_clockLimit : LegAt (awaiting (.addressing .placed)) .u0 .s0 (.addressing .placed)
    ∧ ((awaiting (.addressing .placed)).seg .s0).clock.isSome = true
    ∧ AbortMet (awaiting (.addressing .placed)) .u0 .s0 (.addressing .placed)
    ∧ AbortMet (forwarding true) .u0 .s1 (.writing 0x05#8 true)
    ∧ AbortMet (confirming none) .u0 .s2 (.writing 0x10#8 true)
    ∧ AbortMet fetching .u0 .s0 (.reading .data)
    ∧ AbortMet closingLeg .u0 .s0 (.closing none) :=
  ⟨⟨rfl, rfl, rfl⟩, rfl, abortMet_target ⟨rfl, rfl, rfl⟩ rfl (forSegs ⟨fun _ => rfl, nofun, nofun, nofun⟩),
    ⟨rfl, rfl, rfl, _, rfl, nofun⟩,
    ⟨rfl, rfl, rfl, _, rfl, fun _ => ⟨rfl, fun l h => by rw [List.mem_singleton.mp h]; rfl⟩⟩,
    ⟨rfl, rfl, rfl⟩, rfl, nofun⟩

/-- A leg lost to a fan-out address or byte: the other leg still to answer, or PAUSED; and one below a claim that waits. -/
theorem meets_clockLimit_of_several (a : Activity) : AbortMet (acquiring a) .u0 .s0 (.addressing .placed)
    ∧ AbortMet fanning .u0 .s0 (.writing 0x05#8 true) ∧ AbortMet fanningLast .u0 .s0 (.writing 0x05#8 true)
    ∧ AbortMet (granting .placed) .u0 .s1 (.addressing .placed) ∧ AbortMet (granting .waitFresh) .u0 .s1 (.addressing .waitFresh)
    ∧ Settled fanning ∧ Settled (granting .placed) ∧ Settled (granting .waitFresh)
    ∧ othersPaused fanning .u0 .s0 = false ∧ othersPaused fanningLast .u0 .s0 = true :=
  ⟨abortMet_target ⟨rfl, rfl, rfl⟩ rfl (forSegs ⟨fun _ => rfl, fun _ => rfl, nofun, nofun⟩),
    ⟨rfl, rfl, rfl, _, rfl, nofun⟩, ⟨rfl, rfl, rfl, _, rfl, nofun⟩,
    ⟨rfl, rfl, .inr ⟨rfl, .s2, by decide +kernel, by decide, by decide +kernel⟩⟩,
    ⟨rfl, rfl, .inr ⟨rfl, .s2, by decide +kernel, by decide, by decide +kernel⟩⟩, by unfold Settled; decide +kernel,
    by unfold Settled; decide +kernel, by unfold Settled; decide +kernel, by decide +kernel, by decide +kernel⟩

theorem test_an_abort_counts_as_a_nack :
    let c := Instr.clockLimitExpiry .s0
    ((run c (acquiring .paused)).port .u0).phase = .write ∧ ((run c (acquiring .paused)).port .u0).ackOut = some .nack
      ∧ ((run c (acquiring (.addressing .placed))).port .u0).phase = .awaitTarget
      ∧ ((run c fanning).port .u0).inFlight = some ⟨0x05#8, true, true, .answer⟩
      ∧ ((run c fanningLast).port .u0).ackOut = some .nack ∧ ((run c fanningLast).port .u0).phase = .write
      ∧ ((run (.clockLimitExpiry .s1) (granting .placed)).port .u0).phase = .awaitGrant := by decide +kernel

/-- A byte that a repeated START confirmed is lost, with an address byte waiting. -/
theorem meets_clockLimit_with_an_early_address (e : EarlyAddr) : LegAt (confirming (some e)) .u0 .s2 (.writing 0x10#8 true)
    ∧ ((confirming (some e)).seg .s2).cond = .owned ∧ ((confirming (some e)).seg .s2).clock.isSome = true
    ∧ (∀ h, owns (confirming (some e)) .u0 h = true → h = .s2)
    ∧ ∀ h, legActive (confirming (some e)) .u0 h = true ↔ h = .s2 :=
  ⟨⟨rfl, rfl, rfl⟩, rfl, rfl, forSegs ⟨nofun, nofun, fun _ => rfl, nofun⟩,
    forSegs ⟨⟨nofun, nofun⟩, ⟨nofun, nofun⟩, ⟨fun _ => rfl, fun _ => rfl⟩, ⟨nofun, nofun⟩⟩⟩

/-- Arbitration lost on a SHARED segment at a data byte and at a closing STOP, with nobody waiting, U1 waiting, or MGMT. -/
def onShared (g : Seg) (s : State) : State := retime (s.updSeg g fun c => { c with mode := .shared })
def mgmtAfter (s : State) : State :=
  { s.updSeg .s0 (fun c => { c with waiters := [.mgmt] }) with segResets := [⟨.s0, .u1, 0x07#8⟩] }

theorem meets_arbLoss_of_data_and_stop : LegAt (onShared .s1 (forwarding false)) .u0 .s1 (.writing 0x05#8 false)
    ∧ ((onShared .s1 (forwarding false)).seg .s1).mode = .shared
    ∧ AbortMet (onShared .s1 (forwarding false)) .u0 .s1 (.writing 0x05#8 false)
    ∧ Settled (onShared .s1 (forwarding false)) ∧ TimersLaw (onShared .s1 (forwarding false))
    ∧ LegAt (onShared .s0 closingLeg) .u0 .s0 (.closing none) ∧ AbortMet (onShared .s0 closingLeg) .u0 .s0 (.closing none)
    ∧ Settled (onShared .s0 closingLeg) ∧ TimersLaw (onShared .s0 closingLeg)
    ∧ LegAt (onShared .s2 fetchingCheck) .u0 .s2 (.reading .check)
    ∧ AbortMet (onShared .s2 fetchingCheck) .u0 .s2 (.reading .check) :=
  ⟨⟨rfl, rfl, rfl⟩, rfl, ⟨rfl, rfl, rfl, _, rfl, nofun⟩, by unfold Settled; decide +kernel, timersLaw_retime _,
    ⟨rfl, rfl, rfl⟩, ⟨rfl, nofun⟩, by unfold Settled; decide +kernel, timersLaw_retime _, ⟨rfl, rfl, rfl⟩, rfl, rfl, rfl⟩

theorem meets_arbLoss_of_an_early_address (e : EarlyAddr) (c : State)
    (_ : c = (confirming (some e)).updSeg .s2 fun x => { x with mode := .shared, activity := some (.writing 0x10#8 false) }) :
    LegAt c .u0 .s2 (.writing 0x10#8 false) ∧ (c.seg .s2).mode = .shared ∧ (c.port .u0).earlyAddr = some e := by
  subst c
  exact ⟨⟨rfl, rfl, rfl⟩, rfl, rfl⟩

/-- R115: where no bit is the part's to leave high. -/
theorem meets_arbLoss_of_nothing : LegAt (onShared .s1 (forwarding true)) .u0 .s1 (.writing 0x05#8 true)
    ∧ LegAt (onShared .s0 fetching) .u0 .s0 (.reading .data) ∧ LegAt (onShared .s0 (awaiting .paused)) .u0 .s0 .paused
    ∧ LegAt watchedOwned .u0 .s0 (.addressing .waitFresh)
    ∧ LegAt (awaiting (.addressing .placed)) .u0 .s0 (.addressing .placed)
    ∧ ((awaiting (.addressing .placed)).seg .s0).mode = .exclusive :=
  ⟨⟨rfl, rfl, rfl⟩, ⟨rfl, rfl, rfl⟩, ⟨rfl, rfl, rfl⟩, ⟨rfl, rfl, rfl⟩, ⟨rfl, rfl, rfl⟩, rfl⟩

theorem meets_arbLoss_with_waiters : LegAt (onShared .s0 handover) .u0 .s0 (.closing none)
    ∧ AbortMet (onShared .s0 handover) .u0 .s0 (.closing none) ∧ Settled (onShared .s0 handover)
    ∧ ((onShared .s0 handover).seg .s0).waiters = [.port .u1] ∧ ((onShared .s0 handover).port .u1).phase = .awaitGrant
    ∧ claimingSegs (onShared .s0 handover) .u1 = [.s0] ∧ Settled (onShared .s0 (mgmtAfter closingLeg))
    ∧ AbortMet (onShared .s0 (mgmtAfter closingLeg)) .u0 .s0 (.closing none)
    ∧ ((onShared .s0 (mgmtAfter closingLeg)).seg .s0).waiters = [.mgmt] :=
  ⟨⟨rfl, rfl, rfl⟩, ⟨rfl, nofun⟩, by unfold Settled; decide +kernel, rfl, rfl, by decide +kernel,
    by unfold Settled; decide +kernel, ⟨rfl, nofun⟩, rfl⟩

theorem test_arbLoss_of_data_and_stop :
    ((run (.arbLoss .s1) (onShared .s1 (forwarding false))).port .u0).phase = .drain
      ∧ ((run (.arbLoss .s1) (onShared .s1 (forwarding true))).port .u0).phase = .write
      ∧ ((run (.arbLoss .s0) (onShared .s0 fetching)).port .u0).phase = .read
      ∧ ((run (.arbLoss .s2) (onShared .s2 fetchingCheck)).port .u0).phase = .drain
      ∧ ((run (.arbLoss .s0) (onShared .s0 closingLeg)).port .u0).legs = []
      ∧ ((run (.arbLoss .s0) (onShared .s0 handover)).seg .s0).owner = some (.port .u1)
      ∧ ((run (.arbLoss .s0) (onShared .s0 handover)).port .u1).phase = .awaitTarget
      ∧ ((run (.arbLoss .s0) (onShared .s0 (mgmtAfter closingLeg))).seg .s0).owner = some .mgmt := by decide +kernel

/-- A segment recovering after failed attempts, with no owner or under MGMT. -/
def recovering (owner : Option Claimant) (n : Nat) : State :=
  retime { base.updSeg .s2 (fun c => { c with cond := .recovering, owner := owner, attempts := n }) with
    segResets := if owner = none then [] else [⟨.s2, .u0, 0x07#8⟩] }

/-- At each number of failed attempts, with no owner and under MGMT. -/
theorem meets_recoveryAttempt (n : Nat) (w : Option Claimant) (_ : w = none ∨ w = some .mgmt) :
    (recovering w n).run = .running ∧ ((recovering w n).seg .s2).attempts = n
      ∧ ((recovering w n).seg .s2).cond = .recovering ∧ ((recovering w n).seg .s2).owner = w
      ∧ ((recovering (some .mgmt) n).segResets.find? fun x => x.seg == .s2) = some ⟨.s2, .u0, 0x07#8⟩
      ∧ Uncontended (recovering w n) ∧ TimersLaw (recovering w n) ∧ disableDue .s2 (recovering w n) = false :=
  ⟨rfl, rfl, rfl, rfl, rfl,
    uncontended_of ⟨fun g h => by cases g <;> rfl, fun p h => by cases p <;> exact ⟨rfl, nofun⟩⟩, timersLaw_retime _, rfl⟩

theorem test_an_attempt_under_mgmt :
    let t (c : Instr) (n : Nat) := run c (recovering (some .mgmt) n)
    let ends (high : Bool) := Instr.recoveryAttemptEnd .s2 ⟨true, high⟩
    (∀ n ∈ [0, 1, 2], ((t (ends true) n).port .u0).responses = [⟨.ok, 0x07#8, [0x02#8, byteOf (n + 1)]⟩])
      ∧ (∀ c ∈ [ends false, .clockLimitExpiry .s2], ((t c 1).seg .s2).attempts = 2
        ∧ ((t c 1).seg .s2).owner = some .mgmt ∧ (t c 1).segResets = [⟨.s2, .u0, 0x07#8⟩]
        ∧ ((t c 2).port .u0).responses = [⟨.recoveryFailed, 0x07#8, [0x02#8, 0x01#8]⟩]) := by decide +kernel

theorem meets_recoveryAttempt_with_a_disable : HeadFrame (disabling (recovering none 2)) .u0 .segmentDisable 0x07#8
      [byteOf (segNumber .s2)] []
    ∧ ((disabling (recovering none 2)).seg .s2).pendingDisable = false
    ∧ (∀ q, legActive (disabling (recovering none 2)) q .s2 = false)
    ∧ ∀ s ∈ [recovering none 2, recovering (some .mgmt) 2, waitingFor lastAttempt, mgmtWaits lastAttempt],
      disableDue .s2 s = false :=
  ⟨headFrame_of ⟨rfl, rfl, rfl, rfl⟩, rfl, forPorts ⟨rfl, rfl⟩, by decide +kernel⟩

theorem test_a_final_check_and_a_disable_in_either_order : ∀ l ∈ [(⟨true, true⟩ : Lines), ⟨true, false⟩],
    let s := disabling (waitingFor lastAttempt)
    let t := run .segmentDisable (run (.recoveryAttemptEnd .s2 l) s)
    t = run (.recoveryAttemptEnd .s2 l) (run .segmentDisable s)
      ∧ (t.seg .s2).cond = (if l.bothHigh then .disabled else .faulted) ∧ (t.port .u0).phase = .drain
      ∧ (t.port .u0).responses.map (·.payload) = [[0x02#8, condCode .recovering, 0x01#8]] := by decide +kernel

theorem test_the_third_attempt_faults :
    ((run (.recoveryAttemptEnd .s2 ⟨true, false⟩) (recovering none 1)).seg .s2).cond = .recovering
      ∧ ((run (.recoveryAttemptEnd .s2 ⟨true, false⟩) (recovering none 2)).seg .s2).cond = .faulted
      ∧ ((run (.recoveryAttemptEnd .s2 ⟨true, true⟩) (recovering none 2)).seg .s2).cond = .idle := by decide +kernel

/-! ### The executor -/

/-- Every command but RESTART meets `HeadFrame` from U0, whatever its payload. -/
theorem meets_headFrame (c : Command) (payload : List Byte) : HeadFrame (frame c payload base) .u0 c 0x07#8 payload [] :=
  headFrame_of ⟨rfl, rfl, rfl, rfl⟩

theorem meets_headFrame_read :
    HeadFrame { base with cmdQueue := [.frame .u1 .identify 0x07#8 []] } .u1 .identify 0x07#8 [] [] :=
  ⟨rfl, rfl, rfl, .inr ⟨rfl, by decide⟩⟩

theorem meets_errorEntryAndPrivilege :
    ({ base with cmdQueue := [.error .u0 .badCheck 0x07#8] } : State).cmdQueue = [.error .u0 .badCheck 0x07#8]
      ∧ base.working.params.priv.get .u1 = .read
      ∧ (Command.saveBank ∉ [Command.identify, .getStatus, .readEntry, .readParams, .takeNotices]) := by decide

/-- A session of U0, or of U1, on an image. -/
def editing (p : Port) (i : Image) (s : State) : State := { s with session := some ⟨p, i⟩, lease := some 5 }

theorem meets_editSession : (editing .u1 image base).session = some ⟨.u1, image⟩ ∧ (editing .u1 image base).lease.isSome = true
    ∧ (editing .u1 image base).session.map (·.owner) ≠ some .u0 ∧ base.session = none := by decide +kernel

/-- A command of U0 while U0, U1 or nobody holds the session. -/
theorem meets_sessionCommands (c : Command) (payload : List Byte) (q : Port) (i : Image) :
    HeadFrame (editing q i (frame c payload base)) .u0 c 0x07#8 payload []
      ∧ (editing q i (frame c payload base)).session = some ⟨q, i⟩ ∧ (frame c payload base).session = none
      ∧ Uncontended (editing q i (frame c payload base)) :=
  ⟨headFrame_of ⟨rfl, rfl, rfl, rfl⟩, rfl, rfl,
    uncontended_of ⟨fun g h => by cases g <;> rfl, fun p h => by cases p <;> exact ⟨rfl, nofun⟩⟩⟩

theorem meets_abandonThenOpen : HeadFrame
      (editing .u0 image { base with cmdQueue := [.frame .u0 .abandon 0x07#8 [], .frame .u0 .openEdit 0x08#8 []] })
      .u0 .abandon 0x07#8 [] [.frame .u0 .openEdit 0x08#8 []]
    ∧ (run .abandon (editing .u0 image
      { base with cmdQueue := [.frame .u0 .abandon 0x07#8 [], .frame .u0 .openEdit 0x08#8 []] })).cmdQueue
      = [.frame .u0 .openEdit 0x08#8 []] := ⟨headFrame_of ⟨rfl, rfl, rfl, rfl⟩, by decide +kernel⟩

theorem test_takeNotices_at_the_bounds :
    ((run .takeNotices (frame .takeNotices [0x04#8] base)).notices = [])
      ∧ ((run .takeNotices (frame .takeNotices [0x05#8] base)).notices ≠ [])
      ∧ ((run .takeNotices (frame .takeNotices [0x00#8] base)).notices ≠ []) := by decide +kernel

theorem test_dropEntry_at_the_bounds :
    ((run .dropEntry (editing .u0 image (frame .dropEntry [0x1F#8] base))).port .u0).responses = [⟨.ok, 0x07#8, []⟩]
      ∧ ((run .dropEntry (editing .u0 image (frame .dropEntry [0x20#8] base))).port .u0).responses
        = [⟨.badArg, 0x07#8, [0x01#8]⟩] := by decide +kernel

theorem meets_stagingEdits :
    (entryStep (entryFieldsOf (0x00#8 :: (slotBytes (some plain)).drop 1))).isSome = true
      ∧ entryStep (entryFieldsOf (slotBytes (some plain))) = none ∧ paramIdOf 0x77#8 = none
      ∧ (paramIdOf 0x02#8).any (fun i => (setParam Params.default i 0x00#8 0x09#8).isNone) = true
      ∧ (paramIdOf 0x02#8).any (fun i => (setParam Params.default i 0x00#8 0x01#8).isSome) = true := by decide +kernel

/-- The image with an entry that collides with slot 0's in slot 9, and with one that fails a check of its own. -/
def colliding : Image := { image with slots := image.slots.set 9 (some plain) }
def backwards : Image := { image with slots := image.slots.set 9 (some { plain with vaddr := 0x60#7, window := some ⟨2#8, 1#8⟩ }) }
def badLimits : Image := { image with params := { image.params with holdLimit := 12, clockLimit := 12 } }

theorem test_dropping_the_lower_of_two_colliding_entries :
    validate base.strap colliding.fields = some (.dupAddress, some 9)
      ∧ validate base.strap { colliding with slots := colliding.slots.set 0 none }.fields = none := by decide +kernel

theorem test_the_order_of_validation :
    validate base.strap backwards.fields = some (.windowOrder, some 9)
      ∧ validate base.strap { backwards with params := badLimits.params }.fields = some (.windowOrder, some 9)
      ∧ validate base.strap badLimits.fields = some (.limitOrder, none)
      ∧ validate base.strap image.fields = none := by decide +kernel

theorem test_parameters_at_the_bounds :
    let ok (i : ParamId) (hi lo : Byte) := (setParam Params.default i hi lo).isSome
    ok .holdLimit 0#8 1#8 = false ∧ ok .holdLimit 0#8 2#8 = true ∧ ok .holdLimit 0#8 250#8 = true
      ∧ ok .holdLimit 0#8 251#8 = false ∧ ok .stallLimit 0x03#8 0xE8#8 = true ∧ ok .stallLimit 0x03#8 0xE9#8 = false
      ∧ ok .mgmt 1#8 0x07#8 = false ∧ ok .mgmt 1#8 0x08#8 = true ∧ ok .mgmt 1#8 0x77#8 = true
      ∧ ok .mgmt 1#8 0x78#8 = false := by decide +kernel

theorem meets_commit : validate base.strap image.fields = none
    ∧ validate base.strap ({ image with slots := image.slots.set 9 (some plain) } : Image).fields
      = some (.dupAddress, some 9) := by decide +kernel

theorem meets_loadBank : twoBanks.store.phase = .idle ∧ twoBanks.session = none ∧ Settled twoBanks
    ∧ TimersLaw (retime twoBanks) ∧ bankValid base.strap (base.store.banks.get .bankA) = false :=
  ⟨rfl, rfl, by unfold Settled; decide +kernel, timersLaw_retime _, by decide +kernel⟩

/-- A COMMIT, or a LOAD-BANK, of an image that keeps every segment in service, while U0 waits for S2. -/
def committing : State := editing .u0 image (frame .commit [] (waitingFor heldByU1))
def loading : State := { frame .loadBank [0x00#8] (waitingFor heldByU1) with store := twoBanks.store }

theorem meets_replacement_with_a_waiter : HeadFrame committing .u0 .commit 0x07#8 [] [] ∧ Settled committing
    ∧ committing.session = some ⟨.u0, image⟩ ∧ HeadFrame loading .u0 .loadBank 0x07#8 [0x00#8] [] ∧ Settled loading
    ∧ (∀ g, (image.params.segs.get g).service = .inService)
    ∧ (∀ g, ((imageFieldsOf image.bytes).toImage.params.segs.get g).service = .inService)
    ∧ (loading.seg .s2).waiters = [.port .u0] :=
  ⟨headFrame_of ⟨rfl, rfl, rfl, rfl⟩, by unfold Settled; decide +kernel, rfl, headFrame_of ⟨rfl, rfl, rfl, rfl⟩,
    by unfold Settled; decide +kernel, forSegs (by decide +kernel), forSegs (by decide +kernel), rfl⟩

theorem test_a_waiter_stays_at_a_replacement :
    ((run .commit committing).seg .s2).waiters = [.port .u0] ∧ ((loadImage .bankA 2 image loading).seg .s2).waiters = [.port .u0]
      ∧ (run .commit committing).origin = .edited ∧ (loadImage .bankA 2 image loading).origin = .bank .bankA 2 := by
  decide +kernel

theorem rejections_of {b : Bank} {i : Image} {n : Nat} {why : Reason} {slot : Option Nat}
    (hg : 1 ≤ n % 4294967296 ∧ n % 4294967296 ≤ 0xFFFFFFFE) (hv : validate 0#2 (imageFieldsOf i.bytes) = some (why, slot)) :
    rejections 0#2 b ⟨i.bytes, newHeader i n, false⟩
      = [(.bankRejected, none, some (.bank b), slot, (reasonCode why).setWidth 16)] := by
  unfold rejections Header.good newHeader
  simp [hv]
  exact hg

/-- Two banks whose headers are good and whose images fail. -/
theorem meets_resetLoads_rejected :
    rejections 0#2 .bankA ⟨colliding.bytes, newHeader colliding 2, false⟩
        = [(.bankRejected, none, some (.bank .bankA), some 9, (reasonCode .dupAddress).setWidth 16)]
      ∧ rejections 0#2 .bankB ⟨badLimits.bytes, newHeader badLimits 3, false⟩
        = [(.bankRejected, none, some (.bank .bankB), none, (reasonCode .limitOrder).setWidth 16)] :=
  ⟨rejections_of (by decide) (by decide +kernel), rejections_of (by decide) (by decide +kernel)⟩

theorem test_bank_arguments_at_the_bounds :
    ((run .saveBank (frame .saveBank [0x01#8] base)).store.phase = .erasing)
      ∧ ((run .saveBank (frame .saveBank [0x02#8] base)).port .u0).responses = [⟨.badArg, 0x07#8, [0x01#8]⟩]
      ∧ ((run .saveBank (frame .saveBank [0x01#8] (storing .save .header))).port .u0).responses
        = [⟨.storeBusy, 0x07#8, []⟩] := by decide +kernel

theorem test_generations_at_the_bound :
    let s (n : Nat) : State := { base with store := { base.store with records := ⟨⟨true, some n, false⟩, ⟨false, none, false⟩⟩ } }
    ((run .saveBank (frame .saveBank [0x01#8] (s 0xFFFFFFFD))).store.newGeneration = some 0xFFFFFFFE)
      ∧ ((run .saveBank (frame .saveBank [0x01#8] (s 0xFFFFFFFE))).store.phase = .idle) := by decide +kernel

theorem meets_storeOperationsBegin : (locked.store.records.get .bankA).protected_ = true
    ∧ (base.store.records.get .bankA).protected_ = false ∧ (base.store.records.get .bankA).valid = false := by decide

/-- Bank A VALID, and a PROTECT-BANK of it at the head of the Command Queue. -/
def protecting : State :=
  frame .protectBank [0x00#8] { twoBanks with store := { twoBanks.store with
    records := ⟨⟨true, some 2, false⟩, ⟨true, some 3, false⟩⟩ } }

theorem meets_protectBank : HeadFrame protecting .u0 .protectBank 0x07#8 [0x00#8] []
    ∧ protecting.store.phase = .idle ∧ (protecting.store.records.get .bankA).valid = true :=
  ⟨headFrame_of ⟨rfl, rfl, rfl, rfl⟩, rfl, rfl⟩

theorem test_protectBank_begins : (run .protectBank protecting).store.phase = .cellWrite := by decide +kernel

/-- A SAVE in HEADER, its image written. -/
def saved : State :=
  { storing .save .header with store := { (storing .save .header).store with
      banks := ⟨⟨image.bytes, Header.erased, false⟩, BankCells.unwritten⟩ } }

theorem meets_savedBank : saved.run = .running ∧ saved.store.op = some ⟨.save, .bankA, .u0, 0x07#8⟩
    ∧ saved.store.buffer = some image ∧ saved.store.newGeneration = some 1 ∧ saved.store.phase = .header
    ∧ (saved.store.banks.get .bankA).image = image.bytes ∧ image.slots.length = 32
    ∧ validate saved.strap image.fields = none := ⟨rfl, rfl, rfl, rfl, rfl, rfl, rfl, by decide +kernel⟩

theorem meets_storeCompletions : (storing .save .verifying).run = .running
    ∧ (storing .save .verifying).store.op = some ⟨.save, .bankA, .u0, 0x07#8⟩
    ∧ (storing .save .verifying).store.buffer = some image ∧ (storing .save .verifying).store.newGeneration = some 1
    ∧ (storing .save .verifying).store.phase = .verifying ∧ (storing .protect .cellWrite).store.phase = .cellWrite :=
  ⟨rfl, rfl, rfl, rfl, rfl, rfl⟩

theorem meets_segmentCommands (c : Command) (payload : List Byte) : Settled (frame c payload base)
    ∧ TimersLaw (retime (frame c payload base)) ∧ ((frame c payload base).seg .s0).owner = none
    ∧ ((frame c payload base).seg .s0).cond = .idle :=
  ⟨rfl, timersLaw_retime _, rfl, rfl⟩

/-- SEGMENT-RESET of a segment that U1 owns, with U0 waiting for it, and with MGMT waiting. -/
theorem meets_segmentReset_with_a_waiter :
    (∀ s ∈ [frame .segmentReset [0x02#8] (waitingFor heldByU1), frame .segmentReset [0x02#8] (mgmtWaits heldByU1)],
      micro s = none ∧ (s.seg .s2).owner = some (.port .u1) ∧ (s.seg .s2).pendingDisable = false
        ∧ (s.seg .s2).cond = .owned)
      ∧ Claimant.mgmt ∈ ((mgmtWaits heldByU1).seg .s2).waiters
      ∧ Claimant.mgmt ∉ ((waitingFor heldByU1).seg .s2).waiters := by decide +kernel

theorem test_segmentReset_with_a_waiter :
    ((run .segmentReset (frame .segmentReset [0x02#8] (waitingFor heldByU1))).seg .s2).waiters = [.port .u0, .mgmt]
      ∧ ((run .segmentReset (frame .segmentReset [0x02#8] (mgmtWaits heldByU1))).port .u0).responses
        = [⟨.segBusy, 0x07#8, [0x02#8]⟩] := by decide +kernel

theorem test_segmentReset_of_a_recovering_segment :
    ((run .segmentReset (retime ((frame .segmentReset [0x03#8] base).updSeg .s3 fun c =>
      { c with cond := .recovering }))).seg .s3).waiters = [.mgmt] := by decide +kernel

/-- A command on S3 in each of the states the segment commands tell apart. -/
theorem meets_segmentCommands_by_state (c : Command) (f : SegState → SegState) :
    HeadFrame ((frame c [0x03#8] base).updSeg .s3 f) .u0 c 0x07#8 [byteOf (segNumber .s3)] []
      ∧ ((frame c [0x03#8] base).updSeg .s3 f).seg .s3 = f (base.seg .s3) :=
  ⟨headFrame_of ⟨rfl, rfl, rfl, rfl⟩, rfl⟩

theorem test_segmentReset_by_state :
    let answer (f : SegState → SegState) :=
      ((run .segmentReset (retime ((frame .segmentReset [0x03#8] base).updSeg .s3 f))).port .u0).responses
    answer (fun c => { c with owner := some .mgmt, cond := .recovering }) = [⟨.segBusy, 0x07#8, [0x03#8]⟩]
      ∧ answer (fun c => { c with cond := .disabled }) = [⟨.segDisabled, 0x07#8, [0x03#8]⟩]
      ∧ answer (fun c => { c with cond := .faulted }) = [] := by decide +kernel

theorem test_segment_arguments_at_the_bounds :
    ((run .segmentDisable (frame .segmentDisable [0x03#8] base)).seg .s3).cond = .disabled
      ∧ ((run .segmentDisable (frame .segmentDisable [0x04#8] base)).port .u0).responses
        = [⟨.badArg, 0x07#8, [0x01#8]⟩] := by decide +kernel

end Sys2Proof.Tests
end

