-- ==== Sys2Proof/Proofs/CheckValues.lean ====
section
/-!
The CRC-8 of R62 and the CRC-16 of R139 as iterates of one shift on the polynomial, and R194's test of a bank header as a statement about its fields.
-/
namespace Sys2Proof.Machine

/-! ### The shifts, by the bit that is shifted out -/

theorem crc8Shift_eq_ite_getLsbD (v : Byte) :
    crc8Shift v = if v.getLsbD 7 then (v <<< 1) ^^^ 0x2F#8 else v <<< 1 := by
  rw [crc8Shift, BitVec.msb_eq_getLsbD_last]

theorem crc16Shift_eq_ite_getLsbD (v : Half) :
    crc16Shift v = if v.getLsbD 15 then (v <<< 1) ^^^ 0x1021#16 else v <<< 1 := by
  rw [crc16Shift, BitVec.msb_eq_getLsbD_last]

theorem crc8Shifts_eq_iterate (n : Nat) (v : Byte) : crc8Shifts n v = crc8Shift^[n] v := by
  induction n generalizing v with
  | zero => rfl
  | succ n ih => rw [crc8Shifts, ih, Function.iterate_succ_apply]

theorem crc16Shifts_eq_iterate (n : Nat) (v : Half) : crc16Shifts n v = crc16Shift^[n] v := by
  induction n generalizing v with
  | zero => rfl
  | succ n ih => rw [crc16Shifts, ih, Function.iterate_succ_apply]

/-! ### A byte taken into a check value -/

/-- R62's eight shifts, each told by bit 7. -/
theorem crc8_eq_iterate (v b : Byte) :
    crc8 v b = Nat.iterate (fun x : Byte => if x.getLsbD 7 then (x <<< 1) ^^^ 0x2F#8 else x <<< 1) 8 (v ^^^ b) := by
  rw [crc8, crc8Shifts_eq_iterate, funext crc8Shift_eq_ite_getLsbD]

/-- R139's place for the byte: the high eight bits, over eight zeros. -/
theorem setWidth_shiftLeft_eq_append_zero (b : Byte) : b.setWidth 16 <<< 8 = b ++ 0x00#8 := by
  rw [BitVec.append_def]
  simp [BitVec.shiftLeftZeroExtend_eq]

/-- R139's eight shifts, each told by bit 15. -/
theorem crc16_eq_iterate (v : Half) (b : Byte) :
    crc16 v b = Nat.iterate (fun x : Half => if x.getLsbD 15 then (x <<< 1) ^^^ 0x1021#16 else x <<< 1) 8
      (v ^^^ (b ++ 0x00#8)) := by
  rw [crc16, crc16Shifts_eq_iterate, funext crc16Shift_eq_ite_getLsbD, setWidth_shiftLeft_eq_append_zero]

/-! ### Headers and banks -/

/-- R139: the generations a header may hold, 1 to 0xFFFFFFFE, leave out just the two ends of the 32 bits. -/
theorem generation_in_range_iff (g : BitVec 32) :
    1 ≤ g.toNat ∧ g.toNat ≤ Config.generationMax ↔ g ≠ 0x00000000#32 ∧ g ≠ 0xFFFFFFFF#32 := by
  rw [Config.generationMax]
  bv_omega

theorem Header.good_iff (h : Header) (image : List Byte) :
    h.good image = true ↔
      h.marker = 0x7E42#16 ∧ h.generation ≠ 0x00000000#32 ∧ h.generation ≠ 0xFFFFFFFF#32
        ∧ h.check = crc16List image := by
  rw [← and_assoc (a := h.generation ≠ _), ← generation_in_range_iff]
  simp only [Header.good, Config.formatMarker, Bool.and_eq_true, beq_iff_eq, decide_eq_true_eq, and_assoc]

/-- R138, R194: an erased header's marker is not the format marker. -/
theorem Header.erased_not_good (image : List Byte) : Header.erased.good image = false := by
  rw [Bool.eq_false_iff, ne_eq, Header.good_iff]
  rintro ⟨hmarker, -⟩
  exact absurd hmarker (by decide)

theorem bankValid_eq_false_of_not_good {strap : BitVec 2} {b : BankCells} (h : b.header.good b.image = false) :
    bankValid strap b = false := by
  rw [bankValid, h, Bool.false_and]

/-! ### The obligation -/

/-- The reference values of R62. -/
theorem crc8_reference : crc8 0xFF#8 0x90#8 = 0x0F#8 ∧ crc8 0xFF#8 0x82#8 = 0xFF#8 := by decide

/-- The reference value of R139, over the nine characters "123456789". -/
theorem crc16List_reference :
    crc16List [0x31#8, 0x32#8, 0x33#8, 0x34#8, 0x35#8, 0x36#8, 0x37#8, 0x38#8, 0x39#8] = 0x29B1#16 := by decide +kernel

/-- Settles O13: the two checks as iterated shifts, their reference values by evaluation, and `Header.good_iff`. -/
theorem checkValue : Obligations.CheckValue := by
  obtain ⟨h90, h82⟩ := crc8_reference
  exact ⟨⟨crc8_eq_iterate, rfl, h90, h82⟩,
    crc16_eq_iterate, fun _ => rfl, crc16List_reference, Header.good_iff, rfl, Header.erased_not_good,
    fun _ _ => bankValid_eq_false_of_not_good⟩

end Sys2Proof.Machine
end

section
/-!
The executor's answer to a frame whose body answers it at once, and the edit session under every command (R125, R135): which command may close it, and
that none changes its owner.
-/
namespace Sys2Proof.Machine

/-! ### A frame answered at its execution (R125, R159, R160) -/

theorem HeadFrame.executing_none {s : State} {p : Port} {c : Command} {tag : Byte} {payload : List Byte}
    {rest : List QEntry} (h : HeadFrame s p c tag payload rest) : s.executing = none := by
  obtain ⟨-, he, -, -⟩ := h
  exact he

/-- A body that answers by a response alone leaves the head entry answered and nothing else changed. -/
theorem HeadFrame.run_respond {s : State} {p : Port} {c : Command} {tag : Byte} {payload : List Byte}
    {rest : List QEntry} (h : HeadFrame s p c tag payload rest) {body : Body} {status : Status} {out : List Byte}
    (hb : body p tag payload (takeHead (.frame p c tag payload) rest s)
      = respond p status tag out (takeHead (.frame p c tag payload) rest s)) :
    whenRunning s (runFrame c body) = answered p status tag out rest s := by
  rw [h.run body, hb, respond_takeHead h.executing_none]

/-- A body that sets the session and the lease and then responds changes those two beside the answer. -/
theorem HeadFrame.run_respond_session {s : State} {p : Port} {c : Command} {tag : Byte} {payload : List Byte}
    {rest : List QEntry} (h : HeadFrame s p c tag payload rest) {body : Body} {status : Status} {out : List Byte}
    {session : Option Session} {lease : Option Nat}
    (hb : body p tag payload (takeHead (.frame p c tag payload) rest s)
      = respond p status tag out { takeHead (.frame p c tag payload) rest s with session := session, lease := lease }) :
    whenRunning s (runFrame c body)
      = { answered p status tag out rest s with session := session, lease := lease } := by
  rw [h.run body, hb]
  exact congrArg (fun t : State => { t with session := session, lease := lease })
    (respond_takeHead h.executing_none p status tag out _ rest)

/-- R160: a command that needs FULL is not permitted to a port with less. -/
theorem permitted_eq_false {s : State} {p : Port} {c : Command} (hc : c.needsFull = true)
    (hp : s.working.params.priv.get p ≠ .full) : permitted s p c = false := by
  unfold permitted
  split
  next hfull => exact absurd hfull hp
  next => rw [hc]; rfl
  next => rfl

/-! ### R125 stage 2 -/

theorem withSession_none {s : State} (h : s.session = none) (p : Port) (tag : Byte) (f : Session → State → State) :
    withSession p tag f s = respond p .noEdit tag [] s := by
  rw [withSession, h]

theorem withSession_other {s : State} {e : Session} (h : s.session = some e) {p : Port} (ho : e.owner ≠ p) (tag : Byte)
    (f : Session → State → State) : withSession p tag f s = respond p .editHeld tag [portByte e.owner] s := by
  rw [withSession, h]
  exact if_neg ho

theorem withSession_owner {s : State} {e : Session} (h : s.session = some e) {p : Port} (ho : e.owner = p) (tag : Byte)
    (f : Session → State → State) : withSession p tag f s = f e s := by
  rw [withSession, h]
  exact if_pos ho

/-- R125 stage 2: the answers of a command that needs the session where there is none, and to a port that is not its owner. -/
theorem HeadFrame.run_withSession_refused {s : State} {p : Port} {c : Command} {tag : Byte} {payload : List Byte}
    {rest : List QEntry} (h : HeadFrame s p c tag payload rest) {body : Body} {f : Session → State → State}
    (hb : ∀ t, body p tag payload t = withSession p tag f t) :
    (s.session = none → whenRunning s (runFrame c body) = answered p .noEdit tag [] rest s)
      ∧ ∀ e, s.session = some e → e.owner ≠ p →
        whenRunning s (runFrame c body) = answered p .editHeld tag [portByte e.owner] rest s :=
  ⟨fun hs => h.run_respond ((hb _).trans (withSession_none (s := takeHead _ rest s) hs p tag f)),
    fun _ hs ho => h.run_respond ((hb _).trans (withSession_other (s := takeHead _ rest s) hs ho tag f))⟩

/-! ### Events of a bus or a timer leave the session as it is -/

theorem BusChange.session_eq {s t : State} (h : BusChange s t) : t.session = s.session := by
  obtain ⟨-, -, -, -, hsession, -, -, -, -⟩ := h.keepsImage
  exact hsession

theorem session_retime (s : State) : (retime s).session = s.session := (busChange_retime s).session_eq

theorem session_finish (s : State) : (finish s).session = s.session := (busChange_finish s).session_eq

theorem session_respond (p : Port) (status : Status) (tag : Byte) (payload : List Byte) (s : State) :
    (respond p status tag payload s).session = s.session := rfl

theorem session_foreignOver (g : Seg) (s : State) : (foreignOver g s).session = s.session := by
  unfold foreignOver
  split <;> rfl

theorem session_quietLow (g : Seg) (s : State) : (quietLow g s).session = s.session := by
  unfold quietLow
  split
  next => exact (BusChange.seq (.note s _ _ _ _ _) (busChange_beginRecovery_none g _)).session_eq
  next p _ => exact (busChange_linesLowAtStart p g s).session_eq
  next => rfl

/-! ### What a property of the session needs of a row and of its body -/

/-- A row on a part that does not run changes nothing. -/
theorem session_whenRunning {P : Option Session → Prop} {s : State} {f : State → State} (hs : P s.session)
    (hf : P (f s).session) : P (whenRunning s f).session := by
  unfold whenRunning
  split
  · exact hf
  · exact hs

/-- A frame is left in the queue, or answered NOT_PERMITTED, or its body runs on a state that differs in its queue and its executor. -/
theorem session_runFrame {P : Option Session → Prop} {c : Command} {body : Body} {s : State} (hs : P s.session)
    (hb : ∀ p tag payload t, t.session = s.session → P (body p tag payload t).session) :
    P (runFrame c body s).session := by
  unfold runFrame
  split
  next p c' tag payload rest _ _ =>
    split
    · show P (if permitted s p c then body p tag payload _ else respond p .notPermitted tag [] _).session
      split
      · exact hb p tag payload _ rfl
      · exact hs
    · exact hs
  next => exact hs

/-- R125 stage 2: the command is refused, or acts on the session it finds open. -/
theorem session_withSession {P : Option Session → Prop} {p : Port} {tag : Byte} {f : Session → State → State} {s : State}
    (hs : P s.session) (hf : ∀ e, s.session = some e → P (f e s).session) : P (withSession p tag f s).session := by
  unfold withSession
  split
  next => exact hs
  next e he =>
    split
    · exact hf e he
    · exact hs

/-- A body that leaves the session as it is. -/
def BodyKeepsSession (body : Body) : Prop := ∀ p tag payload s, (body p tag payload s).session = s.session

/-- An open session with this owner. -/
def OwnedBy (owner : Port) (x : Option Session) : Prop := x.map (·.owner) = some owner

/-- A body that leaves an open session open, with its owner. -/
def BodyKeepsOwner (body : Body) : Prop :=
  ∀ owner p tag payload s, OwnedBy owner s.session → OwnedBy owner (body p tag payload s).session

theorem BodyKeepsSession.keepsOwner {body : Body} (h : BodyKeepsSession body) : BodyKeepsOwner body :=
  fun _ p tag payload s ho => (h p tag payload s).symm ▸ ho

/-- The row of a body that leaves an open session with its owner does so too. -/
theorem BodyKeepsOwner.row {body : Body} (h : BodyKeepsOwner body) {owner : Port} {s : State}
    (hs : OwnedBy owner s.session) (c : Command) : OwnedBy owner (whenRunning s (runFrame c body)).session :=
  session_whenRunning hs
    (session_runFrame hs fun p tag payload t ht => h owner p tag payload t (ht.symm ▸ hs))

/-! ### The bodies of the management commands -/

theorem bodyKeepsSession_withSegment {f : Seg → Body} (h : ∀ g, BodyKeepsSession (f g)) :
    BodyKeepsSession (withSegment f) := by
  intro p tag payload s
  unfold withSegment
  split
  next => rfl
  next g _ => exact h g p tag payload s

theorem bodyKeepsSession_withBank {f : Bank → Body} (h : ∀ b, BodyKeepsSession (f b)) :
    BodyKeepsSession (withBank f) := by
  intro p tag payload s
  unfold withBank
  split
  next => rfl
  next b _ =>
    split
    · exact h b p tag payload s
    · rfl

theorem bodyKeepsSession_readEntry : BodyKeepsSession readEntry := by
  intro p tag payload s
  unfold readEntry
  split
  next => rfl
  next =>
    split
    next => rfl
    next =>
      split
      · exact session_withSession (P := (· = s.session)) rfl fun _ _ => rfl
      · rfl

theorem bodyKeepsSession_readParams : BodyKeepsSession readParams := by
  intro p tag payload s
  unfold readParams
  split
  next => rfl
  next =>
    split
    · exact session_withSession (P := (· = s.session)) rfl fun _ _ => rfl
    · rfl

theorem bodyKeepsSession_takeNotices : BodyKeepsSession takeNotices := by
  intro p tag payload s
  unfold takeNotices
  dsimp only
  split <;> rfl

theorem session_loadImage (b : Bank) (n : Nat) (i : Image) (s : State) : (loadImage b n i s).session = s.session :=
  session_finish (replaceImage i (.bank b n) s)

theorem bodyKeepsSession_loadBank (b : Bank) : BodyKeepsSession (loadBank b) := by
  intro p tag payload s
  unfold loadBank
  split
  · rfl
  · dsimp only
    split
    · rfl
    · rfl
    · rw [session_respond, session_loadImage]
      rfl

theorem bodyKeepsSession_saveBank (b : Bank) : BodyKeepsSession (saveBank b) := by
  intro p tag payload s
  unfold saveBank
  split
  · rfl
  · split <;> rfl

theorem bodyKeepsSession_protectBank (b : Bank) : BodyKeepsSession (protectBank b) := by
  intro p tag payload s
  unfold protectBank
  split <;> rfl

theorem bodyKeepsSession_unprotectBank (svcHigh : Bool) (b : Bank) : BodyKeepsSession (unprotectBank svcHigh b) := by
  intro p tag payload s
  unfold unprotectBank
  split <;> rfl

theorem mgmtHas_eq_false {c : SegState} (h : ¬ mgmtHas c = true) : Claimant.mgmt ∉ c.waiters ∧ c.owner ≠ some .mgmt := by
  simpa [mgmtHas, and_comm] using h

theorem session_startSegReset {g : Seg} {s : State} (hw : Claimant.mgmt ∉ (s.seg g).waiters)
    (ho : (s.seg g).owner ≠ some .mgmt) (p : Port) (tag : Byte) : (startSegReset g p tag s).session = s.session := by
  unfold startSegReset
  rw [session_finish]
  split
  · rfl
  · exact (busChange_claim g .mgmt { s with segResets := s.segResets ++ [⟨g, p, tag⟩] } hw ho).session_eq

theorem bodyKeepsSession_segmentReset (g : Seg) : BodyKeepsSession (segmentReset g) := by
  intro p tag payload s
  unfold segmentReset
  split
  next => rfl
  next hm =>
    obtain ⟨hw, ho⟩ := mgmtHas_eq_false hm
    split
    · rfl
    · exact session_startSegReset hw ho p tag

theorem bodyKeepsSession_segmentDisable (g : Seg) : BodyKeepsSession (segmentDisable g) := by
  intro p tag payload s
  unfold segmentDisable
  split
  · rfl
  · rw [session_respond, session_finish]
    rfl

theorem bodyKeepsSession_segmentEnable (g : Seg) : BodyKeepsSession (segmentEnable g) := by
  intro p tag payload s
  unfold segmentEnable
  split
  · rfl
  · rw [session_respond, session_retime]
    rfl

/-- R126: OPEN-EDIT never takes an open session over. -/
theorem bodyKeepsOwner_openEdit : BodyKeepsOwner openEdit := by
  intro owner p tag payload s ho
  unfold openEdit
  split
  next => exact ho
  next hs => rw [hs] at ho; cases ho

theorem ownedBy_of_session_eq {x : Option Session} {e : Session} (h : x = some e) : OwnedBy e.owner x := by
  rw [h]
  rfl

/-- An edit of the staging image leaves its owner. -/
theorem ownedBy_setStaging {owner : Port} {e : Session} {s : State} (hs : s.session = some e)
    (ho : OwnedBy owner s.session) (i : Image) : OwnedBy owner (setStaging e i s).session := by
  rw [hs] at ho
  exact ho

theorem bodyKeepsOwner_putEntry : BodyKeepsOwner putEntry := by
  intro owner p tag payload s ho
  refine session_withSession ho fun e hs => ?_
  split
  next => exact ho
  next =>
    dsimp only
    split
    next => exact ho
    next => exact ownedBy_setStaging hs ho _

theorem bodyKeepsOwner_dropEntry : BodyKeepsOwner dropEntry := by
  intro owner p tag payload s ho
  refine session_withSession ho fun e hs => ?_
  split
  next => exact ho
  next => exact ownedBy_setStaging hs ho _

theorem bodyKeepsOwner_putParam : BodyKeepsOwner putParam := by
  intro owner p tag payload s ho
  refine session_withSession ho fun e hs => ?_
  split
  next => exact ho
  next =>
    split
    next => exact ho
    next => exact ownedBy_setStaging hs ho _

/-! ### The bus events -/

/-- R123's disable that falls together with a final check leaves the session as it is. -/
theorem session_takeDueDisable (g : Seg) (s : State) : (takeDueDisable g s).session = s.session := by
  unfold takeDueDisable
  split
  · exact session_runFrame (P := (· = s.session)) rfl fun p tag payload t ht =>
      (bodyKeepsSession_withSegment bodyKeepsSession_segmentDisable p tag payload t).trans ht
  · rfl

/-- Every event of a bus or a timer leaves the session as it is. `busChange_exec` says so of states that meet R91's law, with no disable
due; R135 is claimed of every state, so the operations that need that law (`foreignOver`, `quietLow`) go by their own lemmas. -/
theorem after_busEvent_session {c : Instr} (hc : Instr.busEvent c = true) (s : State) :
    After c s fun t => t.session = s.session := by
  cases c <;> try exact absurd hc Bool.false_ne_true
  all_goals refine ⟨_, rfl, session_whenRunning (P := (· = s.session)) rfl ?_⟩
  case start p => exact (busChange_retimed (busChange_startCondition p s)).session_eq
  case repeatedStart p => exact (busChange_retimed (busChange_startCondition p s)).session_eq
  case stop p =>
    split
    · rfl
    · exact (busChange_retimed (busChange_stopCondition p s)).session_eq
  case midByteStop p =>
    split
    · rfl
    · exact (busChange_retimed (busChange_midByteStop p s)).session_eq
  case midByteStart p =>
    split
    · rfl
    · exact (busChange_retimed (busChange_midByteStart p s)).session_eq
  case addressByte p a d => exact (busChange_retimed (busChange_addressByte p a d s)).session_eq
  case writeByte p b =>
    split
    · exact (busChange_retimed (busChange_takeWriteByte p b s)).session_eq
    · rfl
  case drainByte p => split <;> rfl
  case readByteAck p a =>
    split
    · exact (busChange_retimed (busChange_readAnswer p a s)).session_eq
    · rfl
  case mgmtWriteByte p b =>
    split
    · split <;> rfl
    · rfl
  case mgmtReadAck p a =>
    split
    · split <;> rfl
    · rfl
  case holdExpired p =>
    split
    · exact (busChange_finished (busChange_holdExpired p s)).session_eq
    · rfl
  case stall p =>
    split
    · exact (busChange_retimed (busChange_stallExpired p s)).session_eq
    · rfl
  case legOpen g l =>
    split
    · exact (busChange_openFresh _ g l s).session_eq
    · exact (busChange_retimed (busChange_placeAddress _ g _ s)).session_eq
    · rfl
  case targetAck g a =>
    split
    · exact (busChange_retimed (busChange_targetAnswer _ g a s)).session_eq
    · rfl
  case bytePlaced g =>
    split
    · exact (busChange_bytePlaced _ g _ s).session_eq
    · rfl
  case deviceAck g a =>
    split
    · exact (busChange_retimed (busChange_deviceAnswer _ g a s)).session_eq
    · rfl
  case readByteFetched g b =>
    split
    · split
      · exact (busChange_retimed (busChange_byteFetched _ g b s)).session_eq
      · rfl
    · rfl
  case checkByteFetched g b =>
    split
    · split
      · split
        · exact (busChange_retimed (busChange_checkFetched _ g b _ s)).session_eq
        · rfl
      · rfl
    · rfl
  case stopPlaced g =>
    split
    · exact session_finish _
    · rfl
  case arbLoss g =>
    split
    · split
      · split
        · exact (busChange_arbitrationLost _ g _ s).session_eq
        · rfl
      · rfl
    · rfl
  case foreignStart g k =>
    split
    · exact session_retime _
    · rfl
  case foreignStop g =>
    split
    · exact (session_finish _).trans (session_foreignOver g _)
    · rfl
  case clockLimitExpiry g =>
    split
    · exact (busChange_finished (busChange_attemptFailed g s)).session_eq
    · split
      · split
        · exact (busChange_finished (busChange_clockExpired _ g s)).session_eq
        · rfl
      · rfl
  case quietTimerExpiry g l =>
    split
    · split
      · exact (session_finish _).trans (session_foreignOver g _)
      · exact (session_finish _).trans (session_quietLow g _)
    · rfl
  case recoveryAttemptEnd g l =>
    split
    · exact (busChange_finished (busChange_attemptEnded g l _)).session_eq.trans (session_takeDueDisable g s)
    · rfl
  case readAddressAckEnd p =>
    split
    · exact (busChange_retimed (busChange_readRequest p s)).session_eq
    · rfl
  case upstreamSclEdge p => rfl
  case segmentLineEdge g w h =>
    dsimp only
    split
    · exact (session_finish _).trans (session_foreignOver g _)
    · exact session_retime _

/-! ### The commands that may close the session -/

/-- R128, R132, R135, R141, R185: the commands that may close an open session, but for the loss of supply. -/
def mayClose : Instr → Bool
  | .commit | .abandon | .editLapsed | .powerOn _ | .resetLineLow | .resetLineRelease _ | .restart _ => true
  | _ => false

theorem session_note (k : Kind) (p : Option PortPos) (g : Option SegPos) (n : Option Nat) (d : Half) (s : State) :
    (note k p g n d s).session = s.session := (BusChange.note s k p g n d).session_eq

theorem session_loadSelected (cause : ResetCause) (sel : Option (Bank × Nat × Image)) (s : State) :
    (loadSelected cause sel s).session = s.session := by
  unfold loadSelected
  split <;> exact session_note _ _ _ _ _ _

theorem session_noteRejected (b : Bank) (r : BankReading) (s : State) : (noteRejected b r s).session = s.session := by
  unfold noteRejected
  split
  next => exact session_note _ _ _ _ _ _
  next => rfl
  next => rfl

/-- R124, R142: a reset finds the session closed at its load, which opens none. -/
theorem session_resetAll (cause : ResetCause) (pins : ResetPins) (s : State) :
    (resetAll cause pins s).session = none := by
  show (loadSelected cause _ (noteRejected .bankB _ (noteRejected .bankA _ _))).session = none
  rw [session_loadSelected, session_noteRejected, session_noteRejected]
  rfl

/-- An open session that stays with its owner or is closed. -/
def OwnedOrClosed (owner : Port) (x : Option Session) : Prop := OwnedBy owner x ∨ x = none

theorem ownedOrClosed_row {owner : Port} {s : State} (hs : OwnedBy owner s.session) {c : Command} {body : Body}
    (h : ∀ p tag payload t, OwnedBy owner t.session → OwnedOrClosed owner (body p tag payload t).session) :
    OwnedOrClosed owner (whenRunning s (runFrame c body)).session :=
  session_whenRunning (.inl hs)
    (session_runFrame (.inl hs) fun p tag payload t ht => h p tag payload t (ht.symm ▸ hs))

theorem session_commitImage (i : Image) (s : State) : (commitImage i s).session = none := by
  rw [commitImage, session_finish]
  rfl

theorem ownedOrClosed_commit {owner p : Port} {tag : Byte} {payload : List Byte} {s : State}
    (hs : OwnedBy owner s.session) : OwnedOrClosed owner (commit p tag payload s).session :=
  session_withSession (.inl hs) fun e _ => by
    split
    · exact .inl hs
    · rw [session_respond, session_commitImage]
      exact .inr rfl

theorem ownedOrClosed_abandon {owner p : Port} {tag : Byte} {payload : List Byte} {s : State}
    (hs : OwnedBy owner s.session) : OwnedOrClosed owner (abandon p tag payload s).session :=
  session_withSession (.inl hs) fun _ _ => .inr rfl

theorem ownedOrClosed_restart {owner p : Port} {tag : Byte} {payload : List Byte} {pins : ResetPins} {s : State}
    (hs : OwnedBy owner s.session) : OwnedOrClosed owner (restart pins p tag payload s).session := by
  unfold restart
  split
  · exact .inr (session_resetAll .restart pins s)
  · exact .inl hs

theorem after_mayClose_session {c : Instr} (hc : mayClose c = true) {owner : Port} {s : State}
    (hs : OwnedBy owner s.session) : After c s fun t => OwnedOrClosed owner t.session := by
  cases c <;> try exact absurd hc Bool.false_ne_true
  all_goals refine ⟨_, rfl, ?_⟩
  case commit => exact ownedOrClosed_row hs fun _ _ _ _ => ownedOrClosed_commit
  case abandon => exact ownedOrClosed_row hs fun _ _ _ _ => ownedOrClosed_abandon
  case restart pins => exact ownedOrClosed_row hs fun _ _ _ _ => ownedOrClosed_restart
  case editLapsed =>
    refine session_whenRunning (.inl hs) ?_
    split
    · exact .inr (session_note _ _ _ _ _ _)
    · exact .inl hs
  case powerOn pins => exact .inr (session_resetAll .powerOn pins s)
  case resetLineRelease pins =>
    split
    · exact .inr (session_resetAll .resetLine pins s)
    · exact .inl hs
  case resetLineLow =>
    split
    · exact .inl hs
    · exact .inr rfl

/-! ### Every other command keeps the owner -/

theorem session_runError (s : State) : (runError s).session = s.session := by
  unfold runError
  split <;> rfl

/-- R135: a command that may not close the session leaves it open, with its owner. -/
theorem after_owner_kept {c : Instr} (hc : mayClose c = false) (hloss : c ≠ .supplyLoss) {owner : Port} {s : State}
    (hs : OwnedBy owner s.session) : After c s fun t => OwnedBy owner t.session := by
  by_cases hbus : Instr.busEvent c = true
  · obtain ⟨t, ht, hkept⟩ := after_busEvent_session hbus s
    exact ⟨t, ht, show OwnedBy owner t.session from hkept ▸ hs⟩
  cases c <;> try exact absurd hc.symm Bool.false_ne_true
  all_goals try exact absurd rfl hbus
  all_goals refine ⟨_, rfl, ?_⟩
  case supplyLoss => exact absurd rfl hloss
  case errorEntry => exact session_whenRunning hs ((session_runError s).symm ▸ hs)
  case identify =>
    exact BodyKeepsOwner.row (body := fun p tag _ s => respond p .ok tag (identifyPayload s) s)
      (fun _ _ _ _ _ ho => ho) hs .identify
  case getStatus =>
    exact BodyKeepsOwner.row (body := fun p tag _ s => respond p .ok tag (statusPayload s) s)
      (fun _ _ _ _ _ ho => ho) hs .getStatus
  case readEntry => exact bodyKeepsSession_readEntry.keepsOwner.row hs .readEntry
  case readParams => exact bodyKeepsSession_readParams.keepsOwner.row hs .readParams
  case takeNotices => exact bodyKeepsSession_takeNotices.keepsOwner.row hs .takeNotices
  case openEdit => exact bodyKeepsOwner_openEdit.row hs .openEdit
  case putEntry => exact bodyKeepsOwner_putEntry.row hs .putEntry
  case dropEntry => exact bodyKeepsOwner_dropEntry.row hs .dropEntry
  case putParam => exact bodyKeepsOwner_putParam.row hs .putParam
  case loadBank => exact (bodyKeepsSession_withBank bodyKeepsSession_loadBank).keepsOwner.row hs .loadBank
  case saveBank => exact (bodyKeepsSession_withBank bodyKeepsSession_saveBank).keepsOwner.row hs .saveBank
  case protectBank => exact (bodyKeepsSession_withBank bodyKeepsSession_protectBank).keepsOwner.row hs .protectBank
  case unprotectBank svcHigh =>
    exact (bodyKeepsSession_withBank (bodyKeepsSession_unprotectBank svcHigh)).keepsOwner.row hs .unprotectBank
  case segmentReset =>
    exact (bodyKeepsSession_withSegment bodyKeepsSession_segmentReset).keepsOwner.row hs .segmentReset
  case segmentDisable =>
    exact (bodyKeepsSession_withSegment bodyKeepsSession_segmentDisable).keepsOwner.row hs .segmentDisable
  case segmentEnable =>
    exact (bodyKeepsSession_withSegment bodyKeepsSession_segmentEnable).keepsOwner.row hs .segmentEnable
  case verifyingComplete readBack =>
    refine session_whenRunning hs ?_
    split
    · split <;> exact hs
    · exact hs
  all_goals
    refine session_whenRunning hs ?_
    split <;> exact hs

theorem mayClose_iff {c : Instr} : mayClose c = true ↔
    c = .commit ∨ c = .abandon ∨ c = .editLapsed ∨ (∃ pins, c = .powerOn pins) ∨ c = .resetLineLow
      ∨ (∃ pins, c = .resetLineRelease pins) ∨ ∃ pins, c = .restart pins := by
  cases c <;> simp [mayClose]

/-- R135: no command takes a session over. -/
theorem after_owner_kept_or_closed {c : Instr} (hloss : c ≠ .supplyLoss) {owner : Port} {s : State}
    (hs : OwnedBy owner s.session) :
    After c s fun t => OwnedBy owner t.session ∨ (t.session = none ∧ mayClose c = true) := by
  cases hc : mayClose c with
  | false =>
    obtain ⟨t, ht, hkept⟩ := after_owner_kept hc hloss hs
    exact ⟨t, ht, .inl hkept⟩
  | true =>
    obtain ⟨t, ht, hkept | hclosed⟩ := after_mayClose_session hc hs
    · exact ⟨t, ht, .inl hkept⟩
    · exact ⟨t, ht, .inr ⟨hclosed, rfl⟩⟩

/-! ### ABANDON and OPEN-EDIT -/

section
variable {s : State} {p : Port} {tag : Byte} {payload : List Byte} {rest : List QEntry} {e : Session}

theorem exec_abandon_owner (h : HeadFrame s p .abandon tag payload rest) (hs : s.session = some e) (ho : e.owner = p) :
    exec .abandon s = .next { answered p .ok tag [] rest s with session := none, lease := none } := by
  refine congrArg Host.Outcome.next (h.run_respond_session (body := Machine.abandon) ?_)
  exact withSession_owner (s := takeHead _ rest s) hs ho tag _

/-- R126: with no session, OPEN-EDIT opens one on the working image and starts the lease. -/
theorem exec_openEdit_none (h : HeadFrame s p .openEdit tag payload rest) (hs : s.session = none) :
    exec .openEdit s = .next { answered p .ok tag [] rest s with
      session := some ⟨p, s.working⟩, lease := some s.working.params.lease } := by
  refine congrArg Host.Outcome.next (h.run_respond_session (body := openEdit) ?_)
  have hnone : (takeHead (.frame p .openEdit tag payload) rest s).session = none := hs
  rw [openEdit, hnone]
  rfl

end

end Sys2Proof.Machine

namespace Sys2Proof.Machine.EditSession

/-- Settles O52: ABANDON by its three answers, and the owner kept or the session closed under every command. -/
theorem abandon : Obligations.Abandon := by
  refine ⟨fun s p tag payload rest h => ?_, fun s c e hs hloss => ?_⟩
  · obtain ⟨hnone, hother⟩ := h.run_withSession_refused (body := Machine.abandon) fun _ => rfl
    refine ⟨fun e hs ho => exec_abandon_owner h hs ho, fun e hs ho => congrArg Host.Outcome.next (hother e hs ho),
      fun hs => congrArg Host.Outcome.next (hnone hs), fun e hs ho => ?_⟩
    exact ⟨_, exec_abandon_owner h hs ho, fun q tag' payload' rest' hq => exec_openEdit_none hq rfl⟩
  · obtain ⟨t, ht, hkept | ⟨hclosed, hc⟩⟩ := after_owner_kept_or_closed hloss (ownedBy_of_session_eq hs)
    · exact ⟨t, ht, .inl hkept⟩
    · exact ⟨t, ht, .inr ⟨hclosed, mayClose_iff.mp hc⟩⟩

end Sys2Proof.Machine.EditSession
end

section
/-!
The first failure of an image's slots (R14, R15) as a statement about one slot and the entries of the lower-numbered ones, and what an emptied slot
(R130) does to it.
-/
namespace Sys2Proof.Machine

/-! ### The first failure of the slots -/

theorem mem_lowerEntries {slots : List (Option EntryFields)} {n : Nat} {f : EntryFields} :
    f ∈ lowerEntries slots n ↔ ∃ m, m < n ∧ slots[m]? = some (some f) := by
  have hmem : f ∈ lowerEntries slots n ↔ some f ∈ slots.take n := by simp [lowerEntries, List.mem_filterMap]
  rw [hmem, List.mem_iff_getElem?]
  refine exists_congr fun m => ?_
  rw [List.getElem?_take]
  split
  next hlt => simp [hlt]
  next hge => simp [hge]

theorem lowerEntries_zero (slots : List (Option EntryFields)) : lowerEntries slots 0 = [] := rfl

theorem lowerEntries_cons_some (f : EntryFields) (slots : List (Option EntryFields)) (n : Nat) :
    lowerEntries (some f :: slots) (n + 1) = f :: lowerEntries slots n := rfl

/-- R14, R15: a failure of the slots is that of one entry against the entries below it. -/
theorem exists_of_checkSlots_eq_some {mgmt : Option Addr} {why : Reason} {slot : Option Nat} :
    ∀ (slots : List (Option EntryFields)) (n : Nat) (lower : List EntryFields),
      checkSlots mgmt n lower slots = some (why, slot) →
      ∃ i f, slot = some (n + i) ∧ slots[i]? = some (some f)
        ∧ checkEntry mgmt (lower ++ lowerEntries slots i) f = some why
  | [], _, _, h => nomatch h
  | none :: slots, n, lower, h => by
    obtain ⟨i, f, hslot, hi, hf⟩ := exists_of_checkSlots_eq_some slots (n + 1) lower h
    exact ⟨i + 1, f, by rw [hslot]; congr 1; omega, hi, hf⟩
  | some g :: slots, n, lower, h => by
    unfold checkSlots at h
    split at h
    next hg =>
      cases h
      exact ⟨0, g, rfl, rfl, by rw [lowerEntries_zero, List.append_nil]; exact hg⟩
    next =>
      obtain ⟨i, f, hslot, hi, hf⟩ := exists_of_checkSlots_eq_some slots (n + 1) (lower ++ [g]) h
      refine ⟨i + 1, f, by rw [hslot]; congr 1; omega, hi, ?_⟩
      rwa [lowerEntries_cons_some, List.append_cons]

/-- R14, R15: the slots pass when every entry passes against the entries below it. -/
theorem checkSlots_eq_none_iff {mgmt : Option Addr} :
    ∀ (slots : List (Option EntryFields)) (n : Nat) (lower : List EntryFields),
      checkSlots mgmt n lower slots = none ↔
        ∀ i f, slots[i]? = some (some f) → checkEntry mgmt (lower ++ lowerEntries slots i) f = none
  | [], _, _ => ⟨fun _ _ _ h => (nomatch h), fun _ => rfl⟩
  | none :: slots, n, lower => by
    rw [checkSlots, checkSlots_eq_none_iff slots (n + 1) lower]
    constructor
    · rintro h (_ | i) f hi
      · cases hi
      · exact h i f hi
    · exact fun h i f hi => h (i + 1) f hi
  | some g :: slots, n, lower => by
    have ih := checkSlots_eq_none_iff (mgmt := mgmt) slots (n + 1) (lower ++ [g])
    have hcons : ∀ i, lower ++ lowerEntries (some g :: slots) (i + 1) = lower ++ [g] ++ lowerEntries slots i :=
      fun i => by rw [lowerEntries_cons_some, List.append_cons]
    unfold checkSlots
    constructor
    · intro h i f hi
      split at h
      next => cases h
      next hg =>
        cases i with
        | zero =>
          cases hi
          rwa [lowerEntries_zero, List.append_nil]
        | succ i => rw [hcons]; exact ih.mp h i f hi
    · intro h
      have hg := h 0 g rfl
      rw [lowerEntries_zero, List.append_nil] at hg
      rw [hg]
      exact ih.mpr fun i f hi => hcons i ▸ h (i + 1) f hi

/-! ### The checks of one entry that look at other slots -/

/-- R15 step 6 alone looks at the lower-numbered slots, and fewer of them make it fail no more. -/
theorem checkEntry_eq_none_of_subset {mgmt : Option Addr} {lower lower' : List EntryFields} {f : EntryFields}
    (hsub : lower' ⊆ lower) (h : checkEntry mgmt lower f = none) : checkEntry mgmt lower' f = none := by
  unfold checkEntry at h ⊢
  have hany : ¬ lower.any (collides f) = true → ¬ lower'.any (collides f) = true := by
    simp only [List.any_eq_true]
    exact fun hn ⟨g, hg, hc⟩ => hn ⟨g, hsub hg, hc⟩
  split_ifs at h with hout hfield hsegs hwindow hlen hdup hmgmt
  rw [if_neg hout, if_neg hfield, if_neg hsegs, if_neg hwindow, if_neg hlen, if_neg (hany hdup), if_neg hmgmt]

/-- R15 step 6: a DUP_ADDRESS is a collision with a lower-numbered slot. -/
theorem exists_collides_of_dupAddress {mgmt : Option Addr} {lower : List EntryFields} {f : EntryFields}
    (h : checkEntry mgmt lower f = some .dupAddress) : ∃ g ∈ lower, collides f g = true := by
  unfold checkEntry at h
  split_ifs at h with _ _ _ _ _ hany <;> cases h
  exact List.any_eq_true.mp hany

theorem portsIntersect_iff {a b : PerPort Bool} :
    portsIntersect a b = true ↔ ∃ q, a.get q = true ∧ b.get q = true := by
  simp only [portsIntersect, Bool.or_eq_true, Bool.and_eq_true]
  constructor
  · rintro (h | h)
    · exact ⟨.u0, h⟩
    · exact ⟨.u1, h⟩
  · rintro ⟨_ | _, h⟩
    · exact .inl h
    · exact .inr h

/-- R15 step 6 for two entries the part holds. -/
theorem collides_fields_iff {x y : Entry} :
    collides x.fields y.fields = true ↔ x.vaddr = y.vaddr ∧ ∃ q, x.ports.get q = true ∧ y.ports.get q = true := by
  rw [← portsIntersect_iff]
  simp [collides, Entry.fields, and_comm]

/-! ### An emptied slot -/

theorem getElem?_set_none_eq_some_iff {α : Type} {l : List (Option α)} {k i : Nat} {x : α} :
    (l.set k none)[i]? = some (some x) ↔ i ≠ k ∧ l[i]? = some (some x) := by
  rw [List.getElem?_set]
  split
  next hk =>
    subst hk
    simp
  next hk => simp [Ne.symm hk]

/-- The entries below a slot are no more once a slot is emptied. -/
theorem lowerEntries_set_none_subset (slots : List (Option EntryFields)) (k n : Nat) :
    lowerEntries (slots.set k none) n ⊆ lowerEntries slots n := by
  intro f hf
  obtain ⟨m, hlt, hm⟩ := mem_lowerEntries.mp hf
  obtain ⟨-, hm⟩ := getElem?_set_none_eq_some_iff.mp hm
  exact mem_lowerEntries.mpr ⟨m, hlt, hm⟩

theorem checkSlots_set_none {mgmt : Option Addr} {slots : List (Option EntryFields)}
    (h : checkSlots mgmt 0 [] slots = none) (k : Nat) : checkSlots mgmt 0 [] (slots.set k none) = none := by
  rw [checkSlots_eq_none_iff] at h ⊢
  intro i f hi
  obtain ⟨-, hi⟩ := getElem?_set_none_eq_some_iff.mp hi
  exact checkEntry_eq_none_of_subset (lowerEntries_set_none_subset slots k i) (h i f hi)

/-- An image with a slot emptied. -/
def dropSlot (i : Image) (k : Nat) : Image := { i with slots := i.slots.set k none }

theorem fields_dropSlot (i : Image) (k : Nat) :
    (dropSlot i k).fields = ⟨i.params.fields, (i.fields.slots).set k none⟩ := by
  simp [dropSlot, Image.fields, List.map_set]

theorem getElem?_fields_slots {i : Image} {n : Nat} {f : EntryFields} (h : i.fields.slots[n]? = some (some f)) :
    ∃ x, i.slots[n]? = some (some x) ∧ f = x.fields := by
  simpa [Image.fields, eq_comm] using h

theorem validate_eq_none_iff {strap : BitVec 2} {f : ImageFields} :
    validate strap f = none ↔ checkSlots (imageMgmt strap f.params) 0 [] f.slots = none ∧ checkParams f.params = none := by
  unfold validate
  split
  next h => simp [h]
  next h => simp [h]

/-- R14, R16: a failure with a slot is one of the slots. -/
theorem checkSlots_of_validate {strap : BitVec 2} {f : ImageFields} {why : Reason} {n : Nat}
    (h : validate strap f = some (why, some n)) :
    checkSlots (imageMgmt strap f.params) 0 [] f.slots = some (why, some n) := by
  unfold validate at h
  split at h
  next hr => exact hr.trans h
  next =>
    unfold checkParams at h
    split_ifs at h <;> cases h

/-- R130: an image that passes validation passes with a slot emptied. -/
theorem validate_dropSlot {strap : BitVec 2} {i : Image} (h : validate strap i.fields = none) (k : Nat) :
    validate strap (dropSlot i k).fields = none := by
  rw [validate_eq_none_iff] at h
  rw [fields_dropSlot, validate_eq_none_iff]
  obtain ⟨hslots, hparams⟩ := h
  exact ⟨checkSlots_set_none hslots k, hparams⟩

/-- R130: what validation reports of an image with a slot emptied is a failure of another slot, and a collision one between two other slots. -/
theorem failure_dropSlot {strap : BitVec 2} {i : Image} {k n : Nat} {why : Reason}
    (h : validate strap (dropSlot i k).fields = some (why, some n)) :
    n ≠ k ∧ (why = .dupAddress → ∃ m x y, m < n ∧ m ≠ k ∧ i.slots[m]? = some (some x) ∧ i.slots[n]? = some (some y)
      ∧ x.vaddr = y.vaddr ∧ ∃ q, x.ports.get q = true ∧ y.ports.get q = true) := by
  rw [fields_dropSlot] at h
  obtain ⟨n', f, hn, hf, hcheck⟩ := exists_of_checkSlots_eq_some _ _ _ (checkSlots_of_validate h)
  obtain rfl : n = n' := by simpa using hn
  obtain ⟨hnk, hf⟩ := getElem?_set_none_eq_some_iff.mp hf
  refine ⟨hnk, ?_⟩
  rintro rfl
  obtain ⟨g, hg, hcollides⟩ := exists_collides_of_dupAddress hcheck
  obtain ⟨m, hmn, hm⟩ := mem_lowerEntries.mp hg
  obtain ⟨hmk, hm⟩ := getElem?_set_none_eq_some_iff.mp hm
  obtain ⟨x, hx, rfl⟩ := getElem?_fields_slots hm
  obtain ⟨y, hy, rfl⟩ := getElem?_fields_slots hf
  obtain ⟨hvaddr, q, hqy, hqx⟩ := collides_fields_iff.mp hcollides
  exact ⟨m, x, y, hmn, hmk, hx, hy, hvaddr.symm, q, hqx, hqy⟩

/-! ### DROP-ENTRY -/

theorem slotOfByte_of_le {b : Byte} (h : b.toNat ≤ 31) : slotOfByte b = some b.toNat :=
  if_pos (Nat.lt_succ_of_le h)

theorem slotOfByte_of_gt {b : Byte} (h : 31 < b.toNat) : slotOfByte b = none :=
  if_neg (Nat.not_lt.mpr h)

section
variable {s : State} {p : Port} {tag slot : Byte} {rest : List QEntry} {e : Session}

theorem exec_dropEntry_badSlot (h : HeadFrame s p .dropEntry tag [slot] rest) (hs : s.session = some e)
    (ho : e.owner = p) (hslot : 31 < slot.toNat) :
    exec .dropEntry s = .next (answered p .badArg tag [0x01#8] rest s) := by
  refine congrArg Host.Outcome.next (h.run_respond (body := dropEntry) ?_)
  have hbyte : slotOfByte (byteAt [slot] 0) = none := slotOfByte_of_gt hslot
  refine (withSession_owner (s := takeHead _ rest s) hs ho tag _).trans ?_
  rw [hbyte]
  rfl

theorem exec_dropEntry_slot (h : HeadFrame s p .dropEntry tag [slot] rest) (hs : s.session = some e) (ho : e.owner = p)
    (hslot : slot.toNat ≤ 31) :
    exec .dropEntry s = .next { answered p .ok tag [] rest s with
      session := some ⟨p, dropSlot e.staging slot.toNat⟩ } := by
  refine congrArg Host.Outcome.next (h.run_respond_session (body := dropEntry) (lease := s.lease) ?_)
  have hbyte : slotOfByte (byteAt [slot] 0) = some slot.toNat := slotOfByte_of_le hslot
  refine (withSession_owner (s := takeHead _ rest s) hs ho tag _).trans ?_
  rw [hbyte, ← ho]
  rfl

end

end Sys2Proof.Machine

namespace Sys2Proof.Machine.EditSession

/-- Settles O54: DROP-ENTRY by its answers, and validation by the first failure's slot and the entries below it. -/
theorem dropEntry : Obligations.DropEntry := by
  intro s p tag slot rest
  refine ⟨fun hrun he hq hp => ?_, fun h => ?_⟩
  · refine congrArg Host.Outcome.next ((whenRunning_running hrun _).trans ?_)
    exact runFrame_denied he hq (permitted_eq_false rfl hp) _
  obtain ⟨hnone, hother⟩ := h.run_withSession_refused (body := Machine.dropEntry) fun _ => rfl
  refine ⟨fun hs => congrArg Host.Outcome.next (hnone hs), fun e hs =>
    ⟨fun ho => congrArg Host.Outcome.next (hother e hs ho), fun ho hslot => exec_dropEntry_badSlot h hs ho hslot, ?_⟩⟩
  rintro ho hslot _ rfl
  exact ⟨exec_dropEntry_slot h hs ho hslot, fun n hn => List.getElem?_set_ne hn.symm,
    fun hlt => List.getElem?_set_self hlt, fun _ _ => failure_dropSlot, fun hv => validate_dropSlot hv _⟩

end Sys2Proof.Machine.EditSession
end

section
/-!
What a command can do, said once: an inversion of `exec` for the events of a bus or a timer (`Acts`), for the executor's rows (`Row`) and for every
command (`Ran`). The laws that every step keeps are proved of these relations, case by case.
-/
namespace Sys2Proof.Machine

/-! ### The executor's rows -/

/-- What the body of a command does to the state in which its frame executes. -/
inductive BodyActs : Command → Port → Byte → State → State → Prop
  | replied (c : Command) {p : Port} {tag : Byte} (st : Status) (pl : List Byte) (s : State) :
      BodyActs c p tag s (respond p st tag pl s)
  | noticesTaken {p : Port} {tag : Byte} (n : Nat) (pl : List Byte) (s : State) :
      BodyActs .takeNotices p tag s (respond p .ok tag pl { s with notices := s.notices.drop n, lost := 0 })
  | opened {p : Port} {tag : Byte} {s : State} (h : s.session = none) :
      BodyActs .openEdit p tag s
        (respond p .ok tag [] { s with session := some ⟨p, s.working⟩, lease := some s.working.params.lease })
  | edited (c : Command) {p : Port} {tag : Byte} {s : State} {e : Session} (i : Image) (h : s.session = some e)
      (hi : i.slots.length = e.staging.slots.length) : BodyActs c p tag s (respond p .ok tag [] (setStaging e i s))
  | abandoned {p : Port} {tag : Byte} (s : State) : BodyActs .abandon p tag s (respond p .ok tag [] (closeSession s))
  | committed {p : Port} {tag : Byte} {s : State} {e : Session} (h : s.session = some e)
      (hv : validate s.strap e.staging.fields = none) :
      BodyActs .commit p tag s (respond p .ok tag [] (commitImage e.staging s))
  | notLoaded {p : Port} {tag : Byte} (b : Bank) (st : Status) (pl : List Byte) (s : State) :
      BodyActs .loadBank p tag s (respond p st tag pl
        (setRecord b (recordOf (readBank s.strap (s.store.banks.get b)) (s.store.records.get b).protected_) s))
  | loaded {p : Port} {tag : Byte} {b : Bank} {n : Nat} {i : Image} {s : State}
      (hr : readBank s.strap (s.store.banks.get b) = .good n i) :
      BodyActs .loadBank p tag s (respond p .ok tag (bankBytes b n)
        (loadImage b n i
          (setRecord b (recordOf (readBank s.strap (s.store.banks.get b)) (s.store.records.get b).protected_) s)))
  | saveStarted {p : Port} {tag : Byte} {b : Bank} {s : State} (h : s.store.phase = .idle)
      (hb : (s.store.records.get b).protected_ = false) : BodyActs .saveBank p tag s (startSave b p tag s)
  | cellWriteStarted (c : Command) {p : Port} {tag : Byte} {k : StoreKind} {b : Bank} {s : State}
      (h : s.store.phase = .idle) (hk : k ≠ .save) : BodyActs c p tag s (startCellWrite k b p tag s)
  | resetStarted {p : Port} {tag : Byte} {g : Seg} {s : State} (hm : mgmtHas (s.seg g) = false)
      (hd : (s.seg g).cond ≠ .disabled) (hp : (s.seg g).pendingDisable = false) :
      BodyActs .segmentReset p tag s (startSegReset g p tag s)
  | disabled {p : Port} {tag : Byte} {g : Seg} (pl : List Byte) {s : State} (h : (s.seg g).cond ≠ .faulted) :
      BodyActs .segmentDisable p tag s (respond p .ok tag pl (finish (s.updSeg g takeOut)))
  | enabled {p : Port} {tag : Byte} {g : Seg} (pl : List Byte) {s : State} (h : (s.seg g).cond ≠ .faulted) :
      BodyActs .segmentEnable p tag s
        (respond p .ok tag pl (retime (s.updSeg g (putIn (s.working.params.segs.get g)))))
  | restarted {p : Port} {tag : Byte} (pins : ResetPins) {s : State} (h : s.store.phase = .idle) :
      BodyActs .restart p tag s (resetAll .restart pins s)

/-- A body that does what `BodyActs` says of its command. -/
def BodyOf (c : Command) (body : Body) : Prop := ∀ p tag payload s, BodyActs c p tag s (body p tag payload s)

/-- What a row of the executor does (R159, R160): nothing, or the head entry is denied or executed. -/
inductive Row (c : Command) (s : State) : State → Prop
  | same : Row c s s
  | denied {p : Port} {tag : Byte} {payload : List Byte} {rest : List QEntry} (he : s.executing = none)
      (hq : s.cmdQueue = .frame p c tag payload :: rest) : Row c s (answered p .notPermitted tag [] rest s)
  | body {p : Port} {tag : Byte} {payload : List Byte} {rest : List QEntry} {t : State} (he : s.executing = none)
      (hq : s.cmdQueue = .frame p c tag payload :: rest)
      (hb : BodyActs c p tag (takeHead (.frame p c tag payload) rest s) t) : Row c s (freeExecutor t)

theorem row_runFrame {c : Command} {body : Body} (hb : BodyOf c body) (s : State) : Row c s (runFrame c body s) := by
  by_cases h : s.executing = none ∧ ∃ p tag payload rest, s.cmdQueue = .frame p c tag payload :: rest
  · obtain ⟨he, p, tag, payload, rest, hq⟩ := h
    cases hp : permitted s p c with
    | true => rw [runFrame_head he hq hp]; exact .body he hq (hb _ _ _ _)
    | false => rw [runFrame_denied he hq hp]; exact .denied he hq
  · have hs : runFrame c body s = s := by
      unfold runFrame
      split
      next p c' tag payload rest he hq =>
        refine if_neg fun e => h ⟨he, p, tag, payload, rest, ?_⟩
        rw [hq, e]
      next => rfl
    rw [hs]
    exact .same

/-! ### The bodies of the commands -/

theorem bodyActs_withSession {c : Command} {p : Port} {tag : Byte} {f : Session → State → State} {s : State}
    (hf : ∀ e, s.session = some e → BodyActs c p tag s (f e s)) : BodyActs c p tag s (withSession p tag f s) := by
  unfold withSession
  split
  next => exact .replied ..
  next e he =>
    split
    · exact hf e he
    · exact .replied ..

theorem bodyOf_withSegment {c : Command} {f : Seg → Body} (hf : ∀ g, BodyOf c (f g)) : BodyOf c (withSegment f) := by
  intro p tag payload s
  unfold withSegment
  split
  · exact .replied ..
  · exact hf _ p tag payload s

theorem bodyActs_withBank {c : Command} {f : Bank → Body} {p : Port} {tag : Byte} {payload : List Byte} {s : State}
    (hf : ∀ b, s.store.phase = .idle → BodyActs c p tag s (f b p tag payload s)) :
    BodyActs c p tag s (withBank f p tag payload s) := by
  unfold withBank
  split
  · exact .replied ..
  · split
    next h => exact hf _ h
    next => exact .replied ..

theorem bodyOf_readEntry : BodyOf .readEntry readEntry := by
  intro p tag payload s
  unfold readEntry
  split
  · exact .replied ..
  split
  · exact .replied ..
  split
  · exact bodyActs_withSession fun e _ => .replied ..
  · exact .replied ..

theorem bodyOf_readParams : BodyOf .readParams readParams := by
  intro p tag payload s
  unfold readParams
  split
  · exact .replied ..
  split
  · exact bodyActs_withSession fun e _ => .replied ..
  · exact .replied ..

theorem bodyOf_takeNotices : BodyOf .takeNotices takeNotices := by
  intro p tag payload s
  unfold takeNotices
  dsimp only
  split
  · exact .noticesTaken ..
  · exact .replied ..

theorem bodyOf_openEdit : BodyOf .openEdit openEdit := by
  intro p tag payload s
  unfold openEdit
  split
  next => exact .replied ..
  next h => exact .opened h

theorem bodyOf_putEntry : BodyOf .putEntry putEntry := by
  intro p tag payload s
  refine bodyActs_withSession fun e he => ?_
  split
  · exact .replied ..
  dsimp only
  split
  · exact .replied ..
  · exact .edited _ _ he List.length_set

theorem bodyOf_dropEntry : BodyOf .dropEntry dropEntry := by
  intro p tag payload s
  refine bodyActs_withSession fun e he => ?_
  split
  · exact .replied ..
  · exact .edited _ _ he List.length_set

theorem bodyOf_putParam : BodyOf .putParam putParam := by
  intro p tag payload s
  refine bodyActs_withSession fun e he => ?_
  split
  · exact .replied ..
  split
  · exact .replied ..
  · exact .edited _ _ he rfl

theorem bodyOf_commit : BodyOf .commit commit := by
  intro p tag payload s
  refine bodyActs_withSession fun e he => ?_
  split
  next => exact .replied ..
  next hv => exact .committed he hv

theorem bodyOf_abandon : BodyOf .abandon abandon := fun _ _ _ _ =>
  bodyActs_withSession fun _ _ => .abandoned _

theorem bodyOf_loadBank : BodyOf .loadBank (withBank loadBank) := by
  intro p tag payload s
  refine bodyActs_withBank fun b _ => ?_
  unfold loadBank
  split
  · exact .replied ..
  dsimp only
  split
  next => exact .notLoaded ..
  next => exact .notLoaded ..
  next hr => exact .loaded hr

theorem bodyOf_saveBank : BodyOf .saveBank (withBank saveBank) := by
  intro p tag payload s
  refine bodyActs_withBank fun b h => ?_
  unfold saveBank
  split
  next => exact .replied ..
  next hb =>
    split
    · exact .saveStarted h (Bool.eq_false_of_not_eq_true hb)
    · exact .replied ..

theorem bodyOf_protectBank : BodyOf .protectBank (withBank protectBank) := by
  intro p tag payload s
  refine bodyActs_withBank fun b h => ?_
  unfold protectBank
  split
  · exact .cellWriteStarted _ h nofun
  · exact .replied ..

theorem bodyOf_unprotectBank (svcHigh : Bool) : BodyOf .unprotectBank (withBank (unprotectBank svcHigh)) := by
  intro p tag payload s
  refine bodyActs_withBank fun b h => ?_
  unfold unprotectBank
  split
  · exact .cellWriteStarted _ h nofun
  · exact .replied ..

theorem bodyOf_segmentReset : BodyOf .segmentReset (withSegment segmentReset) := by
  refine bodyOf_withSegment fun g p tag payload s => ?_
  unfold segmentReset
  split
  next => exact .replied ..
  next hm =>
    split
    next => exact .replied ..
    next hd =>
      obtain ⟨hd, hp⟩ := not_or.mp hd
      exact .resetStarted (Bool.eq_false_of_not_eq_true hm) hd (Bool.eq_false_of_not_eq_true hp)

theorem bodyOf_segmentDisable : BodyOf .segmentDisable (withSegment segmentDisable) := by
  refine bodyOf_withSegment fun g p tag payload s => ?_
  unfold segmentDisable
  split
  next => exact .replied ..
  next h => exact .disabled _ h

theorem bodyOf_segmentEnable : BodyOf .segmentEnable (withSegment segmentEnable) := by
  refine bodyOf_withSegment fun g p tag payload s => ?_
  unfold segmentEnable
  split
  next => exact .replied ..
  next h => exact .enabled _ h

theorem bodyOf_restart (pins : ResetPins) : BodyOf .restart (restart pins) := by
  intro p tag payload s
  unfold restart
  split
  next h => exact .restarted pins h
  next => exact .replied ..

/-! ### The events of a bus or a timer -/

/-- What a running part does at an event of a bus or a timer that it has a use for, with the guards under which it does it. -/
inductive Acts : Instr → State → State → Prop
  | start (p : Port) (s : State) : Acts (.start p) s (retime (startCondition p s))
  | repeatedStart (p : Port) (s : State) : Acts (.repeatedStart p) s (retime (startCondition p s))
  | stop {p : Port} {s : State} (h : (s.port p).sclHeld = false) : Acts (.stop p) s (retime (stopCondition p s))
  | midByteStop {p : Port} {s : State} (h : (s.port p).sclHeld = false) :
      Acts (.midByteStop p) s (retime (midByteStop p s))
  | midByteStart {p : Port} {s : State} (h : (s.port p).sclHeld = false) :
      Acts (.midByteStart p) s (retime (midByteStart p s))
  | addressByte (p : Port) (a : Addr) (d : Dir) (s : State) : Acts (.addressByte p a d) s (retime (addressByte p a d s))
  | writeByte {p : Port} (b : Byte) {s : State} (h : writeReady (s.port p) = true) :
      Acts (.writeByte p b) s (retime (takeWriteByte p b s))
  | drainWrite {p : Port} {s : State} (h : (s.port p).phase = .drain) :
      Acts (.drainByte p) s (s.updPort p fun r => { r with ackOut := some .nack })
  | drainRead {p : Port} {s : State} (h : (s.port p).phase = .drain) :
      Acts (.drainByte p) s (s.updPort p fun r => { r with sdaByte := some 0xFF#8 })
  | readByteAck {p : Port} (a : Ack) {s : State} (h : (s.port p).phase = .read) (hc : (s.port p).sclHeld = false) :
      Acts (.readByteAck p a) s (retime (readAnswer p a s))
  | readAddressAckEnd {p : Port} {s : State} (h : (s.port p).phase = .read) (hr : (s.port p).readStage = .addressAcked)
      (hc : (s.port p).sclHeld = false) : Acts (.readAddressAckEnd p) s (retime (readRequest p s))
  | mgmtWriteByte {p : Port} (b : Byte) {s : State} {m : Assembler} (h : (s.port p).assembler = some m) :
      Acts (.mgmtWriteByte p b) s
        (s.updPort p fun r => { r with assembler := some (m.take b).2, ackOut := some (m.take b).1 })
  | mgmtReadAck {p : Port} (a : Ack) {s : State} (m : ReadPos) (h : (s.port p).readPos = some m) :
      Acts (.mgmtReadAck p a) s
        (s.updPort p fun r => { r with readPos := some (m.answer a), sdaByte := some (m.answer a).current })
  | upstreamSclEdge (p : Port) (s : State) : Acts (.upstreamSclEdge p) s
      (s.updPort p fun r => mgmtEdge (edgeSeen (restartStall s.working.params.stallLimit r)))
  | holdExpired {p : Port} {s : State} (h : (s.port p).hold.isSome = true) :
      Acts (.holdExpired p) s (finish (holdExpired p s))
  | stall {p : Port} {s : State} (h : (s.port p).stall.isSome = true) : Acts (.stall p) s (retime (stallExpired p s))
  | openPlaced {g : Seg} {l : Lines} {p : Port} {s : State} (ho : owns s p g = true)
      (ha : (s.seg g).activity = some (.addressing .waitFresh)) :
      Acts (.legOpen g l) s (retime (placeAddress p g (fun _ => crc8Start) (sampleLines g l s)))
  | openWaits {g : Seg} {l : Lines} {p : Port} {s : State} (ho : owns s p g = true)
      (ha : (s.seg g).activity = some (.addressing .waitFresh)) : Acts (.legOpen g l) s (retime (sampleLines g l s))
  | openLow {g : Seg} {l : Lines} {p : Port} {s : State} (ho : owns s p g = true)
      (ha : (s.seg g).activity = some (.addressing .waitFresh)) :
      Acts (.legOpen g l) s (finish (linesLowAtStart p g (sampleLines g l s)))
  | openRepeated {g : Seg} (l : Lines) {p : Port} {s : State} (ho : owns s p g = true)
      (ha : (s.seg g).activity = some (.addressing .waitRepeated)) :
      Acts (.legOpen g l) s (retime (placeAddress p g (fun l => l.down) s))
  | targetAck {g : Seg} (a : Ack) {p : Port} {s : State} (ho : owns s p g = true)
      (ha : (s.seg g).activity = some (.addressing .placed)) : Acts (.targetAck g a) s (retime (targetAnswer p g a s))
  | bytePlaced {g : Seg} {p : Port} {b : Byte} {s : State} (ho : owns s p g = true)
      (ha : (s.seg g).activity = some (.writing b false)) : Acts (.bytePlaced g) s (bytePlaced p g b s)
  | deviceAck {g : Seg} (a : Ack) {p : Port} {b : Byte} {s : State} (ho : owns s p g = true)
      (ha : (s.seg g).activity = some (.writing b true)) : Acts (.deviceAck g a) s (retime (deviceAnswer p g a s))
  | readByteFetched {g : Seg} (b : Byte) {p : Port} {s : State} (ho : owns s p g = true)
      (ha : (s.seg g).activity = some (.reading .data)) (hr : (s.port p).readStage = .fetching) :
      Acts (.readByteFetched g b) s (retime (byteFetched p g b s))
  | checkByteFetched {g : Seg} (b : Byte) {p : Port} {l : Leg} {s : State} (ho : owns s p g = true)
      (ha : (s.seg g).activity = some (.reading .check)) (hr : (s.port p).readStage = .fetchingCheck) :
      Acts (.checkByteFetched g b) s (retime (checkFetched p g b l s))
  | stopPlaced {g : Seg} {p : Port} {c : Option Byte} {s : State} (ho : owns s p g = true)
      (ha : (s.seg g).activity = some (.closing c)) :
      Acts (.stopPlaced g) s (finish (release g false (dropEndedLeg p g s)))
  | arbRetried {g : Seg} {p : Port} {s : State} (ho : owns s p g = true)
      (ha : (s.seg g).activity = some (.addressing .placed)) : Acts (.arbLoss g) s (retime (retryAddress p g s))
  | arbLost {g : Seg} {p : Port} {a : Activity} (d : Half) {s : State} (ho : owns s p g = true)
      (ha : (s.seg g).activity = some a) (hh : a.leavesHigh = true) :
      Acts (.arbLoss g) s (finish (loseArbitration p g d s))
  | foreignStart {g : Seg} (k : ForeignKind) {s : State} (h : (s.seg g).watched = true) :
      Acts (.foreignStart g k) s (retime (s.updSeg g (foreignStart k)))
  | foreignStop {g : Seg} {s : State} (h : (s.seg g).watched = true) :
      Acts (.foreignStop g) s (finish (foreignOver g (sampleLines g ⟨true, true⟩ s)))
  | clockRecovering {g : Seg} {s : State} (h : (s.seg g).cond = .recovering) :
      Acts (.clockLimitExpiry g) s (finish (attemptFailed g s))
  | clockExpired {g : Seg} {p : Port} {s : State} (ho : owns s p g = true) (hc : (s.seg g).cond = .owned)
      (hk : (s.seg g).clock.isSome = true) : Acts (.clockLimitExpiry g) s (finish (clockExpired p g s))
  | quietHigh {g : Seg} {l : Lines} {s : State} (hq : (s.seg g).quiet.isSome = true) :
      Acts (.quietTimerExpiry g l) s (finish (foreignOver g (sampleLines g l s)))
  | quietLow {g : Seg} {l : Lines} {s : State} (hq : (s.seg g).quiet.isSome = true) :
      Acts (.quietTimerExpiry g l) s (finish (quietLow g (sampleLines g l s)))
  | recoveryAttemptEnd {g : Seg} (l : Lines) {s u : State} (h : (s.seg g).cond = .recovering)
      (hu : Row .segmentDisable s u) : Acts (.recoveryAttemptEnd g l) s (finish (attemptEnded g l u))
  | stopEdge {g : Seg} {w : Wire} {high : Bool} {s : State} (hw : (s.seg g).watched = true) :
      Acts (.segmentLineEdge g w high) s
        (finish (foreignOver g (s.updSeg g (lineEdge w high s.working.params.clockLimit))))
  | otherEdge (g : Seg) (w : Wire) (high : Bool) (s : State) :
      Acts (.segmentLineEdge g w high) s (retime (s.updSeg g (lineEdge w high s.working.params.clockLimit)))

/-- The port that owns a segment is its owner. -/
theorem owns_of_ownerPort {s : State} {g : Seg} {p : Port} (h : (s.seg g).ownerPort = some p) : owns s p g = true := by
  unfold SegState.ownerPort at h
  unfold owns
  split at h
  next heq => cases h; rw [heq]; exact beq_self_eq_true _
  all_goals cases h

theorem ownerPort_eq {s : State} {g : Seg} {p : Port} : (s.seg g).ownerPort = some p ↔ owns s p g = true := by
  refine ⟨owns_of_ownerPort, fun h => ?_⟩
  unfold SegState.ownerPort
  rw [beq_iff_eq.mp h]

theorem row_takeDueDisable (g : Seg) (s : State) : Row .segmentDisable s (takeDueDisable g s) := by
  unfold takeDueDisable
  split
  · exact row_runFrame bodyOf_segmentDisable s
  · exact .same

/-- A row guarded by the part's running does nothing, or acts on a running part. -/
theorem whenRunning_cases {s t : State} {f : State → State} {P : State → Prop} (h : whenRunning s f = t)
    (hf : s.run = .running → f s = s ∨ P (f s)) : t = s ∨ s.run = .running ∧ P t := by
  subst h
  unfold whenRunning
  split
  next hr => exact (hf hr).imp id fun h => ⟨hr, h⟩
  next => exact .inl rfl

/-- An event of a bus or a timer leaves the state as it is, or acts on a running part. -/
theorem acts_of_exec {c : Instr} {s t : State} (hc : Instr.busEvent c = true) (h : exec c s = .next t) :
    t = s ∨ s.run = .running ∧ Acts c s t := by
  cases c <;> try exact absurd hc Bool.false_ne_true
  all_goals
    refine whenRunning_cases (Host.Outcome.next.inj h) fun hrun => ?_
  case start p => exact .inr (.start p s)
  case repeatedStart p => exact .inr (.repeatedStart p s)
  case stop p =>
    split
    next => exact .inl rfl
    next h => exact .inr (.stop (Bool.eq_false_of_not_eq_true h))
  case midByteStop p =>
    split
    next => exact .inl rfl
    next h => exact .inr (.midByteStop (Bool.eq_false_of_not_eq_true h))
  case midByteStart p =>
    split
    next => exact .inl rfl
    next h => exact .inr (.midByteStart (Bool.eq_false_of_not_eq_true h))
  case addressByte p a d => exact .inr (.addressByte p a d s)
  case writeByte p b =>
    split
    next h => exact .inr (.writeByte b h)
    next => exact .inl rfl
  case drainByte p =>
    split
    next h =>
      cases hd : (s.port p).dir with
      | write =>
        have e : (s.updPort p fun r => match r.dir with
            | .write => { r with ackOut := some .nack }
            | .read => { r with sdaByte := some 0xFF#8 }) = s.updPort p fun r => { r with ackOut := some .nack } := by
          simp only [State.updPort, show (s.ports.get p).dir = .write from hd]
        exact .inr (e ▸ .drainWrite h)
      | read =>
        have e : (s.updPort p fun r => match r.dir with
            | .write => { r with ackOut := some .nack }
            | .read => { r with sdaByte := some 0xFF#8 }) = s.updPort p fun r => { r with sdaByte := some 0xFF#8 } := by
          simp only [State.updPort, show (s.ports.get p).dir = .read from hd]
        exact .inr (e ▸ .drainRead h)
    next => exact .inl rfl
  case readByteAck p a =>
    split
    next h => exact .inr (.readByteAck a h.1 h.2)
    next => exact .inl rfl
  case mgmtWriteByte p b =>
    split
    next =>
      split
      next => exact .inl rfl
      next hm => exact .inr (.mgmtWriteByte b hm)
    next => exact .inl rfl
  case mgmtReadAck p a =>
    split
    next =>
      split
      next => exact .inl rfl
      next m hm => exact .inr (.mgmtReadAck a m hm)
    next => exact .inl rfl
  case holdExpired p =>
    split
    next h => exact .inr (.holdExpired h)
    next => exact .inl rfl
  case stall p =>
    split
    next h => exact .inr (.stall h)
    next => exact .inl rfl
  case legOpen g l =>
    split
    next p ho ha =>
      unfold openFresh
      dsimp only
      have ho := owns_of_ownerPort ho
      split
      · split
        · exact .inl rfl
        split
        · exact .inr (.openPlaced ho ha)
        · exact .inr (.openWaits ho ha)
      · split
        · exact .inr (.openPlaced ho ha)
        · exact .inr (.openLow ho ha)
    next p ho ha => exact .inr (.openRepeated l (owns_of_ownerPort ho) ha)
    next => exact .inl rfl
  case targetAck g a =>
    split
    next p ho ha => exact .inr (.targetAck a (owns_of_ownerPort ho) ha)
    next => exact .inl rfl
  case bytePlaced g =>
    split
    next p b ho ha => exact .inr (.bytePlaced (owns_of_ownerPort ho) ha)
    next => exact .inl rfl
  case deviceAck g a =>
    split
    next p b ho ha => exact .inr (.deviceAck a (owns_of_ownerPort ho) ha)
    next => exact .inl rfl
  case readByteFetched g b =>
    split
    next p ho ha =>
      split
      next hr => exact .inr (.readByteFetched b (owns_of_ownerPort ho) ha hr)
      next => exact .inl rfl
    next => exact .inl rfl
  case checkByteFetched g b =>
    split
    next p ho ha =>
      split
      next l hl =>
        split
        next hr => exact .inr (.checkByteFetched b (owns_of_ownerPort ho) ha hr)
        next => exact .inl rfl
      next => exact .inl rfl
    next => exact .inl rfl
  case stopPlaced g =>
    split
    next p c ho ha => exact .inr (.stopPlaced (owns_of_ownerPort ho) ha)
    next => exact .inl rfl
  case arbLoss g =>
    split
    next hm =>
      split
      next p a ho ha =>
        split
        next hh =>
          unfold arbitrationLost
          split
          next e =>
            subst e
            split
            · exact .inr (.arbRetried (owns_of_ownerPort ho) ha)
            · exact .inr (.arbLost _ (owns_of_ownerPort ho) ha hh)
          next => exact .inr (.arbLost _ (owns_of_ownerPort ho) ha hh)
        next => exact .inl rfl
      next => exact .inl rfl
    next => exact .inl rfl
  case foreignStart g k =>
    split
    next h => exact .inr (.foreignStart k h)
    next => exact .inl rfl
  case foreignStop g =>
    split
    next h => exact .inr (.foreignStop h)
    next => exact .inl rfl
  case clockLimitExpiry g =>
    split
    next h => exact .inr (.clockRecovering h)
    next =>
      split
      next h =>
        split
        next p ho => exact .inr (.clockExpired (owns_of_ownerPort ho) h.1 h.2)
        next => exact .inl rfl
      next => exact .inl rfl
  case quietTimerExpiry g l =>
    split
    next h =>
      split
      · exact .inr (.quietHigh h)
      · exact .inr (.quietLow h)
    next => exact .inl rfl
  case recoveryAttemptEnd g l =>
    split
    next h => exact .inr (.recoveryAttemptEnd l h (row_takeDueDisable g s))
    next => exact .inl rfl
  case readAddressAckEnd p =>
    split
    next h => exact .inr (.readAddressAckEnd h.1 h.2.1 h.2.2)
    next => exact .inl rfl
  case upstreamSclEdge p => exact .inr (.upstreamSclEdge p s)
  case segmentLineEdge g w high =>
    dsimp only
    split
    next h => exact .inr (.stopEdge (Bool.and_eq_true_iff.mp h).1)
    next => exact .inr (.otherEdge g w high s)

/-! ### Every command -/

/-- What a command can do. -/
inductive Ran : Instr → State → State → Prop
  | same (c : Instr) (s : State) : Ran c s s
  | event {c : Instr} {s t : State} (hrun : s.run = .running) (h : Acts c s t) : Ran c s t
  | row {c : Instr} (cmd : Command) {s t : State}
      (hc : replaces c = false → cmd ≠ .commit ∧ cmd ≠ .loadBank ∧ cmd ≠ .restart) (hrun : s.run = .running)
      (h : Row cmd s t) : Ran c s t
  | errorAnswered {p : Port} {st : Status} {tag : Byte} {rest : List QEntry} {s : State} (hrun : s.run = .running)
      (he : s.executing = none) (hq : s.cmdQueue = .error p st tag :: rest) :
      Ran .errorEntry s (answered p st tag [] rest s)
  | editLapsed {e : Session} {s : State} (hrun : s.run = .running) (h : s.session = some e) :
      Ran .editLapsed s (notePort .editLapsed e.owner none none 0#16 (closeSession s))
  | erased {o : StoreOp} {s : State} (hrun : s.run = .running) (hp : s.store.phase = .erasing) (ho : s.store.op = some o) :
      Ran .erasingComplete s (erasingDone o s)
  | written {o : StoreOp} {i : Image} {s : State} (hrun : s.run = .running) (hp : s.store.phase = .writing)
      (ho : s.store.op = some o) (hb : s.store.buffer = some i) : Ran .writingComplete s (writingDone o i s)
  | verified (readBack : List Byte) {o : StoreOp} {s : State} (hrun : s.run = .running) (hp : s.store.phase = .verifying)
      (ho : s.store.op = some o) : Ran (.verifyingComplete readBack) s (s.updStore fun t => { t with phase := .header })
  | mismatched (readBack : List Byte) {o : StoreOp} {s : State} (hrun : s.run = .running)
      (hp : s.store.phase = .verifying) (ho : s.store.op = some o) :
      Ran (.verifyingComplete readBack) s (verifyFailed o readBack s)
  | saved {o : StoreOp} {i : Image} {n : Nat} {s : State} (hrun : s.run = .running) (hp : s.store.phase = .header)
      (ho : s.store.op = some o) : Ran .headerComplete s (headerDone o i n s)
  | cellWritten {o : StoreOp} {s : State} (hrun : s.run = .running) (hp : s.store.phase = .cellWrite)
      (ho : s.store.op = some o) : Ran .cellWriteComplete s (cellDone o s)
  | reset {c : Instr} (hc : replaces c = true) (cause : ResetCause) (pins : ResetPins) (s : State) :
      Ran c s (resetAll cause pins s)
  | stopped (c : Instr) {run : RunState} (hr : run ≠ .running) (s : State) :
      Ran c s (clearVolatile run (seenLines s) (abandonStore s))

/-- A command that acts on a running part alone. -/
theorem ran_whenRunning {c : Instr} {s : State} {f : State → State} (h : s.run = .running → Ran c s (f s)) :
    Ran c s (whenRunning s f) := by
  unfold whenRunning
  split
  next hrun => exact h hrun
  next => exact .same c s

/-- The row of a body leaves the state as it is, or is a row of the executor on a running part. -/
theorem ran_frame {c : Instr} {cmd : Command} {body : Body} {s : State} (hb : BodyOf cmd body)
    (hc : replaces c = false → cmd ≠ .commit ∧ cmd ≠ .loadBank ∧ cmd ≠ .restart) :
    Ran c s (whenRunning s (runFrame cmd body)) :=
  ran_whenRunning fun hrun => .row cmd hc hrun (row_runFrame hb s)

/-- Every command does one of the things of `Ran`. -/
theorem ran_of_exec {c : Instr} {s t : State} (h : exec c s = .next t) : Ran c s t := by
  by_cases hbus : Instr.busEvent c = true
  · obtain rfl | ⟨hrun, ha⟩ := acts_of_exec hbus h
    · exact .same c t
    · exact .event hrun ha
  cases c <;> try exact absurd rfl hbus
  all_goals
    injection h with h
    subst h
  case powerOn pins => exact .reset rfl .powerOn pins s
  case resetLineLow =>
    split
    · exact .same _ s
    · exact .stopped _ (by decide) s
  case resetLineRelease pins =>
    split
    · exact .reset rfl .resetLine pins s
    · exact .same _ s
  case editLapsed =>
    refine ran_whenRunning fun hrun => ?_
    split
    next e _ he _ => exact .editLapsed hrun he
    next => exact .same _ s
  case errorEntry =>
    refine ran_whenRunning fun hrun => ?_
    by_cases hs : ∃ p st tag rest, s.executing = none ∧ s.cmdQueue = .error p st tag :: rest
    · obtain ⟨p, st, tag, rest, he, hq⟩ := hs
      rw [runError_head he hq]
      exact .errorAnswered hrun he hq
    · unfold runError
      split
      next p st tag rest he hq => exact absurd ⟨p, st, tag, rest, he, hq⟩ hs
      next => exact .same _ s
  case identify => exact ran_frame (fun _ _ _ _ => .replied ..) fun _ => ⟨nofun, nofun, nofun⟩
  case getStatus => exact ran_frame (fun _ _ _ _ => .replied ..) fun _ => ⟨nofun, nofun, nofun⟩
  case readEntry => exact ran_frame bodyOf_readEntry fun _ => ⟨nofun, nofun, nofun⟩
  case readParams => exact ran_frame bodyOf_readParams fun _ => ⟨nofun, nofun, nofun⟩
  case takeNotices => exact ran_frame bodyOf_takeNotices fun _ => ⟨nofun, nofun, nofun⟩
  case openEdit => exact ran_frame bodyOf_openEdit fun _ => ⟨nofun, nofun, nofun⟩
  case putEntry => exact ran_frame bodyOf_putEntry fun _ => ⟨nofun, nofun, nofun⟩
  case dropEntry => exact ran_frame bodyOf_dropEntry fun _ => ⟨nofun, nofun, nofun⟩
  case putParam => exact ran_frame bodyOf_putParam fun _ => ⟨nofun, nofun, nofun⟩
  case commit => exact ran_frame bodyOf_commit nofun
  case abandon => exact ran_frame bodyOf_abandon fun _ => ⟨nofun, nofun, nofun⟩
  case loadBank => exact ran_frame bodyOf_loadBank nofun
  case saveBank => exact ran_frame bodyOf_saveBank fun _ => ⟨nofun, nofun, nofun⟩
  case protectBank => exact ran_frame bodyOf_protectBank fun _ => ⟨nofun, nofun, nofun⟩
  case unprotectBank svcHigh => exact ran_frame (bodyOf_unprotectBank svcHigh) fun _ => ⟨nofun, nofun, nofun⟩
  case segmentReset => exact ran_frame bodyOf_segmentReset fun _ => ⟨nofun, nofun, nofun⟩
  case segmentDisable => exact ran_frame bodyOf_segmentDisable fun _ => ⟨nofun, nofun, nofun⟩
  case segmentEnable => exact ran_frame bodyOf_segmentEnable fun _ => ⟨nofun, nofun, nofun⟩
  case restart pins => exact ran_frame (bodyOf_restart pins) nofun
  case supplyLoss => exact .stopped _ (by decide) s
  all_goals
    refine ran_whenRunning fun hrun => ?_
  case erasingComplete =>
    split
    next o hp ho => exact .erased hrun hp ho
    next => exact .same _ s
  case writingComplete =>
    split
    next o i hp ho hb => exact .written hrun hp ho hb
    next => exact .same _ s
  case verifyingComplete readBack =>
    split
    next o i hp ho hb =>
      split
      · exact .verified readBack hrun hp ho
      · exact .mismatched readBack hrun hp ho
    next => exact .same _ s
  case headerComplete =>
    split
    next o i n hp ho hb hn => exact .saved hrun hp ho
    next => exact .same _ s
  case cellWriteComplete =>
    split
    next o hp ho => exact .cellWritten hrun hp ho
    next => exact .same _ s

end Sys2Proof.Machine
end

section
/-!
What the rows of the executor and the events of a bus or a timer keep: the relations to which the laws are reduced, and R14's, R138's and R149's laws
under every command.
-/
namespace Sys2Proof.Machine

open BusChange

/-! ### Events of a bus or a timer, in every state -/

/-- MGMT, owner of a segment, enters RECOVERING with it: where R91's law holds of the segment it goes on holding. -/
theorem busChange_beginRecovery_owner {g : Seg} {s : State} (ho : (s.seg g).owner = some .mgmt) :
    BusChange s (beginRecovery g (some .mgmt) s) := by
  refine seq (seg fun h => ?_) (busChange_startAttempt g _)
  have hw := SegState.mgmt_not_waiting h ho
  obtain ⟨hnodup, -, -, -, -⟩ := h
  exact ⟨hnodup, fun x e hx => hw (by cases e; exact hx), nofun, fun _ => .inr rfl, nofun⟩

theorem busChange_foreignOver_any (g : Seg) (s : State) : BusChange s (foreignOver g s) := by
  by_cases h : (s.seg g).cond = .owned ∧ (s.seg g).owner = some .mgmt
  · rw [foreignOver, if_pos h]
    exact busChange_beginRecovery_owner h.2
  · by_cases ho : (s.seg g).owner = some .mgmt
    · rw [foreignOver, if_neg h]
      refine seg fun hl => ?_
      have hc : (s.seg g).cond ≠ .foreign := fun e => by
        obtain ⟨-, -, -, hm, -⟩ := hl
        rcases hm ho with h | h <;> rw [h] at e <;> cases e
      unfold SegState.lawful at *
      dsimp only
      rwa [if_neg hc]
    · exact busChange_foreignOver g s fun e => absurd e ho

theorem busChange_quietLow_any (g : Seg) (s : State) : BusChange s (quietLow g s) := by
  unfold quietLow
  split
  next => exact seq (.note s _ _ _ _ _) (busChange_beginRecovery_none g _)
  next p _ => exact busChange_linesLowAtStart p g s
  next h => exact busChange_beginRecovery_owner h

/-- What an event does is a sequence of bus changes, after the SEGMENT-DISABLE that falls together with a final check (R123). -/
theorem Acts.busChange {c : Instr} {s t : State} (h : Acts c s t) : ∃ u, Row .segmentDisable s u ∧ BusChange u t := by
  have same : BusChange s t → ∃ u, Row .segmentDisable s u ∧ BusChange u t := fun hb => ⟨s, .same, hb⟩
  cases h with
  | recoveryAttemptEnd l _ hu => exact ⟨_, hu, busChange_finished (busChange_attemptEnded _ l _)⟩
  | start p => exact same (busChange_retimed (busChange_startCondition p s))
  | repeatedStart p => exact same (busChange_retimed (busChange_startCondition p s))
  | stop => exact same (busChange_retimed (busChange_stopCondition _ s))
  | midByteStop => exact same (busChange_retimed (busChange_midByteStop _ s))
  | midByteStart => exact same (busChange_retimed (busChange_midByteStart _ s))
  | addressByte p a d => exact same (busChange_retimed (busChange_addressByte p a d s))
  | writeByte b => exact same (busChange_retimed (busChange_takeWriteByte _ b s))
  | drainWrite => exact same (port' fun _ => ⟨rfl, rfl, rfl, rfl⟩)
  | drainRead => exact same (port' fun _ => ⟨rfl, rfl, rfl, rfl⟩)
  | readByteAck a => exact same (busChange_retimed (busChange_readAnswer _ a s))
  | readAddressAckEnd => exact same (busChange_retimed (busChange_readRequest _ s))
  | mgmtWriteByte b hm => exact same (port (by simp [PortState.credits, hm]) fun hl => hl)
  | mgmtReadAck => exact same (port' fun _ => ⟨rfl, rfl, rfl, rfl⟩)
  | upstreamSclEdge p => exact same (port' fun r => edgeSeen_frame _)
  | holdExpired => exact same (busChange_finished (busChange_holdExpired _ s))
  | stall => exact same (busChange_retimed (busChange_stallExpired _ s))
  | openPlaced =>
    exact same (busChange_retimed (seq (busChange_sampleLines _ _ s) (busChange_placeAddress _ _ _ _)))
  | openWaits => exact same (busChange_retimed (busChange_sampleLines _ _ s))
  | openLow => exact same (busChange_finished (seq (busChange_sampleLines _ _ s) (busChange_linesLowAtStart _ _ _)))
  | openRepeated => exact same (busChange_retimed (busChange_placeAddress _ _ _ s))
  | targetAck a => exact same (busChange_retimed (busChange_targetAnswer _ _ a s))
  | bytePlaced => exact same (busChange_bytePlaced _ _ _ s)
  | deviceAck a => exact same (busChange_retimed (busChange_deviceAnswer _ _ a s))
  | readByteFetched b => exact same (busChange_retimed (busChange_byteFetched _ _ b s))
  | checkByteFetched b => exact same (busChange_retimed (busChange_checkFetched _ _ b _ s))
  | stopPlaced => exact same (busChange_finished (seq (busChange_dropEndedLeg _ _ s) (busChange_release _ _ _)))
  | arbRetried => exact same (busChange_retimed (busChange_retryAddress _ _ s))
  | arbLost d => exact same (busChange_finished (busChange_loseArbitration _ _ d s))
  | foreignStart k => exact same (busChange_retimed (busChange_foreignStart _ k s))
  | foreignStop =>
    exact same (busChange_finished (seq (busChange_sampleLines _ _ s) (busChange_foreignOver_any _ _)))
  | clockRecovering => exact same (busChange_finished (busChange_attemptFailed _ s))
  | clockExpired => exact same (busChange_finished (busChange_clockExpired _ _ s))
  | quietHigh =>
    exact same (busChange_finished (seq (busChange_sampleLines _ _ s) (busChange_foreignOver_any _ _)))
  | quietLow => exact same (busChange_finished (seq (busChange_sampleLines _ _ s) (busChange_quietLow_any _ _)))
  | stopEdge => exact same (busChange_finished (seq (busChange_lineEdge _ _ _ _ s) (busChange_foreignOver_any _ _)))
  | otherEdge g w high => exact same (busChange_retimed (busChange_lineEdge g w high _ s))

/-! ### Claims of MGMT (R178) -/

theorem mgmtHas_false {c : SegState} (h : mgmtHas c = false) : c.owner ≠ some .mgmt ∧ Claimant.mgmt ∉ c.waiters := by
  simpa [mgmtHas] using h

/-- R178: what a SEGMENT-RESET that has been handed off does is a sequence of bus changes. -/
theorem busChange_segResetActs {g : Seg} {s : State} (hm : mgmtHas (s.seg g) = false) :
    BusChange s (finish (if (s.seg g).cond = .faulted then beginRecovery g (some .mgmt) s else claim g .mgmt s)) := by
  obtain ⟨ho, hw⟩ := mgmtHas_false hm
  refine busChange_finished ?_
  split
  · exact busChange_beginRecovery_mgmt g s hw
  · exact busChange_claim g .mgmt s hw ho

theorem busChange_startSegReset {g : Seg} {p : Port} {tag : Byte} {s : State} (hm : mgmtHas (s.seg g) = false) :
    BusChange { s with segResets := s.segResets ++ [⟨g, p, tag⟩] } (startSegReset g p tag s) :=
  busChange_segResetActs (s := { s with segResets := s.segResets ++ [⟨g, p, tag⟩] }) hm

/-! ### The queue of waiting commands, the working image and its origin -/

theorem BusChange.pending_eq {s t : State} (h : BusChange s t) : t.pending = s.pending := by
  obtain ⟨-, -, -, -, -, -, -, -, hp⟩ := h.keepsImage
  exact hp

theorem BusChange.store_eq {s t : State} (h : BusChange s t) : t.store = s.store := by
  obtain ⟨-, -, -, -, -, hs, -, -, -⟩ := h.keepsImage
  exact hs

theorem BusChange.run_eq {s t : State} (h : BusChange s t) : t.run = s.run := by
  obtain ⟨hr, -⟩ := h.keepsImage
  exact hr

theorem BusChange.executing_eq {s t : State} (h : BusChange s t) : t.executing = s.executing := by
  obtain ⟨-, -, -, -, -, -, he, -, -⟩ := h.keepsImage
  exact he

/-- The working image, its origin and the held strap value are unchanged. -/
def KeepsWorking (s t : State) : Prop := t.working = s.working ∧ t.strap = s.strap ∧ t.origin = s.origin

theorem KeepsWorking.refl (s : State) : KeepsWorking s s := ⟨rfl, rfl, rfl⟩

theorem KeepsWorking.trans {s t u : State} (h : KeepsWorking s t) (k : KeepsWorking t u) : KeepsWorking s u :=
  ⟨k.1.trans h.1, k.2.1.trans h.2.1, k.2.2.trans h.2.2⟩

theorem keepsWorking_respond (p : Port) (st : Status) (tag : Byte) (pl : List Byte) (s : State) :
    KeepsWorking s (respond p st tag pl s) := .refl s

theorem BusChange.keepsWorking {s t : State} (h : BusChange s t) : KeepsWorking s t := by
  obtain ⟨-, hstrap, hworking, horigin, -⟩ := h.keepsImage
  exact ⟨hworking, hstrap, horigin⟩

theorem note_pending (k : Kind) (p : Option PortPos) (g : Option SegPos) (n : Option Nat) (d : Half) (s : State) :
    (note k p g n d s).pending = s.pending := (BusChange.note s k p g n d).pending_eq

theorem noteRejected_pending (b : Bank) (r : BankReading) (s : State) : (noteRejected b r s).pending = s.pending := by
  cases r with
  | rejected _ _ _ => exact note_pending ..
  | badHeader => rfl
  | good _ _ => rfl

theorem resetAll_pending (cause : ResetCause) (pins : ResetPins) (s : State) :
    (resetAll cause pins s).pending = s.pending := by
  show (loadSelected _ _ (noteRejected _ _ (noteRejected _ _ _))).pending = _
  unfold loadSelected
  split
  all_goals
    rw [note_pending]
    exact (noteRejected_pending ..).trans (noteRejected_pending ..)

theorem respond_pending (p : Port) (st : Status) (tag : Byte) (pl : List Byte) (s : State) :
    (respond p st tag pl s).pending = s.pending := rfl

theorem busChange_commitImage (i : Image) (s : State) : BusChange
    (closeSession ((replaceImage i .edited s).updStore fun t => { t with originMark := false })) (commitImage i s) :=
  busChange_finish _

theorem busChange_loadImage (b : Bank) (n : Nat) (i : Image) (s : State) :
    BusChange (replaceImage i (.bank b n) s) (loadImage b n i s) := busChange_finish _

theorem BodyActs.pending_eq {c : Command} {p : Port} {tag : Byte} {s t : State} (h : BodyActs c p tag s t) :
    t.pending = s.pending := by
  cases h with
  | committed => exact (respond_pending ..).trans (busChange_commitImage _ s).pending_eq
  | loaded => exact (respond_pending ..).trans (busChange_loadImage _ _ _ _).pending_eq
  | resetStarted hm => exact (busChange_startSegReset hm).pending_eq
  | disabled => exact (respond_pending ..).trans (busChange_finish _).pending_eq
  | enabled => exact (respond_pending ..).trans (busChange_retime _).pending_eq
  | restarted pins => exact resetAll_pending _ _ _
  | _ => rfl

theorem Row.pending_eq {c : Command} {s t : State} (h : Row c s t) : t.pending = s.pending := by
  cases h with
  | same => rfl
  | denied => rfl
  | body _ _ hb => exact hb.pending_eq

/-- Every command leaves the queue of waiting commands as it is. -/
theorem Ran.pending_eq {c : Instr} {s t : State} (h : Ran c s t) : t.pending = s.pending := by
  cases h with
  | event _ h =>
    obtain ⟨u, hu, hb⟩ := h.busChange
    exact hb.pending_eq.trans hu.pending_eq
  | row _ _ _ h => exact h.pending_eq
  | editLapsed => exact note_pending ..
  | reset => exact resetAll_pending ..
  | _ => rfl

theorem BodyActs.keepsWorking {c : Command} {p : Port} {tag : Byte} {s t : State} (h : BodyActs c p tag s t)
    (hc : c ≠ .commit ∧ c ≠ .loadBank ∧ c ≠ .restart) : KeepsWorking s t := by
  obtain ⟨hcommit, hload, hrestart⟩ := hc
  cases h with
  | committed => exact absurd rfl hcommit
  | notLoaded => exact absurd rfl hload
  | loaded => exact absurd rfl hload
  | restarted => exact absurd rfl hrestart
  | resetStarted hm => exact (busChange_startSegReset hm).keepsWorking
  | disabled =>
    exact (KeepsWorking.trans (.refl s) (busChange_finish (s.updSeg _ takeOut)).keepsWorking).trans
      (keepsWorking_respond ..)
  | enabled =>
    exact (KeepsWorking.trans (.refl s) (busChange_retime (s.updSeg _ _)).keepsWorking).trans (keepsWorking_respond ..)
  | _ => exact .refl _

theorem Row.keepsWorking {c : Command} {s t : State} (h : Row c s t) (hc : c ≠ .commit ∧ c ≠ .loadBank ∧ c ≠ .restart) :
    KeepsWorking s t := by
  cases h with
  | same => exact .refl s
  | denied => exact .refl s
  | body _ _ hb => exact hb.keepsWorking hc

theorem Acts.keepsWorking {c : Instr} {s t : State} (h : Acts c s t) : KeepsWorking s t := by
  obtain ⟨u, hu, hb⟩ := h.busChange
  exact (hu.keepsWorking ⟨nofun, nofun, nofun⟩).trans hb.keepsWorking

/-- R1, R10: between replacement events the working image and the straps stand, and its origin up to the end of a SAVE. -/
theorem Ran.keepsWorking {c : Instr} {s t : State} (h : Ran c s t) (hc : replaces c = false) :
    t.working = s.working ∧ t.strap = s.strap ∧ (c ≠ .headerComplete → t.origin = s.origin) := by
  have of {t : State} (h : KeepsWorking s t) :
      t.working = s.working ∧ t.strap = s.strap ∧ (c ≠ .headerComplete → t.origin = s.origin) :=
    ⟨h.1, h.2.1, fun _ => h.2.2⟩
  cases h with
  | event _ h => exact of h.keepsWorking
  | row cmd hcmd _ h => exact of (h.keepsWorking (hcmd hc))
  | editLapsed => exact of (BusChange.note (closeSession s) _ _ _ _ _).keepsWorking
  | saved => exact ⟨rfl, rfl, fun h => absurd rfl h⟩
  | reset hr => exact absurd (hr.symm.trans hc) nofun
  | _ => exact of (.refl s)

/-! ### Validation of what is loaded (R14, R142, R148) -/

theorem fields_toEntry {f : EntryFields} (h : f.inSets) : f.toEntry.fields = f := by
  obtain ⟨ports, vaddr, segs, target, access, check, window, writeLimit, readLen⟩ := f
  obtain ⟨hv, ht, hf⟩ := h
  unfold fieldOutside at hf
  simp only [Bool.or_eq_false_iff] at hf
  obtain ⟨⟨⟨⟨hports, haccess⟩, hcheck⟩, -⟩, hlen⟩ := hf
  cases ports with | none => cases hports | some _ => ?_
  cases vaddr with | none => cases hv | some _ => ?_
  cases target with | none => cases ht | some _ => ?_
  cases access with | none => cases haccess | some _ => ?_
  cases check with | none => cases hcheck | some _ => ?_
  cases readLen with | none => cases hlen | some _ => ?_
  rfl

theorem fields_toParams {f : ParamFields} (h : paramsInSet f = true) : f.toParams.fields = f := by
  obtain ⟨mgmt, ⟨p0, p1⟩, ⟨a0, a1⟩, hold, stall, clock, retries, lease, segs⟩ := f
  simp only [paramsInSet, Bool.and_eq_true] at h
  obtain ⟨⟨⟨⟨⟨⟨⟨⟨⟨hm, hp0⟩, hp1⟩, ha0⟩, ha1⟩, -⟩, -⟩, -⟩, -⟩, -⟩ := h
  obtain ⟨_, rfl⟩ := Option.isSome_iff_exists.mp hp0
  obtain ⟨_, rfl⟩ := Option.isSome_iff_exists.mp hp1
  obtain ⟨_, rfl⟩ := Option.isSome_iff_exists.mp ha0
  obtain ⟨_, rfl⟩ := Option.isSome_iff_exists.mp ha1
  obtain ⟨_, rfl⟩ : ∃ x, mgmt = some x := by cases mgmt <;> simp_all [mgmtInSet]
  rfl

/-- An image whose fields pass validation has those fields. -/
theorem fields_toImage {strap : BitVec 2} {f : ImageFields} (h : validate strap f = none) : f.toImage.fields = f := by
  obtain ⟨hslots, hparams⟩ := validate_eq_none_iff.mp h
  have hin : paramsInSet f.params = true := by
    unfold checkParams at hparams
    split_ifs at hparams with hp
    simpa using hp
  have hmap : (f.slots.map (Option.map EntryFields.toEntry)).map (Option.map Entry.fields) = f.slots := by
    rw [List.map_map]
    refine (List.map_congr_left fun o ho => ?_).trans (List.map_id _)
    cases o with
    | none => rfl
    | some e => exact congrArg some (fields_toEntry (inSets_of_checkSlots _ _ _ hslots ho))
  show (⟨f.params.toParams.fields, _⟩ : ImageFields) = f
  rw [fields_toParams hin, ImageFields.toImage, hmap]

/-- R139, R142: what a good reading of a bank says of it. -/
theorem readBank_good {strap : BitVec 2} {b : BankCells} {n : Nat} {i : Image} (h : readBank strap b = .good n i) :
    b.header.good b.image = true ∧ n = b.header.generation.toNat ∧ i = (imageFieldsOf b.image).toImage
      ∧ validate strap (imageFieldsOf b.image) = none := by
  unfold readBank at h
  split_ifs at h with hg
  split at h
  next => cases h
  next hv => cases h; exact ⟨hg, rfl, rfl, hv⟩

theorem validate_of_readBank {strap : BitVec 2} {b : BankCells} {n : Nat} {i : Image} (h : readBank strap b = .good n i) :
    validate strap i.fields = none := by
  obtain ⟨-, -, rfl, hv⟩ := readBank_good h
  rwa [fields_toImage hv]

theorem length_slotFieldsFrom : ∀ (n : Nat) (bs : List Byte), (slotFieldsFrom n bs).length = n
  | 0, _ => rfl
  | n + 1, _ => congrArg (· + 1) (length_slotFieldsFrom n _)

theorem length_slots_of_readBank {strap : BitVec 2} {b : BankCells} {n : Nat} {i : Image}
    (h : readBank strap b = .good n i) : i.slots.length = 32 := by
  obtain ⟨-, -, rfl, -⟩ := readBank_good h
  exact (List.length_map ..).trans (length_slotFieldsFrom ..)

/-- R14: the empty table passes, whatever the straps are. -/
theorem validate_empty (strap : BitVec 2) : validate strap Image.empty.fields = none := by
  have h : ∀ strap : BitVec 2, validate strap Image.empty.fields = none := by decide +kernel
  exact h strap

/-! ### The reset load (R142) -/

/-- A property of the loaded image: of every valid bank's, and of the empty table. -/
theorem selectBank_some {a b : BankReading} {x : Bank × Nat × Image} (h : selectBank a b = some x) :
    a = .good x.2.1 x.2.2 ∧ x.1 = .bankA ∨ b = .good x.2.1 x.2.2 ∧ x.1 = .bankB := by
  unfold selectBank at h
  split at h
  next => split_ifs at h <;> cases h <;> simp
  all_goals cases h <;> simp

/-- Nothing changes but the Notice Log. -/
def OnlyNotices (s t : State) : Prop := t = { s with notices := t.notices, lost := t.lost, nextSeq := t.nextSeq }

theorem OnlyNotices.trans {s t u : State} (h : OnlyNotices s t) (k : OnlyNotices t u) : OnlyNotices s u := by
  unfold OnlyNotices
  conv_lhs => rw [show u = _ from k, show t = _ from h]

theorem onlyNotices_note (k : Kind) (p : Option PortPos) (g : Option SegPos) (n : Option Nat) (d : Half) (s : State) :
    OnlyNotices s (note k p g n d s) := by
  unfold OnlyNotices note
  split <;> rfl

theorem onlyNotices_noteRejected (b : Bank) (r : BankReading) (s : State) : OnlyNotices s (noteRejected b r s) := by
  cases r with
  | rejected _ _ _ => exact onlyNotices_note ..
  | badHeader => rfl
  | good _ _ => rfl

/-- The readings of the two banks that a reset makes, after an operation in flight has been abandoned. -/
def readingA (pins : ResetPins) (s : State) : BankReading :=
  readBank (strapOf pins) ((abandonedBanks s.freeCtr s.store).get .bankA)

@[inherit_doc readingA]
def readingB (pins : ResetPins) (s : State) : BankReading :=
  readBank (strapOf pins) ((abandonedBanks s.freeCtr s.store).get .bankB)

/-- R10, R18, R142: the image a selection brings in. -/
def selectedImage : Option (Bank × Nat × Image) → Image
  | some (_, _, i) => i
  | none => Image.empty

@[inherit_doc selectedImage]
def selectedOrigin : Option (Bank × Nat × Image) → Origin
  | some (b, n, _) => .bank b n
  | none => .edited

theorem onlyNotices_loadSelected (cause : ResetCause) (sel : Option (Bank × Nat × Image)) {s t : State}
    (h : OnlyNotices s t) :
    OnlyNotices { s with working := selectedImage sel, origin := selectedOrigin sel } (loadSelected cause sel t) := by
  have load : OnlyNotices { s with working := selectedImage sel, origin := selectedOrigin sel }
      { t with working := selectedImage sel, origin := selectedOrigin sel } := by
    unfold OnlyNotices
    conv_lhs => rw [show t = _ from h]
  rcases sel with _ | ⟨b, n, i⟩
  · exact load.trans (onlyNotices_note ..)
  · exact load.trans (onlyNotices_note ..)

/-- The store after a reset's load. -/
def resetStore (cause : ResetCause) (pins : ResetPins) (s : State) : Store where
  banks := abandonedBanks s.freeCtr s.store
  phase := .idle
  op := none
  buffer := none
  newGeneration := none
  originMark := false
  records :=
    ⟨recordOf (readingA pins s) ((abandonedBanks s.freeCtr s.store).get .bankA).cell,
      recordOf (readingB pins s) ((abandonedBanks s.freeCtr s.store).get .bankB).cell⟩
  cause := cause

/-- The part at a reset before the notices of its load and the image it brings in. -/
def resetBase (cause : ResetCause) (pins : ResetPins) (s : State) : State :=
  { clearVolatile .running pins.lines (abandonStore s) with
    strap := strapOf pins
    store := resetStore cause pins s }

/-- The part at a reset with its image loaded and told. -/
def resetLoaded (cause : ResetCause) (pins : ResetPins) (s : State) : State :=
  loadSelected cause (selectBank (readingA pins s) (readingB pins s))
    (noteRejected .bankB (readingB pins s) (noteRejected .bankA (readingA pins s) (resetBase cause pins s)))

theorem resetAll_eq_resetSegments (cause : ResetCause) (pins : ResetPins) (s : State) :
    resetAll cause pins s = resetSegments pins.lines (resetLoaded cause pins s) := rfl

/-- The image a reset loads. -/
def resetImage (pins : ResetPins) (s : State) : Image := selectedImage (selectBank (readingA pins s) (readingB pins s))

/-- R9, R18, R41, R104, R122, R124, R142, R143, R168: the part after a reset, but for the notices of its load. -/
theorem resetAll_eq (cause : ResetCause) (pins : ResetPins) (s : State) :
    resetAll cause pins s =
      { run := .running
        strap := strapOf pins
        working := resetImage pins s
        origin := selectedOrigin (selectBank (readingA pins s) (readingB pins s))
        ports := PerPort.all PortState.reset
        segs := ⟨resetSegment (resetImage pins s).params .s0 pins.lines.s0,
          resetSegment (resetImage pins s).params .s1 pins.lines.s1,
          resetSegment (resetImage pins s).params .s2 pins.lines.s2,
          resetSegment (resetImage pins s).params .s3 pins.lines.s3⟩
        session := none
        lease := none
        store := resetStore cause pins s
        cmdQueue := []
        executing := none
        segResets := []
        notices := (resetAll cause pins s).notices
        lost := (resetAll cause pins s).lost
        nextSeq := (resetAll cause pins s).nextSeq
        freeCtr := s.freeCtr + 1
        pending := s.pending } := by
  have h : OnlyNotices { resetBase cause pins s with
      working := resetImage pins s, origin := selectedOrigin (selectBank (readingA pins s) (readingB pins s)) }
      (resetLoaded cause pins s) :=
    onlyNotices_loadSelected cause _ ((onlyNotices_noteRejected ..).trans (onlyNotices_noteRejected ..))
  conv_lhs => rw [resetAll_eq_resetSegments, show resetLoaded cause pins s = _ from h]
  rfl

theorem resetAll_seg (cause : ResetCause) (pins : ResetPins) (s : State) (g : Seg) :
    (resetAll cause pins s).seg g = resetSegment (resetImage pins s).params g (pins.lines.get g) := by
  rw [resetAll_eq]
  cases g <;> rfl

theorem resetAll_port (cause : ResetCause) (pins : ResetPins) (s : State) (p : Port) :
    (resetAll cause pins s).port p = PortState.reset := by
  rw [resetAll_eq]
  cases p <;> rfl

/-- A reset loads the empty table, or the image of a bank it finds good. -/
theorem resetImage_cases (pins : ResetPins) (s : State) :
    resetImage pins s = Image.empty ∨ ∃ b n, readBank (strapOf pins) b = .good n (resetImage pins s) := by
  unfold resetImage
  cases hsel : selectBank (readingA pins s) (readingB pins s) with
  | none => exact .inl rfl
  | some x => exact .inr ((selectBank_some hsel).elim (fun h => ⟨_, _, h.1⟩) fun h => ⟨_, _, h.1⟩)

/-! ### R14 -/

theorem KeepsWorking.workingLaw {s t : State} (h : KeepsWorking s t) (hl : WorkingLaw s) : WorkingLaw t := by
  obtain ⟨hw, hs, -⟩ := h
  unfold WorkingLaw
  rwa [hw, hs]

/-- R14, R18: a reset loads an image that passes validation under the straps it reads. -/
theorem workingLaw_resetAll (cause : ResetCause) (pins : ResetPins) (s : State) : WorkingLaw (resetAll cause pins s) := by
  rw [resetAll_eq]
  show validate (strapOf pins) (resetImage pins s).fields = none
  obtain h | ⟨b, n, hb⟩ := resetImage_cases pins s
  · rw [h]; exact validate_empty _
  · exact validate_of_readBank hb

theorem BodyActs.workingLaw {c : Command} {p : Port} {tag : Byte} {s t : State} (h : BodyActs c p tag s t)
    (hl : WorkingLaw s) : WorkingLaw t := by
  by_cases hc : c ≠ .commit ∧ c ≠ .loadBank ∧ c ≠ .restart
  · exact (h.keepsWorking hc).workingLaw hl
  cases h with
  | replied => exact hl
  | edited => exact hl
  | notLoaded => exact hl
  | cellWriteStarted => exact hl
  | committed _ hv =>
    exact (keepsWorking_respond ..).workingLaw ((busChange_commitImage _ s).keepsWorking.workingLaw hv)
  | loaded hr =>
    exact (keepsWorking_respond ..).workingLaw
      ((busChange_loadImage _ _ _ _).keepsWorking.workingLaw (validate_of_readBank hr))
  | restarted pins => exact workingLaw_resetAll _ _ _
  | _ => exact absurd ⟨nofun, nofun, nofun⟩ hc

/-- R14, R18: every command keeps the working image valid. -/
theorem Ran.workingLaw {c : Instr} {s t : State} (h : Ran c s t) (hl : WorkingLaw s) : WorkingLaw t := by
  by_cases hc : replaces c = false
  · obtain ⟨hw, hs, -⟩ := h.keepsWorking hc
    unfold WorkingLaw
    rwa [hw, hs]
  cases h with
  | same => exact hl
  | event _ h => exact h.keepsWorking.workingLaw hl
  | row _ _ _ h =>
    cases h with
    | same => exact hl
    | denied => exact hl
    | body _ _ hb => exact hb.workingLaw hl
  | reset => exact workingLaw_resetAll _ _ _
  | stopped => exact hl
  | _ => exact absurd rfl hc

/-! ### The laws of the store and of the tables (R138, R143, R149, 13.3) -/

/-- The store, the tables and the part's running are unchanged. -/
def KeepsStore (s t : State) : Prop :=
  t.store = s.store ∧ t.working = s.working ∧ t.session = s.session ∧ t.run = s.run

theorem BusChange.keepsStore {s t : State} (h : BusChange s t) : KeepsStore s t := by
  obtain ⟨hr, -, hw, -, hs, hst, -⟩ := h.keepsImage
  exact ⟨hst, hw, hs, hr⟩

theorem KeepsStore.laws {s t : State} (h : KeepsStore s t) (hl : StoreLaw s ∧ TableLaw s) : StoreLaw t ∧ TableLaw t := by
  obtain ⟨hst, hw, hs, hr⟩ := h
  unfold StoreLaw TableLaw
  rwa [hst, hw, hs, hr]

theorem keepsStore_respond (p : Port) (st : Status) (tag : Byte) (pl : List Byte) (s : State) :
    KeepsStore s (respond p st tag pl s) := ⟨rfl, rfl, rfl, rfl⟩

theorem perBank_set_get {α : Type} (v : PerBank α) (b : Bank) : v.set b (v.get b) = v := by cases b <;> rfl

/-- R138, R143: the law of the store with no operation in flight. -/
theorem storeLaw_idle {t : State} (hp : t.store.phase = .idle) (ho : t.store.op = none)
    (hprot : t.run = .running → ∀ b, (t.store.records.get b).protected_ = (t.store.banks.get b).cell) : StoreLaw t := by
  unfold StoreLaw
  rw [hp, ho]
  exact ⟨iff_of_true rfl rfl, fun _ h => (nomatch h), fun _ h => (nomatch h), hprot⟩

/-- R143: the law of the store with an operation in flight. -/
theorem storeLaw_inFlight {t : State} {o : StoreOp} (ho : t.store.op = some o) (hp : t.store.phase ≠ .idle)
    (hk : o.kind = .save ↔ t.store.phase ≠ .cellWrite) (hc : o.kind = .save → (t.store.banks.get o.bank).cell = false)
    (hprot : t.run = .running → ∀ b, (t.store.records.get b).protected_ = (t.store.banks.get b).cell) : StoreLaw t := by
  unfold StoreLaw
  rw [ho]
  refine ⟨iff_of_false nofun hp, fun x hx => ?_, fun x hx => ?_, hprot⟩
  · cases hx; exact hk
  · cases hx; exact hc

/-- The law of the tables with no session open and nothing to be saved. -/
theorem tableLaw_bare {t : State} (hw : t.working.slots.length = 32) (hs : t.session = none) (hb : t.store.buffer = none)
    (hi : ∀ b, (t.store.banks.get b).image.length = 336) : TableLaw t := by
  unfold TableLaw
  rw [hs, hb]
  exact ⟨hw, fun _ h => (nomatch h), fun _ h => (nomatch h), hi⟩

/-- R143: with the Store Controller IDLE no operation is in flight. -/
theorem StoreLaw.op_none {s : State} (h : StoreLaw s) (hp : s.store.phase = .idle) : s.store.op = none := h.1.mpr hp

/-- R143: in a phase of a SAVE the operation in flight is one, and its bank's cell is CLEAR. -/
theorem StoreLaw.save {s : State} {o : StoreOp} (h : StoreLaw s) (ho : s.store.op = some o)
    (hp : s.store.phase ≠ .cellWrite) : o.kind = .save ∧ (s.store.banks.get o.bank).cell = false := by
  obtain ⟨-, hkind, hcell, -⟩ := h
  have hk := (hkind o ho).mpr hp
  exact ⟨hk, hcell o ho hk⟩

theorem length_image_interrupted {n : Nat} {st : Store} {o : StoreOp}
    (h : (st.banks.get o.bank).image.length = 336) : (interrupted n st o).image.length = 336 := by
  have hfree : (freeImage n).length = 336 := by
    unfold freeImage
    rw [List.length_map, List.length_range]
    rfl
  unfold interrupted
  dsimp only
  split
  · exact h
  · exact hfree
  · exact hfree
  · exact h
  · exact h
  · exact h

theorem length_image_abandonedBanks {n : Nat} {st : Store} (h : ∀ b, (st.banks.get b).image.length = 336) (b : Bank) :
    ((abandonedBanks n st).get b).image.length = 336 := by
  unfold abandonedBanks
  split
  · exact h b
  · rw [PerBank.get_set]
    split
    · exact length_image_interrupted (h _)
    · exact h b

theorem length_fitImage (bs : List Byte) : (fitImage bs).length = 336 := by
  unfold fitImage
  rw [List.length_take, List.length_append, List.length_replicate]
  have : Config.imageSize = 336 := rfl
  omega

theorem length_slots_resetImage (pins : ResetPins) (s : State) : (resetImage pins s).slots.length = 32 := by
  obtain h | ⟨b, n, hb⟩ := resetImage_cases pins s
  · rw [h]; rfl
  · exact length_slots_of_readBank hb

theorem protected_recordOf (r : BankReading) (cell : Bool) : (recordOf r cell).protected_ = cell := by cases r <;> rfl

theorem storeLaws_resetAll (cause : ResetCause) (pins : ResetPins) {s : State} (hl : TableLaw s) :
    StoreLaw (resetAll cause pins s) ∧ TableLaw (resetAll cause pins s) := by
  obtain ⟨-, -, -, himage⟩ := hl
  have hbanks : ∀ b, ((resetStore cause pins s).banks.get b).image.length = 336 := length_image_abandonedBanks himage
  have hprot : ∀ b, ((resetStore cause pins s).records.get b).protected_ = ((resetStore cause pins s).banks.get b).cell := by
    intro b
    cases b <;> exact protected_recordOf ..
  rw [resetAll_eq]
  exact ⟨storeLaw_idle rfl rfl fun _ => hprot, tableLaw_bare (length_slots_resetImage pins s) rfl rfl hbanks⟩

theorem storeLaws_stopped {run : RunState} (hr : run ≠ .running) {s : State} (hl : TableLaw s) :
    StoreLaw (clearVolatile run (seenLines s) (abandonStore s))
      ∧ TableLaw (clearVolatile run (seenLines s) (abandonStore s)) := by
  obtain ⟨hw, -, -, himage⟩ := hl
  exact ⟨storeLaw_idle rfl rfl fun e => absurd e hr, tableLaw_bare hw rfl rfl (length_image_abandonedBanks himage)⟩

/-- The laws of the store and the tables are kept by a change of the session alone. -/
theorem storeLaws_session {s t : State} (hl : StoreLaw s ∧ TableLaw s) (hst : t.store = s.store)
    (hw : t.working = s.working) (hr : t.run = s.run) (hx : ∀ e, t.session = some e → e.staging.slots.length = 32) :
    StoreLaw t ∧ TableLaw t := by
  obtain ⟨hstore, hslots, -, hb, hi⟩ := hl
  unfold StoreLaw TableLaw
  rw [hst, hw, hr]
  exact ⟨hstore, hslots, hx, hb, hi⟩

/-- The laws are kept by a replacement of the working image that leaves a session open or closes it. -/
theorem storeLaws_replaced {s t : State} {i : Image} (hl : StoreLaw s ∧ TableLaw s) (hi : i.slots.length = 32)
    (hst : ∃ m, t.store = { s.store with originMark := m }) (hw : t.working = i) (hr : t.run = s.run)
    (hx : t.session = none ∨ t.session = s.session) : StoreLaw t ∧ TableLaw t := by
  obtain ⟨m, hst⟩ := hst
  obtain ⟨hstore, -, hs, hb, himage⟩ := hl
  unfold StoreLaw TableLaw
  rw [hst, hw, hr]
  refine ⟨hstore, hi, fun e he => ?_, hb, himage⟩
  rcases hx with hx | hx
  · rw [hx] at he; cases he
  · exact hs e (hx ▸ he)

/-- R144: a SAVE begins on a bank whose cell is CLEAR, with the working image in its buffer. -/
theorem storeLaws_startSave {b : Bank} {p : Port} {tag : Byte} {s : State} (hrun : s.run = .running)
    (hb : (s.store.records.get b).protected_ = false) (hl : StoreLaw s ∧ TableLaw s) :
    StoreLaw (startSave b p tag s) ∧ TableLaw (startSave b p tag s) := by
  obtain ⟨⟨-, -, -, hprot⟩, hw, hs, -, himage⟩ := hl
  have hcell : (s.store.banks.get b).cell = false := (hprot hrun b).symm.trans hb
  refine ⟨storeLaw_inFlight (o := ⟨.save, b, p, tag⟩) rfl nofun ⟨fun _ => nofun, fun _ => rfl⟩ (fun _ => ?_)
    (fun _ c => ?_), hw, hs, fun i hi => ?_, fun c => ?_⟩
  · show ((s.store.banks.set b _).get b).cell = false
    rw [PerBank.get_set_self]
    exact hcell
  · show ((s.store.records.set b _).get c).protected_ = ((s.store.banks.set b _).get c).cell
    rw [PerBank.get_set, PerBank.get_set]
    split
    next e => subst e; exact hprot hrun _
    next => exact hprot hrun c
  · cases hi; exact hw
  · show ((s.store.banks.set b _).get c).image.length = 336
    rw [PerBank.get_set]
    split
    · exact himage b
    · exact himage c

theorem storeLaws_startCellWrite {k : StoreKind} {b : Bank} {p : Port} {tag : Byte} {s : State} (hk : k ≠ .save)
    (hl : StoreLaw s ∧ TableLaw s) : StoreLaw (startCellWrite k b p tag s) ∧ TableLaw (startCellWrite k b p tag s) := by
  obtain ⟨⟨-, -, -, hprot⟩, ht⟩ := hl
  exact ⟨storeLaw_inFlight (o := ⟨k, b, p, tag⟩) rfl nofun ⟨fun e => absurd e hk, fun h => absurd rfl h⟩
    (fun e => absurd e hk) hprot, ht⟩

/-- R148: LOAD-BANK sets a bank's record but for its protection. -/
theorem storeLaws_setRecord {b : Bank} (r : BankReading) {s : State} (hl : StoreLaw s ∧ TableLaw s) :
    StoreLaw (setRecord b (recordOf r (s.store.records.get b).protected_) s)
      ∧ TableLaw (setRecord b (recordOf r (s.store.records.get b).protected_) s) := by
  obtain ⟨⟨hop, hkind, hcell, hprot⟩, ht⟩ := hl
  refine ⟨⟨hop, hkind, hcell, fun hrun c => ?_⟩, ht⟩
  show ((s.store.records.set b _).get c).protected_ = _
  rw [PerBank.get_set]
  split
  next e => subst e; rw [protected_recordOf]; exact hprot hrun _
  next => exact hprot hrun c

theorem BodyActs.storeLaws {c : Command} {p : Port} {tag : Byte} {s t : State} (h : BodyActs c p tag s t)
    (hrun : s.run = .running) (hl : StoreLaw s ∧ TableLaw s) : StoreLaw t ∧ TableLaw t := by
  cases h with
  | replied => exact hl
  | noticesTaken => exact hl
  | opened =>
    obtain ⟨-, hw, -⟩ := id hl
    refine storeLaws_session (t := respond _ _ _ _ _) hl rfl rfl rfl fun e he => ?_
    cases he
    exact hw
  | edited _ i he hi =>
    obtain ⟨-, -, hs, -⟩ := id hl
    refine storeLaws_session (t := respond _ _ _ _ _) hl rfl rfl rfl fun e he' => ?_
    cases he'
    exact hi.trans (hs _ he)
  | abandoned => exact storeLaws_session (t := respond _ _ _ _ _) hl rfl rfl rfl fun e he => nomatch he
  | committed he =>
    obtain ⟨-, -, hs, -⟩ := id hl
    exact (keepsStore_respond ..).laws ((busChange_commitImage _ s).keepsStore.laws
      (storeLaws_replaced hl (hs _ he) ⟨false, rfl⟩ rfl rfl (.inl rfl)))
  | notLoaded b _ _ => exact (keepsStore_respond ..).laws (storeLaws_setRecord (b := b) _ hl)
  | loaded hr =>
    exact (keepsStore_respond ..).laws ((busChange_loadImage _ _ _ _).keepsStore.laws
      (storeLaws_replaced (storeLaws_setRecord _ hl) (length_slots_of_readBank hr) ⟨_, rfl⟩ rfl rfl (.inr rfl)))
  | saveStarted _ hb => exact storeLaws_startSave hrun hb hl
  | cellWriteStarted _ _ hk => exact storeLaws_startCellWrite hk hl
  | resetStarted hm => exact (busChange_startSegReset hm).keepsStore.laws hl
  | disabled =>
    exact (keepsStore_respond ..).laws ((busChange_finish (s.updSeg _ takeOut)).keepsStore.laws hl)
  | enabled => exact (keepsStore_respond ..).laws ((busChange_retime (s.updSeg _ _)).keepsStore.laws hl)
  | restarted => exact storeLaws_resetAll _ _ hl.2

theorem Row.storeLaws {c : Command} {s t : State} (h : Row c s t) (hrun : s.run = .running)
    (hl : StoreLaw s ∧ TableLaw s) : StoreLaw t ∧ TableLaw t := by
  cases h with
  | same => exact hl
  | denied => exact hl
  | body _ _ hb => exact hb.storeLaws hrun hl

/-- The laws of the store after the completion of a phase: the phase is another of a SAVE, and only the image of the target has changed. -/
theorem storeLaws_savePhase {s : State} {o : StoreOp} {ph : StorePhase} {bs : List Byte} (ho : s.store.op = some o)
    (hp : s.store.phase ≠ .cellWrite) (hph : ph ≠ .idle ∧ ph ≠ .cellWrite) (hbs : bs.length = 336)
    (hl : StoreLaw s ∧ TableLaw s) :
    StoreLaw (s.updStore fun t => { updTarget o (fun b => { b with image := bs }) t with phase := ph })
      ∧ TableLaw (s.updStore fun t => { updTarget o (fun b => { b with image := bs }) t with phase := ph }) := by
  obtain ⟨⟨-, hkind, hcell, hprot⟩, hw, hs, hbuf, himage⟩ := hl
  obtain ⟨hidle, hcellWrite⟩ := hph
  have cell (b : Bank) : ((s.store.banks.set o.bank { s.store.banks.get o.bank with image := bs }).get b).cell
      = (s.store.banks.get b).cell := by
    rw [PerBank.get_set]
    split
    next e => subst e; rfl
    next => rfl
  refine ⟨storeLaw_inFlight ho hidle ⟨fun _ => hcellWrite, fun _ => (hkind o ho).mpr hp⟩
    (fun hk => (cell _).trans (hcell o ho hk)) (fun hr b => (hprot hr b).trans (cell b).symm), hw, hs, hbuf, fun b => ?_⟩
  show ((s.store.banks.set o.bank _).get b).image.length = 336
  rw [PerBank.get_set]
  split
  · exact hbs
  · exact himage b

/-- The laws of the store after an operation's end: the cell and the record's protection of the target agree. -/
theorem storeLaws_storeIdle {s : State} {o : StoreOp} {f : BankCells → BankCells} {r : BankRecord → BankRecord}
    {origin : Origin} (hf : ∀ b, b.image.length = 336 → (f b).image.length = 336)
    (hr : ∀ x b, x.protected_ = b.cell → (r x).protected_ = (f b).cell) (hl : StoreLaw s ∧ TableLaw s) :
    let t : State := { s with
      origin := origin
      store := storeIdle { updTarget o f s.store with
        records := s.store.records.set o.bank (r (s.store.records.get o.bank)) } }
    StoreLaw t ∧ TableLaw t := by
  obtain ⟨⟨-, -, -, hprot⟩, hw, hs, -, himage⟩ := hl
  refine ⟨storeLaw_idle rfl rfl fun hrun b => ?_, hw, hs, (fun i hi => by cases hi), fun b => ?_⟩
  · show ((s.store.records.set o.bank _).get b).protected_ = ((s.store.banks.set o.bank _).get b).cell
    rw [PerBank.get_set, PerBank.get_set]
    split
    · exact hr _ _ (hprot hrun _)
    · exact hprot hrun b
  · show ((s.store.banks.set o.bank _).get b).image.length = 336
    rw [PerBank.get_set]
    split
    · exact hf _ (himage _)
    · exact himage b

/-- R138, R143, R149, 13.3: every command keeps the laws of the store and of the tables. -/
theorem Ran.storeLaws {c : Instr} {s t : State} (h : Ran c s t) (hl : StoreLaw s ∧ TableLaw s) :
    StoreLaw t ∧ TableLaw t := by
  cases h with
  | same => exact hl
  | event hrun h =>
    obtain ⟨u, hu, hb⟩ := h.busChange
    exact hb.keepsStore.laws (hu.storeLaws hrun hl)
  | row _ _ hrun h => exact h.storeLaws hrun hl
  | errorAnswered => exact hl
  | editLapsed =>
    exact (BusChange.note (closeSession s) _ _ _ _ _).keepsStore.laws
      (storeLaws_session (t := closeSession s) hl rfl rfl rfl fun e he => nomatch he)
  | erased _ hp ho => exact storeLaws_savePhase ho (hp ▸ nofun) ⟨nofun, nofun⟩ (List.length_replicate ..) hl
  | written _ hp ho hb =>
    obtain ⟨-, -, hbuf, -⟩ := hl.2
    exact storeLaws_savePhase ho (hp ▸ nofun) ⟨nofun, nofun⟩ (length_bytes (hbuf _ hb)) hl
  | @verified _ o _ hrun hp ho =>
    obtain ⟨⟨hop, hkind, hcell, hprot⟩, ht⟩ := hl
    exact ⟨storeLaw_inFlight ho nofun ⟨fun _ => nofun, fun _ => (hkind o ho).mpr (hp ▸ nofun)⟩ (hcell o ho) hprot, ht⟩
  | @mismatched readBack o =>
    have h := storeLaws_storeIdle (s := s) (o := o) (origin := s.origin) (r := id)
      (f := fun b => { b with image := fitImage readBack, header := Header.erased })
      (fun _ _ => length_fitImage readBack) (fun _ _ h => h) hl
    rw [id, perBank_set_get] at h
    exact (keepsStore_respond ..).laws h
  | @saved o i n =>
    exact (keepsStore_respond ..).laws (storeLaws_storeIdle (s := s) (o := o)
      (r := fun x => { x with valid := true, generation := some n })
      (f := fun b => { b with header := newHeader i n }) (fun _ h => h) (fun _ _ h => h) hl)
  | @cellWritten o =>
    exact (keepsStore_respond ..).laws (storeLaws_storeIdle (s := s) (o := o) (origin := s.origin)
      (r := fun x => { x with protected_ := cellTarget o.kind })
      (f := fun b => { b with cell := cellTarget o.kind }) (fun _ h => h) (fun _ _ _ => rfl) hl)
  | reset => exact storeLaws_resetAll _ _ hl.2
  | stopped _ hr => exact storeLaws_stopped hr hl.2

/-! ### The image and the header of a protected bank (R149) -/

/-- The image and the header of a bank are unchanged. -/
def KeepsBank (b : Bank) (s t : State) : Prop :=
  (t.store.banks.get b).image = (s.store.banks.get b).image ∧ (t.store.banks.get b).header = (s.store.banks.get b).header

theorem KeepsBank.of_store {b : Bank} {s t : State} (h : t.store.banks = s.store.banks) : KeepsBank b s t := by
  unfold KeepsBank
  rw [h]
  exact ⟨rfl, rfl⟩

/-- A change of one bank leaves the other, and, where it keeps image and header, both. -/
theorem keepsBank_set {b c : Bank} {s t : State} {x : BankCells} (h : t.store.banks = s.store.banks.set c x)
    (hx : b = c → x.image = (s.store.banks.get c).image ∧ x.header = (s.store.banks.get c).header) : KeepsBank b s t := by
  unfold KeepsBank
  rw [h, PerBank.get_set]
  split
  next e => subst e; exact hx rfl
  next => exact ⟨rfl, rfl⟩

/-- R149, R151: an interrupted operation leaves the image and the header of a protected bank. -/
theorem keepsBank_abandoned {b : Bank} {s t : State} (hl : StoreLaw s) (hb : (s.store.banks.get b).cell = true)
    (h : t.store.banks = abandonedBanks s.freeCtr s.store) : KeepsBank b s t := by
  unfold abandonedBanks at h
  split at h
  next => exact .of_store h
  next o ho =>
    refine keepsBank_set h fun e => ?_
    subst e
    have hp : s.store.phase = .cellWrite := by
      by_contra hp
      exact absurd ((hl.save ho hp).2.symm.trans hb) nofun
    unfold interrupted
    rw [hp]
    exact ⟨rfl, rfl⟩

theorem BodyActs.keepsBank {c : Command} {p : Port} {tag : Byte} {s t : State} {b : Bank} (h : BodyActs c p tag s t)
    (hrun : s.run = .running) (hl : StoreLaw s) (hb : (s.store.banks.get b).cell = true) : KeepsBank b s t := by
  have of {u : State} (hu : BusChange u t) (h : u.store.banks = s.store.banks) : KeepsBank b s t :=
    .of_store ((congrArg Store.banks hu.store_eq).trans h)
  have answered {u v : State} (st : Status) (pl : List Byte) (hu : BusChange u v) (h : u.store.banks = s.store.banks) :
      KeepsBank b s (respond p st tag pl v) :=
    .of_store ((congrArg Store.banks hu.store_eq).trans h)
  cases h with
  | @saveStarted _ _ c _ _ hc =>
    obtain ⟨-, -, -, hprot⟩ := hl
    refine keepsBank_set (c := c) rfl fun e => ?_
    subst e
    exact absurd (((hprot hrun b).symm.trans hc).symm.trans hb) nofun
  | committed => exact answered _ _ (busChange_commitImage _ s) rfl
  | loaded => exact answered _ _ (busChange_loadImage _ _ _ _) rfl
  | resetStarted hm => exact of (busChange_startSegReset hm) rfl
  | disabled => exact answered _ _ (busChange_finish (s.updSeg _ takeOut)) rfl
  | enabled => exact answered _ _ (busChange_retime (s.updSeg _ _)) rfl
  | restarted =>
    refine keepsBank_abandoned hl hb ?_
    rw [resetAll_eq]
    rfl
  | _ => exact .of_store rfl

theorem Row.keepsBank {c : Command} {s t : State} {b : Bank} (h : Row c s t) (hrun : s.run = .running) (hl : StoreLaw s)
    (hb : (s.store.banks.get b).cell = true) : KeepsBank b s t := by
  cases h with
  | same => exact .of_store rfl
  | denied => exact .of_store rfl
  | body _ _ h => exact h.keepsBank hrun hl hb

/-- R149: no command changes the image or the header of a bank whose cell is SET. -/
theorem Ran.keepsBank {c : Instr} {s t : State} {b : Bank} (h : Ran c s t) (hl : StoreLaw s)
    (hb : (s.store.banks.get b).cell = true) : KeepsBank b s t := by
  have target {o : StoreOp} {x : BankCells} {t : State} (ho : s.store.op = some o) (hp : s.store.phase ≠ .cellWrite)
      (h : t.store.banks = s.store.banks.set o.bank x) : KeepsBank b s t := by
    refine keepsBank_set h fun e => ?_
    subst e
    exact absurd ((hl.save ho hp).2.symm.trans hb) nofun
  cases h with
  | event hrun h =>
    obtain ⟨u, hu, hc⟩ := h.busChange
    obtain ⟨himage, hheader⟩ := hu.keepsBank hrun hl hb
    unfold KeepsBank
    rw [hc.store_eq]
    exact ⟨himage, hheader⟩
  | row _ _ hrun h => exact h.keepsBank hrun hl hb
  | editLapsed => exact .of_store (congrArg Store.banks (BusChange.note (closeSession s) _ _ _ _ _).store_eq)
  | erased _ hp ho => exact target ho (hp ▸ nofun) rfl
  | written _ hp ho => exact target ho (hp ▸ nofun) rfl
  | mismatched _ _ hp ho => exact target ho (hp ▸ nofun) rfl
  | saved _ hp ho => exact target ho (hp ▸ nofun) rfl
  | @cellWritten o => exact keepsBank_set (c := o.bank) rfl fun _ => ⟨rfl, rfl⟩
  | reset =>
    refine keepsBank_abandoned hl hb ?_
    rw [resetAll_eq]
    rfl
  | stopped => exact keepsBank_abandoned hl hb rfl
  | _ => exact .of_store rfl

end Sys2Proof.Machine
end

section
/-!
The laws that hold between steps, under every step: those of the working image, the store and the tables, the Notice Log, the credits, the arbiter's
records, the snapshots and the timers.
-/
namespace Sys2Proof.Machine

open BusChange

/-! ### Steps -/

/-- Every command answers a next state. -/
theorem exec_next (c : Instr) (s : State) : ∃ t, exec c s = .next t := by cases c <;> exact ⟨_, rfl⟩

/-- R188: a step idles, or runs the command at the front of the queue. -/
theorem ran_of_step {s t : State} (h : step s = .next t) : t = s ∨ ∃ c rest, Ran c { s with pending := rest } t := by
  unfold step at h
  split at h
  next => cases h; exact .inl rfl
  next c rest _ => exact .inr ⟨c, rest, ran_of_exec h⟩

/-- A law that does not look at the queue of waiting commands, and that every command keeps, is kept by every step. -/
theorem kept_of_ran {L : State → Prop} (hpend : ∀ s rest, L s → L { s with pending := rest })
    (hran : ∀ {c s t}, Ran c s t → L s → L t) {s t : State} (h : step s = .next t) (hl : L s) : L t := by
  obtain rfl | ⟨c, rest, hr⟩ := ran_of_step h
  · exact hl
  · exact hran hr (hpend s rest hl)

/-! ### The Notice Log (R188, R189) -/

theorem noticeLaw_cleared {t : State} (hn : t.notices = []) (hlost : t.lost = 0) (hs : t.nextSeq = 1) : NoticeLaw t := by
  unfold NoticeLaw
  rw [hn, hlost, hs]
  exact ⟨by decide, by decide, by decide, (fun _ h => nomatch h), fun h => nomatch h⟩

theorem noticeLaw_noteRejected {b : Bank} {r : BankReading} {s : State} (h : NoticeLaw s) :
    NoticeLaw (noteRejected b r s) := by
  cases r with
  | rejected _ _ _ => exact noticeLaw_note _ _ _ _ _ h
  | badHeader => exact h
  | good _ _ => exact h

theorem noticeLaw_resetAll (cause : ResetCause) (pins : ResetPins) (s : State) : NoticeLaw (resetAll cause pins s) := by
  have hbase : NoticeLaw (resetBase cause pins s) := noticeLaw_cleared rfl rfl rfl
  have hload : NoticeLaw (resetLoaded cause pins s) := by
    have h := noticeLaw_noteRejected (b := .bankB) (r := readingB pins s)
      (noticeLaw_noteRejected (b := .bankA) (r := readingA pins s) hbase)
    unfold resetLoaded loadSelected
    split
    · exact noticeLaw_note _ _ _ _ _ h
    · exact noticeLaw_note _ _ _ _ _ h
  rw [resetAll_eq_resetSegments]
  exact hload

/-- R176, R189: TAKE-NOTICES takes the oldest notices and clears the lost counter. -/
theorem noticeLaw_taken {s t : State} (n : Nat) (hn : t.notices = s.notices.drop n) (hlost : t.lost = 0)
    (hs : t.nextSeq = s.nextSeq) (hl : NoticeLaw s) : NoticeLaw t := by
  obtain ⟨hlen, -, hseq, hmem, -⟩ := hl
  unfold NoticeLaw
  rw [hn, hlost, hs]
  refine ⟨?_, by decide, hseq, fun x hx => hmem x (List.mem_of_mem_drop hx), fun h => nomatch h⟩
  rw [List.length_drop]
  omega

theorem noticeLaw_of_eq {s t : State} (h : KeepsNotices s t) (hl : NoticeLaw s) : NoticeLaw t := by
  obtain ⟨hn, hlost, hs⟩ := h
  unfold NoticeLaw
  rwa [hn, hlost, hs]

theorem noticeLaw_respond (p : Port) (st : Status) (tag : Byte) (pl : List Byte) {s : State} (hl : NoticeLaw s) :
    NoticeLaw (respond p st tag pl s) := hl

theorem BodyActs.noticeLaw {c : Command} {p : Port} {tag : Byte} {s t : State} (h : BodyActs c p tag s t)
    (hl : NoticeLaw s) : NoticeLaw t := by
  cases h with
  | noticesTaken n => exact noticeLaw_respond _ _ _ _ (noticeLaw_taken n rfl rfl rfl hl)
  | committed => exact noticeLaw_respond _ _ _ _ ((busChange_commitImage _ s).noticeLaw hl)
  | loaded => exact noticeLaw_respond _ _ _ _ ((busChange_loadImage _ _ _ _).noticeLaw hl)
  | resetStarted hm => exact (busChange_startSegReset hm).noticeLaw hl
  | disabled => exact noticeLaw_respond _ _ _ _ ((busChange_finish (s.updSeg _ takeOut)).noticeLaw hl)
  | enabled => exact noticeLaw_respond _ _ _ _ ((busChange_retime (s.updSeg _ _)).noticeLaw hl)
  | restarted => exact noticeLaw_resetAll _ _ _
  | _ => exact hl

theorem Row.noticeLaw {c : Command} {s t : State} (h : Row c s t) (hl : NoticeLaw s) : NoticeLaw t := by
  cases h with
  | same => exact hl
  | denied => exact hl
  | body _ _ hb => exact hb.noticeLaw hl

/-- R188, R189: every command keeps the bounds of the Notice Log. -/
theorem Ran.noticeLaw {c : Instr} {s t : State} (h : Ran c s t) (hl : NoticeLaw s) : NoticeLaw t := by
  cases h with
  | event _ h =>
    obtain ⟨u, hu, hb⟩ := h.busChange
    exact hb.noticeLaw (hu.noticeLaw hl)
  | row _ _ _ h => exact h.noticeLaw hl
  | editLapsed => exact noticeLaw_note (s := closeSession s) _ _ _ _ _ hl
  | reset => exact noticeLaw_resetAll _ _ _
  | stopped => exact noticeLaw_cleared rfl rfl rfl
  | _ => exact hl

/-! ### Credits (R154, R155) -/

/-- The changes of a bus or a timer do not look at the executor. -/
theorem busChange_freeExecutor {s t : State} (h : BusChange s t) : BusChange (freeExecutor s) (freeExecutor t) := by
  induction h with
  | refl s => exact .refl _
  | seq _ _ ih1 ih2 => exact ih1.seq ih2
  | @port s p f hc hs => exact .port (s := freeExecutor s) hc hs
  | @seg s g f h => exact .seg (s := freeExecutor s) h
  | note s k p g n d =>
    have e : freeExecutor (Machine.note k p g n d s) = Machine.note k p g n d (freeExecutor s) := by
      unfold Machine.note freeExecutor
      split <;> rfl
    rw [e]
    exact .note _ _ _ _ _ _
  | lease s l => exact .lease (freeExecutor s) l
  | @frame s p e he h => exact .frame (s := freeExecutor s) e he h
  | @openFrame s p f h hr hs =>
    refine .openFrame (s := freeExecutor s) (p := p) (f := f) ?_ hr hs
    unfold creditFree accepted at *
    simp only [decide_eq_true_eq] at *
    exact Nat.lt_of_le_of_lt (Nat.add_le_add_right (Nat.add_le_add_right (Nat.add_le_add_right
      (Nat.add_le_add_left (Nat.zero_le _) _) _) _) _) h
  | @answer s g r st pl h => exact .answer (s := freeExecutor s) st pl h

/-- R155: the credits of a port, by where they are held. -/
theorem creditsInUse_parts (s : State) (q : Port) : creditsInUse s q =
    (s.port q).credits + (s.cmdQueue.filter fun e => e.port == q).length + one (s.executing.any fun e => e.port == q)
      + one (s.store.op.any fun o => o.port == q) + (s.segResets.filter fun r => r.port == q).length := by
  rw [creditsInUse_eq]
  unfold accepted
  omega

theorem one_le_one (b : Bool) : one b ≤ 1 := by cases b <;> decide

theorem length_filter_cons {α : Type} (f : α → Bool) (x : α) (l : List α) :
    ((x :: l).filter f).length = one (f x) + (l.filter f).length := by
  rw [List.filter_cons]
  cases f x
  · simp [one]
  · simp [one, Nat.add_comm]

/-- R161: a response holds a credit of its port. -/
theorem credits_respond (p : Port) (st : Status) (tag : Byte) (pl : List Byte) (s : State) (q : Port) :
    ((respond p st tag pl s).port q).credits = (s.port q).credits + one (p == q) := by
  rw [respond, State.port_updPort]
  split
  next h =>
    subst h
    rw [beq_self_eq_true]
    show _ + (_ ++ [_]).length = _ + _ + 1
    rw [List.length_append, ← Nat.add_assoc]
    rfl
  next h => rw [beq_false_of_ne (Ne.symm h)]; rfl

/-- R159: the entry that executes keeps the credit it had in the queue. -/
theorem creditsInUse_takeHead {s : State} {e : QEntry} {rest : List QEntry} (he : s.executing = none)
    (hq : s.cmdQueue = e :: rest) (q : Port) : creditsInUse (takeHead e rest s) q = creditsInUse s q := by
  rw [creditsInUse_parts, creditsInUse_parts, he, hq, length_filter_cons]
  show (s.port q).credits + (rest.filter _).length + one (e.port == q) + one (s.store.op.any _)
    + (s.segResets.filter _).length = _ + _ + one false + _ + _
  have : one false = 0 := rfl
  omega

/-- R155: with the executor free again, the credit of the entry it executed is given back, and another one of the same port may have been taken. -/
theorem creditsInUse_freed {s t : State} {e : QEntry} (he : s.executing = some e) (ht : t.executing = none) (q : Port)
    (h : (t.port q).credits + (t.cmdQueue.filter fun e => e.port == q).length
        + one (t.store.op.any fun o => o.port == q) + (t.segResets.filter fun r => r.port == q).length
      ≤ (s.port q).credits + (s.cmdQueue.filter fun e => e.port == q).length
        + one (s.store.op.any fun o => o.port == q) + (s.segResets.filter fun r => r.port == q).length
        + one (e.port == q)) : creditsInUse t q ≤ creditsInUse s q := by
  rw [creditsInUse_parts, creditsInUse_parts, he, ht, Option.any_some, Option.any_none]
  have : one false = 0 := rfl
  omega

/-- R161: the response takes the credit of the entry that executed. -/
theorem creditLaw_responded {s : State} {e : QEntry} (he : s.executing = some e) (st : Status) (tag : Byte)
    (pl : List Byte) (hl : CreditLaw s) : CreditLaw (freeExecutor (respond e.port st tag pl s)) := by
  intro q
  refine le_trans (creditsInUse_freed he rfl q ?_) (hl q)
  have h := credits_respond e.port st tag pl s q
  show ((respond e.port st tag pl s).port q).credits + (s.cmdQueue.filter _).length + one (s.store.op.any _)
    + (s.segResets.filter _).length ≤ _
  omega

/-- R143: the operation in flight takes the credit of the entry that executed. -/
theorem creditLaw_opStarted {s t : State} {e : QEntry} {k : StoreKind} {b : Bank} {tag : Byte}
    (he : s.executing = some e) (hop : t.store.op = some ⟨k, b, e.port, tag⟩) (ht : t.executing = none)
    (hp : t.ports = s.ports) (hq : t.cmdQueue = s.cmdQueue) (hr : t.segResets = s.segResets) (hl : CreditLaw s) :
    CreditLaw t := by
  intro q
  refine le_trans (creditsInUse_freed he ht q ?_) (hl q)
  have hport : t.port q = s.port q := congrArg (PerPort.get · q) hp
  rw [hport, hq, hr, hop, Option.any_some]
  show _ + _ + one (e.port == q) + _ ≤ _
  omega

/-- R161: a SEGMENT-RESET handed off takes the credit of the entry that executed. -/
theorem creditLaw_handedOff {s : State} {e : QEntry} {g : Seg} {tag : Byte} (he : s.executing = some e)
    (hl : CreditLaw s) : CreditLaw (freeExecutor { s with segResets := s.segResets ++ [⟨g, e.port, tag⟩] }) := by
  intro q
  refine le_trans (creditsInUse_freed he rfl q ?_) (hl q)
  have h : ((s.segResets ++ [SegReset.mk g e.port tag]).filter fun r => r.port == q).length
      = (s.segResets.filter fun r => r.port == q).length + one (e.port == q) := by
    rw [List.filter_append, List.length_append, length_filter_cons]
    rfl
  show (s.port q).credits + (s.cmdQueue.filter _).length + one (s.store.op.any _)
    + ((s.segResets ++ [SegReset.mk g e.port tag]).filter fun r => r.port == q).length ≤ _
  rw [h]
  omega

/-- What the credits look at is unchanged. -/
theorem creditLaw_of_eq {s t : State} (hp : t.ports = s.ports) (hq : t.cmdQueue = s.cmdQueue)
    (he : t.executing = s.executing) (ho : t.store.op = s.store.op) (hr : t.segResets = s.segResets)
    (hl : CreditLaw s) : CreditLaw t := by
  intro q
  have hport : t.port q = s.port q := congrArg (PerPort.get · q) hp
  rw [creditsInUse_parts, hport, hq, he, ho, hr, ← creditsInUse_parts]
  exact hl q

theorem creditLaw_cleared {t : State} (hp : ∀ q, t.port q = PortState.reset) (hq : t.cmdQueue = [])
    (he : t.executing = none) (ho : t.store.op = none) (hr : t.segResets = []) : CreditLaw t := by
  intro q
  rw [creditsInUse_parts, hp, hq, he, ho, hr]
  show 0 ≤ 4
  decide

theorem creditLaw_resetAll (cause : ResetCause) (pins : ResetPins) (s : State) : CreditLaw (resetAll cause pins s) := by
  refine creditLaw_cleared (resetAll_port cause pins s) ?_ ?_ ?_ ?_
  all_goals rw [resetAll_eq]; try rfl

/-- R154, R155: a body and the end of its execution keep the bound of the credits. -/
theorem BodyActs.creditLaw {c : Command} {p : Port} {tag : Byte} {s t : State} {e : QEntry} (h : BodyActs c p tag s t)
    (he : s.executing = some e) (hp : e.port = p) (hl : CreditLaw s) : CreditLaw (freeExecutor t) := by
  subst hp
  have replied {u v : State} {st : Status} {pl : List Byte} (hu : BusChange u v) (hus : u.executing = s.executing)
      (hlu : CreditLaw u) : CreditLaw (freeExecutor (respond e.port st tag pl v)) :=
    creditLaw_responded (hu.executing_eq.trans (hus.trans he)) st tag pl (hu.creditLaw hlu)
  cases h with
  | replied _ st pl => exact creditLaw_responded he st tag pl hl
  | noticesTaken n pl => exact replied (.refl _) rfl (creditLaw_of_eq rfl rfl rfl rfl rfl hl)
  | opened => exact replied (.refl _) rfl (creditLaw_of_eq rfl rfl rfl rfl rfl hl)
  | edited => exact replied (.refl _) rfl (creditLaw_of_eq rfl rfl rfl rfl rfl hl)
  | abandoned => exact replied (.refl _) rfl (creditLaw_of_eq rfl rfl rfl rfl rfl hl)
  | committed => exact replied (busChange_commitImage _ s) rfl (creditLaw_of_eq rfl rfl rfl rfl rfl hl)
  | notLoaded => exact replied (.refl _) rfl (creditLaw_of_eq rfl rfl rfl rfl rfl hl)
  | loaded => exact replied (busChange_loadImage _ _ _ _) rfl (creditLaw_of_eq rfl rfl rfl rfl rfl hl)
  | saveStarted => exact creditLaw_opStarted he rfl rfl rfl rfl rfl hl
  | cellWriteStarted => exact creditLaw_opStarted he rfl rfl rfl rfl rfl hl
  | resetStarted hm =>
    exact (busChange_freeExecutor (busChange_startSegReset hm)).creditLaw (creditLaw_handedOff he hl)
  | disabled => exact replied (busChange_finish (s.updSeg _ takeOut)) rfl (creditLaw_of_eq rfl rfl rfl rfl rfl hl)
  | enabled => exact replied (busChange_retime (s.updSeg _ _)) rfl (creditLaw_of_eq rfl rfl rfl rfl rfl hl)
  | restarted pins =>
    have hfree : (resetAll .restart pins s).executing = none := by rw [resetAll_eq]
    exact creditLaw_of_eq (s := resetAll .restart pins s) rfl rfl hfree.symm rfl rfl (creditLaw_resetAll _ _ _)

theorem answered_eq (p : Port) (st : Status) (tag : Byte) (pl : List Byte) {e : QEntry} {rest : List QEntry} {s : State}
    (he : s.executing = none) :
    answered p st tag pl rest s = freeExecutor (respond p st tag pl (takeHead e rest s)) :=
  (respond_takeHead he p st tag pl e rest).symm

theorem Row.creditLaw {c : Command} {s t : State} (h : Row c s t) (hl : CreditLaw s) : CreditLaw t := by
  have taken {e : QEntry} {rest : List QEntry} (he : s.executing = none) (hq : s.cmdQueue = e :: rest) :
      CreditLaw (takeHead e rest s) := fun q => creditsInUse_takeHead he hq q ▸ hl q
  cases h with
  | same => exact hl
  | @denied p tag payload rest he hq =>
    rw [answered_eq (e := .frame p c tag payload) p _ tag _ he]
    exact creditLaw_responded (e := .frame p c tag payload) rfl _ _ _ (taken he hq)
  | body he hq hb => exact hb.creditLaw rfl rfl (taken he hq)

/-- R146, R149: the response that ends an operation takes its credit. -/
theorem creditLaw_opEnded {s t : State} {o : StoreOp} {st : Status} {pl : List Byte} (ho : s.store.op = some o)
    (ht : t.store.op = none) (hp : t.ports = (respond o.port st o.tag pl s).ports) (hq : t.cmdQueue = s.cmdQueue)
    (he : t.executing = s.executing) (hr : t.segResets = s.segResets) (hl : CreditLaw s) : CreditLaw t := by
  intro q
  refine le_trans ?_ (hl q)
  have hport : t.port q = (respond o.port st o.tag pl s).port q := congrArg (PerPort.get · q) hp
  have h := credits_respond o.port st o.tag pl s q
  rw [creditsInUse_parts, creditsInUse_parts, hport, hq, he, hr, ht, ho, Option.any_some, Option.any_none, h]
  have : one false = 0 := rfl
  omega

/-- R154, R155: every command keeps the bound of the credits. -/
theorem Ran.creditLaw {c : Instr} {s t : State} (h : Ran c s t) (hl : CreditLaw s) : CreditLaw t := by
  cases h with
  | same => exact hl
  | event _ h =>
    obtain ⟨u, hu, hb⟩ := h.busChange
    exact hb.creditLaw (hu.creditLaw hl)
  | row _ _ _ h => exact h.creditLaw hl
  | @errorAnswered p st tag rest _ _ he hq =>
    rw [answered_eq (e := .error p st tag) p st tag [] he]
    exact creditLaw_responded (e := .error p st tag) rfl st tag [] fun q => creditsInUse_takeHead he hq q ▸ hl q
  | editLapsed =>
    exact (BusChange.note (closeSession s) _ _ _ _ _).creditLaw (creditLaw_of_eq rfl rfl rfl rfl rfl hl)
  | erased => exact creditLaw_of_eq rfl rfl rfl rfl rfl hl
  | written => exact creditLaw_of_eq rfl rfl rfl rfl rfl hl
  | verified => exact creditLaw_of_eq rfl rfl rfl rfl rfl hl
  | mismatched _ _ _ ho => exact creditLaw_opEnded ho rfl rfl rfl rfl rfl hl
  | saved _ _ ho => exact creditLaw_opEnded ho rfl rfl rfl rfl rfl hl
  | cellWritten _ _ ho => exact creditLaw_opEnded ho rfl rfl rfl rfl rfl hl
  | reset => exact creditLaw_resetAll _ _ _
  | stopped => exact creditLaw_cleared (fun q => by cases q <;> rfl) rfl rfl rfl rfl

/-- R154: with at most four credits a port, the Command Queue holds at most eight entries. -/
theorem length_cmdQueue_le {s : State} (h : CreditLaw s) : s.cmdQueue.length ≤ 8 := by
  have hsplit : ∀ l : List QEntry,
      (l.filter fun e => e.port == .u0).length + (l.filter fun e => e.port == .u1).length = l.length := by
    intro l
    induction l with
    | nil => rfl
    | cons e l ih =>
      rw [length_filter_cons, length_filter_cons, List.length_cons]
      have h : one (e.port == .u0) + one (e.port == .u1) = 1 := by cases e.port <;> rfl
      omega
  have h0 := h .u0
  have h1 := h .u1
  rw [creditsInUse_parts] at h0 h1
  have := hsplit s.cmdQueue
  omega

theorem length_responses_le {s : State} (h : CreditLaw s) (p : Port) : (s.port p).responses.length ≤ 4 := by
  have hp := h p
  rw [creditsInUse_parts] at hp
  unfold PortState.credits at hp
  omega

theorem alertLow_iff {s : State} (hrun : s.run = .running) (p : Port) :
    alertLow s p = true ↔ s.notices ≠ [] ∧ s.working.params.alert.get p = true := by
  unfold alertLow
  rw [hrun]
  cases s.notices <;> simp

/-! ### Laws of the ports and the segments -/

/-- Nothing changes of the segments, and of the ports nothing but the responses. -/
def Aside (s t : State) : Prop := t.segs = s.segs ∧ ∀ p, ∃ rs, t.port p = { s.port p with responses := rs }

theorem Aside.refl (s : State) : Aside s s := ⟨rfl, fun _ => ⟨_, rfl⟩⟩

theorem Aside.of_eq {s t : State} (hs : t.segs = s.segs) (hp : t.ports = s.ports) : Aside s t :=
  ⟨hs, fun p => ⟨_, congrArg (PerPort.get · p) hp⟩⟩

theorem Aside.trans {s t u : State} (h : Aside s t) (k : Aside t u) : Aside s u := by
  refine ⟨k.1.trans h.1, fun p => ?_⟩
  obtain ⟨rs, hrs⟩ := h.2 p
  obtain ⟨rs', hrs'⟩ := k.2 p
  exact ⟨rs', by rw [hrs', hrs]⟩

theorem aside_respond (p : Port) (st : Status) (tag : Byte) (pl : List Byte) (s : State) :
    Aside s (respond p st tag pl s) := by
  refine ⟨rfl, fun q => ?_⟩
  rw [respond, State.port_updPort]
  split
  next h => subst h; exact ⟨_, rfl⟩
  next => exact ⟨_, rfl⟩

theorem Aside.seg {s t : State} (h : Aside s t) (g : Seg) : t.seg g = s.seg g := congrArg (PerSeg.get · g) h.1

/-- What a law of the ports and the segments needs in order to be kept by every command. -/
structure Sustained (L : State → Prop) : Prop where
  aside : ∀ {s t}, Aside s t → L s → L t
  acts : ∀ {c s t}, (∀ u, Row .segmentDisable s u → L u) → Acts c s t → L s → L t
  replaced : ∀ {i o s t}, Aside (replaceImage i o s) t → L s → L (finish t)
  segReset : ∀ {g s}, mgmtHas (s.seg g) = false → (s.seg g).cond ≠ .disabled → (s.seg g).pendingDisable = false → L s →
    L (finish (if (s.seg g).cond = .faulted then beginRecovery g (some .mgmt) s else claim g .mgmt s))
  disabled : ∀ {g s}, (s.seg g).cond ≠ .faulted → L s → L (finish (s.updSeg g takeOut))
  enabled : ∀ {g q s}, (s.seg g).cond ≠ .faulted → L s → L (retime (s.updSeg g (putIn q)))
  cleared : ∀ {s}, (∀ p, s.port p = PortState.reset) → (∀ g, ∃ q g' l, s.seg g = resetSegment q g' l ∨ s.seg g = SegState.reset l)
    → L s

namespace Sustained

theorem resetAll {L : State → Prop} (h : Sustained L) (cause : ResetCause) (pins : ResetPins) (s : State) :
    L (resetAll cause pins s) :=
  h.cleared (resetAll_port cause pins s) fun g => ⟨_, g, _, .inl (resetAll_seg cause pins s g)⟩

theorem body {L : State → Prop} (h : Sustained L) {c : Command} {p : Port} {tag : Byte} {s t : State}
    (hb : BodyActs c p tag s t) (hl : L s) : L t := by
  have respond {p : Port} {st : Status} {tag : Byte} {pl : List Byte} {u : State} (hu : L u) :
      L (respond p st tag pl u) := h.aside (aside_respond ..) hu
  have same {u : State} (hs : u.segs = s.segs) (hp : u.ports = s.ports) : L u := h.aside (.of_eq hs hp) hl
  cases hb with
  | replied => exact respond hl
  | noticesTaken => exact respond (same rfl rfl)
  | opened => exact respond (same rfl rfl)
  | edited => exact respond (same rfl rfl)
  | abandoned => exact respond (same rfl rfl)
  | committed => exact respond (h.replaced (o := .edited) (.of_eq rfl rfl) hl)
  | notLoaded => exact respond (same rfl rfl)
  | loaded => exact respond (h.replaced (s := setRecord _ _ s) (.refl _) (same rfl rfl))
  | saveStarted => exact same rfl rfl
  | cellWriteStarted => exact same rfl rfl
  | @resetStarted _ _ g _ hm hd hp =>
    exact h.segReset (s := { s with segResets := s.segResets ++ [⟨g, p, tag⟩] }) hm hd hp (same rfl rfl)
  | disabled _ hf => exact respond (h.disabled hf hl)
  | enabled _ hf => exact respond (h.enabled hf hl)
  | restarted => exact h.resetAll _ _ _

theorem row {L : State → Prop} (h : Sustained L) {c : Command} {s t : State} (hr : Row c s t) (hl : L s) : L t := by
  cases hr with
  | same => exact hl
  | denied he hq =>
    rw [answered_eq (e := .error .u0 .ok 0#8) _ _ _ _ he]
    exact h.aside ((Aside.of_eq (s := s) rfl rfl).trans ((aside_respond ..).trans (.of_eq rfl rfl))) hl
  | @body _ _ _ _ u _ _ hb =>
    exact h.aside (s := u) (.of_eq rfl rfl) (h.body hb (h.aside (s := s) (.of_eq rfl rfl) hl))

theorem ran {L : State → Prop} (h : Sustained L) {c : Instr} {s t : State} (hr : Ran c s t) (hl : L s) : L t := by
  cases hr with
  | same => exact hl
  | event _ ha => exact h.acts (fun u hu => h.row hu hl) ha hl
  | row _ _ _ hr => exact h.row hr hl
  | errorAnswered _ he =>
    rw [answered_eq (e := .error .u0 .ok 0#8) _ _ _ _ he]
    exact h.aside ((Aside.of_eq (s := s) rfl rfl).trans ((aside_respond ..).trans (.of_eq rfl rfl))) hl
  | editLapsed =>
    refine h.aside ((Aside.of_eq (s := s) (t := closeSession s) rfl rfl).trans (.of_eq ?_ ?_)) hl
    · exact PerSeg.ext_get fun g => note_seg _ _ _ _ _ _ g
    · exact PerPort.ext_get fun p => note_port _ _ _ _ _ _ p
  | erased => exact h.aside (.of_eq (s := s) rfl rfl) hl
  | written => exact h.aside (.of_eq (s := s) rfl rfl) hl
  | verified => exact h.aside (.of_eq (s := s) rfl rfl) hl
  | mismatched => exact h.aside ((Aside.of_eq (s := s) rfl rfl).trans (aside_respond ..)) hl
  | saved => exact h.aside ((Aside.of_eq (s := s) rfl rfl).trans (aside_respond ..)) hl
  | cellWritten => exact h.aside ((Aside.of_eq (s := s) rfl rfl).trans (aside_respond ..)) hl
  | reset => exact h.resetAll _ _ _
  | stopped =>
    exact h.cleared (fun p => by cases p <;> rfl) fun g => ⟨Params.default, g, (seenLines s).get g, .inr (by cases g <;> rfl)⟩

/-- A law of the ports and the segments that every command keeps is kept by every step. -/
theorem step {L : State → Prop} (h : Sustained L) {s t : State} (hs : step s = .next t) (hl : L s) : L t :=
  kept_of_ran (fun s _ hl => h.aside (.of_eq (s := s) rfl rfl) hl) h.ran hs hl

end Sustained

/-! ### The timers (R59, R114) -/

theorem TimersLaw.updPort {s : State} {p : Port} {f : PortState → PortState} (hl : TimersLaw s)
    (h : ∀ r, (f r).phase = r.phase ∧ (f r).sclHeld = r.sclHeld ∧ (f r).stall.isSome = r.stall.isSome) :
    TimersLaw (s.updPort p f) := by
  refine ⟨fun q => ?_, hl.2⟩
  have hq := hl.1 q
  obtain ⟨hphase, hscl, hstall⟩ := h (s.port p)
  have same : ((s.updPort p f).port q).phase = (s.port q).phase ∧ ((s.updPort p f).port q).sclHeld = (s.port q).sclHeld
      ∧ ((s.updPort p f).port q).stall.isSome = (s.port q).stall.isSome := by
    rw [State.port_updPort]
    split
    next e => subst e; exact ⟨hphase, hscl, hstall⟩
    next => exact ⟨rfl, rfl, rfl⟩
  rw [same.2.2, hq]
  exact (stallRuns_congr (s := s) (t := s.updPort p f) (p := q) (fun _ => rfl) same.1 same.2.1).symm

theorem isSome_stall_edge (n : Nat) (r : PortState) :
    (mgmtEdge (edgeSeen (restartStall n r))).phase = r.phase ∧ (mgmtEdge (edgeSeen (restartStall n r))).sclHeld = r.sclHeld
      ∧ (mgmtEdge (edgeSeen (restartStall n r))).stall.isSome = r.stall.isSome := by
  unfold mgmtEdge edgeSeen
  split <;> exact ⟨rfl, rfl, Option.isSome_map ..⟩

/-- The timers look at neither the clock-limit timer nor the progress of a byte that a leg places. -/
theorem timersLaw_bytePlaced {p : Port} {g : Seg} {b : Byte} {s : State} (ho : owns s p g = true)
    (ha : (s.seg g).activity = some (.writing b false)) (hl : TimersLaw s) : TimersLaw (bytePlaced p g b s) := by
  have hseg : TimersLaw (startClock g (s.updSeg g fun c => { c with activity := some (.writing b true) })) := by
    unfold startClock
    have hown : ∀ h, (((s.updSeg g fun c => { c with activity := some (.writing b true) }).updSeg g fun c =>
        { c with clock := some s.working.params.clockLimit }).seg h).owner = (s.seg h).owner := by
      intro h
      rw [State.seg_updSeg, State.seg_updSeg_self, State.seg_updSeg]
      split
      next e => subst e; rfl
      next => rfl
    refine ⟨fun q => (hl.1 q).trans (stallRuns_congr hown rfl rfl).symm, fun h => ?_⟩
    rw [State.seg_updSeg, State.seg_updSeg_self, State.seg_updSeg]
    split
    next e =>
      subst e
      refine (hl.2 h).trans ?_
      have hm : (s.seg h).owner = some (.port p) := beq_iff_eq.mp ho
      have hb : ∀ x, (Activity.writing b x == .addressing .waitFresh) = false := fun _ => beq_false_of_ne nofun
      simp [SegState.quietRuns, SegState.watched, SegState.waiting, ha, hm, hb]
    next => exact hl.2 h
  unfold bytePlaced
  dsimp only
  have hleg := TimersLaw.updPort (p := p) (f := fun r => { r with legs := r.legs.map fun l =>
    if l.seg == g then { l with down := crc8 l.down b } else l }) hseg fun _ => ⟨rfl, rfl, rfl⟩
  split
  · split
    · exact hleg
    · exact TimersLaw.updPort hleg fun _ => ⟨rfl, rfl, rfl⟩
  · exact hleg

theorem timersLaw_finish (s : State) : TimersLaw (finish s) := timersLaw_retime _

theorem sustained_timersLaw : Sustained TimersLaw where
  aside := by
    intro s t h hl
    refine ⟨fun p => ?_, fun g => ?_⟩
    · obtain ⟨rs, hp⟩ := h.2 p
      rw [stallRuns_congr (s := s) (fun g => by rw [h.seg]) (by rw [hp]) (by rw [hp]), hp]
      exact hl.1 p
    · rw [h.seg]
      exact hl.2 g
  acts := by
    intro c s t _ ha hl
    cases ha with
    | drainWrite => exact hl.updPort fun _ => ⟨rfl, rfl, rfl⟩
    | drainRead => exact hl.updPort fun _ => ⟨rfl, rfl, rfl⟩
    | mgmtWriteByte => exact hl.updPort fun _ => ⟨rfl, rfl, rfl⟩
    | mgmtReadAck => exact hl.updPort fun _ => ⟨rfl, rfl, rfl⟩
    | upstreamSclEdge p => exact hl.updPort (isSome_stall_edge _)
    | bytePlaced ho ha => exact timersLaw_bytePlaced ho ha hl
    | holdExpired => exact timersLaw_finish _
    | openLow => exact timersLaw_finish _
    | stopPlaced => exact timersLaw_finish _
    | arbLost => exact timersLaw_finish _
    | foreignStop => exact timersLaw_finish _
    | clockRecovering => exact timersLaw_finish _
    | clockExpired => exact timersLaw_finish _
    | quietHigh => exact timersLaw_finish _
    | quietLow => exact timersLaw_finish _
    | recoveryAttemptEnd => exact timersLaw_finish _
    | stopEdge => exact timersLaw_finish _
    | _ => exact timersLaw_retime _
  replaced := fun _ _ => timersLaw_finish _
  segReset := fun _ _ _ _ => timersLaw_finish _
  disabled := fun _ _ => timersLaw_finish _
  enabled := fun _ _ => timersLaw_retime _
  cleared := by
    intro s hp hg
    have seg (g : Seg) : (s.seg g).owner = none ∧ (s.seg g).quiet = none ∧ (s.seg g).foreignBusy = false
        ∧ (s.seg g).activity = none ∧ ((s.seg g).cond = .idle → (s.seg g).lines.bothHigh = true ∨ (s.seg g).mode = .exclusive)
        ∧ (s.seg g).cond ≠ .foreign ∧ (s.seg g).cond ≠ .owned := by
      obtain ⟨q, g', l, h | h⟩ := hg g
      · rw [h]
        unfold resetSegment
        dsimp only
        split
        · exact ⟨rfl, rfl, rfl, rfl, nofun, nofun, nofun⟩
        · split
          next hl => exact ⟨rfl, rfl, rfl, rfl, fun _ => .inl hl, nofun, nofun⟩
          next => exact ⟨rfl, rfl, rfl, rfl, nofun, nofun, nofun⟩
      · rw [h]
        exact ⟨rfl, rfl, rfl, rfl, fun _ => .inr rfl, nofun, nofun⟩
    refine ⟨fun p => ?_, fun g => ?_⟩
    · simp [stallRuns, hp p, PortState.reset]
    · obtain ⟨-, hq, hb, -, hi, hf, ho⟩ := seg g
      rw [hq]
      unfold SegState.quietRuns SegState.watched SegState.waiting
      cases hc : (s.seg g).cond
      case idle => rcases hi hc with h | h <;> simp [h, hb]
      case foreign => exact absurd hc hf
      case owned => exact absurd hc ho
      all_goals simp

/-! ### The arbiter's records (R91) -/

theorem SegState.lawful_takeOut {c : SegState} (h : c.lawful) : (takeOut c).lawful := by
  obtain ⟨hnodup, hown, hport, hmgmt, howned⟩ := h
  unfold takeOut
  split
  next hc =>
    refine ⟨hnodup, hown, fun p e => ?_, fun e => ?_, nofun⟩
    · rw [hport p e] at hc; rcases hc with h | h <;> cases h
    · rcases hmgmt e with h | h <;> rw [h] at hc <;> rcases hc with h | h <;> cases h
  next => split <;> exact ⟨hnodup, hown, hport, hmgmt, howned⟩

theorem SegState.lawful_putIn {q : SegParams} {c : SegState} (h : c.lawful) : (putIn q c).lawful := by
  obtain ⟨hnodup, hown, hport, hmgmt, howned⟩ := h
  unfold putIn
  split
  next hc =>
    refine ⟨hnodup, hown, fun p e => ?_, fun e => ?_, nofun⟩
    · exact absurd ((hport p e).symm.trans hc) nofun
    · rcases hmgmt e with h | h <;> exact absurd (h.symm.trans hc) nofun
  next => exact ⟨hnodup, hown, hport, hmgmt, howned⟩

theorem SegState.lawful_applyMode {q : SegParams} {c : SegState} (h : c.lawful) : (applyMode q c).lawful := by
  obtain ⟨hnodup, hown, hport, hmgmt, howned⟩ := h
  unfold applyMode
  split
  next hc =>
    split
    · exact ⟨hnodup, hown, hport, hmgmt, howned⟩
    · refine ⟨hnodup, hown, fun p e => ?_, fun e => ?_, nofun⟩
      · rw [hport p e] at hc; rcases hc with h | h <;> cases h
      · rcases hmgmt e with h | h <;> rw [h] at hc <;> rcases hc with h | h <;> cases h
  next => exact ⟨hnodup, hown, hport, hmgmt, howned⟩

theorem SegState.lawful_replaceSegment {q : SegParams} {c : SegState} (h : c.lawful) : (replaceSegment q c).lawful := by
  refine SegState.lawful_applyMode ?_
  unfold applyService
  split
  · exact SegState.lawful_takeOut h
  · exact SegState.lawful_putIn h

theorem replaceImage_seg (i : Image) (o : Origin) (s : State) (g : Seg) :
    (replaceImage i o s).seg g = replaceSegment (i.params.segs.get g) (s.seg g) := by
  cases g <;> rfl

theorem replaceImage_port (i : Image) (o : Origin) (s : State) (p : Port) : (replaceImage i o s).port p = s.port p := rfl

theorem sustained_arbiterLaw : Sustained ArbiterLaw where
  aside := by
    intro s t h hl g
    rw [h.seg]
    exact hl g
  acts := by
    intro c s t hd ha hl
    obtain ⟨u, hu, hb⟩ := ha.busChange
    exact hb.arbiterLaw (hd u hu)
  replaced := by
    intro i o s t h hl
    refine (busChange_finish t).arbiterLaw fun g => ?_
    rw [h.seg, replaceImage_seg]
    exact SegState.lawful_replaceSegment (hl g)
  segReset := fun hm _ _ hl => (busChange_segResetActs hm).arbiterLaw hl
  disabled := fun _ hl => (busChange_finish _).arbiterLaw (hl.updSeg SegState.lawful_takeOut)
  enabled := fun _ hl => (busChange_retime _).arbiterLaw (hl.updSeg SegState.lawful_putIn)
  cleared := by
    intro s _ hg g
    obtain ⟨q, g', l, h | h⟩ := hg g
    · rw [h]
      unfold resetSegment
      dsimp only
      split
      · exact ⟨List.nodup_nil, nofun, nofun, nofun, nofun⟩
      · split <;> exact ⟨List.nodup_nil, nofun, nofun, nofun, nofun⟩
    · rw [h]
      exact ⟨List.nodup_nil, nofun, nofun, nofun, nofun⟩

/-! ### The snapshots (R12) -/

theorem sustained_snapshotLaw : Sustained SnapshotLaw where
  aside := by
    intro s t h hl p
    obtain ⟨rs, hp⟩ := h.2 p
    rw [hp]
    exact hl p
  acts := by
    intro c s t hd ha hl
    obtain ⟨u, hu, hb⟩ := ha.busChange
    exact hb.snapshotLaw (hd u hu)
  replaced := by
    intro i o s t h hl
    refine (busChange_finish t).snapshotLaw fun p => ?_
    obtain ⟨rs, hp⟩ := h.2 p
    rw [hp, replaceImage_port]
    exact hl p
  segReset := fun hm _ _ hl => (busChange_segResetActs hm).snapshotLaw hl
  disabled := fun _ hl => (busChange_finish (State.updSeg _ _ takeOut)).snapshotLaw hl
  enabled := fun _ hl => (busChange_retime (State.updSeg _ _ _)).snapshotLaw hl
  cleared := fun hp _ p _ => by rw [hp]; rfl

end Sys2Proof.Machine

namespace Sys2Proof.Machine.Laws

/-- Settles O1: by the inversion of every command, the queue of waiting commands stands. -/
theorem stepRunsFront : Obligations.StepRunsFront := by
  refine ⟨fun s => ⟨fun c rest h => ?_, fun h => ?_⟩, fun c s => ?_⟩
  · rw [step, h]
  · rw [step, h]
  · obtain ⟨t, ht⟩ := exec_next c s
    exact ⟨t, ht, (ran_of_exec ht).pending_eq⟩

/-- Settles O3: a replacement event brings in an image that validation has passed, and no other command touches it. -/
theorem workingLawKept : Obligations.WorkingLawKept :=
  fun _ _ hl h => kept_of_ran (fun _ _ hl => hl) Ran.workingLaw h hl

/-- Settles O4: notices arrive one at a time, and every credit that is taken is one that was free or is handed on. -/
theorem noticeAndCreditLawsKept : Obligations.NoticeAndCreditLawsKept :=
  ⟨fun _ _ h => ⟨kept_of_ran (fun _ _ hl => hl) Ran.noticeLaw h, kept_of_ran (fun _ _ hl => hl) Ran.creditLaw h⟩,
    fun _ => ⟨fun p hrun => alertLow_iff hrun p, fun hl => ⟨length_cmdQueue_le hl, length_responses_le hl⟩⟩⟩

/-- Settles O5. -/
theorem arbiterAndSnapshotLawsKept : Obligations.ArbiterAndSnapshotLawsKept :=
  fun _ _ h => ⟨sustained_arbiterLaw.step h, sustained_snapshotLaw.step h⟩

/-- Settles O7: every command that may start or stop a timer's condition ends with `retime`. -/
theorem timersLawKept : Obligations.TimersLawKept := fun _ _ hl h => sustained_timersLaw.step h hl

/-- Settles O8. -/
theorem storeLawKept : Obligations.StoreLawKept :=
  fun _ _ hs ht h => kept_of_ran (L := fun s => StoreLaw s ∧ TableLaw s) (fun _ _ hl => hl) Ran.storeLaws h ⟨hs, ht⟩

/-- Settles O9. -/
theorem storedAndWorkingImagesKept : Obligations.StoredAndWorkingImagesKept :=
  fun _ _ _ h => ⟨fun _ hl hb => (ran_of_exec h).keepsBank hl hb, fun hc => (ran_of_exec h).keepsWorking hc⟩

end Sys2Proof.Machine.Laws
end

section
/-!
PROOFS. What the three resets, the RESET line and the loss of supply leave (O10, O11, O12): the notices of a load, numbered; the selection of a
bank; and what an interrupted store operation leaves of its bank.
-/
namespace Sys2Proof.Machine

/-! ### The notices of a load (R142, R187) -/

/-- What a reading tells of a bank, R142. -/
def rejectedTold (b : Bank) : BankReading → List (Kind × Option PortPos × Option SegPos × Option Nat × Half)
  | .rejected _ why slot => [(.bankRejected, none, some (.bank b), slot, (reasonCode why).setWidth 16)]
  | .badHeader => []
  | .good _ _ => []

/-- What the load notice tells, R142. -/
def loadTold (cause : ResetCause) :
    Option (Bank × Nat × Image) → Kind × Option PortPos × Option SegPos × Option Nat × Half
  | some (b, n, _) => (.tableLoaded, some (.cause cause), some (.bank b), none, BitVec.ofNat 16 n)
  | none => (.tableEmpty, some (.cause cause), none, none, 0#16)

/-- The notices of an empty queue whose counter stands at 1. -/
def numbered (l : List (Kind × Option PortPos × Option SegPos × Option Nat × Half)) : List Notice :=
  l.zipIdx.map fun x => ⟨x.2 + 1, x.1.1, x.1.2.1, x.1.2.2.1, x.1.2.2.2.1, x.1.2.2.2.2⟩

theorem length_numbered (l : List (Kind × Option PortPos × Option SegPos × Option Nat × Half)) :
    (numbered l).length = l.length := by
  rw [numbered, List.length_map, List.length_zipIdx]

theorem told_numbered (l : List (Kind × Option PortPos × Option SegPos × Option Nat × Half)) :
    (numbered l).map Notice.told = l := by
  rw [numbered, List.map_map]
  exact List.zipIdx_map_fst 0 l

theorem seq_numbered (l : List (Kind × Option PortPos × Option SegPos × Option Nat × Half)) :
    (numbered l).map (·.seq) = (List.range l.length).map (· + 1) := by
  rw [numbered, List.map_map, List.range_eq_range', ← List.zipIdx_map_snd 0 l, List.map_map]
  rfl

theorem numbered_append_singleton (l : List (Kind × Option PortPos × Option SegPos × Option Nat × Half))
    (x : Kind × Option PortPos × Option SegPos × Option Nat × Half) :
    numbered (l ++ [x]) = numbered l ++ [⟨l.length + 1, x.1, x.2.1, x.2.2.1, x.2.2.2.1, x.2.2.2.2⟩] := by
  rw [numbered, List.zipIdx_append, List.map_append, Nat.zero_add]
  rfl

/-- What a reset tells of the banks it does not find valid. -/
def resetRejections (pins : ResetPins) (s : State) : List (Kind × Option PortPos × Option SegPos × Option Nat × Half) :=
  rejectedTold .bankA (readingA pins s) ++ rejectedTold .bankB (readingB pins s)

theorem length_resetRejections (pins : ResetPins) (s : State) : (resetRejections pins s).length ≤ 2 := by
  have h (b : Bank) (r : BankReading) : (rejectedTold b r).length ≤ 1 := by cases r <;> exact Nat.le_of_ble_eq_true rfl
  have ha := h .bankA (readingA pins s)
  have hb := h .bankB (readingB pins s)
  rw [resetRejections, List.length_append]
  omega

theorem log_resetAll (cause : ResetCause) (pins : ResetPins) (s : State) :
    (resetAll cause pins s).notices
        = numbered (resetRejections pins s ++ [loadTold cause (selectBank (readingA pins s) (readingB pins s))])
      ∧ (resetAll cause pins s).lost = 0
      ∧ (resetAll cause pins s).nextSeq = (resetAll cause pins s).notices.length + 1 := by
  rw [resetAll_eq_resetSegments, resetLoaded, resetRejections]
  generalize selectBank (readingA pins s) (readingB pins s) = sel
  generalize readingA pins s = a
  generalize readingB pins s = b
  rcases sel with _ | ⟨x, n, i⟩ <;> cases a <;> cases b <;> exact ⟨rfl, rfl, rfl⟩

/-! ### The three resets -/

theorem freeExecutor_of_free {s : State} (h : s.executing = none) : freeExecutor s = s := by
  unfold freeExecutor
  rw [← h]

/-- R141, R185: each of the three resets is `resetAll` with its cause. -/
theorem ResetTaken.exec {c : Instr} {cause : ResetCause} {pins : ResetPins} {s : State} (h : ResetTaken c cause pins s) :
    exec c s = .next (resetAll cause pins s) := by
  obtain ⟨rfl, rfl⟩ | ⟨rfl, rfl, hr⟩ | ⟨rfl, rfl, hr, he, hst, hh⟩ := h
  · rfl
  · exact congrArg _ (if_pos hr)
  unfold restartAtHead at hh
  split at hh
  next p tag payload rest hq =>
    have hperm : permitted s p .restart = true := by
      unfold permitted
      rw [eq_of_beq hh]
    show Host.Outcome.next (whenRunning s _) = _
    rw [whenRunning_running hr, runFrame_head he hq hperm]
    show Host.Outcome.next (freeExecutor (if s.store.phase = .idle then _ else _)) = _
    rw [if_pos hst]
    exact congrArg _ (freeExecutor_of_free (congrArg State.executing (resetAll_eq _ pins s)))
  next => cases hh


theorem seg_clearVolatile (run : RunState) (lines : PerSeg Lines) (s : State) (g : Seg) :
    (clearVolatile run lines s).seg g = SegState.reset (lines.get g) := by cases g <;> rfl

/-- R122: a segment after the load, by its parameters and its lines. -/
theorem resetSegment_eq (p : Params) (g : Seg) (l : Lines) :
    resetSegment p g l = { SegState.reset l with
      mode := (p.segs.get g).mode
      speed := (p.segs.get g).speed
      cond := if (p.segs.get g).service = .outOfService then .disabled
        else if l.bothHigh then .idle else .recovering
      attemptLimit := (resetSegment p g l).attemptLimit } := by
  unfold resetSegment
  cases (p.segs.get g).service with
  | outOfService => rfl
  | inService => cases hl : l.bothHigh <;> rfl

/-! ### The selection of a bank (R142) -/

theorem rejectedTold_readBank (strap : BitVec 2) (b : Bank) (c : BankCells) :
    rejectedTold b (readBank strap c) = rejections strap b c := by
  unfold readBank rejections
  split
  next => cases validate strap (imageFieldsOf c.image) <;> rfl
  next => rfl

theorem readBank_of_valid {strap : BitVec 2} {c : BankCells} (h : bankValid strap c = true) :
    readBank strap c = .good c.header.generation.toNat (imageFieldsOf c.image).toImage := by
  unfold bankValid at h
  obtain ⟨hg, hv⟩ := Bool.and_eq_true_iff.mp h
  unfold readBank
  rw [if_pos hg, Option.isNone_iff_eq_none.mp hv]

theorem readBank_of_not_valid {strap : BitVec 2} {c : BankCells} (h : bankValid strap c = false) (n : Nat) (i : Image) :
    readBank strap c ≠ .good n i := by
  intro hr
  obtain ⟨hg, -, -, hv⟩ := readBank_good hr
  rw [bankValid, hg, hv] at h
  cases h

theorem selectBank_eq_none {a b : BankReading} (ha : ∀ n i, a ≠ .good n i) (hb : ∀ n i, b ≠ .good n i) :
    selectBank a b = none := by
  cases h : selectBank a b with
  | none => rfl
  | some x => exact ((selectBank_some h).elim (fun e => absurd e.1 (ha _ _)) fun e => absurd e.1 (hb _ _))

theorem selectBank_first {a b : BankReading} {n : Nat} {i : Image} (ha : a = .good n i)
    (hb : ∀ m j, b = .good m j → m < n) : selectBank a b = some (.bankA, n, i) := by
  subst ha
  cases b with
  | good m j => exact if_neg (Nat.not_lt.mpr (hb m j rfl).le)
  | badHeader => rfl
  | rejected => rfl

theorem selectBank_second {a b : BankReading} {n : Nat} {i : Image} (hb : b = .good n i)
    (ha : ∀ m j, a = .good m j → m < n) : selectBank a b = some (.bankB, n, i) := by
  subst hb
  cases a with
  | good m j => exact if_pos (ha m j rfl)
  | badHeader => rfl
  | rejected => rfl

/-- R140, R142, R148: what the record of a bank says after the bank has been read. -/
theorem recordOf_readBank (strap : BitVec 2) (c : BankCells) :
    recordOf (readBank strap c) c.cell
      = ⟨bankValid strap c, if c.header.good c.image then some c.header.generation.toNat else none, c.cell⟩ := by
  unfold readBank bankValid
  cases c.header.good c.image with
  | false => rfl
  | true => cases validate strap (imageFieldsOf c.image) <;> rfl

theorem banks_of_no_op {n : Nat} {st : Store} (h : st.op = none) : abandonedBanks n st = st.banks := by
  unfold abandonedBanks
  rw [h]

/-- R142: the valid bank whose generation is the higher is selected. -/
theorem selectBank_readBank {strap : BitVec 2} {banks : PerBank BankCells} {b : Bank}
    (hb : bankValid strap (banks.get b) = true)
    (hmax : ∀ b', b' ≠ b → bankValid strap (banks.get b') = true →
      (banks.get b').header.generation.toNat < (banks.get b).header.generation.toNat) :
    selectBank (readBank strap (banks.get .bankA)) (readBank strap (banks.get .bankB))
      = some (b, (banks.get b).header.generation.toNat, (imageFieldsOf (banks.get b).image).toImage) := by
  have lower {b' : Bank} (hne : b' ≠ b) {m : Nat} {j : Image} (hj : readBank strap (banks.get b') = .good m j) :
      m < (banks.get b).header.generation.toNat := by
    obtain ⟨-, rfl, -⟩ := readBank_good hj
    refine hmax b' hne ?_
    by_contra hv
    exact readBank_of_not_valid (Bool.eq_false_iff.mpr hv) _ _ hj
  cases b with
  | bankA => exact selectBank_first (readBank_of_valid hb) fun _ _ hj => lower (b' := .bankB) nofun hj
  | bankB => exact selectBank_second (readBank_of_valid hb) fun _ _ hj => lower (b' := .bankA) nofun hj

/-! ### A part that does not run (R141, R151) -/

theorem exec_of_not_reachesStopped {c : Instr} (hc : reachesStopped c = false) (s : State) :
    ∃ f, exec c s = .next (whenRunning s f) := by
  cases c
  case powerOn => cases hc
  case resetLineLow => cases hc
  case resetLineRelease => cases hc
  case supplyLoss => cases hc
  all_goals exact ⟨_, rfl⟩

/-- The commands that take the part down. -/
def TakenDown (s : State) (c : Instr) : Prop := c = .resetLineLow ∧ s.run ≠ .off ∨ c = .supplyLoss

theorem TakenDown.exec {s : State} {c : Instr} (h : TakenDown s c) :
    exec c s = .next (clearVolatile (if c = .supplyLoss then .off else .held) (seenLines s) (abandonStore s)) := by
  obtain ⟨rfl, hr⟩ | rfl := h
  · exact congrArg _ (if_neg hr)
  · rfl

theorem alertLow_of_not_running {s : State} (h : s.run ≠ .running) (p : Port) : alertLow s p = false := by
  unfold alertLow
  rw [beq_false_of_ne h]
  rfl

theorem seenLines_get (s : State) (g : Seg) : (seenLines s).get g = (s.seg g).lines := by cases g <;> rfl

theorem marker_partMarker (n : Nat) : partMarker n ≠ Config.formatMarker := by
  unfold partMarker
  split
  next => decide
  next h => exact h

theorem not_good_of_marker {h : Header} (hm : h.marker ≠ Config.formatMarker) (image : List Byte) :
    h.good image = false := by
  rw [Bool.eq_false_iff, ne_eq, Header.good_iff]
  exact fun hg => hm hg.1

theorem newHeader_generation (i : Image) (n : Nat) : (newHeader i n).generation = BitVec.ofNat 32 n := rfl

theorem newHeader_check (i : Image) (n : Nat) : (newHeader i n).check = crc16List i.bytes := by simp only [newHeader]

/-- R194: a header whose writing has begun is erased in its marker, or stands but for its marker. -/
theorem partHeader_cases (n : Nat) (new : Header) :
    (partHeader n new).marker = 0xFFFF#16
      ∨ (partHeader n new).generation = new.generation ∧ (partHeader n new).check = new.check := by
  unfold partHeader
  split
  · exact .inr ⟨rfl, rfl⟩
  · exact .inl rfl

theorem partHeader_not_good (n : Nat) (new : Header) (image : List Byte) : (partHeader n new).good image = false := by
  refine not_good_of_marker ?_ _
  unfold partHeader
  split
  · exact marker_partMarker n
  · exact nofun

/-- R151, R145, R194: what an abandoned SAVE leaves of its target. -/
theorem interrupted_save {n : Nat} {st : Store} (o : StoreOp) (hi : st.phase ≠ .idle) (hc : st.phase ≠ .cellWrite) :
    (interrupted n st o).header.good (interrupted n st o).image = false
      ∧ (interrupted n st o).cell = (st.banks.get o.bank).cell
      ∧ (st.phase = .writing ∨ st.phase = .verifying → (interrupted n st o).header = Header.erased)
      ∧ (st.phase = .verifying ∨ st.phase = .header → (interrupted n st o).image = (st.banks.get o.bank).image)
      ∧ (st.phase = .header → (interrupted n st o).header = partHeader n (headerToWrite st)) := by
  unfold interrupted
  cases hp : st.phase with
  | idle => exact absurd hp hi
  | cellWrite => exact absurd hp hc
  | erasing => exact ⟨not_good_of_marker (marker_partMarker n) _, rfl, by simp, by simp, nofun⟩
  | writing => exact ⟨Header.erased_not_good _, rfl, fun _ => rfl, by simp, nofun⟩
  | verifying => exact ⟨Header.erased_not_good _, rfl, fun _ => rfl, fun _ => rfl, nofun⟩
  | header => exact ⟨partHeader_not_good .., rfl, by simp, fun _ => rfl, fun _ => rfl⟩

/-- R151: what an abandoned cell write leaves of its target. -/
theorem interrupted_cellWrite {n : Nat} {st : Store} {o : StoreOp} (hk : o.kind ≠ .save) (hp : st.phase = .cellWrite) :
    (interrupted n st o).image = (st.banks.get o.bank).image ∧ (interrupted n st o).header = (st.banks.get o.bank).header
      ∧ ((interrupted n st o).cell = (st.banks.get o.bank).cell
        ∨ (interrupted n st o).cell = decide (o.kind = .protect)) := by
  have htarget : cellTarget o.kind = decide (o.kind = .protect) := by
    cases h : o.kind with
    | save => exact absurd h hk
    | protect => rfl
    | unprotect => rfl
  unfold interrupted
  rw [hp]
  refine ⟨rfl, rfl, ?_⟩
  dsimp only
  split
  · exact .inr htarget
  · exact .inl rfl

theorem get_abandonedBanks {n : Nat} {st : Store} {o : StoreOp} (ho : st.op = some o) (b : Bank) :
    (abandonedBanks n st).get b = if b = o.bank then interrupted n st o else st.banks.get b := by
  unfold abandonedBanks
  rw [ho]
  exact PerBank.get_set ..

namespace Laws

/-- Settles O10, field by field of `resetAll_eq`, the notices by their numbers. -/
theorem resetClears : Obligations.ResetClears := by
  intro c cause pins s h
  obtain ⟨hn, hlost, hnext⟩ := log_resetAll cause pins s
  have hlen : (resetAll cause pins s).notices.length = (resetRejections pins s).length + 1 := by
    rw [hn, length_numbered, List.length_append]
    rfl
  have hle := length_resetRejections pins s
  have hstore : (resetAll cause pins s).store = resetStore cause pins s := congrArg State.store (resetAll_eq cause pins s)
  have hworking : (resetAll cause pins s).working = resetImage pins s := congrArg State.working (resetAll_eq cause pins s)
  refine ⟨_, h.exec, congrArg State.run (resetAll_eq cause pins s), congrArg State.strap (resetAll_eq cause pins s),
    resetAll_port cause pins s, fun g => ?_, congrArg State.session (resetAll_eq cause pins s),
    congrArg State.lease (resetAll_eq cause pins s), congrArg State.cmdQueue (resetAll_eq cause pins s),
    congrArg State.executing (resetAll_eq cause pins s), congrArg State.segResets (resetAll_eq cause pins s),
    congrArg Store.phase hstore, congrArg Store.op hstore, congrArg Store.buffer hstore,
    congrArg Store.newGeneration hstore, congrArg Store.originMark hstore, congrArg Store.cause hstore,
    hlost, hnext, by omega, by omega, ?_⟩
  · rw [resetAll_seg, hworking]
    exact resetSegment_eq ..
  · rw [hlen, hn, seq_numbered, List.length_append]
    rfl

/-- Settles O11, by the readings of the two banks and the selection they give. -/
theorem resetLoads : Obligations.ResetLoads := by
  intro c cause pins s h hop
  obtain ⟨hn, -, -⟩ := log_resetAll cause pins s
  have hstore : (resetAll cause pins s).store = resetStore cause pins s := congrArg State.store (resetAll_eq cause pins s)
  have hstrap : (resetAll cause pins s).strap = strapOf pins := congrArg State.strap (resetAll_eq cause pins s)
  have hworking : (resetAll cause pins s).working = resetImage pins s := congrArg State.working (resetAll_eq cause pins s)
  have horigin : (resetAll cause pins s).origin = selectedOrigin (selectBank (readingA pins s) (readingB pins s)) :=
    congrArg State.origin (resetAll_eq cause pins s)
  have hbanks : abandonedBanks s.freeCtr s.store = s.store.banks := banks_of_no_op hop
  have ha : readingA pins s = readBank (strapOf pins) (s.store.banks.get .bankA) := by rw [readingA, hbanks]
  have hb : readingB pins s = readBank (strapOf pins) (s.store.banks.get .bankB) := by rw [readingB, hbanks]
  rw [numbered_append_singleton] at hn
  have hlen : (resetAll cause pins s).notices.length = (resetRejections pins s).length + 1 := by
    rw [hn, List.length_append, length_numbered]
    rfl
  have hrecord (b : Bank) : (resetAll cause pins s).store.records.get b
      = recordOf (readBank (strapOf pins) (s.store.banks.get b)) (s.store.banks.get b).cell := by
    rw [hstore, resetStore, hbanks, ha, hb]
    cases b <;> rfl
  refine ⟨_, h.exec, (congrArg Store.banks hstore).trans hbanks, fun b => ?_, ?_, fun hnone => ?_, fun b hvalid hmax => ?_⟩
  · rw [hrecord, recordOf_readBank, hstrap]
    exact ⟨rfl, rfl, rfl⟩
  · rw [hn, List.dropLast_concat, told_numbered, resetRejections, ha, hb, rejectedTold_readBank, rejectedTold_readBank,
      hstrap]
  · rw [hstrap] at hnone
    have hsel : selectBank (readingA pins s) (readingB pins s) = none := by
      rw [ha, hb]
      exact selectBank_eq_none (readBank_of_not_valid (hnone _)) (readBank_of_not_valid (hnone _))
    rw [hworking, resetImage, horigin, hlen, hn, hsel, List.getLast?_concat]
    exact ⟨rfl, rfl, rfl⟩
  · rw [hstrap] at hvalid hmax
    have hsel := selectBank_readBank hvalid hmax
    rw [← ha, ← hb] at hsel
    rw [hworking, resetImage, horigin, hlen, hn, hsel, List.getLast?_concat]
    exact ⟨rfl, rfl, by rw [loadTold, BitVec.ofNat_toNat]⟩

/-- Settles O12: a stopped part takes no other command; going down clears what is volatile; and the bank of an operation in flight is left as
its phase leaves it. -/
theorem stoppedPart : Obligations.StoppedPart := by
  refine ⟨fun s c => ⟨fun hrun hc => ?_, fun hdown => ?_⟩, fun s c o hdown hl ho => ?_⟩
  · obtain ⟨f, hf⟩ := exec_of_not_reachesStopped hc s
    rw [hf, whenRunning_stopped hrun]
  · have hstopped : (if c = .supplyLoss then RunState.off else .held) ≠ .running := by split <;> nofun
    exact ⟨_, TakenDown.exec hdown, rfl, fun p => ⟨PerPort.get_all _ p, alertLow_of_not_running hstopped p⟩,
      fun g => (seg_clearVolatile ..).trans (congrArg _ (seenLines_get s g)), rfl, rfl, rfl, rfl, rfl, rfl, rfl, rfl, rfl,
      rfl, rfl, rfl, rfl, rfl, rfl⟩
  · have hbank (b : Bank) : ((clearVolatile (if c = .supplyLoss then .off else .held) (seenLines s)
        (abandonStore s)).store.banks.get b)
          = if b = o.bank then interrupted s.freeCtr s.store o else s.store.banks.get b := get_abandonedBanks ho b
    have htarget := (hbank o.bank).trans (if_pos rfl)
    obtain ⟨hidle, hkind, -, -⟩ := hl
    refine ⟨_, TakenDown.exec hdown, fun b hb => (hbank b).trans (if_neg hb), fun hk => ?_, fun hk => ?_⟩
    · have hp : s.store.phase ≠ .idle := fun h => nomatch ho.symm.trans (hidle.mpr h)
      obtain ⟨hgood, hcell, herased, himage, hheader⟩ :=
        interrupted_save (n := s.freeCtr) o hp ((hkind o ho).mp hk)
      rw [htarget]
      refine ⟨hgood, hcell, herased, himage, fun hph i n hi hn => ?_⟩
      have hnew : headerToWrite s.store = newHeader i n := by
        unfold headerToWrite
        rw [hi, hn]
      rw [hheader hph, hnew]
      have hcases := partHeader_cases s.freeCtr (newHeader i n)
      rw [newHeader_generation, newHeader_check] at hcases
      exact hcases
    · have hp : s.store.phase = .cellWrite := not_not.mp fun h => hk ((hkind o ho).mpr h)
      rw [htarget]
      exact interrupted_cellWrite hk hp

end Laws
end Sys2Proof.Machine
end

section
/-!
PROOFS. A state in which one port's record and the segments have been replaced (`State.bus`), and what each operation of a port's transaction
makes of it: the results of chapters 2 to 7 as values of one record and of the segments.
-/
namespace Sys2Proof.Machine

/-! ### A record and the segments replaced -/

/-- The state with one port's record and all segments replaced. -/
def State.bus (s : State) (p : Port) (r : PortState) (f : Seg → SegState) : State :=
  { s with ports := s.ports.set p r, segs := ⟨f .s0, f .s1, f .s2, f .s3⟩ }

@[simp] theorem State.bus_port_self (s : State) (p : Port) (r : PortState) (f : Seg → SegState) :
    (s.bus p r f).port p = r := PerPort.get_set_self ..

theorem State.bus_port_ne (s : State) {p q : Port} (r : PortState) (f : Seg → SegState) (h : q ≠ p) :
    (s.bus p r f).port q = s.port q := PerPort.get_set_ne _ _ h

@[simp] theorem State.bus_seg (s : State) (p : Port) (r : PortState) (f : Seg → SegState) (g : Seg) :
    (s.bus p r f).seg g = f g := by cases g <;> rfl

@[simp] theorem State.bus_working (s : State) (p : Port) (r : PortState) (f : Seg → SegState) :
    (s.bus p r f).working = s.working := rfl

@[simp] theorem State.bus_run (s : State) (p : Port) (r : PortState) (f : Seg → SegState) : (s.bus p r f).run = s.run := rfl

@[simp] theorem State.bus_strap (s : State) (p : Port) (r : PortState) (f : Seg → SegState) :
    (s.bus p r f).strap = s.strap := rfl

@[simp] theorem State.bus_bus (s : State) (p : Port) (r r' : PortState) (f f' : Seg → SegState) :
    (s.bus p r f).bus p r' f' = s.bus p r' f' := by
  unfold State.bus
  rw [PerPort.set_set]

theorem State.bus_self (s : State) (p : Port) : s.bus p (s.port p) s.seg = s := by
  have hp : s.ports.set p (s.port p) = s.ports := PerPort.set_get ..
  unfold State.bus
  rw [hp]
  rfl

theorem State.bus_congr (s : State) (p : Port) {r r' : PortState} {f f' : Seg → SegState} (hr : r = r')
    (hf : ∀ g, f g = f' g) : s.bus p r f = s.bus p r' f' := by rw [hr, funext hf]

@[simp] theorem State.updPort_bus (s : State) (p : Port) (r : PortState) (f : Seg → SegState)
    (k : PortState → PortState) : (s.bus p r f).updPort p k = s.bus p (k r) f := by
  unfold State.updPort State.bus
  simp only [PerPort.get_set_self, PerPort.set_set]

@[simp] theorem State.updSeg_bus (s : State) (p : Port) (r : PortState) (f : Seg → SegState) (g : Seg)
    (k : SegState → SegState) :
    (s.bus p r f).updSeg g k = s.bus p r fun h => if h = g then k (f g) else f h := by
  cases g <;> rfl

theorem State.updPort_eq_bus (s : State) (p : Port) (k : PortState → PortState) :
    s.updPort p k = s.bus p (k (s.port p)) s.seg := by
  conv_lhs => rw [← s.bus_self p, State.updPort_bus]

@[simp] theorem note_bus (k : Kind) (a : Option PortPos) (b : Option SegPos) (n : Option Nat) (d : Half) (s : State)
    (p : Port) (r : PortState) (f : Seg → SegState) :
    note k a b n d (s.bus p r f) = (note k a b n d s).bus p r f := by
  have hn : (s.bus p r f).notices = s.notices := rfl
  unfold note
  rw [hn]
  split <;> rfl

theorem onlyPortSegs_bus (s : State) (p : Port) (r : PortState) (f : Seg → SegState) :
    OnlyPortSegs p s (s.bus p r f) := by
  unfold OnlyPortSegs State.bus
  rw [PerPort.get_set_self]

theorem onlyPortSegsNotices_bus {s u : State} (h : OnlyNotices s u) (p : Port) (r : PortState) (f : Seg → SegState) :
    OnlyPortSegsNotices p s (u.bus p r f) := by
  unfold OnlyPortSegsNotices State.bus
  rw [PerPort.get_set_self]
  conv_lhs => rw [show u = _ from h]

theorem onlyPortSegsNotices_bus_note (k : Kind) (a : Option PortPos) (b : Option SegPos) (n : Option Nat) (d : Half)
    (s : State) (p : Port) (r : PortState) (f : Seg → SegState) :
    OnlyPortSegsNotices p s ((note k a b n d s).bus p r f) := onlyPortSegsNotices_bus (onlyNotices_note ..) p r f

/-- R188: a notice told. -/
theorem recorded_note (k : Kind) (a : Option PortPos) (b : Option SegPos) (n : Option Nat) (d : Half) (s : State) :
    Recorded k a b n d s (note k a b n d s) := by
  unfold Recorded note
  split
  next h => exact ⟨fun _ => ⟨rfl, rfl⟩, fun h' => absurd h h', rfl⟩
  next h => exact ⟨fun h' => absurd h' h, fun _ => ⟨rfl, rfl⟩, rfl⟩

theorem recorded_bus_note (k : Kind) (a : Option PortPos) (b : Option SegPos) (n : Option Nat) (d : Half) (s : State)
    (p : Port) (r : PortState) (f : Seg → SegState) : Recorded k a b n d s ((note k a b n d s).bus p r f) :=
  recorded_note k a b n d s

theorem note_working (k : Kind) (a : Option PortPos) (b : Option SegPos) (n : Option Nat) (d : Half) (s : State) :
    (note k a b n d s).working = s.working := by
  unfold note
  split <;> rfl

theorem note_run (k : Kind) (a : Option PortPos) (b : Option SegPos) (n : Option Nat) (d : Half) (s : State) :
    (note k a b n d s).run = s.run := by
  unfold note
  split <;> rfl

/-! ### A record's own legs -/

/-- A record has an ACTIVE leg on a segment. -/
def PortState.active (r : PortState) (g : Seg) : Bool := r.legs.any fun l => l.seg == g && l.state == .active

theorem legActive_eq (s : State) (p : Port) (g : Seg) : legActive s p g = (s.port p).active g := rfl

@[simp] theorem legActive_bus (s : State) (p : Port) (r : PortState) (f : Seg → SegState) (g : Seg) :
    legActive (s.bus p r f) p g = r.active g := by rw [legActive_eq, State.bus_port_self]

@[simp] theorem owns_bus (s : State) (p q : Port) (r : PortState) (f : Seg → SegState) (g : Seg) :
    owns (s.bus p r f) q g = ((f g).owner == some (.port q)) := by rw [owns, State.bus_seg]

@[simp] theorem activeSegs_bus (s : State) (p : Port) (r : PortState) (f : Seg → SegState) :
    activeSegs (s.bus p r f) p = Seg.list.filter r.active := by
  unfold activeSegs
  congr 1
  funext g
  exact legActive_bus ..

@[simp] theorem ownedSegs_bus (s : State) (p q : Port) (r : PortState) (f : Seg → SegState) :
    ownedSegs (s.bus p r f) q = Seg.list.filter fun g => (f g).owner == some (.port q) := by
  unfold ownedSegs
  congr 1
  funext g
  exact owns_bus ..

@[simp] theorem legOn_bus (s : State) (p : Port) (r : PortState) (f : Seg → SegState) (g : Seg) :
    legOn (s.bus p r f) p g = r.legs.find? fun l => l.seg == g := by rw [legOn, State.bus_port_self]

@[simp] theorem keptLegs_bus (s : State) (p : Port) (r : PortState) (f : Seg → SegState) :
    keptLegs (s.bus p r f) p = r.legs.filter fun l =>
      l.state == .active || (l.state == .ended && (f l.seg).owner == some (.port p)) := by
  unfold keptLegs
  simp only [State.bus_port_self, owns_bus]

/-! ### Folds over segments -/

theorem Seg.nodup_list : Seg.list.Nodup := by decide

/-- A fold that changes each segment of a list once. -/
theorem foldl_updSeg_bus {p : Port} {step : State → Seg → State} (F : Params → Seg → SegState → SegState)
    (hstep : ∀ t g, step t g = t.updSeg g (F t.working.params g)) (r : PortState) (s : State) :
    ∀ (l : List Seg), l.Nodup → ∀ f : Seg → SegState, l.foldl step (s.bus p r f)
      = s.bus p r fun g => if g ∈ l then F s.working.params g (f g) else f g
  | [], _, f => by simp
  | x :: l, hl, f => by
    obtain ⟨hx, hl⟩ := List.nodup_cons.mp hl
    rw [List.foldl_cons, hstep, State.updSeg_bus, State.bus_working, foldl_updSeg_bus F hstep r s l hl]
    refine State.bus_congr _ _ rfl fun g => ?_
    by_cases e : g = x
    · subst e
      simp [hx]
    · simp [e]

theorem mem_filter_list (f : Seg → Bool) (g : Seg) : g ∈ Seg.list.filter f ↔ f g = true := by simp

/-- A fold over the segments that a test picks. -/
theorem foldl_filter_updSeg_bus {p : Port} {step : State → Seg → State} (F : Params → Seg → SegState → SegState)
    (hstep : ∀ t g, step t g = t.updSeg g (F t.working.params g)) (c : Seg → Bool) (s : State) (r : PortState)
    (f : Seg → SegState) : (Seg.list.filter c).foldl step (s.bus p r f)
      = s.bus p r fun g => if c g then F s.working.params g (f g) else f g := by
  rw [foldl_updSeg_bus F hstep r s _ (Seg.nodup_list.filter _) f]
  simp only [mem_filter_list]

/-! ### The end of a leg (R33) -/

/-- R96, R108: a segment after its owner's release. -/
def SegState.releasedBy (q : SegParams) (foreign : Bool) (c : SegState) : SegState :=
  { c with
    owner := none, activity := none, legSlot := none, foreignBusy := false, newWatch := false, clock := none,
    mode := q.mode, pendingDisable := false,
    cond := if c.pendingDisable then .disabled else if foreign && q.mode == .shared then .foreign else .idle }

theorem release_eq (g : Seg) (foreign : Bool) (s : State) :
    release g foreign s = s.updSeg g (SegState.releasedBy (s.working.params.segs.get g) foreign) := rfl

/-- R33: a segment whose leg has been ended. -/
def SegState.closedBy (q : Params) (g : Seg) (check : Option Byte) (c : SegState) : SegState :=
  match c.activity with
  | some (.addressing .waitFresh) => c.releasedBy (q.segs.get g) c.foreignBusy
  | some (.closing _) => c
  | some .paused => { c with activity := some (.closing check), clock := some q.clockLimit }
  | _ => { c with activity := some (.closing check) }

theorem closeSegment_eq (g : Seg) (check : Option Byte) (s : State) :
    closeSegment g check s = s.updSeg g (SegState.closedBy s.working.params g check) := by
  have upd {k k' : SegState → SegState} (h : k (s.seg g) = k' (s.seg g)) : s.updSeg g k = s.updSeg g k' :=
    congrArg (fun x => { s with segs := s.segs.set g x }) h
  unfold closeSegment SegState.closedBy
  rcases ha : (s.seg g).activity with _ | ((_ | _ | _) | _ | _ | _ | _)
  case some.closing => exact (State.updSeg_self (by rw [ha])).symm
  case some.paused =>
    refine Eq.trans ?_ (upd (k := fun c =>
      { c with activity := some (.closing check), clock := some s.working.params.clockLimit }) (by rw [ha]))
    unfold startClock State.updSeg
    simp only [PerSeg.get_set_self, PerSeg.set_set]
  case some.addressing.waitFresh => exact upd (by rw [ha]; rfl)
  all_goals exact upd (by rw [ha])

/-- R111, R33: any leg but one that waits for its fresh START is closed by its STOP. -/
theorem SegState.closedBy_eq_closing {q : Params} {g : Seg} {check : Option Byte} {c : SegState}
    (hf : c.activity ≠ some (.addressing .waitFresh)) (hc : ∀ x, c.activity ≠ some (.closing x)) :
    c.closedBy q g check = closing check q.clockLimit c := by
  unfold SegState.closedBy closing
  rcases ha : c.activity with _ | ((_ | _ | _) | _ | _ | _ | _)
  case some.addressing.waitFresh => exact absurd ha hf
  case some.closing => exact absurd ha (hc _)
  case some.paused => rw [if_pos rfl]
  all_goals rw [if_neg nofun]

/-- The legs of a list that stand on the segments a test picks, changed. -/
def mapLegs (c : Seg → Bool) (k : Leg → Leg) (ls : List Leg) : List Leg := ls.map fun l => if c l.seg then k l else l

/-- A leg, ENDED. -/
def Leg.ended (l : Leg) : Leg := { l with state := .ended }

/-- A leg, marked for STOP. -/
def Leg.toStop (l : Leg) : Leg := { l with marked := true }

/-- The leg of a list that stands on a segment. -/
def findLeg (ls : List Leg) (g : Seg) : Option Leg := ls.find? fun l => l.seg == g

theorem legOn_eq (s : State) (p : Port) (g : Seg) : legOn s p g = findLeg (s.port p).legs g := rfl

theorem endedLegs_eq (s : State) (p : Port) : endedLegs s p = mapLegs (s.port p).active Leg.ended (s.port p).legs := rfl

theorem mapLegs_eq_self {c : Seg → Bool} {ls : List Leg} (h : ∀ l ∈ ls, c l.seg = false) (k : Leg → Leg) :
    mapLegs c k ls = ls := by
  refine (List.map_congr_left fun l hl => ?_).trans (List.map_id' ls)
  rw [if_neg (by rw [h l hl]; nofun)]

theorem findLeg_mapLegs_other {c : Seg → Bool} {k : Leg → Leg} (hk : ∀ l, (k l).seg = l.seg) {g : Seg} (h : c g = false)
    (ls : List Leg) : findLeg (mapLegs c k ls) g = findLeg ls g := by
  induction ls with
  | nil => rfl
  | cons l ls ih =>
    unfold findLeg mapLegs at *
    rw [List.map_cons, List.find?_cons, List.find?_cons, ih]
    by_cases hl : l.seg = g
    · rw [if_neg (by rw [hl, h]; nofun)]
    · have hseg : (if c l.seg = true then k l else l).seg = l.seg := by
        split
        · exact hk l
        · rfl
      rw [hseg, beq_false_of_ne hl]

theorem mapLegs_or {c d : Seg → Bool} {k : Leg → Leg} (hk : ∀ l, (k l).seg = l.seg) (hcd : ∀ g, c g = true → d g = false)
    (ls : List Leg) : mapLegs c k (mapLegs d k ls) = mapLegs (fun g => c g || d g) k ls := by
  unfold mapLegs
  rw [List.map_map]
  refine List.map_congr_left fun l _ => ?_
  simp only [Function.comp_apply]
  by_cases hd : d l.seg = true
  · have hc : c l.seg = false := Bool.eq_false_iff.mpr fun h => absurd ((hcd _ h).symm.trans hd) nofun
    simp [hk, hc, hd]
  · simp [hd]

/-- A fold that changes each segment of a list, and the leg on it, once. -/
theorem foldl_legSeg_bus {p : Port} {s : State} {step : State → Seg → State} {k : Leg → Leg} (hk : ∀ l, (k l).seg = l.seg)
    (F : Option Leg → Seg → SegState → SegState)
    (hstep : ∀ r f g, step (s.bus p r f) g = s.bus p { r with legs := mapLegs (fun h => h == g) k r.legs } fun h =>
      if h = g then F (findLeg r.legs g) g (f g) else f h) :
    ∀ (l : List Seg), l.Nodup → ∀ (r : PortState) (f : Seg → SegState), l.foldl step (s.bus p r f)
      = s.bus p { r with legs := mapLegs (fun g => decide (g ∈ l)) k r.legs } fun g =>
        if g ∈ l then F (findLeg r.legs g) g (f g) else f g
  | [], _, r, f => by simp [mapLegs]
  | x :: l, hl, r, f => by
    obtain ⟨hx, hl⟩ := List.nodup_cons.mp hl
    rw [List.foldl_cons, hstep, foldl_legSeg_bus hk F hstep l hl]
    refine State.bus_congr _ _ ?_ fun g => ?_
    · dsimp only
      rw [mapLegs_or hk]
      · simp [Bool.or_comm, Bool.beq_eq_decide_eq]
      · exact fun g hg => beq_false_of_ne fun e => hx (e ▸ of_decide_eq_true hg)
    · by_cases e : g = x
      · subst e
        simp [hx]
      · simp only [findLeg_mapLegs_other hk (c := fun h => h == x) (beq_false_of_ne e)]
        simp [e]

/-- A fold that changes each segment a test picks, and the leg on it. -/
theorem foldl_filter_legSeg_bus {p : Port} {s : State} {step : State → Seg → State} {k : Leg → Leg}
    (hk : ∀ l, (k l).seg = l.seg) (F : Option Leg → Seg → SegState → SegState)
    (hstep : ∀ r f g, step (s.bus p r f) g = s.bus p { r with legs := mapLegs (fun h => h == g) k r.legs } fun h =>
      if h = g then F (findLeg r.legs g) g (f g) else f h) (c : Seg → Bool) (r : PortState) (f : Seg → SegState) :
    (Seg.list.filter c).foldl step (s.bus p r f)
      = s.bus p { r with legs := mapLegs c k r.legs } fun g => if c g then F (findLeg r.legs g) g (f g) else f g := by
  rw [foldl_legSeg_bus hk F hstep _ (Seg.nodup_list.filter _)]
  simp only [mem_filter_list, Bool.decide_eq_true]

theorem updLeg_bus (p : Port) (g : Seg) (k : Leg → Leg) (s : State) (r : PortState) (f : Seg → SegState) :
    updLeg p g k (s.bus p r f) = s.bus p { r with legs := mapLegs (fun h => h == g) k r.legs } f :=
  State.updPort_bus ..

theorem endLeg_bus (p : Port) (check : Leg → Option Byte) (g : Seg) (s : State) (r : PortState) (f : Seg → SegState) :
    endLeg p check g (s.bus p r f) = s.bus p { r with legs := mapLegs (fun h => h == g) Leg.ended r.legs } fun h =>
      if h = g then (f g).closedBy s.working.params g ((findLeg r.legs g).bind check) else f h := by
  unfold endLeg
  rw [closeSegment_eq, legOn_bus, updLeg_bus, State.updSeg_bus]
  rfl

/-- R33: every leg on the segments that a test picks is ended, and the segments are closed. -/
theorem foldl_filter_endLeg_bus (p : Port) (check : Leg → Option Byte) (c : Seg → Bool) (s : State) (r : PortState)
    (f : Seg → SegState) : (Seg.list.filter c).foldl (fun t g => endLeg p check g t) (s.bus p r f)
      = s.bus p { r with legs := mapLegs c Leg.ended r.legs } fun g =>
        if c g then (f g).closedBy s.working.params g ((findLeg r.legs g).bind check) else f g :=
  foldl_filter_legSeg_bus (k := Leg.ended) (fun _ => rfl) (fun l g x => x.closedBy s.working.params g (l.bind check))
    (fun r f g => endLeg_bus p check g s r f) c r f

@[simp] theorem endActive_bus (p : Port) (check : Leg → Option Byte) (s : State) (r : PortState) (f : Seg → SegState) :
    endActive p check (s.bus p r f)
      = s.bus p { r with legs := mapLegs r.active Leg.ended r.legs } fun g =>
        if r.active g then (f g).closedBy s.working.params g ((findLeg r.legs g).bind check) else f g := by
  unfold endActive
  rw [activeSegs_bus]
  exact foldl_filter_endLeg_bus p check r.active s r f

@[simp] theorem dropSnapshot_bus (p : Port) (s : State) (r : PortState) (f : Seg → SegState) :
    dropSnapshot p (s.bus p r f) = s.bus p { r with snapshot := none } fun g =>
      if (f g).owner == some (.port p) then { f g with legSlot := none } else f g := by
  unfold dropSnapshot
  rw [ownedSegs_bus, foldl_filter_updSeg_bus (fun _ _ c => { c with legSlot := none }) (fun _ _ => rfl),
    State.updPort_bus]

/-- R37, R52: the segments of the legs marked for STOP. -/
def PortState.toStop (r : PortState) (g : Seg) : Bool := r.active g && (findLeg r.legs g).any (·.marked)

@[simp] theorem endMarked_bus (p : Port) (s : State) (r : PortState) (f : Seg → SegState) :
    endMarked p (s.bus p r f)
      = s.bus p { r with legs := mapLegs r.toStop Leg.ended r.legs } fun g =>
        if r.toStop g then (f g).closedBy s.working.params g none else f g := by
  have hfilter : (activeSegs (s.bus p r f) p).filter (fun g => (legOn (s.bus p r f) p g).any (·.marked))
      = Seg.list.filter r.toStop := by
    rw [activeSegs_bus, List.filter_filter]
    congr 1
    funext g
    rw [legOn_bus]
    exact Bool.and_comm ..
  have hnone (l : Option Leg) : l.bind noCheck = none := by cases l <;> rfl
  unfold endMarked
  rw [hfilter, foldl_filter_endLeg_bus]
  simp only [hnone]

/-- R52, R58: the segments of the legs not yet marked for STOP. -/
def PortState.unmarked (r : PortState) (g : Seg) : Bool := r.active g && !(findLeg r.legs g).any (·.marked)

@[simp] theorem markForStop_bus (p : Port) (s : State) (r : PortState) (f : Seg → SegState) :
    markForStop p (s.bus p r f)
      = s.bus p { r with legs := mapLegs r.unmarked Leg.toStop r.legs } fun g =>
        if r.unmarked g then
          { f g with activity := some (.reading .nackClock), clock := some s.working.params.clockLimit }
        else f g := by
  have hfilter : (activeSegs (s.bus p r f) p).filter (fun g => !(legOn (s.bus p r f) p g).any (·.marked))
      = Seg.list.filter r.unmarked := by
    rw [activeSegs_bus, List.filter_filter]
    congr 1
    funext g
    rw [legOn_bus]
    exact Bool.and_comm ..
  unfold markForStop
  rw [hfilter]
  refine foldl_filter_legSeg_bus (p := p) (s := s) (k := Leg.toStop) (fun _ => rfl)
    (fun _ _ x => { x with activity := some (.reading .nackClock), clock := some s.working.params.clockLimit })
    (fun r f g => ?_) r.unmarked r f
  unfold startClock
  rw [State.updSeg_bus, State.updSeg_bus]
  refine (updLeg_bus ..).trans (State.bus_congr _ _ rfl fun h => ?_)
  by_cases e : h = g
  · simp [e]
  · simp [e]

/-! ### The timers -/

/-- R59: a record's stall timer after an event, by whether the record owns a segment. -/
def PortState.stallBy (limit : Nat) (owning : Bool) (r : PortState) : Option Nat :=
  if owning && r.phase != .idle && r.phase != .offBus && !r.sclHeld then some (r.stall.getD limit) else none

theorem stallAfter_eq (s : State) (p : Port) :
    stallAfter s p = (s.port p).stallBy s.working.params.stallLimit (!(ownedSegs s p).isEmpty) := by
  unfold stallAfter stallRuns PortState.stallBy
  cases (s.port p).stall <;> rfl

/-- With the timers running as the rules ask, `retime` touches of the other ports nothing. -/
theorem retime_bus {s : State} (hl : TimersLaw s) {p : Port} {r : PortState} {f : Seg → SegState}
    (ho : ∀ g q, q ≠ p → ((f g).owner == some (.port q)) = owns s q g) :
    retime (s.bus p r f)
      = s.bus p { r with
          stall := r.stallBy s.working.params.stallLimit (Seg.list.any fun g => (f g).owner == some (.port p)) }
          fun g => { f g with quiet := quietAfter s.working.params.clockLimit (f g) } := by
  have hquiet (u : State) (r : PortState) (f : Seg → SegState) (g : Seg) (hu : u.working = s.working) :
      retimeQuiet g (u.bus p r f) = u.bus p r fun h =>
        if h = g then { f g with quiet := quietAfter s.working.params.clockLimit (f g) } else f h := by
    rw [← hu]
    exact State.updSeg_bus ..
  have hquiets : retimeQuiets (s.bus p r f)
      = s.bus p r fun g => { f g with quiet := quietAfter s.working.params.clockLimit (f g) } := by
    unfold retimeQuiets
    rw [hquiet s _ _ _ rfl, hquiet s _ _ _ rfl, hquiet s _ _ _ rfl, hquiet s _ _ _ rfl]
    exact State.bus_congr _ _ rfl fun g => by cases g <;> rfl
  have hself (r : PortState) (f : Seg → SegState) : retimeStall p (s.bus p r f) = s.bus p { r with
      stall := r.stallBy s.working.params.stallLimit (Seg.list.any fun g => (f g).owner == some (.port p)) } f := by
    have hany : (!(ownedSegs (s.bus p r f) p).isEmpty) = Seg.list.any fun g => (f g).owner == some (.port p) := by
      rw [ownedSegs_bus, Bool.eq_iff_iff]
      simp
    have hstall := stallAfter_eq (s.bus p r f) p
    rw [hany, State.bus_port_self] at hstall
    refine (State.updPort_bus s p r f _).trans (State.bus_congr _ _ ?_ fun _ => rfl)
    unfold stallAfter at hstall
    rw [State.bus_port_self] at hstall
    exact congrArg (fun x => { r with stall := x }) hstall
  have hother {q : Port} (hq : q ≠ p) (r : PortState) {f' : Seg → SegState}
      (ho : ∀ g, ((f' g).owner == some (.port q)) = owns s q g) :
      retimeStall q (s.bus p r f') = s.bus p r f' := by
    refine retimeStall_of_law ?_
    have hruns : stallRuns (s.bus p r f') q = stallRuns s q := by
      unfold stallRuns
      rw [State.bus_port_ne _ _ _ hq, ownedSegs_bus, ownedSegs, funext ho]
    rw [hruns, State.bus_port_ne _ _ _ hq]
    exact hl.1 q
  rw [retime_eq, hquiets]
  cases p with
  | u0 =>
    rw [hother (q := .u1) (by decide), hself]
    exact fun g => ho g .u1 (by decide)
  | u1 =>
    rw [hself, hother (q := .u0) (by decide)]
    exact fun g => ho g .u0 (by decide)

/-- R114: a quiet timer goes on as it was where its conditions stay as they were. -/
theorem quietAfter_same {limit : Nat} {c d : SegState} (hl : c.quiet.isSome = c.quietRuns) (hq : d.quiet = c.quiet)
    (hr : d.quietRuns = c.quietRuns) : quietAfter limit d = d.quiet :=
  quietAfter_of_law (by rw [hq, hr]; exact hl)

theorem SegState.quietRuns_congr {c d : SegState} (hm : d.mode = c.mode) (hc : d.cond = c.cond)
    (hw : d.waiting = c.waiting) (hl : d.lines = c.lines) (hf : d.foreignBusy = c.foreignBusy) :
    d.quietRuns = c.quietRuns := by
  unfold SegState.quietRuns SegState.watched
  rw [hm, hc, hw, hl, hf]

/-- R114: a segment whose leg is at anything but its fresh START is not waiting. -/
theorem SegState.waiting_of_leg {c : SegState} {a : Activity} (h : c.activity = some a)
    (ha : a ≠ .addressing .waitFresh) : c.waiting = false := by
  have hne : (some a == some (Activity.addressing .waitFresh)) = false := beq_false_of_ne fun e => ha (Option.some.inj e)
  unfold SegState.waiting
  rw [h, hne]
  simp

/-- R114: where a leg goes from one activity to another, neither of which waits for a fresh START, the quiet timer's conditions stand. -/
theorem SegState.quietRuns_of_leg {c d : SegState} {a b : Activity} (hc : c.activity = some a) (hd : d.activity = some b)
    (ha : a ≠ .addressing .waitFresh) (hb : b ≠ .addressing .waitFresh) (hm : d.mode = c.mode) (hco : d.cond = c.cond)
    (hl : d.lines = c.lines) (hf : d.foreignBusy = c.foreignBusy) : d.quietRuns = c.quietRuns :=
  quietRuns_congr hm hco ((waiting_of_leg hd hb).trans (waiting_of_leg hc ha).symm) hl hf

/-- R114: a segment that `retime` leaves as it is. -/
theorem retimed_same {limit : Nat} {c d : SegState} (hl : c.quiet.isSome = c.quietRuns) (hq : d.quiet = c.quiet)
    (hr : d.quietRuns = c.quietRuns) : { d with quiet := quietAfter limit d } = d := by
  rw [quietAfter_same hl hq hr]

end Sys2Proof.Machine
end

section
/-!
PROOFS. The conditions upstream, and what they end or begin again (O14 to O18).
-/
namespace Sys2Proof.Machine

/-! ### Segments whose owner and quiet timer stand -/

/-- A segment's owner and its quiet timer stand, and the conditions of the timer. -/
structure Steady (c d : SegState) : Prop where
  owner : d.owner = c.owner
  quiet : d.quiet = c.quiet
  runs : d.quietRuns = c.quietRuns

theorem Steady.refl (c : SegState) : Steady c c := ⟨rfl, rfl, rfl⟩

theorem Steady.trans {c d e : SegState} (h : Steady c d) (k : Steady d e) : Steady c e :=
  ⟨k.owner.trans h.owner, k.quiet.trans h.quiet, k.runs.trans h.runs⟩

/-- A record owns a segment. -/
def owning (s : State) (p : Port) : Bool := Seg.list.any (owns s p)

theorem isEmpty_ownedSegs (s : State) (p : Port) : (ownedSegs s p).isEmpty = !owning s p := by
  unfold ownedSegs owning
  rw [Bool.eq_iff_iff]
  simp

theorem retime_steady {s : State} (hl : TimersLaw s) {p : Port} {r : PortState} {f : Seg → SegState}
    (h : ∀ g, Steady (s.seg g) (f g)) :
    retime (s.bus p r f)
      = s.bus p { r with stall := r.stallBy s.working.params.stallLimit (owning s p) } f := by
  have ho (g : Seg) (q : Port) : ((f g).owner == some (.port q)) = owns s q g := by rw [owns, (h g).owner]
  rw [retime_bus hl fun g q _ => ho g q]
  refine State.bus_congr _ _ ?_ fun g => retimed_same (hl.2 g) (h g).quiet (h g).runs
  rw [owning, funext fun g => (ho g p).symm]

/-- Where only one record changes, `retime` is about its stall timer. -/
theorem retime_updPort {s : State} (hl : TimersLaw s) (p : Port) (k : PortState → PortState) :
    retime (s.updPort p k) = s.updPort p fun r =>
      { k r with stall := (k r).stallBy s.working.params.stallLimit (owning s p) } := by
  rw [State.updPort_eq_bus, retime_steady hl fun g => .refl _, State.updPort_eq_bus]

theorem timersLaw_note {s : State} (hl : TimersLaw s) (k : Kind) (a : Option PortPos) (b : Option SegPos) (n : Option Nat)
    (d : Half) : TimersLaw (note k a b n d s) := by
  refine ⟨fun p => ?_, fun g => ?_⟩
  · have hruns : stallRuns (note k a b n d s) p = stallRuns s p :=
      stallRuns_congr (fun g => by rw [note_seg]) (by rw [note_port]) (by rw [note_port])
    rw [note_port, hruns]
    exact hl.1 p
  · rw [note_seg]
    exact hl.2 g

theorem owning_note (k : Kind) (a : Option PortPos) (b : Option SegPos) (n : Option Nat) (d : Half) (s : State) (p : Port) :
    owning (note k a b n d s) p = owning s p := by
  unfold owning
  congr 1
  funext g
  rw [owns, owns, note_seg]

/-- R12, R56: a segment that no snapshot of its owner governs any longer. -/
def ungoverned (p : Port) (c : SegState) : SegState :=
  if c.owner == some (.port p) then { c with legSlot := none } else c

theorem steady_legSlot (c : SegState) (n : Option Nat) : Steady c { c with legSlot := n } := ⟨rfl, rfl, rfl⟩

theorem steady_ungoverned (p : Port) (c : SegState) : Steady c (ungoverned p c) := by
  unfold ungoverned
  split
  · exact steady_legSlot c none
  · exact .refl c

/-- A leg goes from one activity to another, neither of which waits for a fresh START. -/
theorem steady_of_leg {c : SegState} {a : Activity} (hc : c.activity = some a) (ha : a ≠ .addressing .waitFresh)
    {b : Activity} (hb : b ≠ .addressing .waitFresh) (x : Option Nat) :
    Steady c { c with activity := some b, clock := x } :=
  ⟨rfl, rfl, SegState.quietRuns_of_leg hc rfl ha hb rfl rfl rfl rfl⟩

theorem steady_closing {c : SegState} {a : Activity} (hc : c.activity = some a) (ha : a ≠ .addressing .waitFresh)
    (check : Option Byte) (n : Nat) : Steady c (closing check n c) :=
  steady_of_leg hc ha (b := .closing check) nofun _

theorem closedBy_paused {c : SegState} (h : c.activity = some .paused) (q : Params) (g : Seg) (check : Option Byte) :
    c.closedBy q g check = closing check q.clockLimit c :=
  SegState.closedBy_eq_closing (by rw [h]; nofun) (by rw [h]; nofun)

/-! ### The address phase begins again (R37) -/

/-- R19: the legs a record keeps, by the segments. -/
def keptOf (p : Port) (f : Seg → SegState) (ls : List Leg) : List Leg :=
  ls.filter fun l => l.state == .active || (l.state == .ended && (f l.seg).owner == some (.port p))

theorem keptOf_congr {p : Port} {f f' : Seg → SegState} (h : ∀ g, (f' g).owner = (f g).owner) (ls : List Leg) :
    keptOf p f' ls = keptOf p f ls := by
  unfold keptOf
  congr 1
  funext l
  rw [h]

/-- R37: the record at its repeated START, its legs as they then stand. -/
def PortState.begun (r : PortState) (legs : List Leg) : PortState :=
  { r with
    phase := .address, isOpen := true, snapshot := none, legs := legs, count := 0,
    prevSlot := r.snapshot.map (·.slot), held := none, inFlight := none, readStage := .none, addrWait := none,
    sdaByte := none }

theorem beginAddress_bus (p : Port) (s : State) (r : PortState) (f : Seg → SegState) :
    beginAddress p (s.bus p r f)
      = s.bus p (r.begun (keptOf p (fun g => if r.toStop g then (f g).closedBy s.working.params g none else f g)
          (mapLegs r.toStop Leg.ended r.legs)))
        fun g => ungoverned p (if r.toStop g then (f g).closedBy s.working.params g none else f g) := by
  unfold beginAddress
  simp only [endMarked_bus, dropSnapshot_bus, keptLegs_bus, State.bus_port_self, State.updPort_bus]
  rfl

theorem toStop_eq_false {r : PortState} (h : ∀ l ∈ r.legs, l.marked = false) (g : Seg) : r.toStop g = false := by
  unfold PortState.toStop
  cases hf : findLeg r.legs g with
  | none => exact Bool.and_false _
  | some l =>
    have hl := h l (List.mem_of_find?_eq_some hf)
    simp [hl]

/-- R37: with no leg ACTIVE marked for STOP, every leg ACTIVE is kept. -/
theorem beginAddress_unmarked_bus (p : Port) (s : State) {r : PortState} (f : Seg → SegState)
    (hno : ∀ g, r.toStop g = false) :
    beginAddress p (s.bus p r f) = s.bus p (r.begun (keptOf p f r.legs)) fun g => ungoverned p (f g) := by
  rw [beginAddress_bus, mapLegs_eq_self (fun l _ => hno l.seg)]
  simp only [hno, Bool.false_eq_true, if_false]

theorem toAddress_none {p : Port} {s : State} (h : (s.port p).earlyAddr = none) : toAddress p s = beginAddress p s := by
  unfold toAddress
  rw [h]

theorem exec_startCondition {c : Instr} {p : Port} {s : State} (hc : c = .start p ∨ c = .repeatedStart p)
    (hrun : s.run = .running) : exec c s = .next (retime (startCondition p s)) := by
  obtain rfl | rfl := hc
  · exact congrArg _ (whenRunning_running hrun _)
  · exact congrArg _ (whenRunning_running hrun _)

theorem exec_midByteStart {p : Port} {s : State} (hrun : s.run = .running) (hscl : (s.port p).sclHeld = false) :
    exec (.midByteStart p) s = .next (retime (midByteStart p s)) := by
  show Host.Outcome.next (whenRunning s _) = _
  rw [whenRunning_running hrun, hscl]
  rfl

theorem exec_stop {p : Port} {s : State} (hrun : s.run = .running) (hscl : (s.port p).sclHeld = false) :
    exec (.stop p) s = .next (retime (stopCondition p s)) := by
  show Host.Outcome.next (whenRunning s _) = _
  rw [whenRunning_running hrun, hscl]
  rfl

theorem exec_midByteStop {p : Port} {s : State} (hrun : s.run = .running) (hscl : (s.port p).sclHeld = false) :
    exec (.midByteStop p) s = .next (retime (midByteStop p s)) := by
  show Host.Outcome.next (whenRunning s _) = _
  rw [whenRunning_running hrun, hscl]
  rfl

theorem startCondition_open {p : Port} {s : State} (hscl : (s.port p).sclHeld = false) (ho : (s.port p).isOpen = true) :
    startCondition p s = repeatedStart p s := by
  unfold startCondition
  rw [hscl, ho]
  rfl

/-- R37: a START inside a byte, in a phase that owes it nothing. -/
theorem midByteStart_plain {p : Port} {s : State} (ho : (s.port p).isOpen = true)
    (h : (s.port p).phase = .offBus ∨ (s.port p).phase = .address ∨ (s.port p).phase = .drain) :
    midByteStart p s = toAddress p s := by
  unfold midByteStart
  rw [if_pos ho]
  obtain h | h | h := h
  · rw [h]
  · rw [h]
  · rw [h]

/-- R37: a START in a phase that owes it nothing, and in WRITE with nothing held or in flight. -/
theorem repeatedStart_plain {p : Port} {s : State} (h : (s.port p).phase = .offBus ∨ (s.port p).phase = .address
      ∨ (s.port p).phase = .drain
      ∨ ((s.port p).phase = .write ∧ (s.port p).held = none ∧ (s.port p).inFlight = none)) :
    repeatedStart p s = toAddress p s := by
  unfold repeatedStart
  obtain h | h | h | ⟨h, hheld, hfl⟩ := h
  · rw [h]
  · rw [h]
  · rw [h]
  · rw [h]
    show repeatedInWrite p s = _
    unfold repeatedInWrite
    rw [hfl, hheld]
    rfl

/-! ### A transaction closes (R24) -/

theorem OnlyNotices.refl (s : State) : OnlyNotices s s := rfl


/-- R24: the record at the close of its transaction, its legs as they then stand. -/
def PortState.closed (r : PortState) (legs : List Leg) : PortState :=
  { r with
    phase := .idle, isOpen := false, snapshot := none, legs := legs, count := 0, pointer := none,
    prevSlot := none, held := none, hold := none, stall := none, inFlight := none, readStage := .none,
    addrWait := none, earlyAddr := none, sdaByte := none }

theorem closeTransaction_bus (p : Port) (check : Leg → Option Byte) (s : State) (r : PortState) (f : Seg → SegState) :
    closeTransaction p check (s.bus p r f)
      = s.bus p (r.closed (mapLegs r.active Leg.ended r.legs)) fun g => ungoverned p
          (if r.active g then (f g).closedBy s.working.params g ((findLeg r.legs g).bind check) else f g) := by
  unfold closeTransaction
  simp only [endActive_bus, dropSnapshot_bus, State.updPort_bus]
  rfl

theorem bind_noCheck (l : Option Leg) : l.bind noCheck = none := by cases l <;> rfl

theorem legActive_note (k : Kind) (a : Option PortPos) (b : Option SegPos) (n : Option Nat) (d : Half) (s : State) (p : Port)
    (g : Seg) : legActive (note k a b n d s) p g = legActive s p g := by rw [legActive_eq, note_port, legActive_eq]

theorem owns_note (k : Kind) (a : Option PortPos) (b : Option SegPos) (n : Option Nat) (d : Half) (s : State) (p : Port)
    (g : Seg) : owns (note k a b n d s) p g = owns s p g := by rw [owns, note_seg, owns]

theorem legsPaused_note {s : State} {p : Port} (h : LegsPaused s p) (k : Kind) (a : Option PortPos) (b : Option SegPos)
    (n : Option Nat) (d : Half) : LegsPaused (note k a b n d s) p := by
  intro g hg
  rw [owns_note, note_seg]
  exact h g (by rwa [legActive_note] at hg)

theorem ungoverned_of_owner {p : Port} {c : SegState} (h : c.owner = some (.port p)) :
    ungoverned p c = { c with legSlot := none } := if_pos (by rw [h]; exact beq_self_eq_true _)

theorem ungoverned_of_not_owns {s : State} {p : Port} {g : Seg} (h : owns s p g = false) :
    ungoverned p (s.seg g) = s.seg g := if_neg (by unfold owns at h; rw [h]; nofun)

theorem ungoverned_eq (s : State) (p : Port) (g : Seg) :
    ungoverned p (s.seg g) = if owns s p g then { s.seg g with legSlot := none } else s.seg g := rfl

/-- R24, R37, R70: a segment whose PAUSED leg has been ended, after a check byte or none, and any other segment of the record. -/
def endedSeg (s : State) (p : Port) (ends : Seg → Bool) (check : Seg → Option Byte) (g : Seg) : SegState :=
  if ends g then { closing (check g) s.working.params.clockLimit (s.seg g) with legSlot := none }
  else if owns s p g then { s.seg g with legSlot := none } else s.seg g

theorem LegsPaused.owner {s : State} {p : Port} (h : LegsPaused s p) {g : Seg} (hg : legActive s p g = true) :
    (s.seg g).owner = some (.port p) := eq_of_beq (h g hg).1

theorem ungoverned_closedBy {s : State} {p : Port} (h : LegsPaused s p) {ends : Seg → Bool}
    (hends : ∀ g, ends g = true → legActive s p g = true) (check : Seg → Option Byte) (g : Seg) :
    ungoverned p (if ends g then (s.seg g).closedBy s.working.params g (check g) else s.seg g)
      = endedSeg s p ends check g := by
  unfold endedSeg
  by_cases hg : ends g = true
  · have hact := hends g hg
    rw [if_pos hg, if_pos hg, closedBy_paused (h g hact).2]
    exact ungoverned_of_owner (h.owner hact)
  · rw [if_neg hg, if_neg hg]
    rfl

theorem steady_endedSeg {s : State} {p : Port} (h : LegsPaused s p) {ends : Seg → Bool}
    (hends : ∀ g, ends g = true → legActive s p g = true) (check : Seg → Option Byte) (g : Seg) :
    Steady (s.seg g) (endedSeg s p ends check g) := by
  rw [← ungoverned_closedBy h hends]
  refine Steady.trans ?_ (steady_ungoverned p _)
  split
  next hg =>
    have hpaused := (h g (hends g hg)).2
    rw [closedBy_paused hpaused]
    exact steady_closing hpaused nofun _ _
  next => exact .refl _

theorem closeTransaction_paused {s : State} {p : Port} (h : LegsPaused s p) (check : Leg → Option Byte) :
    closeTransaction p check s = s.bus p ((s.port p).closed (endedLegs s p))
      (endedSeg s p (legActive s p) fun g => (legOn s p g).bind check) := by
  have hbus := closeTransaction_bus p check s (s.port p) s.seg
  rw [State.bus_self] at hbus
  exact hbus.trans (State.bus_congr _ _ rfl fun g =>
    ungoverned_closedBy h (ends := legActive s p) (fun _ hg => hg) (fun g => (legOn s p g).bind check) g)

theorem retime_closeTransaction {s : State} {p : Port} (hl : TimersLaw s) (h : LegsPaused s p)
    (check : Leg → Option Byte) : retime (closeTransaction p check s) = s.bus p ((s.port p).closed (endedLegs s p))
      (endedSeg s p (legActive s p) fun g => (legOn s p g).bind check) := by
  rw [closeTransaction_paused h, retime_steady hl (steady_endedSeg h (fun _ hg => hg) _)]
  refine State.bus_congr _ _ ?_ fun _ => rfl
  have hidle : PortState.stallBy s.working.params.stallLimit (owning s p) ((s.port p).closed (endedLegs s p)) = none := by
    unfold PortState.stallBy PortState.closed
    simp
  rw [hidle]
  rfl

theorem endedLegs_note (k : Kind) (a : Option PortPos) (b : Option SegPos) (n : Option Nat) (d : Half) (s : State)
    (p : Port) : endedLegs (note k a b n d s) p = endedLegs s p := by rw [endedLegs_eq, note_port, endedLegs_eq]

theorem endedSeg_note (k : Kind) (a : Option PortPos) (b : Option SegPos) (n : Option Nat) (d : Half) (s : State) (p : Port)
    (ends : Seg → Bool) (check : Seg → Option Byte) : endedSeg (note k a b n d s) p ends check = endedSeg s p ends check := by
  funext g
  unfold endedSeg
  rw [note_seg, note_working, owns_note]

/-- R24, R57, R71: a transaction closes with a notice. -/
theorem retime_closeTransaction_note {s : State} {p : Port} (hl : TimersLaw s) (h : LegsPaused s p)
    (check : Leg → Option Byte) (k : Kind) (a : Option PortPos) (b : Option SegPos) (n : Option Nat) (d : Half) :
    retime (closeTransaction p check (note k a b n d s))
      = (note k a b n d s).bus p ((s.port p).closed (endedLegs s p))
        (endedSeg s p (legActive s p) fun g => (legOn s p g).bind check) := by
  have hact : legActive (note k a b n d s) p = legActive s p := funext fun g => legActive_note ..
  rw [retime_closeTransaction (timersLaw_note hl ..) (legsPaused_note h k a b n d), note_port, endedLegs_note, endedSeg_note, hact]
  simp only [legOn_eq, note_port]

/-- R24: a STOP in a phase that owes it nothing. -/
theorem stopCondition_plain {p : Port} {s : State} (h : (s.port p).phase = .offBus ∨ (s.port p).phase = .address
      ∨ (s.port p).phase = .drain ∨ ((s.port p).phase = .write ∧ (s.port p).held = none)) :
    stopCondition p s = closeTransaction p noCheck s := by
  unfold stopCondition
  obtain h | h | h | ⟨h, hheld⟩ := h
  · rw [h]
  · rw [h]
  · rw [h]
  · rw [h]
    show stopInWrite p s = _
    unfold stopInWrite
    rw [hheld]

/-- R71: the check byte a leg is handed at a STOP with a byte held. -/
theorem bind_checkByte {s : State} {p : Port} {g : Seg} {l : Leg} (h : legOn s p g = some l) (check : Leg → Option Byte) :
    (legOn s p g).bind check = check l := by rw [h]; rfl

/-! ### A read is ended (R52, R54, R58) -/

/-- A list has an ACTIVE leg on a segment. -/
def activeIn (ls : List Leg) (g : Seg) : Bool := ls.any fun l => l.seg == g && l.state == .active

theorem PortState.active_eq (r : PortState) : r.active = activeIn r.legs := rfl

theorem activeIn_mapLegs_of_state {k : Leg → Leg} (hk : ∀ l, (k l).seg = l.seg ∧ (k l).state = l.state) (c : Seg → Bool)
    (ls : List Leg) : activeIn (mapLegs c k ls) = activeIn ls := by
  funext g
  unfold activeIn mapLegs
  rw [List.any_map]
  congr 1
  funext l
  obtain ⟨hseg, hstate⟩ := hk l
  simp only [Function.comp_apply]
  split
  · rw [hseg, hstate]
  · rfl

theorem activeIn_ended (c : Seg → Bool) (ls : List Leg) (g : Seg) :
    activeIn (mapLegs c Leg.ended ls) g = (activeIn ls g && !c g) := by
  unfold activeIn mapLegs
  rw [List.any_map, Bool.eq_iff_iff]
  simp only [List.any_eq_true, Function.comp_apply, Bool.and_eq_true, beq_iff_eq, Bool.not_eq_true']
  constructor
  · rintro ⟨l, hl, hseg, hstate⟩
    cases hc : c l.seg with
    | true => rw [hc] at hstate; cases hstate
    | false =>
      rw [hc] at hseg hstate
      exact ⟨⟨l, hl, hseg, hstate⟩, hseg ▸ hc⟩
  · rintro ⟨⟨l, hl, hseg, hstate⟩, hc⟩
    refine ⟨l, hl, ?_⟩
    rw [hseg, hc]
    exact ⟨hseg, hstate⟩

theorem activeIn_keptOf (p : Port) (f : Seg → SegState) (ls : List Leg) : activeIn (keptOf p f ls) = activeIn ls := by
  funext g
  unfold activeIn keptOf
  rw [Bool.eq_iff_iff]
  simp only [List.any_eq_true, List.mem_filter, Bool.and_eq_true, beq_iff_eq, Bool.or_eq_true]
  constructor
  · rintro ⟨l, ⟨hl, -⟩, h⟩
    exact ⟨l, hl, h⟩
  · rintro ⟨l, hl, h⟩
    exact ⟨l, ⟨hl, .inl h.2⟩, h⟩

theorem findLeg_mapLegs {c : Seg → Bool} {k : Leg → Leg} (hk : ∀ l, (k l).seg = l.seg) {g : Seg} (h : c g = true)
    (ls : List Leg) : findLeg (mapLegs c k ls) g = (findLeg ls g).map k := by
  induction ls with
  | nil => rfl
  | cons l ls ih =>
    have hseg : (if c l.seg = true then k l else l).seg = l.seg := by
      split
      · exact hk l
      · rfl
    unfold findLeg mapLegs at *
    rw [List.map_cons, List.find?_cons, List.find?_cons, ih, hseg]
    by_cases hl : l.seg = g
    · rw [hl, h]
      simp
    · rw [beq_false_of_ne hl]

theorem isSome_findLeg_of_active {r : PortState} {g : Seg} (h : r.active g = true) : ∃ l, findLeg r.legs g = some l := by
  obtain ⟨l, hl, hg⟩ := List.any_eq_true.mp h
  refine Option.isSome_iff_exists.mp (List.find?_isSome.mpr ⟨l, hl, (Bool.and_eq_true_iff.mp hg).1⟩)

/-- The record after `markForStop`. -/
def PortState.allMarked (r : PortState) : PortState := { r with legs := mapLegs r.unmarked Leg.toStop r.legs }

theorem active_allMarked (r : PortState) : r.allMarked.active = r.active :=
  activeIn_mapLegs_of_state (k := Leg.toStop) (fun _ => ⟨rfl, rfl⟩) _ _

/-- R52: after `markForStop` every leg ACTIVE is marked for STOP. -/
theorem toStop_allMarked (r : PortState) : r.allMarked.toStop = r.active := by
  funext g
  unfold PortState.toStop
  rw [active_allMarked]
  cases ha : r.active g with
  | false => rfl
  | true =>
    obtain ⟨l, hl⟩ := isSome_findLeg_of_active ha
    show (findLeg (mapLegs r.unmarked Leg.toStop r.legs) g).any (·.marked) = true
    by_cases hu : r.unmarked g = true
    · rw [findLeg_mapLegs (k := Leg.toStop) (fun _ => rfl) hu, hl]
      rfl
    · have hm : (r.active g && !(findLeg r.legs g).any (·.marked)) = false := Bool.eq_false_iff.mpr hu
      rw [findLeg_mapLegs_other (k := Leg.toStop) (fun _ => rfl) (Bool.eq_false_iff.mpr hu)]
      simpa [ha] using hm

/-- A segment's controller after `markForStop`. -/
def markedSeg (limit : Nat) (r : PortState) (f : Seg → SegState) (g : Seg) : SegState :=
  if r.unmarked g then { f g with activity := some (.reading .nackClock), clock := some limit } else f g

theorem markForStop_bus' (p : Port) (s : State) (r : PortState) (f : Seg → SegState) :
    markForStop p (s.bus p r f) = s.bus p r.allMarked (markedSeg s.working.params.clockLimit r f) := markForStop_bus p s r f

/-- R52, R111: the leg of a read, at its pause or already in its NACK clock, is closed by its STOP. -/
theorem closedBy_markedSeg {q : Params} {r : PortState} {f : Seg → SegState} {g : Seg}
    (h : (f g).activity = some .paused ∨ (f g).activity = some (.reading .nackClock) ∧ r.unmarked g = false) :
    (markedSeg q.clockLimit r f g).closedBy q g none = closing none q.clockLimit (f g) := by
  unfold markedSeg
  by_cases hu : r.unmarked g = true
  · obtain h | ⟨-, hno⟩ := h
    · rw [if_pos hu]
      simp [SegState.closedBy, closing, h]
    · exact absurd (hu.symm.trans hno) nofun
  · rw [if_neg hu]
    refine SegState.closedBy_eq_closing ?_ ?_
    · obtain h | ⟨h, -⟩ := h <;> rw [h] <;> nofun
    · obtain h | ⟨h, -⟩ := h <;> rw [h] <;> nofun

/-- R51, R63, R74: the record with a byte of its read counted. -/
def PortState.counted (r : PortState) (b : Byte) (edges : Nat) : PortState :=
  { r with
    count := countAfter r.count
    pointer :=
      match r.snapshot with
      | none => r.pointer
      | some sn => if sn.entry.window.isSome then r.pointer.map (· + 1) else r.pointer
    readRemaining :=
      match r.snapshot with
      | none => r.readRemaining
      | some sn => if sn.entry.check = .regen then r.readRemaining - 1 else r.readRemaining
    up := if edges < byteEdges then crc8 r.up b else r.up }

theorem countRead_bus (p : Port) (b : Byte) (n : Nat) (s : State) (r : PortState) (f : Seg → SegState) :
    countRead p b n (s.bus p r f) = s.bus p (r.counted b n) f := State.updPort_bus ..

/-- R52, R54: what a condition finds of a read whose one leg is ACTIVE: the byte counted where it is whole, and the leg marked for STOP. -/
structure NackFound (s : State) (p : Port) (g : Seg) (l : Leg) (sn : Snapshot) (r : PortState) (f : Seg → SegState) :
    Prop where
  eq : nackInPlace p s = s.bus p r f
  legs : r.legs = [{ l with marked := true }]
  early : r.earlyAddr = (s.port p).earlyAddr
  pointer : r.pointer = match (s.port p).readStage with
    | .supplying _ n => if (n = 0 ∨ 16 ≤ n) ∧ sn.entry.window ≠ none then (s.port p).pointer.map (· + 1)
      else (s.port p).pointer
    | _ => (s.port p).pointer
  up : r.up = match (s.port p).readStage with
    | .supplying b n => if n = 0 then crc8 (s.port p).up b else (s.port p).up
    | _ => (s.port p).up
  closed : (f g).closedBy s.working.params g none = closing none s.working.params.clockLimit (s.seg g)
  owner : (f g).owner = (s.seg g).owner
  others : ∀ h, h ≠ g → f h = s.seg h

theorem unmarked_singleton {r : PortState} {l : Leg} (hl : r.legs = [l]) (ha : l.state = .active) (g : Seg) :
    r.unmarked g = (l.seg == g && !l.marked) := by
  unfold PortState.unmarked
  rw [PortState.active_eq, hl]
  simp only [activeIn, findLeg, List.any_cons, List.any_nil, List.find?_cons, List.find?_nil, ha]
  by_cases e : l.seg = g
  · simp [e]
  · simp [beq_false_of_ne e]

theorem markedSeg_owner (limit : Nat) (r : PortState) (f : Seg → SegState) (g : Seg) :
    (markedSeg limit r f g).owner = (f g).owner := by
  unfold markedSeg
  split <;> rfl

theorem legs_allMarked_singleton {r : PortState} {l : Leg} (hl : r.legs = [l]) (ha : l.state = .active) :
    r.allMarked.legs = [{ l with marked := true }] := by
  show mapLegs r.unmarked Leg.toStop r.legs = _
  rw [hl]
  unfold mapLegs
  rw [List.map_singleton, unmarked_singleton hl ha]
  by_cases hm : l.marked = true
  · have hl : { l with marked := true } = l := by rw [← hm]
    rw [if_neg (by simp [hm]), hl]
  · rw [if_pos (by simp [hm])]
    rfl

theorem nackFound_supplying {s : State} {p : Port} {g : Seg} {l : Leg} {sn : Snapshot} {b : Byte} {n : Nat}
    (hst : (s.port p).readStage = .supplying b n) (hsn : (s.port p).snapshot = some sn) (hlegs : (s.port p).legs = [l])
    (hseg : l.seg = g) (ha : l.state = .active) (hact : (s.seg g).activity = some .paused) :
    ∃ r f, NackFound s p g l sn r f := by
  let r : PortState := if suppliedWhole n then (s.port p).counted b n else s.port p
  have hcount : (if suppliedWhole n then countRead p b n s else s) = s.bus p r s.seg := by
    have hbus := countRead_bus p b n s (s.port p) s.seg
    rw [State.bus_self] at hbus
    simp only [r]
    split
    · exact hbus
    · exact (s.bus_self p).symm
  have hr : r.legs = [l] := by
    simp only [r]
    split <;> exact hlegs
  refine ⟨r.allMarked, markedSeg s.working.params.clockLimit r s.seg, ?_, legs_allMarked_singleton hr ha, ?_, ?_, ?_,
    closedBy_markedSeg (.inl hact), markedSeg_owner .., fun h hh => if_neg ?_⟩
  · unfold nackInPlace
    rw [hst]
    show markForStop p (if suppliedWhole n then countRead p b n s else s) = _
    rw [hcount]
    exact markForStop_bus' ..
  · show r.earlyAddr = _
    simp only [r]
    split <;> rfl
  · rw [hst]
    show r.pointer = _
    simp only [r, suppliedWhole_iff]
    by_cases hn : n = 0 ∨ 16 ≤ n
    · simp only [hn, if_true, true_and, PortState.counted, hsn]
      cases sn.entry.window <;> simp
    · simp only [hn, if_false, false_and]
  · rw [hst]
    show r.up = _
    simp only [r, suppliedWhole_iff]
    by_cases hn : n = 0 ∨ 16 ≤ n
    · simp only [hn, if_true, PortState.counted]
      have hedges : byteEdges = 16 := rfl
      by_cases h0 : n = 0
      · simp [h0, hedges]
      · rw [if_neg (show ¬n < byteEdges by omega), if_neg h0]
    · rw [if_neg hn, if_neg fun h0 => hn (.inl h0)]
  · rw [unmarked_singleton hr ha, hseg, beq_false_of_ne fun e => hh e.symm]
    nofun

theorem nackFound_ended {s : State} {p : Port} {g : Seg} {l : Leg} {sn : Snapshot} (hlegs : (s.port p).legs = [l])
    (hm : l.marked = true) (hst : ∀ b n, (s.port p).readStage ≠ .supplying b n)
    (hact : (s.seg g).activity = some .paused ∨ (s.seg g).activity = some (.reading .nackClock)) :
    NackFound s p g l sn (s.port p) s.seg := by
  refine ⟨?_, ?_, rfl, ?_, ?_, ?_, rfl, fun _ _ => rfl⟩
  · rw [State.bus_self]
    unfold nackInPlace
    split
    next h => exact absurd h (hst _ _)
    all_goals rfl
  · rw [hlegs, ← hm]
  · split
    next h => exact absurd h (hst _ _)
    next => rfl
  · split
    next h => exact absurd h (hst _ _)
    next => rfl
  · refine SegState.closedBy_eq_closing ?_ ?_
    · obtain h | h := hact <;> rw [h] <;> nofun
    · obtain h | h := hact <;> rw [h] <;> nofun

/-- R33, R24, R37: the segments when the leg on one of them, the only one a record owns, has been ended. -/
def closedOnly (s : State) (g k : Seg) : SegState :=
  if k = g then { closing none s.working.params.clockLimit (s.seg g) with legSlot := none } else s.seg k

theorem closedOnly_self (s : State) (g : Seg) :
    closedOnly s g g = { closing none s.working.params.clockLimit (s.seg g) with legSlot := none } := if_pos rfl

theorem closedOnly_other (s : State) {g k : Seg} (h : k ≠ g) : closedOnly s g k = s.seg k := if_neg h

/-- R33, R37, R24: a read with one leg, marked for STOP, is ended by the close of its transaction or by an address phase that begins. -/
theorem NackFound.ends {s : State} {p : Port} {g : Seg} {l : Leg} {sn : Snapshot} {r : PortState} {f : Seg → SegState}
    (h : NackFound s p g l sn r f) (hseg : l.seg = g) (ha : l.state = .active) (ho : owns s p g = true)
    (hothers : ∀ k, k ≠ g → owns s p k = false) :
    (∀ k, r.toStop k = (k == g)) ∧ (∀ k, r.active k = (k == g))
      ∧ mapLegs (fun k => k == g) Leg.ended r.legs = [{ l with state := .ended, marked := true }]
      ∧ ∀ k, ungoverned p (if k == g then (f k).closedBy s.working.params k none else f k)
        = closedOnly s g k := by
  have hactive (k : Seg) : r.active k = (k == g) := by
    rw [PortState.active_eq, h.legs]
    simp only [activeIn, List.any_cons, List.any_nil, ha, hseg]
    by_cases e : g = k
    · simp [e]
    · simp [beq_false_of_ne e, beq_false_of_ne fun e' => e e'.symm]
  refine ⟨fun k => ?_, hactive, ?_, fun k => ?_⟩
  · unfold PortState.toStop
    rw [hactive, h.legs]
    by_cases e : k = g
    · subst e
      simp [findLeg, hseg]
    · rw [beq_false_of_ne e]
      rfl
  · rw [h.legs]
    simp [mapLegs, hseg, Leg.ended]
  · by_cases e : k = g
    · subst e
      rw [if_pos (beq_self_eq_true k), closedOnly, if_pos rfl, h.closed]
      exact ungoverned_of_owner (eq_of_beq ho)
    · rw [if_neg (by rw [beq_false_of_ne e]; nofun), closedOnly, if_neg e, h.others k e]
      exact ungoverned_of_not_owns (hothers k e)

namespace Laws

/-- Settles O14: `freshStart` changes one record, and `retime` gives it its stall timer. -/
theorem freshStart : Obligations.FreshStart := by
  intro s p c hc hrun hscl hclosed hl
  have hfresh : exec c s = .next (retime (Machine.freshStart p s)) := by
    have hstart : startCondition p s = Machine.freshStart p s := by
      unfold startCondition
      rw [hscl, hclosed]
      rfl
    obtain rfl | rfl | rfl := hc
    · rw [exec_startCondition (.inl rfl) hrun, hstart]
    · rw [exec_startCondition (.inr rfl) hrun, hstart]
    · rw [exec_midByteStart hrun hscl]
      unfold midByteStart
      rw [hclosed]
      rfl
  rw [hfresh, Machine.freshStart, retime_updPort hl, State.updPort_eq_bus, State.updPort_eq_bus]
  refine congrArg _ (State.bus_congr _ _ ?_ fun _ => rfl)
  rw [isEmpty_ownedSegs]
  unfold PortState.stallBy
  cases owning s p <;> simp [hscl, crc8Start]

/-- Settles O15: the phases that owe a START nothing lead to `toAddress`, which with no leg marked for STOP keeps the legs. -/
theorem repeatedStart : Obligations.RepeatedStart := by
  intro s p c hc hrun hscl hopen hearly hl hphase hmarked
  have hto : exec c s = .next (retime (beginAddress p s)) := by
    rw [← toAddress_none hearly]
    have hplain := repeatedStart_plain hphase
    obtain rfl | rfl | ⟨rfl, hw⟩ := hc
    · rw [exec_startCondition (.inl rfl) hrun, startCondition_open hscl hopen, hplain]
    · rw [exec_startCondition (.inr rfl) hrun, startCondition_open hscl hopen, hplain]
    · rw [exec_midByteStart hrun hscl, midByteStart_plain hopen]
      obtain h | h | h | ⟨h, -⟩ := hphase
      · exact .inl h
      · exact .inr (.inl h)
      · exact .inr (.inr h)
      · exact absurd h hw
  have hbegun := beginAddress_unmarked_bus p s s.seg (toStop_eq_false hmarked)
  rw [State.bus_self] at hbegun
  rw [hbegun, retime_steady hl fun g => steady_ungoverned p _] at hto
  refine ⟨_, hto, ?_, fun g => ?_, onlyPortSegs_bus ..⟩
  · rw [State.bus_port_self]
    rfl
  · rw [State.bus_seg]
    rfl

/-- Settles O17: a STOP closes the transaction; with a byte held, after the check decision; and in IDLE it does nothing. -/
theorem stopCloses : Obligations.StopCloses := by
  refine ⟨fun s p hrun hscl hl hpaused hphase c hc => ?_, fun s p h ⟨hrun, hphase, hscl⟩ hheld hl hpaused => ?_,
    fun s p c hc hrun hphase hl => ?_⟩
  · have hclose : exec c s = .next (retime (closeTransaction p noCheck s)) := by
      obtain rfl | ⟨rfl, hw⟩ := hc
      · rw [exec_stop hrun hscl, stopCondition_plain hphase]
      · rw [exec_midByteStop hrun hscl]
        unfold midByteStop
        obtain h | h | h | ⟨h, -⟩ := hphase
        · rw [h]
        · rw [h]
        · rw [h]
        · exact absurd h hw
    rw [retime_closeTransaction hl hpaused] at hclose
    refine ⟨_, hclose, ?_, fun g => ?_, onlyPortSegs_bus ..⟩
    · rw [State.bus_port_self]
      rfl
    · rw [State.bus_seg, endedSeg, bind_noCheck]
  · have hstop : exec (.stop p) s = .next (retime (checkDecision p h s)) := by
      rw [exec_stop hrun hscl]
      unfold stopCondition
      rw [hphase]
      show Host.Outcome.next (retime (stopInWrite p s)) = _
      unfold stopInWrite
      rw [hheld]
    have hseg (check : Leg → Option Byte) (g : Seg) (hg : legActive s p g = false) (ho : owns s p g = false) :
        endedSeg s p (legActive s p) (fun g => (legOn s p g).bind check) g = s.seg g := by
      unfold endedSeg
      rw [hg, ho]
      rfl
    unfold checkDecision at hstop
    by_cases heq : h = (s.port p).up
    · rw [if_pos heq, retime_closeTransaction hl hpaused] at hstop
      refine ⟨_, hstop, ?_⟩
      simp only [State.bus_port_self, State.bus_seg]
      refine ⟨rfl, rfl, rfl, rfl, rfl, fun g l hg hleg => ?_, hseg _, fun _ => ⟨rfl, rfl, rfl⟩, fun hne => absurd heq hne,
        onlyPortSegsNotices_bus (OnlyNotices.refl s) ..⟩
      rw [endedSeg, if_pos hg, bind_checkByte hleg, if_pos heq]
      rfl
    · rw [if_neg heq, notePort, retime_closeTransaction_note hl hpaused] at hstop
      refine ⟨_, hstop, ?_⟩
      simp only [State.bus_port_self, State.bus_seg]
      refine ⟨rfl, rfl, rfl, rfl, rfl, fun g l hg hleg => ?_, hseg _, fun e => absurd e heq, fun _ => recorded_bus_note ..,
        onlyPortSegsNotices_bus_note ..⟩
      rw [endedSeg, if_pos hg, bind_checkByte hleg, if_neg heq]
      rfl
  · have hstop : stopCondition p s = s := by
      unfold stopCondition
      rw [hphase]
    have hmid : midByteStop p s = s := by
      unfold midByteStop
      rw [hphase]
    obtain rfl | rfl := hc
    · show Host.Outcome.next (whenRunning s _) = _
      rw [whenRunning_running hrun, hstop, retime_of_law hl, ite_self]
    · show Host.Outcome.next (whenRunning s _) = _
      rw [whenRunning_running hrun, hmid, retime_of_law hl, ite_self]

/-- Settles O16: by the stage of the read, what the condition counts and how it marks the leg; then the leg is ended, by the close of the
transaction at a STOP and by the marked legs' end at a START. -/
theorem readEndedByCondition : Obligations.ReadEndedByCondition := by
  rintro s p g l act sn ⟨hrun, hphase, hscl⟩ hopen hearly hsn hl hlegs hseg ha ⟨-, howner, hact⟩ hothers hstage c hc
  have ho : owns s p g = true := by rw [owns, howner]; exact beq_self_eq_true _
  have hpaused : act = .paused ∨ act = .reading .nackClock := by
    split at hstage
    · exact .inl (eq_of_beq hstage)
    · exact .inl (eq_of_beq (Bool.and_eq_true_iff.mp hstage).1)
    · exact (Bool.or_eq_true_iff.mp (Bool.and_eq_true_iff.mp hstage).1).imp eq_of_beq eq_of_beq
    all_goals cases hstage
  have hact' : (s.seg g).activity = some .paused ∨ (s.seg g).activity = some (.reading .nackClock) := by
    rw [hact]
    exact hpaused.imp (congrArg some) (congrArg some)
  obtain ⟨r, f, hfound⟩ : ∃ r f, NackFound s p g l sn r f := by
    split at hstage
    next b n hst => exact nackFound_supplying hst hsn hlegs hseg ha (hact.trans (congrArg some (eq_of_beq hstage)))
    next hst =>
      exact ⟨_, _, nackFound_ended hlegs (Bool.and_eq_true_iff.mp hstage).2 (by rw [hst]; nofun) hact'⟩
    next hst =>
      exact ⟨_, _, nackFound_ended hlegs (Bool.and_eq_true_iff.mp hstage).2 (by rw [hst]; nofun) hact'⟩
    all_goals cases hstage
  obtain ⟨hstop, hactive, hended, hsegs⟩ := hfound.ends hseg ha ho hothers
  have hsteady (k : Seg) : Steady (s.seg k) (closedOnly s g k) := by
    unfold closedOnly
    split
    next e =>
      subst e
      refine (steady_closing hact ?_ none _).trans (steady_legSlot _ none)
      obtain rfl | rfl := hpaused <;> nofun
    next => exact .refl _
  have hstopped : c = .stop p → exec c s = .next (s.bus p (r.closed [{ l with state := .ended, marked := true }])
      (closedOnly s g)) := by
    rintro rfl
    have hclose : closeTransaction p noCheck (nackInPlace p s)
        = s.bus p (r.closed [{ l with state := .ended, marked := true }]) (closedOnly s g) := by
      rw [hfound.eq, closeTransaction_bus]
      refine State.bus_congr _ _ ?_ fun k => ?_
      · rw [funext hactive, hended]
      · rw [hactive, bind_noCheck]
        exact hsegs k
    rw [exec_stop hrun hscl, stopCondition, hphase]
    show Host.Outcome.next (retime (closeTransaction p noCheck (nackInPlace p s))) = _
    rw [hclose, retime_steady hl hsteady]
    refine congrArg _ (State.bus_congr _ _ ?_ fun _ => rfl)
    simp [PortState.stallBy, PortState.closed]
  have hbegun : c = .repeatedStart p ∨ c = .start p → ∃ n, exec c s
      = .next (s.bus p { r.begun [{ l with state := .ended, marked := true }] with stall := n } (closedOnly s g)) := by
    intro hc
    have hto : toAddress p (nackInPlace p s)
        = s.bus p (r.begun [{ l with state := .ended, marked := true }]) (closedOnly s g) := by
      rw [hfound.eq, toAddress_none (by rw [State.bus_port_self, hfound.early, hearly]), beginAddress_bus]
      refine State.bus_congr _ _ ?_ fun k => ?_
      · rw [funext hstop, hended]
        have hown : ((f l.seg).owner == some (Claimant.port p)) = true := by
          rw [hseg, hfound.owner]
          exact ho
        have hkept : keptOf p (fun k => if k == g then (f k).closedBy s.working.params k none else f k)
            [{ l with state := .ended, marked := true }] = [{ l with state := .ended, marked := true }] := by
          have hclosed : ((f l.seg).closedBy s.working.params l.seg none).owner = some (.port p) := by
            rw [hseg, hfound.closed]
            exact howner
          simp [keptOf, hseg, hseg ▸ hclosed]
        rw [hkept]
      · rw [hstop]
        exact hsegs k
    refine ⟨(r.begun [{ l with state := .ended, marked := true }]).stallBy s.working.params.stallLimit (owning s p), ?_⟩
    rw [exec_startCondition hc.symm hrun, startCondition_open hscl hopen, Machine.repeatedStart, hphase]
    show Host.Outcome.next (retime (toAddress p (nackInPlace p s))) = _
    rw [hto, retime_steady hl hsteady]
  obtain rfl | hc := hc
  · refine ⟨_, hstopped rfl, ?_⟩
    simp only [State.bus_port_self, State.bus_seg]
    refine ⟨rfl, rfl, rfl, rfl, rfl, hfound.up, rfl, closedOnly_self s g, onlyPortSegs_bus ..,
      fun h hh => closedOnly_other s hh⟩
  · obtain ⟨n, hexec⟩ := hbegun hc
    have hne : c ≠ .stop p := by obtain rfl | rfl := hc <;> nofun
    refine ⟨_, hexec, ?_⟩
    simp only [State.bus_port_self, State.bus_seg, if_neg hne]
    exact ⟨rfl, rfl, rfl, rfl, hfound.pointer, hfound.up, rfl, closedOnly_self s g, onlyPortSegs_bus ..,
      fun h hh => closedOnly_other s hh⟩

end Laws
end Sys2Proof.Machine
end

section
/-!
PROOFS. A START inside a byte, and a repeated START that confirms a held byte (O18 to O20).
-/
namespace Sys2Proof.Machine

/-! ### A START inside a byte (R58, R73) -/

theorem endedSeg_congr {s : State} {p : Port} {ends ends' : Seg → Bool} {check check' : Seg → Option Byte}
    (he : ∀ g, ends g = ends' g) (hc : ∀ g, check g = check' g) : endedSeg s p ends check = endedSeg s p ends' check' := by
  rw [funext he, funext hc]

/-- R37: an address phase begins with every leg ended already. -/
theorem beginAddress_endActive {s : State} {p : Port} (h : LegsPaused s p) :
    ∃ legs, (∀ g, activeIn legs g = false) ∧ beginAddress p (endActive p noCheck s)
      = s.bus p ((s.port p).begun legs) (endedSeg s p (legActive s p) fun _ => none) := by
  have hend := endActive_bus p noCheck s (s.port p) s.seg
  rw [State.bus_self] at hend
  have hinactive (g : Seg) : activeIn (mapLegs (s.port p).active Leg.ended (s.port p).legs) g = false := by
    rw [activeIn_ended, ← PortState.active_eq, Bool.and_not_self]
  rw [hend, beginAddress_unmarked_bus]
  · refine ⟨_, fun g => ?_, State.bus_congr _ _ rfl fun g => ?_⟩
    · rw [activeIn_keptOf, hinactive]
    · simp only [bind_noCheck]
      exact ungoverned_closedBy h (ends := legActive s p) (fun _ hg => hg) (fun _ => none) g
  · intro g
    unfold PortState.toStop
    rw [PortState.active_eq, hinactive, Bool.false_and]

/-- R37, R58: an address phase begins with every leg marked for STOP. -/
theorem beginAddress_markForStop {s : State} {p : Port} (h : LegsPaused s p) :
    ∃ legs, (∀ g, activeIn legs g = false) ∧ beginAddress p (markForStop p s)
      = s.bus p ((s.port p).begun legs) (endedSeg s p (legActive s p) fun _ => none) := by
  have hmark := markForStop_bus' p s (s.port p) s.seg
  rw [State.bus_self] at hmark
  rw [hmark, beginAddress_bus, toStop_allMarked]
  refine ⟨_, fun g => ?_, State.bus_congr _ _ rfl fun g => ?_⟩
  · rw [activeIn_keptOf, activeIn_ended, ← PortState.active_eq, active_allMarked, Bool.and_not_self]
  · rw [← ungoverned_closedBy h (ends := legActive s p) (fun _ hg => hg) (fun _ => none) g]
    congr 1
    by_cases hg : (s.port p).active g = true
    · have hpaused := (h g hg).2
      rw [if_pos hg, if_pos (show legActive s p g = true from hg), closedBy_markedSeg (.inl hpaused), closedBy_paused hpaused]
    · rw [if_neg hg, if_neg (show ¬legActive s p g = true from hg)]
      refine if_neg fun hu => hg ?_
      exact (Bool.and_eq_true_iff.mp hu).1

/-- R37: an address phase begins with the legs kept. -/
theorem beginAddress_kept {s : State} {p : Port} (h : ∀ l ∈ (s.port p).legs, l.marked = false) :
    beginAddress p s = s.bus p ((s.port p).begun (keptLegs s p)) (endedSeg s p (fun _ => false) fun _ => none) := by
  have hbegun := beginAddress_unmarked_bus p s s.seg (toStop_eq_false h)
  rw [State.bus_self] at hbegun
  exact hbegun

theorem keptLegs_note (k : Kind) (a : Option PortPos) (b : Option SegPos) (n : Option Nat) (d : Half) (s : State) (p : Port) :
    keptLegs (note k a b n d s) p = keptLegs s p := by
  unfold keptLegs
  simp only [note_port, owns_note]

/-- R58, R73: where a START inside a byte of a data phase leads, by whether it ends the legs. -/
theorem midByteStart_data {s : State} {p : Port} {ends : Bool} (hphase : (s.port p).phase = .write ∨ (s.port p).phase = .read)
    (hends : ends = ((s.port p).phase == .read || (s.port p).held.isSome)) (hfl : (s.port p).inFlight = none)
    (hopen : (s.port p).isOpen = true) (hearly : (s.port p).earlyAddr = none) (hp : LegsPaused s p)
    (hm : ends = false → ∀ l ∈ (s.port p).legs, l.marked = false) :
    ∃ legs, (ends = false → legs = keptLegs s p) ∧ (ends = true → ∀ g, activeIn legs g = false)
      ∧ midByteStart p s = (note .upBusError (some (.port p)) none (slotOf s p) detailStart s).bus p
        ((s.port p).begun legs) (endedSeg s p (fun g => legActive s p g && ends) fun _ => none) := by
  let u := note .upBusError (some (.port p)) none (slotOf s p) detailStart s
  have hport : u.port p = s.port p := note_port ..
  have hact : legActive u p = legActive s p := funext fun g => legActive_note ..
  have hseg (ends : Seg → Bool) : endedSeg u p ends (fun _ => none) = endedSeg s p ends fun _ => none := endedSeg_note ..
  have hu : LegsPaused u p := legsPaused_note hp _ _ _ _ _
  have hto (t : State) (ht : (t.port p).earlyAddr = none) : toAddress p t = beginAddress p t := toAddress_none ht
  unfold midByteStart
  rw [if_pos hopen]
  obtain hw | hr := hphase
  · rw [hw, hfl]
    show ∃ legs, _ ∧ _ ∧ cutWriteByStart p s = _
    cases hheld : (s.port p).held with
    | none =>
      have hno : ends = false := by rw [hends, hw, hheld]; rfl
      have hcut : cutWriteByStart p s = toAddress p u := by
        unfold cutWriteByStart
        rw [hheld]
        rfl
      refine ⟨keptLegs s p, fun _ => rfl, fun e => absurd (e.symm.trans hno) nofun, ?_⟩
      rw [hcut, hto u (by rw [hport, hearly]), beginAddress_kept (by rw [hport]; exact hm hno), hport, hseg, hno]
      rw [keptLegs_note]
      exact State.bus_congr _ _ rfl fun g => congrFun (endedSeg_congr (fun g => (Bool.and_false _).symm) fun _ => rfl) g
    | some b =>
      have hyes : ends = true := by rw [hends, hheld]; exact Bool.or_true _
      have hcut : cutWriteByStart p s = toAddress p (endActive p noCheck u) := by
        unfold cutWriteByStart
        rw [hheld]
        rfl
      have hbus := endActive_bus p noCheck u (u.port p) u.seg
      rw [State.bus_self] at hbus
      obtain ⟨legs, hlegs, hbegun⟩ := beginAddress_endActive hu
      refine ⟨legs, fun e => absurd (hyes.symm.trans e) nofun, fun _ => hlegs, ?_⟩
      rw [hcut, hto _ (by rw [hbus, State.bus_port_self, hport, hearly]), hbegun, hport, hseg, hact, hyes]
      exact State.bus_congr _ _ rfl fun g => congrFun (endedSeg_congr (fun g => (Bool.and_true _).symm) fun _ => rfl) g
  · rw [hr]
    have hyes : ends = true := by rw [hends, hr]; rfl
    have hbus := markForStop_bus' p u (u.port p) u.seg
    rw [State.bus_self] at hbus
    obtain ⟨legs, hlegs, hbegun⟩ := beginAddress_markForStop hu
    refine ⟨legs, fun e => absurd (hyes.symm.trans e) nofun, fun _ => hlegs, ?_⟩
    show toAddress p (markForStop p u) = _
    rw [hto _ (by rw [hbus, State.bus_port_self]; exact (congrArg PortState.earlyAddr hport).trans hearly), hbegun, hport,
      hseg, hact, hyes]
    exact State.bus_congr _ _ rfl fun g => congrFun (endedSeg_congr (fun g => (Bool.and_true _).symm) fun _ => rfl) g

theorem retime_noted_steady {s : State} (hl : TimersLaw s) {p : Port} {r : PortState} {f : Seg → SegState}
    (h : ∀ g, Steady (s.seg g) (f g)) (k : Kind) (a : Option PortPos) (b : Option SegPos) (n : Option Nat) (d : Half) :
    retime ((note k a b n d s).bus p r f) = (note k a b n d s).bus p
      { r with stall := r.stallBy s.working.params.stallLimit (owning s p) } f := by
  rw [retime_steady (timersLaw_note hl ..) (fun g => by rw [note_seg]; exact h g), note_working, owning_note]

theorem activeSegs_eq_nil {s : State} {p : Port} (h : ∀ g, legActive s p g = false) : activeSegs s p = [] :=
  List.filter_eq_nil_iff.mpr fun g _ => by rw [h g]; nofun

namespace Laws

/-- Settles O18: a STOP inside a byte closes the transaction with its notice; a START inside one begins an address phase, the legs kept or ended. -/
theorem midByteConditions : Obligations.MidByteConditions := by
  refine ⟨fun s p ph hph ⟨hrun, hphase, hscl⟩ hfl hl hp => ?_,
    fun s p ph ends hph ⟨hrun, hphase, hscl⟩ hends hfl hopen hearly hl hp hm => ?_⟩
  · have hcut : exec (.midByteStop p) s = .next (retime (closeTransaction p noCheck
        (note .upBusError (some (.port p)) none (slotOf s p) detailStop s))) := by
      rw [exec_midByteStop hrun hscl]
      unfold midByteStop
      obtain rfl | rfl := hph
      · rw [hphase, hfl]
        rfl
      · rw [hphase]
        rfl
    rw [retime_closeTransaction_note hl hp] at hcut
    refine ⟨_, hcut, ?_⟩
    simp only [State.bus_port_self, State.bus_seg]
    refine ⟨rfl, rfl, rfl, rfl, rfl, rfl, rfl, recorded_bus_note .., fun g => ?_, onlyPortSegsNotices_bus_note ..⟩
    rw [endedSeg, bind_noCheck]
  · obtain ⟨legs, hkept, hended, hmid⟩ := midByteStart_data (ends := ends)
      (hph.imp (hphase.trans ·) (hphase.trans ·)) (by rw [hphase]; exact hends) hfl hopen hearly hp hm
    have hexec := exec_midByteStart hrun hscl
    rw [hmid, retime_noted_steady hl (steady_endedSeg hp (fun _ hg => (Bool.and_eq_true_iff.mp hg).1) _)] at hexec
    refine ⟨_, hexec, ?_⟩
    simp only [State.bus_port_self, State.bus_seg]
    exact ⟨rfl, rfl, rfl, rfl, rfl, rfl, rfl, rfl, recorded_bus_note .., hkept,
      fun he => activeSegs_eq_nil fun g => (legActive_bus ..).trans (hended he g), fun _ => rfl,
      onlyPortSegsNotices_bus_note ..⟩

end Laws
end Sys2Proof.Machine
end

section
/-!
PROOFS. The bytes of a write: judged, handed to the legs, or refused (O19, O27, O28).
-/
namespace Sys2Proof.Machine

/-! ### The stall timer of a record (R59) -/

theorem stallBy_congr {limit : Nat} {owning : Bool} {r r' : PortState} (hp : r'.phase = r.phase)
    (hs : r'.sclHeld = r.sclHeld) (hstall : r'.stall = r.stall) : r'.stallBy limit owning = r.stallBy limit owning := by
  unfold PortState.stallBy
  rw [hp, hs, hstall]

/-- R59: a stall timer goes on as it was where its conditions stay as they were. -/
theorem stallBy_same {s : State} (hl : TimersLaw s) {p : Port} {r : PortState} (hp : r.phase = (s.port p).phase)
    (hs : r.sclHeld = (s.port p).sclHeld) (hstall : r.stall = (s.port p).stall) :
    r.stallBy s.working.params.stallLimit (owning s p) = (s.port p).stall := by
  rw [stallBy_congr hp hs hstall]
  have hafter := stallAfter_eq s p
  rw [isEmpty_ownedSegs, Bool.not_not] at hafter
  rw [← hafter]
  exact stallAfter_of_law (hl.1 p)

theorem stallBy_held {limit : Nat} {owning : Bool} {r : PortState} (h : r.sclHeld = true) :
    r.stallBy limit owning = none := by
  unfold PortState.stallBy
  rw [h]
  simp

/-! ### The segments of the legs ACTIVE -/

/-- R33: the segments of the legs ACTIVE and PAUSED when these have been ended. -/
def closingSeg (s : State) (p : Port) (g : Seg) : SegState :=
  if legActive s p g then closing none s.working.params.clockLimit (s.seg g) else s.seg g

theorem closingSeg_eq {s : State} {p : Port} (h : LegsPaused s p) (g : Seg) :
    (if legActive s p g then (s.seg g).closedBy s.working.params g none else s.seg g) = closingSeg s p g := by
  unfold closingSeg
  split
  next hg => exact closedBy_paused (h g hg).2 ..
  next => rfl

theorem steady_closingSeg {s : State} {p : Port} (h : LegsPaused s p) (g : Seg) : Steady (s.seg g) (closingSeg s p g) := by
  unfold closingSeg
  split
  next hg => exact steady_closing (h g hg).2 nofun _ _
  next => exact .refl _

/-- The segments of the legs ACTIVE, each at an activity with its clock-limit timer started. -/
def atActivity (s : State) (p : Port) (a : Activity) (g : Seg) : SegState :=
  if legActive s p g then { s.seg g with activity := some a, clock := some s.working.params.clockLimit } else s.seg g

theorem steady_atActivity {s : State} {p : Port} (h : LegsPaused s p) {a : Activity} (ha : a ≠ .addressing .waitFresh)
    (g : Seg) : Steady (s.seg g) (atActivity s p a g) := by
  unfold atActivity
  split
  next hg => exact steady_of_leg (h g hg).2 nofun ha _
  next => exact .refl _

theorem startClock_updSeg (g : Seg) (k : SegState → SegState) (s : State) :
    startClock g (s.updSeg g k) = s.updSeg g fun c => { k c with clock := some s.working.params.clockLimit } := by
  unfold startClock State.updSeg
  simp only [PerSeg.get_set_self, PerSeg.set_set]

/-! ### A byte handed out, or refused (R42 to R48) -/

@[simp] theorem holdScl_bus (p : Port) (s : State) (r : PortState) (f : Seg → SegState) :
    holdScl p (s.bus p r f) = s.bus p { r with sclHeld := true, stall := none } f := State.updPort_bus ..

@[simp] theorem giveAck_bus (p : Port) (a : Ack) (s : State) (r : PortState) (f : Seg → SegState) :
    giveAck p a (s.bus p r f) = s.bus p { r with ackOut := some a, sclHeld := false } f := State.updPort_bus ..

@[simp] theorem supply_bus (p : Port) (b : Byte) (s : State) (r : PortState) (f : Seg → SegState) :
    supply p b (s.bus p r f) = s.bus p { r with sdaByte := some b, sclHeld := false } f := State.updPort_bus ..

@[simp] theorem toDrain_bus (p : Port) (s : State) (r : PortState) (f : Seg → SegState) :
    toDrain p (s.bus p r f) = s.bus p { r with phase := .drain, inFlight := none, held := none, readStage := .none } f :=
  State.updPort_bus ..

@[simp] theorem handOut_bus (p : Port) (b : Byte) (after : AfterJoin) (s : State) (r : PortState) (f : Seg → SegState) :
    handOut p b after (s.bus p r f) = s.bus p { r with held := none, inFlight := some ⟨b, false, false, after⟩ } fun g =>
      if r.active g then { f g with activity := some (.writing b false), clock := some s.working.params.clockLimit }
      else f g := by
  unfold handOut
  rw [activeSegs_bus, foldl_filter_updSeg_bus
    (fun q _ c => { c with activity := some (.writing b false), clock := some q.clockLimit })
    (fun t g => startClock_updSeg g _ t), State.updPort_bus]

/-- A leg marked for STOP or not, a notice comes before or after the legs' end. -/
theorem note_endActive (k : Kind) (a : Option PortPos) (b : Option SegPos) (n : Option Nat) (d : Half) (p : Port)
    (check : Leg → Option Byte) (s : State) :
    note k a b n d (endActive p check s) = endActive p check (note k a b n d s) := by
  have hs := endActive_bus p check s (s.port p) s.seg
  have hu := endActive_bus p check (note k a b n d s) ((note k a b n d s).port p) (note k a b n d s).seg
  rw [State.bus_self] at hs hu
  rw [hs, hu, note_bus]
  exact State.bus_congr _ _ (by rw [note_port]) fun g => by rw [note_port, note_seg, note_working]

/-- R33: with a record's legs PAUSED, all of them are ended. -/
theorem endActive_paused {s : State} {p : Port} (h : LegsPaused s p) {r : PortState} (hr : r.legs = (s.port p).legs) :
    endActive p noCheck (s.bus p r s.seg) = s.bus p { r with legs := endedLegs s p } (closingSeg s p) := by
  have hactive : r.active = legActive s p := by rw [PortState.active_eq, hr]; rfl
  rw [endActive_bus, hactive, hr]
  refine State.bus_congr _ _ rfl fun g => ?_
  rw [bind_noCheck]
  exact closingSeg_eq h g

theorem handOut_paused {s : State} {p : Port} {r : PortState} (hr : r.legs = (s.port p).legs) (b : Byte)
    (after : AfterJoin) : handOut p b after (s.bus p r s.seg)
      = s.bus p { r with held := none, inFlight := some ⟨b, false, false, after⟩ } (atActivity s p (.writing b false)) := by
  have hactive : r.active = legActive s p := by rw [PortState.active_eq, hr]; rfl
  rw [handOut_bus, hactive]
  rfl

/-- R48, R68: the record when its byte has been refused. -/
def PortState.refused (r : PortState) (legs : List Leg) : PortState :=
  { r with
    phase := .drain, ackOut := some .nack, sclHeld := false, legs := legs, inFlight := none, held := none,
    readStage := .none }

theorem submit_of_some {s : State} {p : Port} {sn : Snapshot} (hsn : (s.port p).snapshot = some sn) {b : Byte}
    {d : PolicyDetail} (h : judge sn.entry (s.port p).count (s.port p).pointer b = some d) (after : AfterJoin) :
    submit p b after s = refuseByte p d after s := by
  unfold submit
  rw [hsn]
  dsimp only
  rw [h]

theorem submit_of_none {s : State} {p : Port} {sn : Snapshot} (hsn : (s.port p).snapshot = some sn) {b : Byte}
    (h : judge sn.entry (s.port p).count (s.port p).pointer b = none) (after : AfterJoin) :
    submit p b after s = handOut p b after s := by
  unfold submit
  rw [hsn]
  dsimp only
  rw [h]

theorem refuseByte_paused {s : State} {p : Port} (h : LegsPaused s p) {r : PortState} (hr : r.legs = (s.port p).legs)
    {sn : Snapshot} (hsn : r.snapshot = some sn) (d : PolicyDetail) {after : AfterJoin} (ha : after ≠ .repeatedStart) :
    refuseByte p d after (s.bus p r s.seg)
      = (note .policy (some (.port p)) none (some sn.slot) (policyCode d) s).bus p (r.refused (endedLegs s p))
        (closingSeg s p) := by
  have hslot : slotOf (s.bus p r s.seg) p = some sn.slot := by rw [slotOf, State.bus_port_self, hsn]; rfl
  have hdrain : refuseByte p d after (s.bus p r s.seg) = toDrain p (giveAck p .nack
      (note .policy (some (.port p)) none (some sn.slot) (policyCode d) (endActive p noCheck (s.bus p r s.seg)))) := by
    unfold refuseByte notePort
    rw [hslot]
    cases after with
    | repeatedStart => exact absurd rfl ha
    | answer => rfl
    | hold => rfl
  rw [hdrain, endActive_paused h hr, note_bus, giveAck_bus, toDrain_bus]
  rfl

/-! ### The judgement of a write byte (R43 to R45) -/

theorem judge_length {e : Entry} {count l : Nat} (pointer : Option Nat) (b : Byte) (hl : e.writeLimit = some l)
    (h : l < count + 1) : judge e count pointer b = some .length := by
  unfold judge
  rw [hl]
  exact if_pos (decide_eq_true h)

/-- R44, R45: within its write limit a byte is judged by the window. -/
theorem judge_window {e : Entry} {count : Nat} (pointer : Option Nat) (b : Byte)
    (h : e.writeLimit = none ∨ ∃ l, e.writeLimit = some l ∧ count + 1 ≤ l) :
    (e.window = none → judge e count pointer b = none)
      ∧ (∀ w, e.window = some w → count = 0 →
        judge e count pointer b = if b < w.low then some .offsetLow else if w.high < b then some .offsetHigh else none)
      ∧ ∀ w n, e.window = some w → count ≠ 0 → pointer = some n →
        judge e count pointer b = if w.high.toNat < n then some .offsetHigh else none := by
  unfold judge
  rw [if_neg (by obtain h | ⟨l, h, hle⟩ := h <;> rw [h] <;> simp; omega)]
  refine ⟨fun hw => ?_, fun w hw hc => ?_, fun w n hw hc hn => ?_⟩
  · rw [hw]
  · rw [hw]
    dsimp only
    rw [if_pos hc]
    rfl
  · rw [hw]
    dsimp only
    rw [if_neg hc, hn]

/-! ### A byte taken in WRITE (R42) -/

/-- R22: the record as its byte is taken, SCL held. -/
def PortState.holding (r : PortState) : PortState := { r with sclHeld := true, stall := none }

theorem holdScl_eq (p : Port) (s : State) : holdScl p s = s.bus p (s.port p).holding s.seg := State.updPort_eq_bus ..

theorem port_holdScl (p : Port) (s : State) : (holdScl p s).port p = (s.port p).holding := by
  rw [holdScl_eq, State.bus_port_self]

/-- R46, R83: a byte that passes goes to every ACTIVE leg, with SCL held. -/
theorem retime_submit_passed {s : State} {p : Port} (hl : TimersLaw s) (hp : LegsPaused s p) {sn : Snapshot}
    (hsn : (s.port p).snapshot = some sn) {b : Byte}
    (hj : judge sn.entry (s.port p).count (s.port p).pointer b = none) (after : AfterJoin) :
    retime (submit p b after (holdScl p s))
      = s.bus p { (s.port p).holding with held := none, inFlight := some ⟨b, false, false, after⟩ }
        (atActivity s p (.writing b false)) := by
  have hport := port_holdScl p s
  rw [submit_of_none (sn := sn) (by rw [hport]; exact hsn) (by rw [hport]; exact hj), holdScl_eq,
    handOut_paused (r := (s.port p).holding) rfl, retime_steady hl (steady_atActivity hp (a := .writing b false) nofun),
    stallBy_held rfl]
  rfl

/-- R48, R68: a byte that fails ends every leg, and is NACKed. -/
theorem retime_submit_failed {s : State} {p : Port} (hl : TimersLaw s) (hp : LegsPaused s p) {sn : Snapshot}
    (hsn : (s.port p).snapshot = some sn) {b : Byte} {why : PolicyDetail}
    (hj : judge sn.entry (s.port p).count (s.port p).pointer b = some why) {after : AfterJoin}
    (ha : after ≠ .repeatedStart) :
    ∃ n, retime (submit p b after (holdScl p s))
      = (note .policy (some (.port p)) none (some sn.slot) (policyCode why) s).bus p
        { (s.port p).refused (endedLegs s p) with stall := n } (closingSeg s p) := by
  have hport := port_holdScl p s
  refine ⟨((s.port p).holding.refused (endedLegs s p)).stallBy s.working.params.stallLimit (owning s p), ?_⟩
  rw [submit_of_some (sn := sn) (by rw [hport]; exact hsn) (by rw [hport]; exact hj), holdScl_eq,
    refuseByte_paused (r := (s.port p).holding) hp rfl hsn why ha, retime_noted_steady hl (steady_closingSeg hp)]
  rfl

theorem exec_writeByte {s : State} {p : Port} (hr : Ready s p .write) (hfl : (s.port p).inFlight = none) (b : Byte) :
    exec (.writeByte p b) s = .next (retime (takeWriteByte p b s)) := by
  obtain ⟨hrun, hphase, hscl⟩ := hr
  have hready : writeReady (s.port p) = true := by
    unfold writeReady
    rw [hphase, hfl, hscl]
    rfl
  show Host.Outcome.next (whenRunning s _) = _
  rw [whenRunning_running hrun, hready, if_pos rfl]

theorem underRegen_eq {r : PortState} {sn : Snapshot} (h : r.snapshot = some sn) :
    underRegen r = (sn.entry.check == .regen) := by
  unfold underRegen
  rw [h]

theorem refused_eq {r : PortState} (hscl : r.sclHeld = false) (hfl : r.inFlight = none) (legs : List Leg) :
    r.refused legs = { r with phase := .drain, ackOut := some .nack, legs := legs, held := none, readStage := .none } := by
  unfold PortState.refused
  rw [hscl, hfl]

namespace Laws

/-- Settles O27: the three tests, case by case; then a byte under NONE is handed out or refused by them. -/
theorem writeByte : Obligations.WriteByte := by
  refine ⟨fun e count pointer b => ⟨fun l hl h => judge_length pointer b hl h, fun h => judge_window pointer b h⟩,
    fun s p b sn hready hfl hsn hcheck hl hp => ?_⟩
  have hexec : exec (.writeByte p b) s = .next (retime (submit p b .answer (holdScl p s))) := by
    rw [exec_writeByte hready hfl, takeWriteByte, underRegen_eq hsn, hcheck]
    rfl
  refine ⟨fun hj => ?_, fun why hj => ?_⟩
  · rw [retime_submit_passed hl hp hsn hj] at hexec
    refine ⟨_, hexec, ?_, fun g => ?_, onlyPortSegs_bus ..⟩
    · rw [State.bus_port_self]
      rfl
    · rw [State.bus_seg]
      rfl
  · obtain ⟨n, hfailed⟩ := retime_submit_failed hl hp hsn hj (after := .answer) nofun
    rw [hfailed, refused_eq hready.2.2 hfl] at hexec
    refine ⟨_, hexec, ?_, fun g => ?_, ?_, onlyPortSegsNotices_bus_note ..⟩
    · rw [State.bus_port_self]
    · rw [State.bus_seg]
      rfl
    · refine (congrArg (Recorded .policy (some (.port p)) none (some sn.slot) · s _) ?_).mp (recorded_bus_note ..)
      cases why <;> rfl

/-- Settles O28: the first byte is held; each later one confirms the byte before it, which is handed out or refused. -/
theorem regenWriteByte : Obligations.RegenWriteByte := by
  intro s p b sn hready hfl hsn hcheck hl hp
  have htake : underRegen (s.port p) = true := by
    rw [underRegen_eq hsn, hcheck]
    rfl
  obtain ⟨hrun, hphase, hscl⟩ := id hready
  refine ⟨fun hheld => ?_, fun h hheld => ?_⟩
  · have hexec : takeWriteByte p b s = s.updPort p fun r =>
        { r with held := some b, ackOut := some .ack, sclHeld := false, stall := none } := by
      unfold takeWriteByte
      rw [if_pos htake, hheld, holdScl_eq]
      dsimp only
      rw [State.updPort_bus, giveAck_bus, State.updPort_eq_bus]
      rfl
    rw [exec_writeByte hready hfl, hexec, retime_updPort hl, State.updPort_eq_bus, State.updPort_eq_bus]
    refine congrArg _ (State.bus_congr _ _ ?_ fun _ => rfl)
    unfold PortState.stallBy
    rw [isEmpty_ownedSegs]
    cases owning s p <;> simp [hscl, hphase]
  · have hexec : exec (.writeByte p b) s = .next (retime (submit p h (.hold b) (holdScl p s))) := by
      rw [exec_writeByte hready hfl, takeWriteByte, if_pos htake, hheld]
    refine ⟨fun hj => ?_, fun why hj => ?_⟩
    · rw [retime_submit_passed hl hp hsn hj] at hexec
      refine ⟨_, hexec, ?_, fun g => ?_, onlyPortSegs_bus ..⟩
      · rw [State.bus_port_self]
        rfl
      · rw [State.bus_seg]
        rfl
    · obtain ⟨n, hfailed⟩ := retime_submit_failed hl hp hsn hj (after := .hold b) nofun
      rw [hfailed, refused_eq hscl hfl] at hexec
      refine ⟨_, hexec, ?_, fun g => ?_, recorded_bus_note .., onlyPortSegsNotices_bus_note ..⟩
      · rw [State.bus_port_self]
      · rw [State.bus_seg]
        rfl

/-- Settles O19: the held byte is judged as data: handed out, or refused with the address phase begun at once; and an address byte that
comes before the confirmation waits. -/
theorem confirmationBegins : Obligations.ConfirmationBegins := by
  refine ⟨fun s p h sn ⟨hrun, hphase, hscl⟩ hopen hearly hfl hheld hsn hl hp c hc => ?_,
    fun s p a d management found ⟨hrun, hphase, hscl⟩ hfl hl hm hf => ?_⟩
  · have hexec : exec c s = .next (retime (submit p h .repeatedStart s)) := by
      rw [exec_startCondition hc.symm hrun, startCondition_open hscl hopen]
      unfold Machine.repeatedStart
      rw [hphase]
      show Host.Outcome.next (retime (repeatedInWrite p s)) = _
      unfold repeatedInWrite
      rw [hfl, hheld]
      rfl
    refine ⟨fun hj => ?_, fun why hj => ?_⟩
    · have hout := handOut_paused (s := s) (p := p) (r := s.port p) rfl h .repeatedStart
      rw [State.bus_self] at hout
      rw [submit_of_none hsn hj, hout, retime_steady hl (steady_atActivity hp (a := .writing h false) nofun)] at hexec
      refine ⟨_, hexec, ?_, fun g => ?_, onlyPortSegs_bus ..⟩
      · rw [State.bus_port_self]
        exact congrArg (fun n => { s.port p with
          held := none, inFlight := some ⟨h, false, false, .repeatedStart⟩, stall := n }) (stallBy_same hl rfl rfl rfl)
      · rw [State.bus_seg]
        rfl
    · let u := note .policy (some (.port p)) none (some sn.slot) (policyCode why) s
      have hport : u.port p = s.port p := note_port ..
      have hact : legActive u p = legActive s p := funext fun g => legActive_note ..
      have hslot : slotOf s p = some sn.slot := by rw [slotOf, hsn]; rfl
      have hend := endActive_bus p noCheck u (u.port p) u.seg
      rw [State.bus_self] at hend
      obtain ⟨legs, hlegs, hbegun⟩ := beginAddress_endActive (s := u) (p := p) (legsPaused_note hp _ _ _ _ _)
      have hrefuse : refuseByte p why .repeatedStart s = toAddress p (endActive p noCheck u) := by
        unfold refuseByte notePort
        rw [hslot]
        exact congrArg (toAddress p) (note_endActive ..)
      rw [submit_of_some hsn hj, hrefuse,
        toAddress_none (by rw [hend, State.bus_port_self]; exact (congrArg PortState.earlyAddr hport).trans hearly), hbegun, hport, hact,
        show endedSeg u p (legActive s p) _ = endedSeg s p (legActive s p) _ from endedSeg_note ..,
        retime_noted_steady hl (steady_endedSeg hp (fun _ hg => hg) _)] at hexec
      refine ⟨_, hexec, ?_⟩
      simp only [State.bus_port_self, State.bus_seg, legActive_bus]
      exact ⟨rfl, rfl, rfl, rfl, rfl, rfl, rfl, rfl, congrArg (Option.map Snapshot.slot) hsn, rfl, hlegs, fun _ => rfl, recorded_bus_note ..,
        onlyPortSegsNotices_bus_note ..⟩
  · subst hm hf
    have hearly : addressByte p a d s = s.updPort p fun r =>
        { r with sclHeld := true, stall := none, earlyAddr := some ⟨a, d, find25 s p a⟩ } := by
      unfold addressByte
      rw [hscl, if_neg nofun, if_neg (by rw [hphase]; nofun), if_pos ⟨hphase, hfl⟩, holdScl_eq, State.updPort_bus,
        State.updPort_eq_bus]
      rfl
    show Host.Outcome.next (whenRunning s _) = _
    rw [whenRunning_running hrun, hearly, retime_updPort hl, State.updPort_eq_bus, State.updPort_eq_bus, stallBy_held rfl]
    rfl

end Laws
end Sys2Proof.Machine
end

section
/-!
PROOFS. A byte placed and acknowledged downstream, and the bytes of a read (O29 to O33).
-/
namespace Sys2Proof.Machine

/-! ### A byte placed and acknowledged (R46, R47, R84) -/

theorem State.updSeg_eq_bus (s : State) (p : Port) (g : Seg) (k : SegState → SegState) :
    s.updSeg g k = s.bus p (s.port p) fun h => if h = g then k (s.seg g) else s.seg h := by
  conv_lhs => rw [← s.bus_self p, State.updSeg_bus]

theorem ownerPort_of_legAt {s : State} {p : Port} {g : Seg} {a : Activity} (h : LegAt s p g a) :
    (s.seg g).ownerPort = some p := by
  unfold SegState.ownerPort
  rw [h.2.1]

theorem LegAt.owns {s : State} {p : Port} {g : Seg} {a : Activity} (h : LegAt s p g a) : owns s p g = true := by
  rw [Machine.owns, h.2.1]
  exact beq_self_eq_true _

theorem LegAt.steady {s : State} {p : Port} {g : Seg} {a : Activity} (h : LegAt s p g a)
    (ha : a ≠ .addressing .waitFresh) {b : Activity} (hb : b ≠ .addressing .waitFresh) (x : Option Nat) :
    Steady (s.seg g) { s.seg g with activity := some b, clock := x } := steady_of_leg h.2.2 ha hb x

/-- The segments with one of them changed. -/
def oneSeg (s : State) (g : Seg) (c : SegState) (h : Seg) : SegState := if h = g then c else s.seg h

theorem oneSeg_self (s : State) (g : Seg) (c : SegState) : oneSeg s g c g = c := if_pos rfl

theorem oneSeg_other (s : State) {g h : Seg} (c : SegState) (hh : h ≠ g) : oneSeg s g c h = s.seg h := if_neg hh

theorem steady_oneSeg {s : State} {g : Seg} {c : SegState} (hc : Steady (s.seg g) c) (h : Seg) :
    Steady (s.seg h) (oneSeg s g c h) := by
  unfold oneSeg
  split
  next e => subst e; exact hc
  next => exact .refl _

theorem updSeg_bus_oneSeg (s : State) (p : Port) (r : PortState) (g : Seg) (c : SegState) (k : SegState → SegState) :
    (s.bus p r (oneSeg s g c)).updSeg g k = s.bus p r (oneSeg s g (k c)) := by
  rw [State.updSeg_bus, oneSeg_self]
  refine State.bus_congr _ _ rfl fun h => ?_
  unfold oneSeg
  split <;> rfl

theorem updSeg_eq_oneSeg (s : State) (p : Port) (g : Seg) (k : SegState → SegState) :
    s.updSeg g k = s.bus p (s.port p) (oneSeg s g (k (s.seg g))) := State.updSeg_eq_bus s p g k

/-- Every leg ACTIVE is PAUSED. -/
def allPaused (r : PortState) (f : Seg → SegState) : Bool :=
  (Seg.list.filter r.active).all fun g => (f g).activity == some .paused

theorem allPaused_iff {r : PortState} {f : Seg → SegState} :
    allPaused r f = true ↔ ∀ g, r.active g = true → (f g).activity = some .paused := by
  unfold allPaused
  rw [List.all_eq_true]
  simp only [mem_filter_list, beq_iff_eq]

theorem all_isPaused_bus (s : State) (p : Port) (r : PortState) (f : Seg → SegState) :
    (activeSegs (s.bus p r f) p).all (isPaused (s.bus p r f)) = allPaused r f := by
  rw [activeSegs_bus]
  unfold allPaused isPaused
  simp only [State.bus_seg]

/-- The byte to be held once the join has been answered. -/
def heldAfter (r : PortState) (f : InFlight) : Option Byte :=
  match f.after with
  | .hold x => some x
  | _ => r.held

/-- R84, R88: the record when its join has been answered. -/
def PortState.joined (r : PortState) (f : InFlight) : PortState :=
  if (Seg.list.filter r.active).isEmpty then
    { r with phase := .drain, inFlight := none, held := none, readStage := .none, ackOut := some .nack, sclHeld := false }
  else { r with inFlight := none, held := heldAfter r f, ackOut := some (joinedAck f), sclHeld := false }

section
variable {r : PortState} {x : InFlight} (hx : r.inFlight = some x) (s : State) (p : Port) (f : Seg → SegState)
include hx

theorem joinData_waiting (h : allPaused r f = false) : joinData p (s.bus p r f) = s.bus p r f := by
  unfold joinData
  rw [State.bus_port_self, hx, all_isPaused_bus, h]
  rfl

theorem joinData_repeated (h : allPaused r f = true) (ha : x.after = .repeatedStart) :
    joinData p (s.bus p r f) = toAddress p (s.bus p { r with inFlight := none } f) := by
  unfold joinData
  rw [State.bus_port_self, hx, all_isPaused_bus, h]
  dsimp only
  rw [if_pos rfl, ha, State.updPort_bus]

theorem joinData_answered (h : allPaused r f = true) (ha : x.after ≠ .repeatedStart) :
    joinData p (s.bus p r f) = s.bus p (r.joined x) f := by
  unfold joinData PortState.joined heldAfter
  rw [State.bus_port_self, hx, all_isPaused_bus, h]
  dsimp only
  rw [if_pos rfl, activeSegs_bus, State.updPort_bus]
  by_cases he : (Seg.list.filter r.active).isEmpty = true
  · cases hafter : x.after with
    | repeatedStart => exact absurd hafter ha
    | answer => dsimp only; rw [if_pos he, if_pos he, giveAck_bus, toDrain_bus]
    | hold b => dsimp only; rw [if_pos he, if_pos he, giveAck_bus, toDrain_bus]
  · cases hafter : x.after with
    | repeatedStart => exact absurd hafter ha
    | answer => dsimp only; rw [if_neg he, if_neg he, giveAck_bus]
    | hold b => dsimp only; rw [if_neg he, if_neg he, State.updPort_bus, giveAck_bus]

end

theorem pause_bus (p : Port) (g : Seg) (s : State) (r : PortState) (c : SegState) :
    pause g (s.bus p r (oneSeg s g c))
      = s.bus p r (oneSeg s g { c with activity := some .paused, clock := none }) := updSeg_bus_oneSeg ..

theorem exec_deviceAck {s : State} {p : Port} {g : Seg} {b : Byte} (h : LegAt s p g (.writing b true)) (a : Ack) :
    exec (.deviceAck g a) s = .next (retime (deviceAnswer p g a s)) := by
  show Host.Outcome.next (whenRunning s _) = _
  rw [whenRunning_running h.1, ownerPort_of_legAt h, h.2.2]

/-- R46, R84: the record as a leg drops out of the byte in flight. -/
def PortState.lostLeg (r : PortState) (legs : List Leg) : PortState :=
  { r with legs := legs, inFlight := r.inFlight.map fun f => { f with lost := true } }

/-- The segment of a leg that has ACKed a byte. -/
def ackedSeg (c : SegState) : SegState := { c with activity := some .paused, clock := none }

/-- The segment of a leg that has NACKed a byte: its STOP is to be placed. -/
def nackedSeg (limit : Nat) (c : SegState) : SegState := { c with activity := some (.closing none), clock := some limit }

theorem deviceAnswer_ack (s : State) (p : Port) (g : Seg) :
    deviceAnswer p g .ack s = joinData p (s.bus p (s.port p) (oneSeg s g (ackedSeg (s.seg g)))) := by
  unfold deviceAnswer pause
  rw [updSeg_eq_oneSeg s p]
  rfl

theorem endLeg_pause (s : State) (p : Port) (g : Seg) (r : PortState) :
    endLeg p noCheck g (s.bus p r (oneSeg s g (ackedSeg (s.seg g))))
      = s.bus p { r with legs := mapLegs (fun h => h == g) Leg.ended r.legs }
        (oneSeg s g (nackedSeg s.working.params.clockLimit (s.seg g))) := by
  rw [endLeg_bus, oneSeg_self, bind_noCheck]
  refine State.bus_congr _ _ rfl fun h => ?_
  unfold oneSeg
  split <;> rfl

theorem deviceAnswer_nack (s : State) (p : Port) (g : Seg) :
    deviceAnswer p g .nack s = joinData p (s.bus p
      ((s.port p).lostLeg (mapLegs (fun h => h == g) Leg.ended (s.port p).legs))
      (oneSeg s g (nackedSeg s.working.params.clockLimit (s.seg g)))) := by
  have hpause : pause g s = s.bus p (s.port p) (oneSeg s g (ackedSeg (s.seg g))) := updSeg_eq_oneSeg ..
  unfold deviceAnswer loseLeg
  rw [hpause, endLeg_pause, State.updPort_bus]
  rfl

theorem active_lostLeg (r : PortState) (g h : Seg) :
    (r.lostLeg (mapLegs (fun h => h == g) Leg.ended r.legs)).active h = (r.active h && h != g) :=
  activeIn_ended (fun h => h == g) r.legs h

/-- Whether a record has an ACTIVE leg on another segment. -/
theorem isEmpty_filter_active {r : PortState} {g : Seg} {others : Bool} {active : Seg → Bool}
    (ho : others = Seg.list.any fun h => h != g && active h) (hr : ∀ h, r.active h = (active h && h != g)) :
    (Seg.list.filter r.active).isEmpty = !others := by
  rw [ho, Bool.eq_iff_iff]
  simp [hr, and_comm, not_and]

namespace Laws

/-- Settles O29: the leg's value, and at the first placing the count, the pointer and the upstream value. -/
theorem bytePlaced : Obligations.BytePlaced := by
  intro s p g b f sn h hfl hsn
  show Host.Outcome.next (whenRunning s _) = _
  rw [whenRunning_running h.1, ownerPort_of_legAt h, h.2.2]
  refine congrArg _ ?_
  show Machine.bytePlaced p g b s = _
  unfold Machine.bytePlaced updLeg
  rw [hfl, hsn, startClock_updSeg, updSeg_eq_oneSeg s p, State.updPort_bus]
  dsimp only
  unfold pointerAfter countAfter
  cases hc : f.counted with
  | true =>
    rw [if_pos rfl, State.updPort_bus]
    refine State.bus_congr _ _ ?_ fun _ => rfl
    simp [hfl, ← hc]
  | false =>
    rw [if_neg nofun, State.updPort_bus, State.updPort_bus]
    refine State.bus_congr _ _ ?_ fun _ => rfl
    cases sn.entry.window <;> simp

/-- Settles O30: by the device's answer, and by whether the other legs are PAUSED already. -/
theorem deviceAck : Obligations.DeviceAck := by
  intro s p g b answer f others h hfl hafter hact hl hphase hscl hothers
  have hack : Steady (s.seg g) (ackedSeg (s.seg g)) := h.steady nofun (b := .paused) nofun none
  have hnack : Steady (s.seg g) (nackedSeg s.working.params.clockLimit (s.seg g)) := h.steady nofun (b := .closing none) nofun _
  have hnackActive := active_lostLeg (s.port p) g
  have hx : ((s.port p).lostLeg (mapLegs (fun h => h == g) Leg.ended (s.port p).legs)).inFlight
      = some { f with lost := true } := by
    unfold PortState.lostLeg
    rw [hfl]
    rfl
  refine ⟨fun hpaused => ⟨?_, ?_⟩, ?_⟩
  · rintro rfl
    have hall : allPaused (s.port p) (oneSeg s g (ackedSeg (s.seg g))) = true := allPaused_iff.mpr fun k hk => by
      by_cases e : k = g
      · subst e
        rw [oneSeg_self]
        rfl
      · rw [oneSeg_other _ _ e]
        exact hpaused k hk e
    have hsome : (Seg.list.filter (s.port p).active).isEmpty = false :=
      List.isEmpty_eq_false_iff.mpr (List.ne_nil_of_mem ((mem_filter_list _ g).mpr hact))
    have hjoined : (s.port p).joined f = { s.port p with
        inFlight := none, held := heldAfter (s.port p) f, ackOut := some (joinedAck f), sclHeld := false } := by
      unfold PortState.joined
      rw [hsome]
      rfl
    have hexec := exec_deviceAck h .ack
    rw [deviceAnswer_ack, joinData_answered hfl _ _ _ hall hafter, hjoined, retime_steady hl (steady_oneSeg hack)] at hexec
    refine ⟨_, hexec, ?_⟩
    beta_reduce
    rw [State.bus_port_self]
    exact ⟨rfl, rfl, hphase, rfl, rfl, rfl, rfl, (State.bus_seg ..).trans (oneSeg_self ..),
      fun k hk => (State.bus_seg ..).trans (oneSeg_other _ _ hk), onlyPortSegs_bus ..⟩
  · rintro rfl
    have hall : allPaused ((s.port p).lostLeg (mapLegs (fun h => h == g) Leg.ended (s.port p).legs))
        (oneSeg s g (nackedSeg s.working.params.clockLimit (s.seg g))) = true := allPaused_iff.mpr fun k hk => by
      rw [hnackActive] at hk
      obtain ⟨hk, hne⟩ := Bool.and_eq_true_iff.mp hk
      have e : k ≠ g := bne_iff_ne.mp hne
      rw [oneSeg_other _ _ e]
      exact hpaused k hk e
    have hempty := isEmpty_filter_active hothers hnackActive
    have hexec := exec_deviceAck h .nack
    rw [deviceAnswer_nack, joinData_answered hx _ _ _ hall hafter, retime_steady hl (steady_oneSeg hnack)] at hexec
    refine ⟨_, hexec, ?_⟩
    simp only [State.bus_port_self, State.bus_seg]
    unfold PortState.joined
    rw [hempty]
    cases others with
    | false =>
      exact ⟨rfl, rfl, rfl, rfl, rfl, rfl, rfl, rfl, fun k => (legActive_bus ..).trans (hnackActive k), oneSeg_self ..,
        fun k hk => oneSeg_other _ _ hk, onlyPortSegs_bus ..⟩
    | true =>
      exact ⟨rfl, rfl, rfl, hphase, rfl, rfl, rfl, rfl, fun k => (legActive_bus ..).trans (hnackActive k), oneSeg_self ..,
        fun k hk => oneSeg_other _ _ hk, onlyPortSegs_bus ..⟩
  · rintro ⟨k, hk, hkg, hkp⟩
    have hwaits {r : PortState} (c : SegState) (hr : r.active k = true) : allPaused r (oneSeg s g c) = false := by
      refine Bool.eq_false_iff.mpr fun hall => hkp ?_
      rw [← oneSeg_other s c hkg]
      exact allPaused_iff.mp hall k hr
    have hexec := exec_deviceAck h answer
    cases answer with
    | ack =>
      rw [deviceAnswer_ack, joinData_waiting hfl _ _ _ (hwaits _ hk), retime_steady hl (steady_oneSeg hack)] at hexec
      refine ⟨_, hexec, ?_⟩
      simp only [State.bus_port_self, State.bus_seg]
      refine ⟨?_, oneSeg_self .., fun k => ?_, fun k hk => oneSeg_other _ _ hk, onlyPortSegs_bus ..⟩
      · have hsame : (f.lost || Ack.ack == Ack.nack) = f.lost := Bool.or_false _
        rw [stallBy_same hl rfl rfl rfl, hsame, ← hfl]
      · rw [legActive_bus, show (Ack.ack == Ack.ack) = true from rfl, Bool.or_true, Bool.and_true]
        rfl
    | nack =>
      rw [deviceAnswer_nack, joinData_waiting hx _ _ _
        (hwaits _ (by rw [hnackActive]; exact Bool.and_eq_true_iff.mpr ⟨hk, bne_iff_ne.mpr hkg⟩)),
        retime_steady hl (steady_oneSeg hnack)] at hexec
      refine ⟨_, hexec, ?_⟩
      simp only [State.bus_port_self, State.bus_seg]
      refine ⟨?_, oneSeg_self .., fun k => ?_, fun k hk => oneSeg_other _ _ hk, onlyPortSegs_bus ..⟩
      · have hlost : (f.lost || Ack.nack == Ack.nack) = true := Bool.or_true _
        rw [stallBy_same (r := (s.port p).lostLeg _) hl rfl rfl rfl, hx, hlost]
        rfl
      · rw [legActive_bus, show (Ack.nack == Ack.ack) = false from rfl, Bool.or_false]
        exact hnackActive k

end Laws
end Sys2Proof.Machine
end

section
/-!
PROOFS. The bytes of a read: requested, fetched, supplied and answered (O31 to O33).
-/
namespace Sys2Proof.Machine

/-! ### The request of a byte (R49, R53, R75) -/

@[simp] theorem beginFetch_bus (p : Port) (what : Reading) (stage : ReadStage) (s : State) (r : PortState)
    (f : Seg → SegState) :
    beginFetch p what stage (s.bus p r f) = s.bus p { r with readStage := stage } fun g =>
      if r.active g then { f g with activity := some (.reading what), clock := some s.working.params.clockLimit }
      else f g := by
  unfold beginFetch
  rw [activeSegs_bus, foldl_filter_updSeg_bus
    (fun q _ c => { c with activity := some (.reading what), clock := some q.clockLimit })
    (fun t g => startClock_updSeg g _ t), State.updPort_bus]

theorem requestBeyond_eq (e : Entry) (r : PortState) : requestBeyond e r = readBeyond e r.count r.pointer := by
  unfold requestBeyond readBeyond
  cases e.window <;> cases r.pointer <;> cases e.readLen <;> rfl

/-- R49: the record as a byte is requested. -/
def PortState.requesting (r : PortState) : PortState := { r with sclHeld := true, stall := none, sdaByte := none }

theorem requested_bus (p : Port) (s : State) (r : PortState) (f : Seg → SegState) :
    ((holdScl p (s.bus p r f)).updPort p fun x => { x with sdaByte := none }) = s.bus p r.requesting f := by
  rw [holdScl_bus, State.updPort_bus]
  rfl

theorem beginFetch_paused {s : State} {p : Port} {r : PortState} (hr : r.legs = (s.port p).legs) (what : Reading)
    (stage : ReadStage) : beginFetch p what stage (s.bus p r.requesting s.seg)
      = s.bus p { r.requesting with readStage := stage } (atActivity s p (.reading what)) := by
  have hactive : r.requesting.active = legActive s p := by rw [PortState.active_eq]; exact congrArg activeIn hr
  rw [beginFetch_bus, hactive]
  rfl

theorem readRequest_bus (p : Port) (s : State) {r : PortState} (f : Seg → SegState) {sn : Snapshot}
    (hsn : r.snapshot = some sn) : Machine.readRequest p (s.bus p r f)
      = if sn.entry.check = .regen ∧ r.readRemaining = 0 then
          beginFetch p .check .fetchingCheck (s.bus p r.requesting f)
        else if readBeyond sn.entry r.count r.pointer then refuseRead p (s.bus p r.requesting f)
        else beginFetch p .data .fetching (s.bus p r.requesting f) := by
  unfold readRequest
  rw [State.bus_port_self, hsn, requested_bus]

/-- R49, R50, R53, R74, R75: what a read request leads to, for a record with the legs it has. -/
theorem requestMade {s : State} {p : Port} (hl : TimersLaw s) (hp : LegsPaused s p) {r : PortState}
    (hr : r.legs = (s.port p).legs) {sn : Snapshot} (hsn : r.snapshot = some sn) :
    RequestMade s (retime (readRequest p (s.bus p r s.seg))) p sn r := by
  have fetch (what : Reading) (stage : ReadStage) :
      retime (beginFetch p what stage (s.bus p r.requesting s.seg))
        = s.bus p { r with sclHeld := true, stall := none, sdaByte := none, readStage := stage }
          (atActivity s p (.reading what)) := by
    rw [beginFetch_paused hr, retime_steady hl (steady_atActivity hp (a := .reading what) nofun), stallBy_held rfl]
    rfl
  unfold RequestMade
  rw [readRequest_bus p s s.seg hsn, requestBeyond_eq]
  by_cases hcheck : sn.entry.check = .regen ∧ r.readRemaining = 0
  · rw [if_pos hcheck, if_pos hcheck, fetch]
    exact ⟨State.bus_port_self .., fun g => State.bus_seg .., onlyPortSegs_bus ..⟩
  rw [if_neg hcheck, if_neg hcheck]
  cases hbeyond : readBeyond sn.entry r.count r.pointer with
  | false =>
    rw [if_neg (show ¬false = true from nofun), if_pos (show false = false from rfl), fetch]
    exact ⟨State.bus_port_self .., fun g => State.bus_seg .., onlyPortSegs_bus ..⟩
  | true =>
    have hslot : slotOf (s.bus p r.requesting s.seg) p = some sn.slot := by
      rw [slotOf, State.bus_port_self]
      exact congrArg (Option.map Snapshot.slot) hsn
    rw [if_pos (show true = true from rfl), if_neg (show ¬true = false from nofun)]
    unfold refuseRead notePort
    rw [hslot, endActive_paused hp (r := r.requesting) hr, note_bus, toDrain_bus, supply_bus,
      retime_noted_steady hl (steady_closingSeg hp), State.bus_port_self]
    exact ⟨rfl, rfl, rfl, rfl, rfl, rfl, hsn, rfl, fun g => State.bus_seg .., recorded_bus_note ..,
      onlyPortSegsNotices_bus_note ..⟩

/-! ### A byte fetched (R50, R75) -/

theorem exec_readByteFetched {s : State} {p : Port} {g : Seg} (h : LegAt s p g (.reading .data))
    (hst : (s.port p).readStage = .fetching) (b : Byte) :
    exec (.readByteFetched g b) s = .next (retime (byteFetched p g b s)) := by
  show Host.Outcome.next (whenRunning s _) = _
  rw [whenRunning_running h.1, ownerPort_of_legAt h, h.2.2]
  exact congrArg _ (if_pos hst)

theorem pause_eq (s : State) (p : Port) (g : Seg) : pause g s = s.bus p (s.port p) (oneSeg s g (ackedSeg (s.seg g))) :=
  updSeg_eq_oneSeg ..

theorem exec_checkByteFetched {s : State} {p : Port} {g : Seg} (h : LegAt s p g (.reading .check)) {l : Leg}
    (hleg : legOn s p g = some l) (hst : (s.port p).readStage = .fetchingCheck) (b : Byte) :
    exec (.checkByteFetched g b) s = .next (retime (checkFetched p g b l s)) := by
  show Host.Outcome.next (whenRunning s _) = _
  rw [whenRunning_running h.1, ownerPort_of_legAt h, h.2.2]
  dsimp only
  rw [hleg]
  exact congrArg _ (if_pos hst)

/-- R75, R76: the check byte supplied, its leg marked for STOP. -/
theorem supply_check {u : State} {p : Port} {g : Seg} (byte : Byte) :
    supply p byte ((updLeg p g (fun l => { l with marked := true }) (pause g u)).updPort p fun r =>
        { r with readStage := .supplyingCheck byte })
      = u.bus p { u.port p with
          legs := mapLegs (fun h => h == g) Leg.toStop (u.port p).legs, readStage := .supplyingCheck byte,
          sdaByte := some byte, sclHeld := false } (oneSeg u g (ackedSeg (u.seg g))) := by
  rw [pause_eq u p, updLeg_bus, State.updPort_bus, supply_bus]
  rfl

namespace Laws

/-- Settles O31: `requestMade` for the record as it stands. -/
theorem readRequest : Obligations.ReadRequest := by
  intro s p sn ⟨hrun, hphase, hscl⟩ hst hsn hl hp
  have hexec : exec (.readAddressAckEnd p) s = .next (retime (Machine.readRequest p s)) := by
    show Host.Outcome.next (whenRunning s _) = _
    rw [whenRunning_running hrun, if_pos ⟨hphase, hst, hscl⟩]
  have hmade := requestMade hl hp (r := s.port p) rfl hsn
  rw [State.bus_self] at hmade
  exact ⟨_, hexec, hmade⟩

/-- Settles O32: a data byte goes into its leg's value and upstream; the check byte is compared with the value of its leg. -/
theorem bytesFetched : Obligations.BytesFetched := by
  refine ⟨fun s p g b h hst hl => ?_, fun s p g b l h hst hlegs hseg ha hl => ?_⟩
  · have hpaused : Steady (s.seg g) (ackedSeg (s.seg g)) := h.steady nofun (b := .paused) nofun none
    have hexec := exec_readByteFetched h hst b
    unfold byteFetched at hexec
    rw [pause_eq s p, updLeg_bus, State.updPort_bus, supply_bus, retime_steady hl (steady_oneSeg hpaused)] at hexec
    refine ⟨_, hexec, ?_, (State.bus_seg ..).trans (oneSeg_self ..), fun k hk => (State.bus_seg ..).trans (oneSeg_other _ _ hk),
      onlyPortSegs_bus ..⟩
    rw [State.bus_port_self]
    rfl
  · have hleg : legOn s p g = some l := by
      rw [legOn_eq, hlegs]
      simp [findLeg, hseg]
    have hpaused : Steady (s.seg g) (ackedSeg (s.seg g)) := h.steady nofun (b := .paused) nofun none
    have hmarked : mapLegs (fun h => h == g) Leg.toStop (s.port p).legs = [{ l with marked := true }] := by
      rw [hlegs]
      simp [mapLegs, hseg, Leg.toStop]
    have hexec := exec_checkByteFetched h hleg hst b
    unfold checkFetched preparedCheck notePort at hexec
    by_cases hb : b = l.down
    · rw [if_pos hb, if_pos hb, supply_check, hmarked, retime_steady hl (steady_oneSeg hpaused)] at hexec
      refine ⟨_, hexec, ?_, (State.bus_seg ..).trans (oneSeg_self ..),
        fun k hk => (State.bus_seg ..).trans (oneSeg_other _ _ hk), fun _ => ⟨rfl, rfl, rfl⟩, fun hne => absurd hb hne,
        onlyPortSegsNotices_bus (OnlyNotices.refl s) ..⟩
      rw [State.bus_port_self, if_pos hb]
    · have hone (c : SegState) : oneSeg (note .checkDownstream (some (.port p)) (some (.seg g)) (slotOf s p)
          (checkDetail b l.down) s) g c = oneSeg s g c := by
        funext k
        unfold oneSeg
        rw [note_seg]
      rw [if_neg hb, if_neg hb, supply_check] at hexec
      simp only [Option.map_some, note_port, note_seg, hone] at hexec
      rw [hmarked, retime_noted_steady hl (steady_oneSeg hpaused)] at hexec
      refine ⟨_, hexec, ?_, (State.bus_seg ..).trans (oneSeg_self ..),
        fun k hk => (State.bus_seg ..).trans (oneSeg_other _ _ hk), fun e => absurd e hb, fun _ => recorded_bus_note ..,
        onlyPortSegsNotices_bus_note ..⟩
      rw [State.bus_port_self, if_neg hb]

/-- Settles O33: the acknowledge counts the byte; an ACK requests the next, a NACK marks the leg and fills. -/
theorem readBytesAnswered : Obligations.ReadBytesAnswered := by
  refine ⟨fun s p b n sn ⟨hrun, hphase, hscl⟩ hst hsn hl hp hm r hr => ?_,
    fun s p a x => ⟨fun ⟨hrun, hphase, hscl⟩ hst hl => ?_, fun hrun hphase hd => ?_, fun hrun hphase hd => ?_⟩⟩
  · have hexec (a : Ack) : exec (.readByteAck p a) s = .next (retime (readAnswer p a s)) := by
      show Host.Outcome.next (whenRunning s _) = _
      rw [whenRunning_running hrun, if_pos ⟨hphase, hscl⟩]
    have hcount : countRead p b n s = s.bus p r s.seg := by
      have hbus := countRead_bus p b n s (s.port p) s.seg
      rw [State.bus_self] at hbus
      rw [hbus, hr]
      refine State.bus_congr _ _ ?_ fun _ => rfl
      have hwindow (x y : Option Nat) : (if sn.entry.window.isSome = true then x else y)
          = if sn.entry.window = none then y else x := by cases sn.entry.window <;> rfl
      simp only [PortState.counted, hsn, countAfter, byteEdges, hwindow]
      rw [← hsn]
      rfl
    have hlegs : r.legs = (s.port p).legs := by rw [hr]
    refine ⟨⟨_, hexec .ack, ?_⟩, ?_⟩
    · unfold readAnswer
      rw [hst]
      dsimp only
      rw [hcount]
      exact requestMade hl hp hlegs (by rw [hr]; exact hsn)
    · have hactive : r.unmarked = legActive s p := by
        funext g
        unfold PortState.unmarked
        have hany : (findLeg r.legs g).any (·.marked) = false := by
          cases hf : findLeg r.legs g with
          | none => rfl
          | some l => exact hm l (hlegs ▸ List.mem_of_find?_eq_some hf)
        rw [hany, Bool.not_false, Bool.and_true, PortState.active_eq, hlegs]
        rfl
      have hnack : readAnswer p .nack s = s.bus p
          { r with
            readStage := .fill, sdaByte := some 0xFF#8, legs := mapLegs (legActive s p) Leg.toStop (s.port p).legs }
          (atActivity s p (.reading .nackClock)) := by
        unfold readAnswer
        rw [hst]
        dsimp only
        rw [hcount, markForStop_bus, hactive, hlegs]
        exact State.updPort_bus ..
      have hx := hexec .nack
      rw [hnack, retime_steady hl (steady_atActivity hp (a := .reading .nackClock) nofun)] at hx
      refine ⟨_, hx, ?_, fun g => State.bus_seg .., onlyPortSegs_bus ..⟩
      have hstall : PortState.stallBy s.working.params.stallLimit (owning s p) { r with
          readStage := .fill, sdaByte := some 0xFF#8, legs := mapLegs (legActive s p) Leg.toStop (s.port p).legs }
            = r.stall := by
        rw [hr]
        exact stallBy_same hl rfl rfl rfl
      rw [State.bus_port_self, hstall]
      rfl
  · have hfill : readAnswer p a s = s.updPort p fun r => { r with readStage := .fill, sdaByte := some 0xFF#8 } := by
      unfold readAnswer
      rw [hst]
      rfl
    show Host.Outcome.next (whenRunning s _) = _
    rw [whenRunning_running hrun, if_pos ⟨hphase, hscl⟩, hfill, retime_updPort hl, State.updPort_eq_bus,
      State.updPort_eq_bus]
    exact congrArg _ (State.bus_congr _ _ (congrArg (fun n => { s.port p with
      readStage := .fill, sdaByte := some 0xFF#8, stall := n }) (stallBy_same hl rfl rfl rfl)) fun _ => rfl)
  · show Host.Outcome.next (whenRunning s _) = _
    rw [whenRunning_running hrun, if_pos hphase, State.updPort_eq_bus, State.updPort_eq_bus, hd]
  · show Host.Outcome.next (whenRunning s _) = _
    rw [whenRunning_running hrun, if_pos hphase, State.updPort_eq_bus, State.updPort_eq_bus, hd]

end Laws
end Sys2Proof.Machine
end

section
/-!
PROOFS. Management frames, and the stall timer (O34, O35, O37).
-/
namespace Sys2Proof.Machine

/-! ### A record that owns nothing -/

theorem OwnsNothing.active {s : State} {p : Port} (h : OwnsNothing s p) (g : Seg) : legActive s p g = false := by
  have hg : g ∉ activeSegs s p := by rw [h.1]; exact List.not_mem_nil
  exact Bool.eq_false_iff.mpr fun ha => hg ((mem_filter_list _ g).mpr ha)

theorem OwnsNothing.owns {s : State} {p : Port} (h : OwnsNothing s p) (g : Seg) : owns s p g = false := by
  have hg : g ∉ ownedSegs s p := by rw [h.2]; exact List.not_mem_nil
  exact Bool.eq_false_iff.mpr fun ha => hg ((mem_filter_list _ g).mpr ha)

theorem OwnsNothing.owning {s : State} {p : Port} (h : OwnsNothing s p) : owning s p = false := by
  unfold Machine.owning
  rw [List.any_eq_false]
  intro g _
  rw [h.owns]
  nofun

theorem stallBy_not_owning {limit : Nat} (r : PortState) : r.stallBy limit false = none := rfl

theorem inactive_mapLegs {r : PortState} {c : Seg → Bool} (hc : ∀ g, c g = false) (k : Leg → Leg) :
    mapLegs c k r.legs = r.legs := mapLegs_eq_self (fun l _ => hc l.seg) k

/-- R24: a transaction that owns nothing closes. -/
theorem retime_closeTransaction_bare {s : State} {p : Port} (hl : TimersLaw s) (h : OwnsNothing s p) {r : PortState}
    (hr : r.legs = (s.port p).legs) :
    retime (closeTransaction p noCheck (s.bus p r s.seg)) = s.bus p (r.closed r.legs) s.seg := by
  have hno (g : Seg) : r.active g = false := by
    rw [PortState.active_eq, hr]
    exact h.active g
  have hseg (g : Seg) : ungoverned p (if r.active g then (s.seg g).closedBy s.working.params g
      ((findLeg r.legs g).bind noCheck) else s.seg g) = s.seg g := by
    rw [hno, if_neg nofun]
    exact ungoverned_of_not_owns (h.owns g)
  rw [closeTransaction_bus, inactive_mapLegs hno, retime_steady hl fun g => by rw [hseg]; exact .refl _, h.owning,
    stallBy_not_owning]
  exact State.bus_congr _ _ rfl hseg

/-- R37: an address phase begins on a record that owns nothing. -/
theorem retime_beginAddress_bare {s : State} {p : Port} (hl : TimersLaw s) (h : OwnsNothing s p) {r : PortState}
    (hr : r.legs = (s.port p).legs) : ∃ legs, retime (beginAddress p (s.bus p r s.seg))
      = s.bus p { r.begun legs with stall := none } s.seg := by
  have hno (g : Seg) : r.toStop g = false := by
    unfold PortState.toStop
    rw [PortState.active_eq, hr, show activeIn (s.port p).legs g = false from h.active g]
    rfl
  refine ⟨keptOf p s.seg r.legs, ?_⟩
  rw [beginAddress_unmarked_bus p s s.seg hno, retime_steady hl fun g => steady_ungoverned p _, h.owning,
    stallBy_not_owning]
  exact State.bus_congr _ _ rfl fun g => ungoverned_of_not_owns (h.owns g)

theorem timersLaw_congr {s t : State} (hl : TimersLaw s) (hp : t.ports = s.ports) (hs : t.segs = s.segs) : TimersLaw t := by
  have hport (p : Port) : t.port p = s.port p := congrArg (PerPort.get · p) hp
  have hseg (g : Seg) : t.seg g = s.seg g := congrArg (PerSeg.get · g) hs
  refine ⟨fun p => ?_, fun g => by rw [hseg]; exact hl.2 g⟩
  rw [hport, stallRuns_congr (s := s) (fun g => by rw [hseg]) (by rw [hport]) (by rw [hport])]
  exact hl.1 p

theorem onlyPort_bus (s : State) (p : Port) (r : PortState) : OnlyPort p s (s.bus p r s.seg) := by
  unfold OnlyPort State.bus
  rw [PerPort.get_set_self]
  rfl

theorem onlyPort_updPort (s : State) (p : Port) (k : PortState → PortState) : OnlyPort p s (s.updPort p k) := by
  rw [State.updPort_eq_bus]
  exact onlyPort_bus ..

/-! ### The end of a frame (R157, R158) -/

/-- The state with the command queue and the lease replaced. -/
def State.queued (s : State) (queue : List QEntry) (lease : Option Nat) : State :=
  { s with cmdQueue := queue, lease := lease }

/-- R157: the command queue when a frame ends. -/
def queueAfter (p : Port) (m : Assembler) (s : State) : List QEntry :=
  if m.bytes.isEmpty then s.cmdQueue else s.cmdQueue ++ [m.judge p]

/-- R127: the lease when a frame ends. -/
def leaseAfter (p : Port) (m : Assembler) (s : State) : Option Nat :=
  if m.bytes.isEmpty then s.lease
  else if s.session.any (fun e => e.owner == p) then some s.working.params.lease else s.lease

theorem renewLease_eq (p : Port) (s : State) : renewLease p s = { s with
    lease := if s.session.any (fun e => e.owner == p) then some s.working.params.lease else s.lease } := by
  unfold renewLease
  split
  next h =>
    have hany : s.session.any (fun e => e.owner == p) = false := by rw [h]; rfl
    rw [hany]
    rfl
  next e h =>
    have hany : s.session.any (fun e => e.owner == p) = (e.owner == p) := by rw [h]; rfl
    rw [hany]
    by_cases ho : e.owner = p
    · rw [if_pos ho, if_pos (beq_iff_eq.mpr ho)]
    · rw [if_neg ho, if_neg fun hb => ho (beq_iff_eq.mp hb)]

theorem frameEnd_eq {s : State} {p : Port} {m : Assembler} (h : (s.port p).assembler = some m) :
    frameEnd p s = (s.queued (queueAfter p m s) (leaseAfter p m s)).bus p { s.port p with assembler := none } s.seg := by
  unfold frameEnd queueAfter leaseAfter
  rw [h]
  dsimp only
  rw [State.updPort_eq_bus]
  cases hb : m.bytes.isEmpty with
  | true => rfl
  | false =>
    rw [if_neg nofun, if_neg nofun, if_neg nofun, accept, renewLease_eq]
    rfl

/-- R24, R37: how a management transaction ends: closed by a STOP, or begun again by a START, from the state its end has left. -/
def ended (p : Port) (stops : Bool) (t : State) : State :=
  if stops then closeTransaction p noCheck t else toAddress p t

/-- R24, R37: a record that owns nothing, its transaction ended. -/
structure EndedBare (p : Port) (r : PortState) (stops : Bool) (r' : PortState) : Prop where
  phase : r'.phase = if stops then .idle else .address
  isOpen : r'.isOpen = !stops
  assembler : r'.assembler = r.assembler
  readPos : r'.readPos = r.readPos
  responses : r'.responses = r.responses

theorem retime_ended_bare {s : State} {p : Port} (hl : TimersLaw s) (h : OwnsNothing s p) {r : PortState}
    (hr : r.legs = (s.port p).legs) (hearly : r.earlyAddr = none) (stops : Bool) :
    ∃ r', EndedBare p r stops r' ∧ retime (ended p stops (s.bus p r s.seg)) = s.bus p r' s.seg := by
  unfold ended
  cases stops with
  | true => exact ⟨r.closed r.legs, ⟨rfl, rfl, rfl, rfl, rfl⟩, retime_closeTransaction_bare hl h hr⟩
  | false =>
    obtain ⟨legs, hbegun⟩ := retime_beginAddress_bare hl h hr
    refine ⟨{ r.begun legs with stall := none }, ⟨rfl, rfl, rfl, rfl, rfl⟩, Eq.trans ?_ hbegun⟩
    rw [if_neg nofun, toAddress_none (by rw [State.bus_port_self]; exact hearly)]

/-- The conditions upstream: whether one is a STOP, and whether it comes at a byte's boundary. -/
def Condition (p : Port) (c : Instr) (stops boundary : Bool) : Prop :=
  (c, stops, boundary) ∈ [(Instr.stop p, true, true), (.midByteStop p, true, false), (.repeatedStart p, false, true),
    (.start p, false, true), (.midByteStart p, false, false)]

/-- R24, R37, R158: a condition in MGMT_WRITE ends the frame. -/
theorem exec_condition_mgmtWrite {s : State} {p : Port} (hr : Ready s p .mgmtWrite) (ho : (s.port p).isOpen = true)
    {c : Instr} {stops boundary : Bool} (hc : Condition p c stops boundary) :
    exec c s = .next (retime (ended p stops (frameEnd p s))) := by
  obtain ⟨hrun, hphase, hscl⟩ := hr
  simp only [Condition, List.mem_cons, Prod.mk.injEq, List.not_mem_nil, or_false] at hc
  obtain ⟨rfl, rfl, rfl⟩ | ⟨rfl, rfl, rfl⟩ | ⟨rfl, rfl, rfl⟩ | ⟨rfl, rfl, rfl⟩ | ⟨rfl, rfl, rfl⟩ := hc
  · rw [exec_stop hrun hscl, stopCondition, hphase]
    rfl
  · rw [exec_midByteStop hrun hscl, midByteStop, hphase]
    rfl
  · rw [exec_startCondition (.inr rfl) hrun, startCondition_open hscl ho, repeatedStart, hphase]
    rfl
  · rw [exec_startCondition (.inl rfl) hrun, startCondition_open hscl ho, repeatedStart, hphase]
    rfl
  · rw [exec_midByteStart hrun hscl, midByteStart, if_pos ho, hphase]
    rfl

/-- R24, R37, R164, R165: a condition in MGMT_READ ends the read. -/
theorem exec_condition_mgmtRead {s : State} {p : Port} (hr : Ready s p .mgmtRead) (ho : (s.port p).isOpen = true)
    {c : Instr} {stops boundary : Bool} (hc : Condition p c stops boundary) :
    exec c s = .next (retime (ended p stops (readEnd p boundary s))) := by
  obtain ⟨hrun, hphase, hscl⟩ := hr
  simp only [Condition, List.mem_cons, Prod.mk.injEq, List.not_mem_nil, or_false] at hc
  obtain ⟨rfl, rfl, rfl⟩ | ⟨rfl, rfl, rfl⟩ | ⟨rfl, rfl, rfl⟩ | ⟨rfl, rfl, rfl⟩ | ⟨rfl, rfl, rfl⟩ := hc
  · rw [exec_stop hrun hscl, stopCondition, hphase]
    rfl
  · rw [exec_midByteStop hrun hscl, midByteStop, hphase]
    rfl
  · rw [exec_startCondition (.inr rfl) hrun, startCondition_open hscl ho, repeatedStart, hphase]
    rfl
  · rw [exec_startCondition (.inl rfl) hrun, startCondition_open hscl ho, repeatedStart, hphase]
    rfl
  · rw [exec_midByteStart hrun hscl, midByteStart, if_pos ho, hphase]
    rfl

/-! ### The entry a frame makes (R157) -/

section
variable {p : Port} {m : Assembler}

theorem judge_lengthMark (h : m.lengthMark = true) : m.judge p = .error p .badLength m.tag := if_pos h

theorem judge_longMark (h : m.lengthMark = false) (hlong : m.longMark = true) : m.judge p = .error p .frameLong m.tag := by
  unfold Assembler.judge
  rw [h, hlong]
  rfl

variable (h : m.lengthMark = false) (hlong : m.longMark = false)
include h hlong

theorem judge_short (hs : m.bytes.length < 3 ∨ m.bytes.length < (byteAt m.bytes 2).toNat + 4) :
    m.judge p = .error p .frameShort m.tag := by
  unfold Assembler.judge
  dsimp only
  rw [h, hlong, if_neg nofun, if_neg nofun, if_pos hs]

variable (h3 : 3 ≤ m.bytes.length) (h4 : (byteAt m.bytes 2).toNat + 4 ≤ m.bytes.length)
include h3 h4

theorem judge_badCheck (hc : byteAt m.bytes ((byteAt m.bytes 2).toNat + 3) ≠ m.check) :
    m.judge p = .error p .badCheck m.tag := by
  unfold Assembler.judge
  dsimp only
  rw [h, hlong, if_neg nofun, if_neg nofun, if_neg (by omega), if_pos hc]

variable (hc : byteAt m.bytes ((byteAt m.bytes 2).toNat + 3) = m.check)
include hc

theorem judge_unknown (hcmd : commandOfCode (byteAt m.bytes 0) = none) : m.judge p = .error p .unknown m.tag := by
  unfold Assembler.judge
  dsimp only
  rw [h, hlong, if_neg nofun, if_neg nofun, if_neg (by omega), if_neg (fun hne => hne hc), hcmd]

theorem judge_known {c : Command} (hcmd : commandOfCode (byteAt m.bytes 0) = some c) : m.judge p
    = if (byteAt m.bytes 2).toNat ≠ commandLength c then .error p .badLength m.tag
      else .frame p c m.tag ((m.bytes.drop 3).take (byteAt m.bytes 2).toNat) := by
  unfold Assembler.judge
  dsimp only
  rw [h, hlong, if_neg nofun, if_neg nofun, if_neg (by omega), if_neg (fun hne => hne hc), hcmd]

end

/-! ### The bytes of a frame (R156) -/

theorem exec_mgmtWriteByte {s : State} {p : Port} {m : Assembler} (hrun : s.run = .running)
    (hphase : (s.port p).phase = .mgmtWrite) (hm : (s.port p).assembler = some m) (b : Byte) :
    exec (.mgmtWriteByte p b) s
      = .next (s.updPort p fun r => { r with assembler := some (m.take b).2, ackOut := some (m.take b).1 }) := by
  show Host.Outcome.next (whenRunning s _) = _
  rw [whenRunning_running hrun, if_pos hphase, hm]

/-- R156: the last byte of a frame's length is taken; a longer one sets the length mark. -/
theorem take_of_lengthMark {m : Assembler} (h : m.lengthMark = true) (b : Byte) : m.take b = (.nack, m) := if_pos h

section
variable {m : Assembler} (h : m.lengthMark = false) (b : Byte)
include h

theorem take_kept (hk : m.bytes.length < 2 ∨ (m.bytes.length = 2 ∧ b.toNat ≤ 40)
      ∨ (3 ≤ m.bytes.length ∧ m.bytes.length < (byteAt m.bytes 2).toNat + 3)) :
    m.take b = (.ack, { m with bytes := m.bytes ++ [b], check := crc8 m.check b }) := by
  unfold Assembler.take
  rw [h, if_neg nofun]
  obtain hk | ⟨hk, hb⟩ | ⟨hk, hlen⟩ := hk
  · rw [if_pos hk]
  · rw [if_neg (by omega), if_pos hk, if_pos hb]
  · rw [if_neg (by omega), if_neg (by omega), if_pos hlen]

theorem take_tooLong (hk : m.bytes.length = 2) (hb : 40 < b.toNat) :
    m.take b = (.nack, { m with bytes := m.bytes ++ [b], lengthMark := true }) := by
  unfold Assembler.take
  rw [h, if_neg nofun, if_neg (by omega), if_pos hk, if_neg (by omega)]

theorem take_check (hk : 3 ≤ m.bytes.length) (hlen : m.bytes.length = (byteAt m.bytes 2).toNat + 3) :
    m.take b = (.ack, { m with bytes := m.bytes ++ [b] }) := by
  unfold Assembler.take
  rw [h, if_neg nofun, if_neg (by omega), if_neg (by omega), if_neg (by omega), if_pos hlen]

theorem take_beyond (hk : 3 ≤ m.bytes.length) (hlen : (byteAt m.bytes 2).toNat + 3 < m.bytes.length) :
    m.take b = (.nack, { m with longMark := true }) := by
  unfold Assembler.take
  rw [h, if_neg nofun, if_neg (by omega), if_neg (by omega), if_neg (by omega), if_neg (by omega)]

end

namespace Laws

/-- Settles O34: each byte by what `take` makes of it; the end of the frame by `judge`. -/
theorem mgmtWrite : Obligations.MgmtWrite := by
  refine ⟨fun s p b m hrun hphase hm => ?_, fun s p m c stops hready hstop hstart hm hopen hearly hown hl => ?_⟩
  · have hexec := exec_mgmtWriteByte hrun hphase hm b
    refine ⟨fun hmark => ?_, fun hmark => ⟨fun hk => ?_, fun hk hb => ?_, fun hk hlen => ?_, fun hk hlen => ?_⟩⟩
    · rw [hexec, take_of_lengthMark hmark, ← hm, State.updPort_eq_bus, State.updPort_eq_bus]
    · rw [hexec, take_kept hmark b hk]
    · rw [hexec, take_tooLong hmark b hk hb]
    · rw [hexec, take_check hmark b hk hlen]
    · rw [hexec, take_beyond hmark b hk hlen]
  · obtain ⟨boundary, hc⟩ : ∃ boundary, Condition p c stops boundary := by
      cases stops with
      | true => obtain rfl | rfl := hstop rfl <;> simp [Condition]
      | false => obtain rfl | rfl | rfl := hstart rfl <;> simp [Condition]
    have hexec := exec_condition_mgmtWrite hready hopen hc
    let u := s.queued (queueAfter p m s) (leaseAfter p m s)
    obtain ⟨r', hr', hbare⟩ := retime_ended_bare (s := u) (p := p) (timersLaw_congr hl rfl rfl) hown
      (r := { s.port p with assembler := none }) rfl hearly stops
    rw [frameEnd_eq hm, show s.seg = u.seg from rfl, hbare] at hexec
    have hqueue (hne : m.bytes ≠ []) : (u.bus p r' u.seg).cmdQueue = s.cmdQueue ++ [m.judge p] := by
      show queueAfter p m s = _
      exact if_neg fun he => hne (List.isEmpty_iff.mp he)
    refine ⟨_, hexec, ?_, ?_, ?_, rfl, rfl, ⟨rfl, rfl, rfl, rfl, rfl, rfl, rfl, rfl, rfl⟩, ⟨rfl, rfl, rfl⟩, fun he => ?_,
      fun hne => ?_, fun hne hmark => ?_, fun hne hmark hlong => ?_, fun n hn hne hmark hlong => ?_⟩
    · rw [State.bus_port_self]
      exact hr'.phase
    · rw [State.bus_port_self]
      exact hr'.isOpen
    · rw [State.bus_port_self]
      exact hr'.assembler
    · exact ⟨if_pos (List.isEmpty_iff.mpr he), if_pos (List.isEmpty_iff.mpr he)⟩
    · exact if_neg fun he => hne (List.isEmpty_iff.mp he)
    · rw [hqueue hne, judge_lengthMark hmark]
      rfl
    · rw [hqueue hne, judge_longMark hmark hlong]
      rfl
    · subst hn
      refine ⟨fun hs => ?_, fun h3 h4 hcheck => ?_, fun h3 h4 hcheck => ⟨fun hcmd => ?_, fun c hcmd => ⟨fun hlen => ?_, fun hlen => ?_⟩⟩⟩
      · rw [hqueue hne, judge_short hmark hlong hs]
        rfl
      · rw [hqueue hne, judge_badCheck hmark hlong h3 h4 hcheck]
        rfl
      · rw [hqueue hne, judge_unknown hmark hlong h3 h4 hcheck hcmd]
        rfl
      · rw [hqueue hne, (judge_known hmark hlong h3 h4 hcheck hcmd).trans (if_pos (Ne.symm hlen))]
        rfl
      · rw [hqueue hne, (judge_known hmark hlong h3 h4 hcheck hcmd).trans (if_neg (not_not.mpr hlen.symm))]
        rfl

end Laws
end Sys2Proof.Machine
end

section
/-!
PROOFS. The reading of a response, and the stall timer (O35, O37).
-/
namespace Sys2Proof.Machine

/-! ### A response being read (R163, R164) -/

section
variable {m : ReadPos}

theorem whole_of_nacked (h : m.nacked = true) : m.whole = m := if_pos h

variable (h : m.nacked = false)
include h

theorem whole_within (hn : m.next < m.frame.bytes.length) :
    m.whole = { m with next := m.next + 1, check := crc8 m.check (byteAt m.frame.bytes m.next) } := by
  unfold ReadPos.whole
  rw [h, if_neg nofun, if_pos hn]

theorem whole_at_check (hn : m.next = m.frame.bytes.length) :
    m.whole = { m with next := m.next + 1, checkDone := true } := by
  unfold ReadPos.whole
  rw [h, if_neg nofun, if_neg (by omega), if_pos hn]

theorem whole_beyond (hn : m.frame.bytes.length < m.next) : m.whole = m := by
  unfold ReadPos.whole
  rw [h, if_neg nofun, if_neg (by omega), if_neg (by omega)]

end

theorem nacked_whole (m : ReadPos) : m.whole.nacked = m.nacked := by
  unfold ReadPos.whole
  split
  · rfl
  split
  · rfl
  split <;> rfl

theorem answer_eq (m : ReadPos) (a : Ack) : m.answer a = { m.whole with edges := 0, nacked := m.nacked || a == .nack } := by
  cases a with
  | ack =>
    rw [show (m.nacked || Ack.ack == Ack.nack) = m.whole.nacked by rw [nacked_whole]; exact Bool.or_false _]
    rfl
  | nack =>
    rw [show (m.nacked || Ack.nack == Ack.nack) = true from Bool.or_true _]
    rfl

theorem current_of_nacked {m : ReadPos} (h : m.nacked = true) : m.current = 0xFF#8 := if_pos h

section
variable {m : ReadPos} (h : m.nacked = false)
include h

theorem current_within (hn : m.next < m.frame.bytes.length) : m.current = byteAt m.frame.bytes m.next := by
  unfold ReadPos.current
  rw [h, if_neg nofun, if_pos hn]

theorem current_at_check (hn : m.next = m.frame.bytes.length) : m.current = m.check := by
  unfold ReadPos.current
  rw [h, if_neg nofun, if_neg (by omega), if_pos hn]

theorem current_beyond (hn : m.frame.bytes.length < m.next) : m.current = 0xFF#8 := by
  unfold ReadPos.current
  rw [h, if_neg nofun, if_neg (by omega), if_neg (by omega)]

end

theorem exec_mgmtReadAck {s : State} {p : Port} {m : ReadPos} (hrun : s.run = .running)
    (hphase : (s.port p).phase = .mgmtRead) (hm : (s.port p).readPos = some m) (a : Ack) :
    exec (.mgmtReadAck p a) s
      = .next (s.updPort p fun r => { r with readPos := some (m.answer a), sdaByte := some (m.answer a).current }) := by
  show Host.Outcome.next (whenRunning s _) = _
  rw [whenRunning_running hrun, if_pos hphase, hm]

/-- R164: the check byte has been supplied whole, as the condition that ends the read finds it. -/
theorem checkDone_found (m : ReadPos) (boundary : Bool) : (if boundary then m.atBoundary else m).checkDone = true
    ↔ m.checkDone = true
      ∨ (m.nacked = false ∧ m.next = m.frame.bytes.length ∧ boundary = true ∧ 16 ≤ m.edges) := by
  have hwhole : m.whole.checkDone = true ↔ m.checkDone = true ∨ (m.nacked = false ∧ m.next = m.frame.bytes.length) := by
    cases hn : m.nacked with
    | true => simp [whole_of_nacked hn]
    | false =>
      rcases lt_trichotomy m.next m.frame.bytes.length with hlt | heq | hgt
      · rw [whole_within hn hlt]
        simp [Nat.ne_of_lt hlt]
      · rw [whole_at_check hn heq]
        simp [heq]
      · rw [whole_beyond hn hgt]
        simp [Nat.ne_of_gt hgt]
  cases boundary with
  | false => simp
  | true =>
    rw [if_pos rfl]
    by_cases he : 16 ≤ m.edges
    · rw [ReadPos.atBoundary_whole he, hwhole]
      simp [he]
    · rw [ReadPos.atBoundary_begun (Nat.lt_of_not_le he)]
      simp [he]

theorem readEnd_eq {s : State} {p : Port} {m : ReadPos} (h : (s.port p).readPos = some m) (boundary : Bool) :
    readEnd p boundary s = s.bus p { s.port p with
      readPos := none
      responses := if m.isEmpty = false ∧ (m.checkDone = true
          ∨ (m.nacked = false ∧ m.next = m.frame.bytes.length ∧ boundary = true ∧ 16 ≤ m.edges))
        then (s.port p).responses.drop 1 else (s.port p).responses } s.seg := by
  unfold readEnd
  rw [h]
  dsimp only
  rw [State.updPort_eq_bus]
  refine State.bus_congr _ _ ?_ fun _ => rfl
  congr 1
  refine if_congr ?_ rfl rfl
  rw [Bool.and_eq_true, Bool.not_eq_true', checkDone_found]

/-! ### An edge of upstream SCL (R59, R63) -/

theorem restartStall_eq (limit : Nat) (r : PortState) :
    restartStall limit r = { r with stall := if r.stall.isSome then some limit else none } := by
  unfold restartStall
  cases r.stall <;> rfl

theorem mgmtEdge_eq (r : PortState) : mgmtEdge r = { r with
    readPos := r.readPos.map fun m => { m with edges := if m.edges < 16 then m.edges + 1 else m.edges } } := rfl

/-- R63: the edge that ends the eighth bit takes the byte into the upstream value. -/
theorem edgeSeen_supplying {r : PortState} {b : Byte} {n : Nat} (h : r.readStage = .supplying b n) :
    edgeSeen r = { r with
      readStage := .supplying b (if n < 16 then n + 1 else n), up := if n = 15 then crc8 r.up b else r.up } := by
  have hup : (if n + 1 = byteEdges then crc8 r.up b else r.up) = if n = 15 then crc8 r.up b else r.up :=
    if_congr (by unfold byteEdges; omega) rfl rfl
  unfold edgeSeen
  rw [h]
  dsimp only
  rw [hup]
  rfl

theorem edgeSeen_other {r : PortState} (h : ∀ b n, r.readStage ≠ .supplying b n) : edgeSeen r = r := by
  unfold edgeSeen
  split
  next b n hs => exact absurd hs (h b n)
  all_goals rfl

/-- R60: the record when its stall timer has expired. -/
def PortState.stalled (r : PortState) (legs : List Leg) : PortState :=
  { r with
    snapshot := none, legs := legs, phase := .offBus, pointer := none, held := none, stall := none, inFlight := none,
    readStage := .none, sdaByte := none }

theorem stallExpired_eq {s : State} {p : Port} (h : LegsPaused s p) : stallExpired p s
    = (note .stall (some (.port p)) ((ownedSegs s p).head?.map .seg) (slotOf s p) 0#16 s).bus p
      ((s.port p).stalled (endedLegs s p)) (endedSeg s p (legActive s p) fun _ => none) := by
  have hu := legsPaused_note h .stall (some (.port p)) ((ownedSegs s p).head?.map .seg) (slotOf s p) 0#16
  unfold stallExpired notePort
  have hport := note_port .stall (some (.port p)) ((ownedSegs s p).head?.map .seg) (slotOf s p) 0#16 s p
  have hseg := note_seg .stall (some (.port p)) ((ownedSegs s p).head?.map .seg) (slotOf s p) 0#16 s
  have hworking := note_working .stall (some (.port p)) ((ownedSegs s p).head?.map .seg) (slotOf s p) 0#16 s
  generalize note .stall (some (.port p)) ((ownedSegs s p).head?.map .seg) (slotOf s p) 0#16 s = u at *
  have hend := endActive_bus p noCheck u (u.port p) u.seg
  rw [State.bus_self] at hend
  rw [hend, dropSnapshot_bus, State.updPort_bus, hport]
  refine State.bus_congr _ _ rfl fun g => ?_
  rw [bind_noCheck, hseg, hworking]
  exact ungoverned_closedBy h (ends := legActive s p) (fun _ hg => hg) (fun _ => none) g

section
variable {m : ReadPos} (h : m.nacked = false) (a : Ack)
include h

theorem answer_within (hn : m.next < m.frame.bytes.length) : m.answer a = { m with
    next := m.next + 1, edges := 0, check := crc8 m.check (byteAt m.frame.bytes m.next), nacked := a == .nack } := by
  rw [answer_eq, whole_within h hn, h, Bool.false_or]

theorem answer_at_check (hn : m.next = m.frame.bytes.length) : m.answer a = { m with
    next := m.next + 1, edges := 0, checkDone := true, nacked := a == .nack } := by
  rw [answer_eq, whole_at_check h hn, h, Bool.false_or]

theorem answer_beyond (hn : m.frame.bytes.length < m.next) :
    m.answer a = { m with edges := 0, nacked := a == .nack } := by
  rw [answer_eq, whole_beyond h hn, h, Bool.false_or]

end

/-- R163: past the check byte, and after a NACK, every byte is 0xFF. -/
theorem current_ended {m : ReadPos} (h : m.nacked = false → m.frame.bytes.length < m.next) : m.current = 0xFF#8 := by
  cases hn : m.nacked with
  | true => exact current_of_nacked hn
  | false => exact current_beyond hn (h hn)

namespace Laws

/-- Settles O35: by where in the response the read stands; and at its end by whether the check byte has gone out. -/
theorem mgmtRead : Obligations.MgmtRead := by
  intro s p a m bytes hrun hphase hm hbytes
  have hexec := exec_mgmtReadAck hrun hphase hm a
  replace hbytes : m.frame.bytes = bytes := hbytes.symm
  have honly := onlyPort_updPort s p fun r =>
    { r with readPos := some (m.answer a), sdaByte := some (m.answer a).current }
  refine ⟨fun hn => ?_, fun hn hlt => ⟨_, hexec, ?_, ?_, honly⟩, fun hn heq => ⟨_, hexec, ?_, ?_, honly⟩,
    fun hn hgt => ⟨_, hexec, ?_, ?_, honly⟩, fun c stops boundary hc hscl hopen hearly hown hl => ?_⟩
  · have heq : m.answer a = { m with edges := 0 } := by
      rw [answer_eq, whole_of_nacked hn, hn, Bool.true_or, ← hn]
    rw [hexec, heq, current_of_nacked (m := { m with edges := 0 }) hn]
  · rw [State.port_updPort_self, answer_within hn a (hbytes ▸ hlt), hbytes]
    rfl
  · rw [State.port_updPort_self]
    show some (m.answer a).current = _
    rw [answer_within hn a (hbytes ▸ hlt)]
    cases a with
    | nack => exact congrArg some (current_of_nacked rfl)
    | ack =>
      rw [if_neg nofun]
      refine congrArg some ?_
      split
      next hnext =>
        refine (current_within rfl (by rw [hbytes]; exact hnext)).trans ?_
        rw [hbytes]
        rfl
      next hnext =>
        refine (current_at_check rfl (by rw [hbytes]; show m.next + 1 = _; omega)).trans ?_
        rw [hbytes]
        rfl
  · rw [State.port_updPort_self, answer_at_check hn a (hbytes ▸ heq)]
  · rw [State.port_updPort_self]
    show some (m.answer a).current = _
    rw [answer_at_check hn a (hbytes ▸ heq)]
    exact congrArg some (current_ended fun _ => by rw [hbytes]; show _ < m.next + 1; omega)
  · rw [State.port_updPort_self, answer_beyond hn a (hbytes ▸ hgt)]
  · rw [State.port_updPort_self]
    show some (m.answer a).current = _
    rw [answer_beyond hn a (hbytes ▸ hgt)]
    exact congrArg some (current_ended fun _ => hbytes ▸ hgt)
  · have hcond := exec_condition_mgmtRead ⟨hrun, hphase, hscl⟩ hopen hc
    rw [readEnd_eq hm, hbytes] at hcond
    obtain ⟨r', hr', hbare⟩ := retime_ended_bare hl hown (r := { s.port p with
      readPos := none
      responses := if m.isEmpty = false ∧ (m.checkDone = true
          ∨ (m.nacked = false ∧ m.next = bytes.length ∧ boundary = true ∧ 16 ≤ m.edges))
        then (s.port p).responses.drop 1 else (s.port p).responses }) rfl hearly stops
    rw [hbare] at hcond
    refine ⟨_, hcond, ?_, ?_, ?_, ?_, onlyPort_bus ..⟩
    · rw [State.bus_port_self]
      exact hr'.phase
    · rw [State.bus_port_self]
      exact hr'.isOpen
    · rw [State.bus_port_self]
      exact hr'.readPos
    · rw [State.bus_port_self]
      exact hr'.responses

/-- Settles O37: an edge of SCL, by the stage of the read; and the timer's expiry. -/
theorem stallTimer : Obligations.StallTimer := by
  refine ⟨fun s p hrun => ?_, fun s p hrun hstall hl hp => ?_⟩
  · show Host.Outcome.next (whenRunning s _) = _
    rw [whenRunning_running hrun, State.updPort_eq_bus, State.updPort_eq_bus, mgmtEdge_eq]
    refine congrArg _ (State.bus_congr _ _ ?_ fun _ => rfl)
    have hstage : (restartStall s.working.params.stallLimit (s.port p)).readStage = (s.port p).readStage := by
      rw [restartStall_eq]
    cases hst : (s.port p).readStage
    case supplying b n =>
      rw [edgeSeen_supplying (b := b) (n := n) (hstage.trans hst), restartStall_eq]
      congr 1
      by_cases hn : n = 15
      · subst hn
        rfl
      · dsimp only
        rw [if_neg hn]
        split
        next heq => exact absurd (ReadStage.supplying.inj heq).2 hn
        next => rfl
    all_goals
      rw [edgeSeen_other (by rw [hstage, hst]; nofun), restartStall_eq]
      congr 1
  · have hexec : exec (.stall p) s = .next (retime (stallExpired p s)) := by
      show Host.Outcome.next (whenRunning s _) = _
      rw [whenRunning_running hrun, if_pos hstall]
    have hoff (legs : List Leg) :
        PortState.stallBy s.working.params.stallLimit (owning s p) ((s.port p).stalled legs) = none := by
      simp [PortState.stallBy, PortState.stalled]
    have hfirst : (ownedSegs s p).head? = Seg.list.find? fun g => owns s p g := List.head?_filter ..
    rw [stallExpired_eq hp, retime_noted_steady hl (steady_endedSeg hp (fun _ hg => hg) _), hoff, hfirst] at hexec
    refine ⟨_, hexec, ?_⟩
    beta_reduce
    rw [State.bus_port_self]
    exact ⟨rfl, rfl, rfl, rfl, rfl, rfl, rfl, rfl, rfl, fun g => State.bus_seg .., recorded_bus_note ..,
      onlyPortSegsNotices_bus_note ..⟩

end Laws
end Sys2Proof.Machine
end

section
/-!
PROOFS. The executor's answers: error entries and privilege, the reports, the opening and the lapse of an edit session, and the checks that
come before a command's effect (O48, O49, O50, O51).
-/
namespace Sys2Proof.Machine

/-! ### The rows of the management commands (R159, R160) -/

/-- The management commands of the table, each with the command a frame of it carries. -/
def managementRows (pins : ResetPins) : List (Instr × Command) :=
  [(.identify, .identify), (.getStatus, .getStatus), (.readEntry, .readEntry), (.readParams, .readParams),
    (.takeNotices, .takeNotices), (.openEdit, .openEdit), (.putEntry, .putEntry), (.dropEntry, .dropEntry),
    (.putParam, .putParam), (.commit, .commit), (.abandon, .abandon), (.loadBank, .loadBank), (.saveBank, .saveBank),
    (.protectBank, .protectBank), (.unprotectBank true, .unprotectBank), (.unprotectBank false, .unprotectBank),
    (.segmentReset, .segmentReset), (.segmentDisable, .segmentDisable), (.segmentEnable, .segmentEnable),
    (.restart pins, .restart)]

/-- Each of them takes a frame of its command from the head of the queue. -/
theorem exec_managementRow {pins : ResetPins} : ∀ row ∈ managementRows pins,
    ∃ body, ∀ s, exec row.1 s = .next (whenRunning s (runFrame row.2 body)) := by
  unfold managementRows
  simp only [List.forall_mem_cons]
  refine ⟨?_, ?_, ?_, ?_, ?_, ?_, ?_, ?_, ?_, ?_, ?_, ?_, ?_, ?_, ?_, ?_, ?_, ?_, ?_, ?_, List.forall_mem_nil _⟩
  all_goals exact ⟨_, fun _ => rfl⟩

theorem needsFull_of_not_report {c : Command}
    (h : c ∉ [Command.identify, .getStatus, .readEntry, .readParams, .takeNotices]) : c.needsFull = true := by
  revert h
  cases c <;> decide

/-- R160: what the working privilege of a port keeps from it. -/
theorem permitted_denied {s : State} {p : Port} {c : Command} (h : s.working.params.priv.get p = .none
      ∨ (s.working.params.priv.get p = .read
        ∧ c ∉ [Command.identify, .getStatus, .readEntry, .readParams, .takeNotices])) : permitted s p c = false := by
  obtain h | ⟨h, hc⟩ := h
  · unfold permitted
    rw [h]
  · exact permitted_eq_false (needsFull_of_not_report hc) (by rw [h]; nofun)

/-! ### Arguments (R170, R171) -/

theorem stagingOfByte_gt {b : Byte} (h : 1 < b.toNat) : stagingOfByte b = none := by
  unfold stagingOfByte
  rw [if_neg (by rintro rfl; exact absurd h (by decide)), if_neg (by rintro rfl; exact absurd h (by decide))]

theorem stagingOfByte_le {b : Byte} (h : b.toNat ≤ 1) : ∃ x, stagingOfByte b = some x := by
  have hb : b = 0x00#8 ∨ b = 0x01#8 := by bv_omega
  obtain rfl | rfl := hb
  · exact ⟨_, rfl⟩
  · exact ⟨_, rfl⟩

theorem bankOfByte_gt {b : Byte} (h : 1 < b.toNat) : bankOfByte b = none := by
  unfold bankOfByte
  rw [if_neg (by rintro rfl; exact absurd h (by decide)), if_neg (by rintro rfl; exact absurd h (by decide))]

theorem bankOfByte_le {b : Byte} (h : b.toNat ≤ 1) : ∃ x, bankOfByte b = some x := by
  have hb : b = 0x00#8 ∨ b = 0x01#8 := by bv_omega
  obtain rfl | rfl := hb
  · exact ⟨_, rfl⟩
  · exact ⟨_, rfl⟩

theorem segOfByte_gt {b : Byte} (h : 3 < b.toNat) : segOfByte b = none := by
  unfold segOfByte
  rw [if_neg (by rintro rfl; exact absurd h (by decide)), if_neg (by rintro rfl; exact absurd h (by decide)),
    if_neg (by rintro rfl; exact absurd h (by decide)), if_neg (by rintro rfl; exact absurd h (by decide))]

theorem slotOfByte_fin (n : Fin 32) : slotOfByte (byteOf n.val) = some n.val := by
  have hn : (byteOf n.val).toNat = n.val := byteOf_toNat (by omega)
  rw [slotOfByte_of_le (by omega), hn]

section
variable {s : State} {p : Port} {tag : Byte} {payload : List Byte} {rest : List QEntry}

/-- A bank command whose argument names no bank, and one on a store that is not IDLE. -/
theorem HeadFrame.run_withBank_refused {c : Command} (h : HeadFrame s p c tag payload rest) (f : Bank → Body) :
    (1 < (payload.getD 0 0#8).toNat →
        whenRunning s (runFrame c (withBank f)) = answered p .badArg tag [0x01#8] rest s)
      ∧ ((payload.getD 0 0#8).toNat ≤ 1 → s.store.phase ≠ .idle →
        whenRunning s (runFrame c (withBank f)) = answered p .storeBusy tag [] rest s) := by
  refine ⟨fun hb => h.run_respond ?_, fun hb hp => h.run_respond ?_⟩
  · have hnone : bankOfByte (byteAt payload 0) = none := bankOfByte_gt hb
    rw [withBank, hnone]
    rfl
  · obtain ⟨x, hx⟩ := bankOfByte_le (b := byteAt payload 0) hb
    rw [withBank, hx]
    exact if_neg hp

theorem HeadFrame.run_withSegment_refused {c : Command} (h : HeadFrame s p c tag payload rest) (f : Seg → Body)
    (hb : 3 < (payload.getD 0 0#8).toNat) :
    whenRunning s (runFrame c (withSegment f)) = answered p .badArg tag [0x01#8] rest s := by
  refine h.run_respond ?_
  have hnone : segOfByte (byteAt payload 0) = none := segOfByte_gt hb
  rw [withSegment, hnone]
  rfl

/-! ### READ-ENTRY and READ-PARAMS (R174, R175) -/

variable (h : HeadFrame s p .readEntry tag payload rest)
include h

theorem readEntry_badTable (hb : 1 < (payload.getD 0 0#8).toNat) :
    exec .readEntry s = .next (answered p .badArg tag [0x01#8] rest s) := by
  refine congrArg Host.Outcome.next (h.run_respond (body := readEntry) ?_)
  have hnone : stagingOfByte (byteAt payload 0) = none := stagingOfByte_gt hb
  rw [readEntry, hnone]
  rfl

theorem readEntry_badSlot (hb : (payload.getD 0 0#8).toNat ≤ 1) (hn : 31 < (payload.getD 1 0#8).toNat) :
    exec .readEntry s = .next (answered p .badArg tag [0x02#8] rest s) := by
  refine congrArg Host.Outcome.next (h.run_respond (body := readEntry) ?_)
  obtain ⟨x, hx⟩ := stagingOfByte_le (b := byteAt payload 0) hb
  have hnone : slotOfByte (byteAt payload 1) = none := slotOfByte_of_gt hn
  rw [readEntry, hx]
  dsimp only
  rw [hnone]
  rfl

theorem readEntry_working {n : Nat} (hb : byteAt payload 0 = 0x00#8) (hn : slotOfByte (byteAt payload 1) = some n) :
    exec .readEntry s = .next (answered p .ok tag
      (0x00#8 :: byteAt payload 1 :: slotBytes (s.working.slots.getD n none)) rest s) := by
  refine congrArg Host.Outcome.next (h.run_respond (body := readEntry) ?_)
  rw [readEntry, hb, hn]
  rfl

end

theorem withSession_staged {p : Port} {tag : Byte} {payload : List Byte} (hb : byteAt payload 0 = 0x01#8) {n : Nat}
    (hn : slotOfByte (byteAt payload 1) = some n) (t : State) :
    readEntry p tag payload t = withSession p tag (fun e s =>
      respond p .ok tag (0x01#8 :: byteAt payload 1 :: slotBytes (e.staging.slots.getD n none)) s) t := by
  rw [readEntry, hb, hn]
  rfl

theorem withSession_stagedParams {p : Port} {tag : Byte} {payload : List Byte} (hb : byteAt payload 0 = 0x01#8)
    (t : State) :
    readParams p tag payload t
      = withSession p tag (fun e s => respond p .ok tag (0x01#8 :: e.staging.params.bytes) s) t := by
  rw [readParams, hb]
  rfl

theorem readParams_badTable {s : State} {p : Port} {tag : Byte} {payload : List Byte} {rest : List QEntry}
    (h : HeadFrame s p .readParams tag payload rest) (hb : 1 < (payload.getD 0 0#8).toNat) :
    exec .readParams s = .next (answered p .badArg tag [0x01#8] rest s) := by
  refine congrArg Host.Outcome.next (h.run_respond (body := readParams) ?_)
  have hnone : stagingOfByte (byteAt payload 0) = none := stagingOfByte_gt hb
  rw [readParams, hnone]
  rfl

theorem exec_takeNotices {s : State} {p : Port} {tag n : Byte} {rest : List QEntry}
    (h : HeadFrame s p .takeNotices tag [n] rest) (h1 : 1 ≤ n.toNat) (h4 : n.toNat ≤ 4) :
    exec .takeNotices s = .next { answered p .ok tag
      (byteOf (min n.toNat s.notices.length) :: byteOf s.lost :: ((s.notices.take n.toNat).map Notice.bytes).flatten)
      rest s with notices := s.notices.drop n.toNat, lost := 0 } := by
  refine congrArg Host.Outcome.next ((h.run takeNotices).trans ?_)
  have hbody : takeNotices p tag [n] (takeHead (.frame p .takeNotices tag [n]) rest s)
      = respond p .ok tag (noticesPayload (s.notices.take n.toNat) s.lost)
        { takeHead (.frame p .takeNotices tag [n]) rest s with notices := s.notices.drop n.toNat, lost := 0 } :=
    if_pos ⟨h1, h4⟩
  rw [hbody, noticesPayload, List.length_take]
  exact congrArg (fun t : State => { t with notices := s.notices.drop n.toNat, lost := 0 })
    (respond_takeHead h.executing_none p .ok tag _ _ rest)

/-- The commands that need the session, each with the command a frame of it carries. -/
theorem exec_sessionRow : ∀ row ∈ [(Instr.putEntry, Command.putEntry), (.dropEntry, .dropEntry), (.putParam, .putParam),
      (.commit, .commit), (.abandon, .abandon)],
    ∃ (body : Body) (f : Byte → Port → List Byte → Session → State → State),
      (∀ s, exec row.1 s = .next (whenRunning s (runFrame row.2 body)))
        ∧ ∀ p tag payload t, body p tag payload t = withSession p tag (f tag p payload) t := by
  simp only [List.forall_mem_cons]
  refine ⟨?_, ?_, ?_, ?_, ?_, List.forall_mem_nil _⟩
  all_goals exact ⟨_, fun tag p payload => _, fun _ => rfl, fun _ _ _ _ => rfl⟩

/-- The commands on the bank their argument names. -/
theorem exec_bankRow : ∀ row ∈ [(Instr.loadBank, Command.loadBank), (.saveBank, .saveBank), (.protectBank, .protectBank),
      (.unprotectBank true, .unprotectBank), (.unprotectBank false, .unprotectBank)],
    ∃ f : Bank → Body, ∀ s, exec row.1 s = .next (whenRunning s (runFrame row.2 (withBank f))) := by
  simp only [List.forall_mem_cons]
  refine ⟨?_, ?_, ?_, ?_, ?_, List.forall_mem_nil _⟩
  all_goals exact ⟨_, fun _ => rfl⟩

/-- The commands on the segment their argument names. -/
theorem exec_segmentRow : ∀ row ∈ [(Instr.segmentReset, Command.segmentReset), (.segmentDisable, .segmentDisable),
      (.segmentEnable, .segmentEnable)],
    ∃ f : Seg → Body, ∀ s, exec row.1 s = .next (whenRunning s (runFrame row.2 (withSegment f))) := by
  simp only [List.forall_mem_cons]
  refine ⟨?_, ?_, ?_, List.forall_mem_nil _⟩
  all_goals exact ⟨_, fun _ => rfl⟩

/-- The lapse of a session (R128). -/
theorem exec_editLapsed {s : State} {e : Session} (hrun : s.run = .running) (hs : s.session = some e)
    (hl : s.lease.isSome = true) : exec .editLapsed s
      = .next (note .editLapsed (some (.port e.owner)) none none 0#16 (closeSession s)) := by
  obtain ⟨n, hn⟩ := Option.isSome_iff_exists.mp hl
  show Host.Outcome.next (whenRunning s _) = _
  rw [whenRunning_running hrun, hs, hn]
  rfl

namespace Laws

/-- Settles O48: the error entry at the head; and for each command of the table, a privilege below what it needs. -/
theorem errorEntryAndPrivilege : Obligations.ErrorEntryAndPrivilege := by
  refine fun s p tag payload rest hrun he => ⟨fun status hq => ?_, fun pins c k hrow hq hpriv => ?_⟩
  · exact congrArg Host.Outcome.next ((whenRunning_running hrun _).trans (runError_head he hq))
  · obtain ⟨body, hexec⟩ := exec_managementRow (pins := pins) (c, k) hrow
    rw [hexec, whenRunning_running hrun]
    exact congrArg Host.Outcome.next (runFrame_denied he hq (permitted_denied hpriv) body)

/-- Settles O49: each report by what its body answers. -/
theorem reports : Obligations.Reports := by
  refine ⟨fun s p tag payload rest => ⟨fun h => ?_, fun h => ?_, fun n h => ?_, fun h => ?_, fun e hs ho =>
    ⟨fun n h => ?_, fun h => ?_⟩⟩, fun s p tag n rest h => ⟨fun h1 h4 => ?_, fun hn => ?_⟩⟩
  · refine congrArg Host.Outcome.next (h.run_respond (body := fun p tag _ s => respond p .ok tag (identifyPayload s) s) ?_)
    show respond p .ok tag (identifyPayload s) _ = _
    rw [identifyPayload]
    cases s.working.params.mgmt <;> rfl
  · refine congrArg Host.Outcome.next
      (h.run_respond (body := fun p tag _ s => respond p .ok tag (statusPayload s) s) ?_)
    have hcredits := creditsInUse_takeHead (rest := rest) h.executing_none h.2.2.1
    show respond p .ok tag (statusPayload _) _ = _
    rw [statusPayload, portStatus, portStatus, hcredits, hcredits]
    rfl
  · exact readEntry_working h rfl (slotOfByte_fin n)
  · exact congrArg Host.Outcome.next (h.run_respond (body := readParams) rfl)
  · refine congrArg Host.Outcome.next (h.run_respond (body := readEntry) ?_)
    exact (withSession_staged (payload := [0x01#8, byteOf n.val]) rfl (slotOfByte_fin n) _).trans (withSession_owner (s := takeHead _ rest s) hs ho tag _)
  · refine congrArg Host.Outcome.next (h.run_respond (body := readParams) ?_)
    exact (withSession_stagedParams rfl _).trans (withSession_owner (s := takeHead _ rest s) hs ho tag _)
  · exact exec_takeNotices h h1 h4
  · refine congrArg Host.Outcome.next (h.run_respond (body := takeNotices) ?_)
    exact if_neg (by show ¬(1 ≤ n.toNat ∧ n.toNat ≤ 4); omega)

/-- Settles O50: OPEN-EDIT by whether a session stands; the lapse; and the loss of supply. -/
theorem editSession : Obligations.EditSession := by
  refine fun s p tag payload rest => ⟨fun h => ⟨fun hs => exec_openEdit_none h hs, fun e hs => ?_⟩,
    ⟨_, rfl, rfl, rfl⟩, fun e hrun hs hl => ⟨_, exec_editLapsed hrun hs hl, ?_⟩⟩
  · refine congrArg Host.Outcome.next (h.run_respond (body := openEdit) ?_)
    have hopen : (takeHead (.frame p .openEdit tag payload) rest s).session = some e := hs
    rw [openEdit, hopen]
  · have hclosed := onlyNotices_note .editLapsed (some (.port e.owner)) none none 0#16 (closeSession s)
    refine ⟨?_, ?_, recorded_note _ _ _ _ _ (closeSession s), hclosed⟩
    · rw [hclosed]
      rfl
    · rw [hclosed]
      rfl

/-- Settles O51: the checks of each group of commands. -/
theorem commandRefusals : Obligations.CommandRefusals := by
  refine fun s p tag payload rest => ⟨fun c k hrow h => ?_, fun c k hrow h => ?_, fun pins h hidle => ?_,
    fun c k hrow h hb => ?_, fun h hb => readEntry_badTable h hb, fun h hb hn => readEntry_badSlot h hb hn,
    fun h hb => readParams_badTable h hb, fun c k hrow h hb hn => ?_⟩
  · obtain ⟨body, f, hexec, hbody⟩ := exec_sessionRow (c, k) hrow
    obtain ⟨hnone, hother⟩ := h.run_withSession_refused (hbody p tag payload)
    rw [hexec]
    exact ⟨fun hs => congrArg _ (hnone hs), fun e hs ho => congrArg _ (hother e hs ho)⟩
  · obtain ⟨f, hexec⟩ := exec_bankRow (c, k) hrow
    obtain ⟨hbad, hbusy⟩ := h.run_withBank_refused f
    rw [hexec]
    exact ⟨fun hb => congrArg _ (hbad hb), fun hb hp => congrArg _ (hbusy hb hp)⟩
  · exact congrArg Host.Outcome.next (h.run_respond (body := restart pins) (if_neg hidle))
  · obtain ⟨f, hexec⟩ := exec_segmentRow (c, k) hrow
    rw [hexec]
    exact congrArg _ (h.run_withSegment_refused f hb)
  · rw [List.mem_cons, List.mem_singleton, Prod.mk.injEq, Prod.mk.injEq] at hrow
    obtain ⟨rfl, rfl⟩ | ⟨rfl, rfl⟩ := hrow
    · obtain ⟨hnone, hother⟩ := h.run_withSession_refused (withSession_staged hb (slotOfByte_of_le hn))
      exact ⟨fun hs => congrArg _ (hnone hs), fun e hs ho => congrArg _ (hother e hs ho)⟩
    · obtain ⟨hnone, hother⟩ := h.run_withSession_refused (withSession_stagedParams hb)
      exact ⟨fun hs => congrArg _ (hnone hs), fun e hs ho => congrArg _ (hother e hs ho)⟩

end Laws
end Sys2Proof.Machine
end

section
/-!
PROOFS. What the bytes of an entry and of a parameter say, and the commands that put them into the staging image (O53).
-/
namespace Sys2Proof.Machine

/-! ### One field of an entry (R192) -/

theorem portsOfByte_isNone (b : Byte) : (portsOfByte b).isNone = true ↔ b.toNat = 0 ∨ 3 < b.toNat := by
  unfold portsOfByte
  split
  next h => exact ⟨nofun, fun _ => by omega⟩
  next h => exact ⟨fun _ => by omega, fun _ => rfl⟩

theorem addrOfByte_isNone (b : Byte) : (addrOfByte b).isNone = true ↔ b.toNat < 0x08 ∨ 0x77 < b.toNat := by
  unfold addrOfByte
  split
  next h => exact ⟨nofun, fun _ => by omega⟩
  next h => exact ⟨fun _ => by omega, fun _ => rfl⟩

theorem readLenOfByte_isNone (b : Byte) : (readLenOfByte b).isNone = true ↔ 64 < b.toNat := by
  unfold readLenOfByte
  split
  next h => exact ⟨nofun, fun _ => by omega⟩
  split
  next h => exact ⟨nofun, fun _ => by omega⟩
  next h => exact ⟨fun _ => by omega, fun _ => rfl⟩

theorem accessOfByte_isNone (b : Byte) : (accessOfByte b).isNone = true ↔ b.toNat = 0 ∨ 3 < b.toNat := by
  revert b
  decide +kernel

theorem checkOfByte_isNone (b : Byte) : (checkOfByte b).isNone = true ↔ b.getLsbD 1 = true := by
  revert b
  decide +kernel

theorem accessOfByte_inSet (b : Byte) (h : ¬(b.toNat = 0 ∨ 3 < b.toNat)) :
    accessOfByte b = some (if b = 0x01#8 then .read else if b = 0x02#8 then .write else .readWrite) := by
  revert b
  decide +kernel

theorem checkOfByte_inSet (b : Byte) (h : ¬b.getLsbD 1 = true) :
    checkOfByte b = some (if b.getLsbD 0 then .regen else .none) := by
  revert b
  decide +kernel

theorem writeLimitOfByte_eq (b : Byte) : writeLimitOfByte b = if b = 0x00#8 then none else some b.toNat :=
  if_congr (by bv_omega) rfl rfl

theorem readLenOfByte_inSet (b : Byte) (h : ¬64 < b.toNat) :
    readLenOfByte b = some (if b = 0x00#8 then none else some b.toNat) := by
  by_cases hb : b = 0x00#8
  · subst hb
    rfl
  · unfold readLenOfByte
    rw [if_neg hb, if_neg (by bv_omega), if_pos (by omega)]

/-- R129: the first byte that is not in its field's set. -/
theorem entryStep_bytes (ports vaddr segs target access options low high limit len : Byte) :
    entryStep (entryFieldsOf [ports, vaddr, segs, target, access, options, low, high, limit, len])
      = if ports.toNat = 0 ∨ 3 < ports.toNat then some 2
        else if vaddr.toNat < 0x08 ∨ 0x77 < vaddr.toNat then some 3
        else if target.toNat < 0x08 ∨ 0x77 < target.toNat then some 4
        else if access.toNat = 0 ∨ 3 < access.toNat then some 5
        else if 64 < len.toNat then some 7
        else if options.getLsbD 1 then some 8
        else none :=
  if_congr (portsOfByte_isNone _) rfl <| if_congr (addrOfByte_isNone _) rfl <| if_congr (addrOfByte_isNone _) rfl <|
    if_congr (accessOfByte_isNone _) rfl <| if_congr (readLenOfByte_isNone _) rfl <|
    if_congr (checkOfByte_isNone _) rfl rfl

theorem inSet_of_entryStep {f : EntryFields} (h : entryStep f = none) :
    ¬f.ports.isNone = true ∧ ¬f.vaddr.isNone = true ∧ ¬f.target.isNone = true ∧ ¬f.access.isNone = true
      ∧ ¬f.readLen.isNone = true ∧ ¬f.check.isNone = true := by
  unfold entryStep at h
  simpa [ite_eq_iff] using h

theorem portsOfByte_inSet (b : Byte) (h : ¬(b.toNat = 0 ∨ 3 < b.toNat)) :
    portsOfByte b = some ⟨b.getLsbD 0, b.getLsbD 1⟩ := if_pos (by omega)

theorem addrOfByte_inSet (b : Byte) (h : ¬(b.toNat < 0x08 ∨ 0x77 < b.toNat)) : addrOfByte b = some (b.setWidth 7) :=
  if_pos (by omega)

/-- R192: the entry that ten bytes give, each in its field's set. -/
theorem toEntry_bytes {ports vaddr segs target access options low high limit len : Byte}
    (h : entryStep (entryFieldsOf [ports, vaddr, segs, target, access, options, low, high, limit, len]) = none) :
    (entryFieldsOf [ports, vaddr, segs, target, access, options, low, high, limit, len]).toEntry =
      { ports := ⟨ports.getLsbD 0, ports.getLsbD 1⟩
        vaddr := vaddr.setWidth 7
        segs := ⟨segs.getLsbD 0, segs.getLsbD 1, segs.getLsbD 2, segs.getLsbD 3⟩
        target := target.setWidth 7
        access := if access = 0x01#8 then .read else if access = 0x02#8 then .write else .readWrite
        window := if options.getLsbD 7 then some ⟨low, high⟩ else none
        writeLimit := if limit = 0x00#8 then none else some limit.toNat
        readLen := if len = 0x00#8 then none else some len.toNat
        check := if options.getLsbD 0 then .regen else .none } := by
  obtain ⟨hports, hvaddr, htarget, haccess, hlen, hcheck⟩ := inSet_of_entryStep h
  have eports := portsOfByte_inSet ports ((portsOfByte_isNone ports).not.mp hports)
  have evaddr := addrOfByte_inSet vaddr ((addrOfByte_isNone vaddr).not.mp hvaddr)
  have etarget := addrOfByte_inSet target ((addrOfByte_isNone target).not.mp htarget)
  have eaccess := accessOfByte_inSet access ((accessOfByte_isNone access).not.mp haccess)
  have elen := readLenOfByte_inSet len ((readLenOfByte_isNone len).not.mp hlen)
  have echeck := checkOfByte_inSet options ((checkOfByte_isNone options).not.mp hcheck)
  unfold entryFieldsOf EntryFields.toEntry byteAt
  simp only [List.getD_cons_zero, List.getD_cons_succ]
  rw [eports, evaddr, etarget, eaccess, elen, echeck, writeLimitOfByte_eq]
  rfl

/-! ### One parameter (R193) -/

/-- The parameters by their identifiers (13.3). -/
def paramTable : List (Byte × ParamId) :=
  [(0x01#8, ParamId.mgmt), (0x02#8, .priv .u0), (0x03#8, .priv .u1),
    (0x04#8, .alert .u0), (0x05#8, .alert .u1), (0x06#8, .holdLimit), (0x07#8, .stallLimit), (0x08#8, .clockLimit),
    (0x09#8, .retries), (0x0A#8, .lease), (0x10#8, .mode .s0), (0x11#8, .mode .s1), (0x12#8, .mode .s2),
    (0x13#8, .mode .s3), (0x14#8, .speed .s0), (0x15#8, .speed .s1), (0x16#8, .speed .s2), (0x17#8, .speed .s3),
    (0x18#8, .service .s0), (0x19#8, .service .s1), (0x1A#8, .service .s2), (0x1B#8, .service .s3)]

theorem paramIdOf_mem (b : Byte) : ∀ i ∈ paramIdOf b, (b, i) ∈ paramTable := by
  revert b
  decide +kernel

theorem paramIdOf_row : ∀ row ∈ paramTable, paramIdOf row.1 = some row.2 := by decide +kernel

theorem paramIdOf_iff (b : Byte) (i : ParamId) : paramIdOf b = some i ↔ (b, i) ∈ paramTable :=
  ⟨paramIdOf_mem b i, paramIdOf_row (b, i)⟩

theorem boolOfByte_eq (b : Byte) : boolOfByte b = if b.toNat ≤ 1 then some (b == 0x01#8) else none := by
  revert b
  decide +kernel

theorem setParam_high {q : Params} {i : ParamId} {hi lo : Byte} (hm : i ≠ .mgmt) (hs : i ≠ .stallLimit)
    (h : hi ≠ 0x00#8) : setParam q i hi lo = none := by
  cases i with
  | mgmt => exact absurd rfl hm
  | stallLimit => exact absurd rfl hs
  | priv _ => exact if_neg h
  | alert _ => exact if_neg h
  | holdLimit => exact if_neg fun hc => h hc.1
  | clockLimit => exact if_neg fun hc => h hc.1
  | retries => exact if_neg fun hc => h hc.1
  | lease => exact if_neg fun hc => h hc.1
  | mode _ => exact if_neg h
  | speed _ => exact if_neg h
  | service _ => exact if_neg h

theorem inRange_iff {low high n : Nat} : inRange low high n = true ↔ low ≤ n ∧ n ≤ high := by
  unfold inRange
  rw [Bool.and_eq_true, decide_eq_true_iff, decide_eq_true_iff]

theorem setParam_mgmt (q : Params) (hi lo : Byte) : setParam q .mgmt hi lo =
    if hi = 0x00#8 then some { q with mgmt := .strap }
    else if hi = 0x01#8 ∧ 0x08 ≤ lo.toNat ∧ lo.toNat ≤ 0x77 then some { q with mgmt := .fixed (lo.setWidth 7) }
    else none := by
  show (mgmtOfBytes hi lo).map _ = _
  unfold mgmtOfBytes
  split
  · rfl
  split
  next h =>
    unfold addrOfByte
    split
    next hl => rw [if_pos ⟨h, hl⟩]; rfl
    next hl => rw [if_neg fun hc => hl hc.2]; rfl
  next h => rw [if_neg fun hc => h hc.1]; rfl

theorem setParam_priv (q : Params) (p : Port) (lo : Byte) : setParam q (.priv p) 0x00#8 lo =
    if lo = 0x00#8 then some { q with priv := q.priv.set p .none }
    else if lo = 0x01#8 then some { q with priv := q.priv.set p .read }
    else if lo = 0x02#8 then some { q with priv := q.priv.set p .full } else none := by
  show (privOfByte lo).map _ = _
  unfold privOfByte
  split
  · rfl
  split
  · rfl
  split <;> rfl

/-- A one-byte parameter whose value is off or on. -/
theorem map_boolOfByte {α : Type} (f : Bool → α) (b : Byte) :
    (boolOfByte b).map f = if b.toNat ≤ 1 then some (f (b == 0x01#8)) else none := by
  rw [boolOfByte_eq, apply_ite (Option.map f)]
  rfl

/-- A segment's parameters with one of them set by a byte that is off or on. -/
theorem map_boolOfByte_segs {q : Params} {g : Seg} {x : SegParams} (hq : q.segs.get g = x) {b : Byte}
    {f : Bool → SegParams → SegParams} {y : SegParams} (hy : f (b == 0x01#8) x = y) :
    (boolOfByte b).map (fun v => q.updSeg g (f v))
      = if b.toNat ≤ 1 then some { q with segs := q.segs.set g y } else none := by
  rw [map_boolOfByte, ← hy, ← hq]
  rfl

theorem setParam_holdLimit (q : Params) (lo : Byte) : setParam q .holdLimit 0x00#8 lo =
    if 2 ≤ lo.toNat ∧ lo.toNat ≤ 250 then some { q with holdLimit := lo.toNat } else none :=
  if_congr ((and_iff_right rfl).trans inRange_iff) rfl rfl

theorem setParam_clockLimit (q : Params) (lo : Byte) : setParam q .clockLimit 0x00#8 lo =
    if 1 ≤ lo.toNat ∧ lo.toNat ≤ 200 then some { q with clockLimit := lo.toNat } else none :=
  if_congr ((and_iff_right rfl).trans inRange_iff) rfl rfl

theorem setParam_retries (q : Params) (lo : Byte) : setParam q .retries 0x00#8 lo =
    if lo.toNat ≤ 7 then some { q with retries := lo.toNat } else none :=
  if_congr ((and_iff_right rfl).trans (inRange_iff.trans (and_iff_right (Nat.zero_le _)))) rfl rfl

theorem setParam_lease (q : Params) (lo : Byte) : setParam q .lease 0x00#8 lo =
    if 1 ≤ lo.toNat ∧ lo.toNat ≤ 60 then some { q with lease := lo.toNat } else none :=
  if_congr ((and_iff_right rfl).trans inRange_iff) rfl rfl

theorem setParam_stallLimit (q : Params) (hi lo : Byte) : setParam q .stallLimit hi lo =
    if 5 ≤ hi.toNat * 256 + lo.toNat ∧ hi.toNat * 256 + lo.toNat ≤ 1000 then
      some { q with stallLimit := hi.toNat * 256 + lo.toNat } else none :=
  if_congr inRange_iff rfl rfl

/-! ### PUT-ENTRY and PUT-PARAM (R129, R131) -/

section
variable {s : State} {p : Port} {tag : Byte} {payload : List Byte} {rest : List QEntry} {e : Session}

/-- R129: PUT-ENTRY from the owner of the session, on a slot. -/
theorem putEntry_slot (h : HeadFrame s p .putEntry tag payload rest) (hs : s.session = some e) (ho : e.owner = p)
    (hslot : (payload.getD 0 0#8).toNat ≤ 31) :
    (∀ k, entryStep (entryFieldsOf (payload.drop 1)) = some k →
        exec .putEntry s = .next (answered p .badArg tag [byteOf k] rest s))
      ∧ (entryStep (entryFieldsOf (payload.drop 1)) = none →
        exec .putEntry s = .next { answered p .ok tag [] rest s with
          session := some ⟨p, { e.staging with
            slots := e.staging.slots.set (payload.getD 0 0#8).toNat (some (entryFieldsOf (payload.drop 1)).toEntry) }⟩ }) := by
  have hbyte : slotOfByte (byteAt payload 0) = some (payload.getD 0 0#8).toNat := slotOfByte_of_le hslot
  refine ⟨fun k hk => congrArg Host.Outcome.next (h.run_respond (body := putEntry) ?_),
    fun hk => congrArg Host.Outcome.next (h.run_respond_session (body := putEntry) (lease := s.lease) ?_)⟩
  · refine (withSession_owner (s := takeHead _ rest s) hs ho tag _).trans ?_
    rw [hbyte]
    dsimp only
    rw [hk]
    rfl
  · refine (withSession_owner (s := takeHead _ rest s) hs ho tag _).trans ?_
    rw [hbyte]
    dsimp only
    rw [hk, ← ho]
    rfl

theorem putEntry_badSlot (h : HeadFrame s p .putEntry tag payload rest) (hs : s.session = some e) (ho : e.owner = p)
    (hslot : 31 < (payload.getD 0 0#8).toNat) :
    exec .putEntry s = .next (answered p .badArg tag [0x01#8] rest s) := by
  refine congrArg Host.Outcome.next (h.run_respond (body := putEntry) ?_)
  have hbyte : slotOfByte (byteAt payload 0) = none := slotOfByte_of_gt hslot
  refine (withSession_owner (s := takeHead _ rest s) hs ho tag _).trans ?_
  rw [hbyte]
  rfl

theorem putParam_badId (h : HeadFrame s p .putParam tag payload rest) (hs : s.session = some e) (ho : e.owner = p)
    (hid : paramIdOf (payload.getD 0 0#8) = none) :
    exec .putParam s = .next (answered p .badArg tag [0x01#8] rest s) := by
  refine congrArg Host.Outcome.next (h.run_respond (body := putParam) ?_)
  have hbyte : paramIdOf (byteAt payload 0) = none := hid
  refine (withSession_owner (s := takeHead _ rest s) hs ho tag _).trans ?_
  rw [hbyte]
  rfl

/-- R131: PUT-PARAM from the owner of the session, on a parameter. -/
theorem putParam_id (h : HeadFrame s p .putParam tag payload rest) (hs : s.session = some e) (ho : e.owner = p)
    {i : ParamId} (hid : paramIdOf (payload.getD 0 0#8) = some i) :
    (setParam e.staging.params i (payload.getD 1 0#8) (payload.getD 2 0#8) = none →
        exec .putParam s = .next (answered p .badArg tag [0x02#8] rest s))
      ∧ ∀ q, setParam e.staging.params i (payload.getD 1 0#8) (payload.getD 2 0#8) = some q →
        exec .putParam s = .next { answered p .ok tag [] rest s with
          session := some ⟨p, { e.staging with params := q }⟩ } := by
  have hbyte : paramIdOf (byteAt payload 0) = some i := hid
  refine ⟨fun hq => congrArg Host.Outcome.next (h.run_respond (body := putParam) ?_),
    fun q hq => congrArg Host.Outcome.next (h.run_respond_session (body := putParam) (lease := s.lease) ?_)⟩
  · replace hq : setParam e.staging.params i (byteAt payload 1) (byteAt payload 2) = none := hq
    refine (withSession_owner (s := takeHead _ rest s) hs ho tag _).trans ?_
    rw [hbyte]
    dsimp only
    rw [hq]
    rfl
  · replace hq : setParam e.staging.params i (byteAt payload 1) (byteAt payload 2) = some q := hq
    refine (withSession_owner (s := takeHead _ rest s) hs ho tag _).trans ?_
    rw [hbyte]
    dsimp only
    rw [hq, ← ho]
    rfl

end

namespace Laws

/-- Settles O53: the two commands by what their bytes say, and each field and parameter by its byte. -/
theorem stagingEdits : Obligations.StagingEdits := by
  refine ⟨fun s p tag payload rest e hs ho => ⟨fun h => ⟨putEntry_badSlot h hs ho, fun hslot => (putEntry_slot h hs ho hslot).1,
    fun hslot => (putEntry_slot h hs ho hslot).2⟩, fun h => ⟨putParam_badId h hs ho, fun i hid => putParam_id h hs ho hid⟩⟩, ?_⟩
  rintro ports vaddr segs target access options low high limit len hi lo id _ q rfl
  refine ⟨entryStep_bytes .., toEntry_bytes, paramIdOf_iff id, setParam_mgmt .., setParam_stallLimit ..,
    fun i hm hs => setParam_high hm hs, fun p => setParam_priv .., fun p => map_boolOfByte _ lo,
    setParam_holdLimit .., setParam_clockLimit .., setParam_retries .., setParam_lease .., ?_⟩
  intro g mode speed service hq
  refine ⟨map_boolOfByte_segs hq ?_, map_boolOfByte_segs hq ?_, map_boolOfByte_segs hq ?_⟩
  all_goals simp only [beq_iff_eq]

end Laws
end Sys2Proof.Machine
end

section
/-!
PROOFS. The order in which validation examines an image (O55).
-/
namespace Sys2Proof.Machine

/-! ### The checks of one entry (R15) -/

theorem outside_eq_not_inRange (low high n : Nat) :
    (decide (n < low) || decide (high < n)) = !inRange low high n := by
  rw [Bool.eq_iff_iff]
  simp only [inRange, Bool.or_eq_true, Bool.not_eq_true', Bool.and_eq_false_iff, decide_eq_true_iff, decide_eq_false_iff_not,
    Nat.not_le]

theorem addressOutside_eq (a : Option Addr) :
    (a.all fun x => decide (x.toNat < 0x08) || decide (0x77 < x.toNat)) = addressOutside a := by
  cases a with
  | none => rfl
  | some x =>
    exact outside_eq_not_inRange 0x08 0x77 x.toNat

theorem fieldOutside_eq (e : EntryFields) :
    ((e.ports.all fun v => !v.u0 && !v.u1) || e.access.isNone || e.check.isNone
      || (e.writeLimit.any fun n => decide (n < 1) || decide (255 < n))
      || (e.readLen.all fun l => l.any fun n => decide (n < 1) || decide (64 < n))) = fieldOutside e := by
  simp only [outside_eq_not_inRange]
  unfold fieldOutside
  congr 1
  · congr 1
    · congr 1
      congr 1
      cases e.ports with
      | none => rfl
      | some v => exact (Bool.not_or ..).symm
    · cases e.writeLimit <;> rfl
  · rcases e.readLen with _ | _ | n <;> rfl

theorem segmentSetBad_iff (e : EntryFields) : segmentSetBad e = true ↔ Seg.list.countP (e.segs.get ·) = 0
    ∨ (1 < Seg.list.countP (e.segs.get ·) ∧ e.access ≠ some .write) := by
  unfold segmentSetBad PerSeg.members
  rw [Bool.or_eq_true, Bool.and_eq_true, List.isEmpty_iff_length_eq_zero, ← List.countP_eq_length_filter,
    decide_eq_true_iff, bne_iff_ne]

theorem windowBad_eq (e : EntryFields) : (e.window.any fun w => decide (w.high < w.low)) = windowBad e := by
  unfold windowBad
  cases e.window <;> rfl

theorem readLenMissing_iff {e : EntryFields} (h : e.access.isNone = false) : readLenMissing e = true ↔
    e.check = some .regen ∧ e.access ≠ some .write ∧ e.readLen = some none := by
  unfold readLenMissing
  rw [Bool.and_eq_true, Bool.and_eq_true, Bool.or_eq_true, beq_iff_eq, beq_iff_eq, beq_iff_eq, beq_iff_eq, and_assoc]
  refine and_congr_right fun _ => and_congr_left fun _ => ?_
  cases ha : e.access with
  | none => exact absurd (ha ▸ h) nofun
  | some x => cases x <;> decide

theorem collides_eq {e f : EntryFields} (h : e.vaddr.isSome = true) : ((f.vaddr == e.vaddr) && (Port.list.any fun p =>
      (f.ports.any fun v => v.get p) && (e.ports.any fun v => v.get p))) = collides e f := by
  unfold collides
  rw [h, Bool.and_true, Bool.and_comm, Bool.beq_comm]
  congr 1
  rcases e.ports with _ | a
  · rcases f.ports with _ | b <;> simp
  · rcases f.ports with _ | b
    · simp
    · simp [Port.list, portsIntersect, PerPort.get, Bool.and_comm]

/-- R15: the checks of an entry, as the rule writes them. -/
theorem entryFailure_eq (strap : BitVec 2) (params : ParamFields) (lower : List EntryFields) (e : EntryFields) :
    entryFailure strap params lower e = checkEntry (imageMgmt strap params) lower e := by
  unfold entryFailure checkEntry
  simp only [addressOutside_eq, windowBad_eq]
  rw [fieldOutside_eq]
  split
  · rfl
  next houtside =>
  split
  · rfl
  next hfield =>
  have hv : addressOutside e.vaddr = false := by
    rw [Bool.or_eq_true, not_or] at houtside
    exact Bool.eq_false_of_not_eq_true houtside.1
  have hsome : e.vaddr.isSome = true := by
    cases h : e.vaddr with
    | none => exact absurd (h ▸ hv) nofun
    | some _ => rfl
  have haccess : e.access.isNone = false := by
    refine Bool.eq_false_of_not_eq_true fun h => hfield ?_
    unfold fieldOutside
    rw [h, Bool.or_true, Bool.true_or, Bool.true_or, Bool.true_or]
  simp only [collides_eq hsome]
  refine if_congr (segmentSetBad_iff e).symm rfl (if_congr Iff.rfl rfl (if_congr (readLenMissing_iff haccess).symm rfl
    (if_congr Iff.rfl rfl ?_)))
  unfold imageMgmt
  cases params.mgmt with
  | none => rfl
  | some m =>
    cases m with
    | strap => exact if_congr beq_iff_eq.symm rfl rfl
    | fixed a =>
      by_cases ha : routable a = true
      · have hin : mgmtInSet (some (.fixed a)) = true := ha
        rw [if_pos hin]
        exact if_congr beq_iff_eq.symm rfl rfl
      · have hin : ¬mgmtInSet (some (.fixed a)) = true := ha
        have hne : e.vaddr ≠ some a := fun he => ha (routable_of_inside (he ▸ hv))
        rw [if_neg hin]
        exact if_neg hne

/-! ### The parameter block (R16) -/

theorem mgmtInSet_fixed (a : Addr) :
    mgmtInSet (some (.fixed a)) = false ↔ a.toNat < 0x08 ∨ 0x77 < a.toNat := by
  have h : (!mgmtInSet (some (.fixed a))) = _ := (outside_eq_not_inRange 0x08 0x77 a.toNat).symm
  rw [← Bool.not_eq_true', h, Bool.or_eq_true, decide_eq_true_iff, decide_eq_true_iff]

/-- R16: a parameter outside its set. -/
theorem paramsInSet_eq_false (f : ParamFields) : (!paramsInSet f) = true ↔ mgmtInSet f.mgmt = false
    ∨ f.priv.u0.isNone = true ∨ f.priv.u1.isNone = true ∨ f.alert.u0.isNone = true ∨ f.alert.u1.isNone = true
    ∨ f.holdLimit < 2 ∨ 250 < f.holdLimit ∨ f.stallLimit < 5 ∨ 1000 < f.stallLimit ∨ f.clockLimit < 1
    ∨ 200 < f.clockLimit ∨ 7 < f.retries ∨ f.lease < 1 ∨ 60 < f.lease := by
  simp [paramsInSet, inRange, or_assoc]

theorem paramsFailure_eq (f : ParamFields) : paramsFailure f = (checkParams f).map (·.1) := by
  unfold paramsFailure checkParams
  rw [apply_ite (Option.map _), apply_ite (Option.map _)]
  refine if_congr ?_ rfl rfl
  rw [paramsInSet_eq_false]
  rcases f.mgmt with _ | _ | a
  · simp [mgmtInSet]
  · simp [mgmtInSet, or_assoc]
  · simp [mgmtInSet_fixed, or_assoc]

/-! ### The first failure -/

/-- What validation finds of a slot: the failure of the entry in it, if there is one. -/
def slotFailure (mgmt : Option Addr) (lower : List EntryFields) (slots : List (Option EntryFields)) (n : Nat) :
    Option Reason :=
  slots[n]?.join.bind fun f => checkEntry mgmt (lower ++ lowerEntries slots n) f

theorem slotFailure_nil (mgmt : Option Addr) (lower : List EntryFields) (n : Nat) :
    slotFailure mgmt lower [] n = none := rfl

theorem slotFailure_cons_none (mgmt : Option Addr) (lower : List EntryFields) (slots : List (Option EntryFields))
    (n : Nat) : slotFailure mgmt lower (none :: slots) (n + 1) = slotFailure mgmt lower slots n := rfl

theorem slotFailure_cons_zero (mgmt : Option Addr) (lower : List EntryFields) (f : EntryFields)
    (slots : List (Option EntryFields)) : slotFailure mgmt lower (some f :: slots) 0 = checkEntry mgmt lower f :=
  congrArg (checkEntry mgmt · f) (List.append_nil lower)

theorem slotFailure_cons_some (mgmt : Option Addr) (lower : List EntryFields) (f : EntryFields)
    (slots : List (Option EntryFields)) (n : Nat) :
    slotFailure mgmt lower (some f :: slots) (n + 1) = slotFailure mgmt (lower ++ [f]) slots n := by
  unfold slotFailure
  rw [lowerEntries_cons_some, List.append_cons]
  rfl

/-- R14: the slots report the failure of the first entry that has one. -/
theorem checkSlots_eq_some_iff {mgmt : Option Addr} {why : Reason} {k : Nat} :
    ∀ (slots : List (Option EntryFields)) (n : Nat) (lower : List EntryFields),
      checkSlots mgmt n lower slots = some (why, some k) ↔
        ∃ i, k = n + i ∧ slotFailure mgmt lower slots i = some why ∧ ∀ m < i, slotFailure mgmt lower slots m = none
  | [], _, _ => ⟨nofun, fun ⟨_, _, h, _⟩ => absurd h nofun⟩
  | none :: slots, n, lower => by
    rw [checkSlots, checkSlots_eq_some_iff slots (n + 1) lower]
    constructor
    · rintro ⟨i, hk, hi, hlow⟩
      refine ⟨i + 1, by omega, hi, fun m hm => ?_⟩
      cases m with
      | zero => rfl
      | succ m => exact hlow m (by omega)
    · rintro ⟨i, hk, hi, hlow⟩
      cases i with
      | zero => exact absurd hi nofun
      | succ i => exact ⟨i, by omega, hi, fun m hm => hlow (m + 1) (by omega)⟩
  | some g :: slots, n, lower => by
    have ih := checkSlots_eq_some_iff (why := why) (k := k) (mgmt := mgmt) slots (n + 1) (lower ++ [g])
    have hzero := slotFailure_cons_zero mgmt lower g slots
    have hsucc := slotFailure_cons_some mgmt lower g slots
    unfold checkSlots
    cases hg : checkEntry mgmt lower g with
    | some r =>
      rw [hg] at hzero
      constructor
      · rintro ⟨⟩
        exact ⟨0, rfl, hzero, fun m hm => absurd hm m.not_lt_zero⟩
      · rintro ⟨i, rfl, hi, hlow⟩
        cases i with
        | zero =>
          obtain rfl := Option.some.inj (hzero.symm.trans hi)
          rfl
        | succ i => exact absurd (hzero.symm.trans (hlow 0 i.succ_pos)) nofun
    | none =>
      rw [hg] at hzero
      refine ih.trans ⟨?_, ?_⟩
      · rintro ⟨i, hk, hi, hlow⟩
        refine ⟨i + 1, by omega, (hsucc i).trans hi, fun m hm => ?_⟩
        cases m with
        | zero => exact hzero
        | succ m => exact (hsucc m).trans (hlow m (by omega))
      · rintro ⟨i, hk, hi, hlow⟩
        cases i with
        | zero => exact absurd (hzero.symm.trans hi) nofun
        | succ i =>
          exact ⟨i, by omega, (hsucc i).symm.trans hi, fun m hm => (hsucc m).symm.trans (hlow (m + 1) (by omega))⟩

theorem checkSlots_eq_none_iff_slotFailure {mgmt : Option Addr} {slots : List (Option EntryFields)} :
    checkSlots mgmt 0 [] slots = none ↔ ∀ n, slotFailure mgmt [] slots n = none := by
  rw [checkSlots_eq_none_iff]
  refine forall_congr' fun n => ?_
  unfold slotFailure
  rcases slots[n]? with _ | _ | f
  · exact ⟨fun _ => rfl, fun _ _ h => nomatch h⟩
  · exact ⟨fun _ => rfl, fun _ _ h => nomatch h⟩
  · exact ⟨fun h => h f rfl, fun h f' hf => by cases hf; exact h⟩

/-- R16: a failure without a slot is one of the parameter block. -/
theorem checkParams_slot {f : ParamFields} {why : Reason} {slot : Option Nat} (h : checkParams f = some (why, slot)) :
    slot = none := by
  unfold checkParams at h
  split_ifs at h <;> cases h <;> rfl

/-- R14: the slots come before the parameter block. -/
theorem validate_eq_some_slot_iff {strap : BitVec 2} {f : ImageFields} {why : Reason} {n : Nat} :
    validate strap f = some (why, some n) ↔ checkSlots (imageMgmt strap f.params) 0 [] f.slots = some (why, some n) := by
  refine ⟨checkSlots_of_validate, fun h => ?_⟩
  unfold validate
  rw [h]

theorem validate_eq_some_none_iff {strap : BitVec 2} {f : ImageFields} {why : Reason} :
    validate strap f = some (why, none) ↔
      checkSlots (imageMgmt strap f.params) 0 [] f.slots = none ∧ checkParams f.params = some (why, none) := by
  unfold validate
  cases h : checkSlots (imageMgmt strap f.params) 0 [] f.slots with
  | none => exact (and_iff_right rfl).symm
  | some r =>
    obtain ⟨why', slot⟩ := r
    obtain ⟨i, _, rfl, _, _⟩ := exists_of_checkSlots_eq_some _ _ _ h
    exact ⟨nofun, nofun⟩

namespace Laws

/-- Settles O55: the slots by the first entry that fails, and then the parameter block. -/
theorem validationOrder : Obligations.ValidationOrder := by
  intro strap f fails hfails
  have hslot : ∀ n, fails n = slotFailure (imageMgmt strap f.params) [] f.slots n := fun n => by
    rw [hfails, slotFailure, List.nil_append]
    rcases f.slots[n]? with _ | _ | e
    · rfl
    · rfl
    · exact entryFailure_eq strap f.params (lowerEntries f.slots n) e
  simp only [hslot]
  refine ⟨fun why n => ?_, fun why => ?_, ?_⟩
  · rw [validate_eq_some_slot_iff, checkSlots_eq_some_iff]
    simp only [Nat.zero_add, exists_eq_left']
  · rw [validate_eq_some_none_iff, checkSlots_eq_none_iff_slotFailure, paramsFailure_eq, Option.map_eq_some_iff]
    refine and_congr_right fun _ => ⟨fun h => ⟨_, h, rfl⟩, ?_⟩
    rintro ⟨⟨why', slot⟩, h, rfl⟩
    rw [h, checkParams_slot h]
  · rw [validate_eq_none_iff, checkSlots_eq_none_iff_slotFailure, paramsFailure_eq, Option.map_eq_none_iff]

end Laws
end Sys2Proof.Machine
end

section
/-!
PROOFS. The operations of the Store Controller from their begin to their completion, and the state after reset (O58, O59, O2).
-/
namespace Sys2Proof.Machine

/-! ### The begin of an operation (R143, R144, R149, R150) -/

section
variable {s : State} {p : Port} {tag : Byte} {payload : List Byte} {rest : List QEntry} {c : Command}

/-- A body that changes the store alone. -/
theorem HeadFrame.run_store (h : HeadFrame s p c tag payload rest) {body : Body} {f : Store → Store}
    (hb : body p tag payload (takeHead (.frame p c tag payload) rest s)
      = (takeHead (.frame p c tag payload) rest s).updStore f) :
    whenRunning s (runFrame c body) = { s with cmdQueue := rest, store := f s.store } := by
  rw [h.run body, hb]
  show ({ s with cmdQueue := rest, store := f s.store, executing := none } : State) = _
  rw [← h.executing_none]

/-- A command on a bank, on a store that is IDLE. -/
theorem withBank_bank {f : Bank → Body} {b : Bank} {t : State} (hb : payload.getD 0 0#8 = bankCode b)
    (hp : t.store.phase = .idle) : withBank f p tag payload t = f b p tag payload t := by
  have hbyte : bankOfByte (byteAt payload 0) = some b := by
    rw [show byteAt payload 0 = bankCode b from hb]
    cases b <;> rfl
  rw [withBank, hbyte]
  exact if_pos hp

end

/-- R144: the store after the begin of a SAVE of the working image. -/
def Store.saving (t : Store) (i : Image) (b : Bank) (p : Port) (tag : Byte) : Store :=
  { t with
    buffer := some i
    newGeneration := some (highGeneration t + 1)
    originMark := true
    op := some ⟨.save, b, p, tag⟩
    phase := .erasing
    banks := t.banks.set b { t.banks.get b with header := Header.erased }
    records := t.records.set b { t.records.get b with valid := false, generation := none } }

theorem startSave_eq (b : Bank) (p : Port) (tag : Byte) (s : State) :
    startSave b p tag s = s.updStore fun t => t.saving s.working b p tag := rfl

/-! ### Completions (R145, R146, R149, R150) -/

section
variable {s : State} {o : StoreOp} (hrun : s.run = .running) (hop : s.store.op = some o)
include hrun hop

theorem exec_erasingComplete (hp : s.store.phase = .erasing) : exec .erasingComplete s = .next (erasingDone o s) := by
  show Host.Outcome.next (whenRunning s _) = _
  rw [whenRunning_running hrun, hp, hop]

theorem exec_cellWriteComplete (hp : s.store.phase = .cellWrite) :
    exec .cellWriteComplete s = .next (cellDone o s) := by
  show Host.Outcome.next (whenRunning s _) = _
  rw [whenRunning_running hrun, hp, hop]

variable {i : Image} (hbuf : s.store.buffer = some i)
include hbuf

theorem exec_writingComplete (hp : s.store.phase = .writing) :
    exec .writingComplete s = .next (writingDone o i s) := by
  show Host.Outcome.next (whenRunning s _) = _
  rw [whenRunning_running hrun, hp, hop, hbuf]

theorem exec_verifyingComplete (hp : s.store.phase = .verifying) (readBack : List Byte) :
    exec (.verifyingComplete readBack) s = .next (if readBack = i.bytes
      then s.updStore fun t => { t with phase := .header } else verifyFailed o readBack s) := by
  show Host.Outcome.next (whenRunning s _) = _
  rw [whenRunning_running hrun, hp, hop, hbuf]

theorem exec_headerComplete {n : Nat} (hgen : s.store.newGeneration = some n) (hp : s.store.phase = .header) :
    exec .headerComplete s = .next (headerDone o i n s) := by
  show Host.Outcome.next (whenRunning s _) = _
  rw [whenRunning_running hrun, hp, hop, hbuf, hgen]

end

/-- R146: read-back bytes of an image's length are the image. -/
theorem fitImage_of_length {bs : List Byte} (h : bs.length = 336) : fitImage bs = bs := by
  unfold fitImage
  rw [h]
  exact List.take_left' h

theorem cellTarget_eq (k : StoreKind) : cellTarget k = decide (k = .protect) := by cases k <;> rfl

theorem toNat_generation {n : Nat} (hn : n ≤ 0xFFFFFFFE) : (BitVec.ofNat 32 n).toNat = n := by
  rw [BitVec.toNat_ofNat]
  omega

theorem good_newHeader {i : Image} {n : Nat} (h1 : 1 ≤ n) (hn : n ≤ 0xFFFFFFFE) :
    (newHeader i n).good i.bytes = true := by
  have hgen := (generation_in_range_iff (BitVec.ofNat 32 n)).mp (by rw [toNat_generation hn]; exact ⟨h1, hn⟩)
  rw [Header.good_iff, newHeader_generation, newHeader_check]
  exact ⟨rfl, hgen.1, hgen.2, rfl⟩

/-- R146: the bank that a completed SAVE leaves. -/
theorem bankValid_saved {strap : BitVec 2} {b : BankCells} {i : Image} {n : Nat} (h1 : 1 ≤ n) (hn : n ≤ 0xFFFFFFFE)
    (hh : b.header = newHeader i n) (hi : b.image = i.bytes) (hs : i.slots.length = 32)
    (hv : validate strap i.fields = none) : bankValid strap b = true := by
  unfold bankValid
  rw [hh, hi, good_newHeader h1 hn, imageFieldsOf_bytes hs hv, hv]
  rfl

/-! ### The state after reset -/

/-- Nothing waits where every record is at its reset values and no segment is owned or waited for. -/
theorem waitLaw_cleared {s : State} (hp : ∀ p, s.port p = PortState.reset)
    (hg : ∀ g, (s.seg g).owner = none ∧ (s.seg g).waiters = []) : WaitLaw s := by
  have howns (p : Port) (g : Seg) : owns s p g = false := by
    unfold owns
    rw [(hg g).1]
    rfl
  have hactive (p : Port) (g : Seg) : legActive s p g = false := by
    unfold legActive
    rw [hp]
    rfl
  refine ⟨fun g _ => (hg g).2, fun p g hw => ?_, fun p hph => ?_, fun p => ⟨fun hph => ?_, fun hph => ?_⟩,
    fun p g => ⟨fun ha => ?_, fun _ ho => ?_⟩⟩
  · rw [(hg g).2] at hw
    exact absurd hw nofun
  · rw [hp] at hph
    exact absurd hph nofun
  · rw [hp] at hph
    exact absurd hph (by decide)
  · rw [hp] at hph
    exact absurd hph nofun
  · rw [hactive] at ha
    exact absurd ha nofun
  · rw [howns] at ho
    exact absurd ho nofun

theorem port_reset (p : Port) : State.reset.port p = PortState.reset := PerPort.get_all ..

theorem seg_reset (g : Seg) : State.reset.seg g = SegState.reset ⟨true, true⟩ := PerSeg.get_all ..

theorem cleared_reset (g : Seg) : ∃ q g' l, State.reset.seg g = resetSegment q g' l ∨ State.reset.seg g = SegState.reset l :=
  ⟨Params.default, g, _, .inr (seg_reset g)⟩

namespace Laws

/-- Settles O2: each value as the reset gives it, and each law as one of a part whose blocks are at their reset values. -/
theorem resetState : Obligations.ResetState := by
  have hcredits : CreditLaw State.reset := creditLaw_cleared port_reset rfl rfl rfl rfl
  refine ⟨⟨rfl, rfl, fun p => ⟨port_reset p, ?_⟩, seg_reset, rfl, rfl, rfl, rfl, rfl, rfl, rfl, rfl, rfl, rfl, rfl, rfl, rfl,
    rfl⟩, validate_empty 0#2, ?_, hcredits, sustained_arbiterLaw.cleared port_reset cleared_reset,
    waitLaw_cleared port_reset fun g => ?_, sustained_snapshotLaw.cleared port_reset cleared_reset,
    sustained_timersLaw.cleared port_reset cleared_reset, storeLaw_idle rfl rfl fun _ b => ?_,
    tableLaw_bare rfl rfl rfl fun b => ?_⟩
  · cases p <;> rfl
  · exact ⟨by decide, by decide, by decide, by decide, by decide⟩
  · rw [seg_reset]
    exact ⟨rfl, rfl⟩
  · cases b <;> rfl
  · cases b <;> exact List.length_replicate

/-- Settles O58: each command by its checks, and the store it leaves. -/
theorem storeOperationsBegin : Obligations.StoreOperationsBegin := by
  rintro s p tag arg rest b high hidle harg rfl
  replace harg : arg = bankCode b := by cases b <;> exact harg
  subst harg
  have hbank {f : Bank → Body} {c : Command} : withBank f p tag [bankCode b] (takeHead (.frame p c tag [bankCode b]) rest s)
      = f b p tag [bankCode b] (takeHead (.frame p c tag [bankCode b]) rest s) := withBank_bank rfl hidle
  have hfree {x y : State} (h : (s.store.records.get b).protected_ = false) :
      (if (s.store.records.get b).protected_ = true then x else y) = y := if_neg (by rw [h]; nofun)
  refine ⟨fun h => ⟨fun hprot => ?_, fun hprot hhigh => ?_, fun hprot hhigh => ?_⟩, fun h => ⟨fun hv => ?_, fun hv => ?_⟩,
    fun svc h => ?_⟩
  · exact congrArg Host.Outcome.next (h.run_respond (hbank.trans (if_pos hprot)))
  · exact congrArg Host.Outcome.next (h.run_respond (hbank.trans ((hfree hprot).trans (if_neg (Nat.not_lt.mpr hhigh)))))
  · refine ⟨_, congrArg Host.Outcome.next
      (h.run_store (hbank.trans ((hfree hprot).trans ((if_pos hhigh).trans (startSave_eq ..))))), ?_⟩
    refine ⟨rfl, rfl, rfl, rfl, rfl, rfl, ?_, ?_, ?_, ?_, fun b' hb => ⟨?_, ?_⟩⟩
    · exact congrArg BankRecord.valid (PerBank.get_set_self ..)
    · exact (congrArg BankRecord.protected_ (PerBank.get_set_self ..)).trans hprot
    · exact congrArg BankCells.header (PerBank.get_set_self ..)
    · exact (congrArg BankCells.image (PerBank.get_set_self ..)).trans rfl
    · exact (PerBank.get_set ..).trans (if_neg hb)
    · exact (PerBank.get_set ..).trans (if_neg hb)
  · exact congrArg Host.Outcome.next (h.run_store
      (f := fun t => { t with op := some ⟨.protect, b, p, tag⟩, phase := .cellWrite }) (hbank.trans (if_pos hv)))
  · exact congrArg Host.Outcome.next (h.run_respond (hbank.trans (if_neg (by rw [Bool.not_eq_true]; exact hv))))
  · cases svc with
    | true =>
      exact congrArg Host.Outcome.next (h.run_store
        (f := fun t => { t with op := some ⟨.unprotect, b, p, tag⟩, phase := .cellWrite }) hbank)
    | false => exact congrArg Host.Outcome.next (h.run_respond hbank)

/-- Settles O59: each completion by its effect on the store, and the bank a completed SAVE leaves by its header and its image. -/
theorem storeCompletions : Obligations.StoreCompletions := by
  refine ⟨fun s o i n readBack hrun hop hbuf hgen => ⟨fun hp => ⟨_, exec_erasingComplete hrun hop hp, rfl, rfl, rfl⟩,
    fun hp => exec_writingComplete hrun hop hbuf hp, fun hp hr => ?_, fun hp hr hlen => ?_, fun hp => ?_⟩,
    fun s o hrun hop hp => ?_, fun s o i n hrun hop hbuf hgen hp h1 hn himage hlen hv => ?_⟩
  · rw [exec_verifyingComplete hrun hop hbuf hp, if_pos hr]
    rfl
  · refine ⟨_, (exec_verifyingComplete hrun hop hbuf hp readBack).trans (congrArg _ (if_neg hr)), rfl, rfl, rfl, rfl, rfl, rfl, rfl, rfl, ?_, rfl⟩
    show s.store.banks.set o.bank { s.store.banks.get o.bank with image := fitImage readBack, header := Header.erased } = _
    rw [fitImage_of_length hlen]
  · exact ⟨_, exec_headerComplete hrun hop hbuf hgen hp, rfl, rfl, rfl, rfl, rfl, rfl, rfl, rfl, rfl⟩
  · refine ⟨_, exec_cellWriteComplete hrun hop hp, rfl, rfl, ?_, ?_, rfl⟩
    · rw [← cellTarget_eq]
      rfl
    · rw [← cellTarget_eq]
      rfl
  · have hbank : ((headerDone o i n s).store.banks.get o.bank) = { s.store.banks.get o.bank with header := newHeader i n } :=
      PerBank.get_set_self ..
    refine ⟨_, exec_headerComplete hrun hop hbuf hgen hp, ?_⟩
    beta_reduce
    rw [hbank]
    refine ⟨bankValid_saved h1 hn rfl himage hlen hv, ?_, ?_, toNat_generation hn⟩
    · exact (congrArg List.length himage).trans (length_bytes hlen)
    · show (imageFieldsOf (s.store.banks.get o.bank).image).toImage = i
      rw [himage, imageFieldsOf_bytes hlen hv, toImage_fields]

end Laws
end Sys2Proof.Machine
end

section
/-!
PROOFS. The commands that act on segments: the replacement of the working image and the three commands on one segment (O56, O57, O60).
-/
namespace Sys2Proof.Machine

/-! ### What a change of the segments leaves settled (R31, R98) -/

/-- R93: on a part with nothing due, a segment that has a waiter neither refuses nor grants. -/
theorem Settled.served {s : State} (h : Settled s) {g : Seg} (hw : (s.seg g).waiters ≠ []) :
    (s.seg g).refuses = false ∧ (s.seg g).free = false := by
  constructor
  · exact Bool.eq_false_of_not_eq_true fun ht => hw (served_of_micro h g (.inr ht))
  · exact Bool.eq_false_of_not_eq_true fun ht => hw (served_of_micro h g (.inl ht))

/-- R31, R39, R98: a change of the segments that gives no port a segment, nor a claim, sets off nothing while every waiter stays. -/
theorem Settled.keep {s t : State} (h : Settled s) (hports : t.ports = s.ports)
    (howns : ∀ p g, owns t p g = owns s p g) (hwaits : ∀ p, waits t p = waits s p)
    (hseg : ∀ g, (t.seg g).waiters ≠ [] → (t.seg g).refuses = false ∧ (t.seg g).free = false) : Settled t := by
  obtain ⟨-, -, ha, hc, hd⟩ := settled_iff.mp h
  have hport (p : Port) : t.port p = s.port p := congrArg (PerPort.get · p) hports
  have howned (p : Port) : ownedSegs t p = ownedSegs s p := by
    unfold ownedSegs
    rw [show owns t p = owns s p from funext (howns p)]
  have hclaiming (p : Port) : claimingSegs t p = claimingSegs s p := by
    unfold claimingSegs
    rw [hport]
  have hactive (p : Port) : activeSegs t p = activeSegs s p := by
    unfold activeSegs legActive
    rw [hport]
  refine settled_iff.mpr ⟨fun g => ?_, fun g => ?_, fun p => ?_, fun p => ?_, fun p => ?_⟩
  · unfold nextRefusal
    cases hw : (t.seg g).waiters with
    | nil => rfl
    | cons c cs =>
      dsimp only
      rw [(hseg g (by rw [hw]; nofun)).1]
      rfl
  · unfold nextGrant
    cases hw : (t.seg g).waiters with
    | nil => rfl
    | cons c cs =>
      dsimp only
      rw [(hseg g (by rw [hw]; nofun)).2]
      rfl
  · have hs := ha p
    unfold nextAnswer at hs ⊢
    rw [hport, howned]
    exact hs
  · have hs := hc p
    unfold nextClaim at hs ⊢
    rw [hport, howned, hclaiming, hactive, hwaits, show owns t p = owns s p from funext (howns p)]
    exact hs
  · have hs := hd p
    unfold acquired at hs ⊢
    rw [hport, hclaiming]
    exact hs

theorem StallLaw.of_owns {s t : State} (h : StallLaw s) (hports : t.ports = s.ports)
    (howns : ∀ p g, owns t p g = owns s p g) : StallLaw t := by
  intro p
  have hport : t.port p = s.port p := congrArg (PerPort.get · p) hports
  have howned : owns t p = owns s p := funext (howns p)
  have hs := h p
  unfold stallRuns ownedSegs at hs ⊢
  rw [hport, howned]
  exact hs

/-- R59: where the stall timers already run as they should, `retime` sets the quiet timers alone. -/
theorem retime_of_stallLaw {s : State} (h : StallLaw s) : retime s = { s with segs := (retime s).segs } := by
  have hq : StallLaw (retimeQuiets s) := h.of_owns rfl fun p g => by rw [owns, owner_retimeQuiets, owns]
  have hr : retime s = retimeQuiets s := by
    rw [retime_eq, retimeStall_of_law (hq .u1), retimeStall_of_law (hq .u0)]
  rw [hr]
  rfl

/-- R59: a change of the segments that leaves each with its owner, on a part with nothing due, ends in the quiet timers alone. -/
theorem finish_of_segs {s t : State} (h : Settled s) (hl : StallLaw s) (hports : t.ports = s.ports)
    (howns : ∀ p g, owns t p g = owns s p g) (hwaits : ∀ p, waits t p = waits s p)
    (hseg : ∀ g, (t.seg g).waiters ≠ [] → (t.seg g).refuses = false ∧ (t.seg g).free = false) :
    finish t = { t with segs := (finish t).segs }
      ∧ ∀ g, (finish t).seg g = { t.seg g with quiet := quietAfter t.working.params.clockLimit (t.seg g) } := by
  rw [finish_of_settled (h.keep hports howns hwaits hseg)]
  exact ⟨retime_of_stallLaw (hl.of_owns hports howns), seg_retime t⟩

theorem waits_congr {s t : State} (h : ∀ g, (t.seg g).waiters = (s.seg g).waiters) (p : Port) : waits t p = waits s p := by
  unfold waits
  simp only [h]

/-! ### The replacement of the working image (R17, R99, R100, R108) -/

section
variable (q : SegParams) {c : SegState}

theorem replaceSegment_busy (h : c.cond = .owned ∨ c.cond = .recovering) :
    replaceSegment q c = { c with pendingDisable := decide (q.service = .outOfService) } := by
  unfold replaceSegment applyService
  have hfree : ¬(c.cond = .idle ∨ c.cond = .foreign) := by rintro (e | e) <;> simp [e] at h
  have hin : c.cond ≠ .disabled := by rintro e; simp [e] at h
  cases hs : q.service with
  | outOfService =>
    dsimp only
    rw [takeOut, if_neg hfree, if_pos h]
    exact if_neg hfree
  | inService =>
    dsimp only
    rw [putIn, if_neg hin]
    exact if_neg hfree

theorem replaceSegment_faulted (h : c.cond = .faulted) : replaceSegment q c
    = { c with pendingDisable := c.pendingDisable && decide (q.service = .outOfService) } := by
  unfold replaceSegment applyService
  have hfree : ¬(c.cond = .idle ∨ c.cond = .foreign) := by rw [h]; nofun
  have hbusy : ¬(c.cond = .owned ∨ c.cond = .recovering) := by rw [h]; nofun
  have hin : c.cond ≠ .disabled := by rw [h]; nofun
  cases hs : q.service with
  | outOfService =>
    dsimp only
    rw [takeOut, if_neg hfree, if_neg hbusy]
    refine (if_neg hfree).trans ?_
    rw [decide_eq_true rfl, Bool.and_true]
  | inService =>
    dsimp only
    rw [putIn, if_neg hin]
    refine (if_neg hfree).trans ?_
    rw [decide_eq_false nofun, Bool.and_false]

theorem replaceSegment_out_free (h : c.cond = .idle ∨ c.cond = .foreign) (hs : q.service = .outOfService) :
    replaceSegment q c = { c with cond := .disabled, foreignBusy := false, newWatch := false } := by
  unfold replaceSegment applyService
  rw [hs]
  dsimp only
  rw [takeOut, if_pos h]
  exact if_neg nofun

theorem replaceSegment_out_disabled (h : c.cond = .disabled) (hs : q.service = .outOfService) :
    replaceSegment q c = c := by
  unfold replaceSegment applyService
  have hfree : ¬(c.cond = .idle ∨ c.cond = .foreign) := by rw [h]; nofun
  have hbusy : ¬(c.cond = .owned ∨ c.cond = .recovering) := by rw [h]; nofun
  rw [hs]
  dsimp only
  rw [takeOut, if_neg hfree, if_neg hbusy]
  exact if_neg hfree

/-- R100, R108: a segment that another event may claim, and that stays in service, takes the mode. -/
theorem replaceSegment_in_free (h : c.cond = .idle ∨ c.cond = .foreign) (hs : q.service = .inService) :
    replaceSegment q c = applyMode q { c with pendingDisable := false } := by
  unfold replaceSegment applyService
  have hin : c.cond ≠ .disabled := by rintro e; simp [e] at h
  rw [hs]
  dsimp only
  rw [putIn, if_neg hin]

theorem replaceSegment_in_disabled (h : c.cond = .disabled) (hs : q.service = .inService) :
    replaceSegment q c = applyMode q { c with
      cond := .idle, pendingDisable := false, foreignBusy := false, newWatch := q.mode == .shared, mode := q.mode,
      speed := q.speed } := by
  unfold replaceSegment applyService
  rw [hs]
  dsimp only
  rw [putIn, if_pos h]

theorem applyMode_shared (h : c.cond = .idle ∨ c.cond = .foreign) (hm : q.mode = .shared) :
    applyMode q c = { c with mode := .shared } := by
  unfold applyMode
  rw [if_pos h, hm]

theorem applyMode_exclusive (h : c.cond = .idle ∨ c.cond = .foreign) (hm : q.mode = .exclusive) :
    applyMode q c = { c with mode := .exclusive, cond := .idle, foreignBusy := false, newWatch := false } := by
  unfold applyMode
  rw [if_pos h, hm]

variable (c) in
theorem replaceSegment_keeps : (replaceSegment q c).owner = c.owner ∧ (replaceSegment q c).activity = c.activity
    ∧ (replaceSegment q c).faults = c.faults ∧ (replaceSegment q c).attempts = c.attempts
    ∧ (replaceSegment q c).waiters = c.waiters ∧ (replaceSegment q c).clock = c.clock
    ∧ (replaceSegment q c).lines = c.lines := by
  have hmode (d : SegState) : (applyMode q d).owner = d.owner ∧ (applyMode q d).activity = d.activity
      ∧ (applyMode q d).faults = d.faults ∧ (applyMode q d).attempts = d.attempts
      ∧ (applyMode q d).waiters = d.waiters ∧ (applyMode q d).clock = d.clock ∧ (applyMode q d).lines = d.lines := by
    unfold applyMode
    split
    · split <;> exact ⟨rfl, rfl, rfl, rfl, rfl, rfl, rfl⟩
    · exact ⟨rfl, rfl, rfl, rfl, rfl, rfl, rfl⟩
  obtain ⟨h1, h2, h3, h4, h5, h6, h7⟩ := hmode (applyService q c)
  unfold replaceSegment
  rw [h1, h2, h3, h4, h5, h6, h7]
  unfold applyService
  split
  · unfold takeOut
    split
    · exact ⟨rfl, rfl, rfl, rfl, rfl, rfl, rfl⟩
    · split <;> exact ⟨rfl, rfl, rfl, rfl, rfl, rfl, rfl⟩
  · unfold putIn
    split <;> exact ⟨rfl, rfl, rfl, rfl, rfl, rfl, rfl⟩

end

/-- R17: what `ServiceApplied` asks of one segment. -/
theorem serviceApplied_of {s t : State} {i : Image}
    (h : ∀ g, ∃ n, t.seg g = { replaceSegment (i.params.segs.get g) (s.seg g) with quiet := n }) :
    ServiceApplied s t i := by
  intro g
  obtain ⟨n, hn⟩ := h g
  obtain ⟨howner, hact, hfaults, hattempts, hwaiters, hclock, hlines⟩ := replaceSegment_keeps (i.params.segs.get g) (s.seg g)
  rw [hn]
  refine ⟨howner, hact, hfaults, hattempts, hwaiters, hclock, hlines, ?_⟩
  generalize i.params.segs.get g = q
  generalize s.seg g = c
  dsimp only
  cases hc : c.cond with
  | faulted =>
    rw [replaceSegment_faulted q hc]
    cases hs : q.service <;> simp [hc]
  | owned =>
    rw [replaceSegment_busy q (.inl hc)]
    cases hs : q.service <;> simp [hc]
  | recovering =>
    rw [replaceSegment_busy q (.inr hc)]
    cases hs : q.service <;> simp [hc]
  | idle =>
    cases hs : q.service with
    | outOfService =>
      rw [replaceSegment_out_free q (.inl hc) hs]
      simp
    | inService =>
      rw [replaceSegment_in_free q (.inl hc) hs]
      cases hm : q.mode with
      | shared => rw [applyMode_shared q (c := { c with pendingDisable := false }) (.inl hc) hm]; simp [hc]
      | exclusive => rw [applyMode_exclusive q (c := { c with pendingDisable := false }) (.inl hc) hm]; simp
  | foreign =>
    cases hs : q.service with
    | outOfService =>
      rw [replaceSegment_out_free q (.inr hc) hs]
      simp
    | inService =>
      rw [replaceSegment_in_free q (.inr hc) hs]
      cases hm : q.mode with
      | shared => rw [applyMode_shared q (c := { c with pendingDisable := false }) (.inr hc) hm]; simp [hc]
      | exclusive => rw [applyMode_exclusive q (c := { c with pendingDisable := false }) (.inr hc) hm]; simp
  | disabled =>
    cases hs : q.service with
    | outOfService =>
      rw [replaceSegment_out_disabled q hc hs]
      simp [hc]
    | inService =>
      rw [replaceSegment_in_disabled q hc hs]
      cases hm : q.mode with
      | shared => rw [applyMode_shared q (.inl rfl) hm]; simp
      | exclusive => rw [applyMode_exclusive q (.inl rfl) hm]; simp

/-- R104: a segment that keeps its waiters at a replacement neither refuses them nor grants. -/
theorem replaceSegment_served {q : SegParams} {c : SegState} (hs : q.service = .inService) (hr : c.refuses = false)
    (hf : c.free = false) : (replaceSegment q c).refuses = false ∧ (replaceSegment q c).free = false := by
  have howner := (replaceSegment_keeps q c).1
  obtain ⟨⟨hfaulted, hdisabled⟩, hpending⟩ : (c.cond ≠ .faulted ∧ c.cond ≠ .disabled) ∧ c.pendingDisable = false := by
    simpa [SegState.refuses] using hr
  by_cases hc : c.cond = .owned ∨ c.cond = .recovering
  · rw [replaceSegment_busy q hc, hs]
    refine ⟨?_, hf⟩
    unfold SegState.refuses
    obtain hc | hc := hc <;> simp [hc]
  · have hfree : c.cond = .idle ∨ c.cond = .foreign := by
      cases h : c.cond <;> simp_all
    have hnone : c.owner.isNone = false := by
      unfold SegState.free at hf
      obtain h | h := hfree <;> simpa [h] using hf
    constructor
    · rw [replaceSegment_in_free q hfree hs]
      cases hm : q.mode with
      | shared =>
        rw [applyMode_shared q (c := { c with pendingDisable := false }) hfree hm]
        simp [SegState.refuses, hfaulted, hdisabled]
      | exclusive =>
        rw [applyMode_exclusive q (c := { c with pendingDisable := false }) hfree hm]
        rfl
    · unfold SegState.free
      rw [howner, hnone]
      rfl

/-- R17, R104: the replacement of the working image where no segment that goes out of service has a waiter. -/
theorem finish_replaceImage {s : State} (hset : Settled s) (hl : StallLaw s) (i : Image) (o : Origin)
    (hout : ∀ g, (i.params.segs.get g).service = .outOfService → (s.seg g).waiters = []) :
    finish (replaceImage i o s) = { s with working := i, origin := o, segs := (finish (replaceImage i o s)).segs }
      ∧ ServiceApplied s (finish (replaceImage i o s)) i := by
  have hkeeps (g : Seg) := replaceSegment_keeps (i.params.segs.get g) (s.seg g)
  have hfinish := finish_of_segs (t := replaceImage i o s) hset hl rfl
    (fun p g => by rw [owns, replaceImage_seg, (hkeeps g).1, owns])
    (waits_congr fun g => by rw [replaceImage_seg, (hkeeps g).2.2.2.2.1]) fun g hw => by
      rw [replaceImage_seg] at hw ⊢
      rw [(hkeeps g).2.2.2.2.1] at hw
      obtain ⟨hr, hf⟩ := hset.served hw
      refine replaceSegment_served ?_ hr hf
      cases hs : (i.params.segs.get g).service with
      | inService => rfl
      | outOfService => exact absurd (hout g hs) hw
  exact ⟨hfinish.1, serviceApplied_of fun g => ⟨_, by rw [hfinish.2, replaceImage_seg]⟩⟩

theorem Settled.congr {s t : State} (h : Settled s) (hports : t.ports = s.ports) (hsegs : t.segs = s.segs) : Settled t := by
  have hseg (g : Seg) : t.seg g = s.seg g := congrArg (PerSeg.get · g) hsegs
  refine h.keep hports (fun p g => by rw [owns, hseg, owns]) (waits_congr fun g => by rw [hseg]) fun g hw => ?_
  rw [hseg] at hw ⊢
  exact h.served hw

/-! ### One segment changed (R99, R100, R178) -/

theorem State.updSeg_updSeg (s : State) (g : Seg) (f k : SegState → SegState) :
    (s.updSeg g f).updSeg g k = s.updSeg g fun c => k (f c) := by
  unfold State.updSeg
  simp only [PerSeg.get_set_self, PerSeg.set_set]

section
variable {s : State} {g : Seg} {k : SegState → SegState} (hl : TimersLaw s)
  (howner : ∀ p, ((k (s.seg g)).owner == some (.port p)) = ((s.seg g).owner == some (.port p)))
include hl howner

omit hl in
theorem owns_updSeg (p : Port) (h : Seg) : owns (s.updSeg g k) p h = owns s p h := by
  unfold owns
  rw [State.seg_updSeg]
  split
  next he => rw [howner, he]
  next => rfl

/-- R59, R114: a change of one segment that gives no record a segment, nor takes one, sets that segment's quiet timer alone. -/
theorem retime_updSeg : retime (s.updSeg g k) = { s with segs := (retime (s.updSeg g k)).segs }
    ∧ (retime (s.updSeg g k)).seg g
      = { k (s.seg g) with quiet := quietAfter s.working.params.clockLimit (k (s.seg g)) }
    ∧ ∀ h, h ≠ g → (retime (s.updSeg g k)).seg h = s.seg h := by
  refine ⟨retime_of_stallLaw (StallLaw.of_owns hl.1 rfl (owns_updSeg howner)), ?_, fun h hne => ?_⟩
  · rw [seg_retime, State.seg_updSeg_self]
    rfl
  · rw [seg_retime, State.seg_updSeg, if_neg hne]
    show { s.seg h with quiet := quietAfter s.working.params.clockLimit (s.seg h) } = s.seg h
    rw [quietAfter_of_law (hl.2 h)]

omit hl in
/-- R31, R98: nor does it set off anything else, where every waiter of a record stays and the segment serves none of them. -/
theorem finish_updSeg (hset : Settled s)
    (hwaits : ∀ p, (k (s.seg g)).waiters.contains (.port p) = (s.seg g).waiters.contains (.port p))
    (hserved : (k (s.seg g)).waiters ≠ [] → (k (s.seg g)).refuses = false ∧ (k (s.seg g)).free = false) :
    finish (s.updSeg g k) = retime (s.updSeg g k) := by
  refine finish_of_settled (hset.keep rfl (owns_updSeg howner) (fun p => ?_) fun h hw => ?_)
  · unfold waits
    congr 1
    funext h
    rw [State.seg_updSeg]
    split
    next he => rw [hwaits, he]
    next => rfl
  · rw [State.seg_updSeg] at hw ⊢
    split at hw
    next he => rw [if_pos he]; exact hserved hw
    next hne => rw [if_neg hne]; exact hset.served hw

end

/-! ### COMMIT and LOAD-BANK (R132, R148) -/

section
variable {s : State} {p : Port} {tag : Byte} {rest : List QEntry}

/-- R148: LOAD-BANK with no session open, by what the bank reads as. -/
theorem loadBank_read {t : State} (hs : t.session = none) (b : Bank) (p : Port) (tag : Byte) (payload : List Byte)
    {r : BankReading} (hr : readBank t.strap (t.store.banks.get b) = r) :
    (∀ n i, r = .good n i → loadBank b p tag payload t = respond p .ok tag (bankBytes b n)
        (finish (replaceImage i (.bank b n) (setRecord b ⟨true, some n, (t.store.records.get b).protected_⟩ t))))
      ∧ (∀ n why slot, r = .rejected n why slot → loadBank b p tag payload t
        = respond p .bankInvalid tag [bankCode b, reasonCode why, slotCode slot]
          (setRecord b ⟨false, some n, (t.store.records.get b).protected_⟩ t))
      ∧ (r = .badHeader → loadBank b p tag payload t = respond p .bankInvalid tag [bankCode b, reasonCode .badHeader, 0xFF#8]
          (setRecord b ⟨false, none, (t.store.records.get b).protected_⟩ t)) := by
  unfold loadBank
  rw [hs, hr]
  refine ⟨?_, ?_, ?_⟩
  · rintro n i rfl
    rfl
  · rintro n why slot rfl
    rfl
  · rintro rfl
    rfl

/-- The part with a LOAD-BANK taken from its queue and the bank's record set. -/
def loading (e : QEntry) (rest : List QEntry) (b : Bank) (r : BankRecord) (s : State) : State :=
  setRecord b r (takeHead e rest s)

/-- The part with a COMMIT taken from its queue, as the replacement finds it. -/
def committing (e : QEntry) (rest : List QEntry) (s : State) : State :=
  closeSession ((takeHead e rest s).updStore fun t => { t with originMark := false })

theorem commitImage_eq (i : Image) (e : QEntry) (rest : List QEntry) (s : State) :
    commitImage i (takeHead e rest s) = finish (replaceImage i .edited (committing e rest s)) := rfl

/-- R132: a COMMIT whose staging image passes. -/
theorem exec_commit_valid {payload : List Byte} {e : Session} (h : HeadFrame s p .commit tag payload rest)
    (hs : s.session = some e) (ho : e.owner = p) (hv : validate s.strap e.staging.fields = none) :
    exec .commit s = .next (freeExecutor (respond p .ok tag []
      (finish (replaceImage e.staging .edited (committing (.frame p .commit tag payload) rest s))))) := by
  have howner := withSession_owner (s := takeHead (.frame p .commit tag payload) rest s) hs ho tag
  have hnone : validate (takeHead (.frame p .commit tag payload) rest s).strap e.staging.fields = none := hv
  refine congrArg Host.Outcome.next ((h.run Machine.commit).trans (congrArg freeExecutor ((howner _).trans ?_)))
  rw [hnone]
  exact congrArg (respond p .ok tag []) (commitImage_eq ..)

/-- R148: a LOAD-BANK of a bank that reads as good. -/
theorem exec_loadBank_valid {b : Bank} (h : HeadFrame s p .loadBank tag [bankCode b] rest) (hs : s.session = none)
    (hidle : s.store.phase = .idle) (hv : bankValid s.strap (s.store.banks.get b) = true) :
    exec .loadBank s = .next (freeExecutor (respond p .ok tag (bankBytes b (s.store.banks.get b).header.generation.toNat)
      (finish (replaceImage (imageFieldsOf (s.store.banks.get b).image).toImage
        (.bank b (s.store.banks.get b).header.generation.toNat)
        (loading (.frame p .loadBank tag [bankCode b]) rest b ⟨true,
          some (s.store.banks.get b).header.generation.toNat, (s.store.records.get b).protected_⟩ s))))) := by
  have hread := loadBank_read (t := takeHead (.frame p .loadBank tag [bankCode b]) rest s) hs b p tag [bankCode b]
    (readBank_of_valid hv)
  have hbank : withBank Machine.loadBank p tag [bankCode b] (takeHead (.frame p .loadBank tag [bankCode b]) rest s)
      = Machine.loadBank b p tag [bankCode b] (takeHead (.frame p .loadBank tag [bankCode b]) rest s) :=
    withBank_bank rfl hidle
  exact congrArg Host.Outcome.next ((h.run (withBank Machine.loadBank)).trans
    (congrArg freeExecutor (hbank.trans (hread.1 _ _ rfl))))

end

/-! ### SEGMENT-RESET, SEGMENT-DISABLE and SEGMENT-ENABLE (R178, R181, R182) -/

theorem withSegment_seg (f : Seg → Body) (p : Port) (tag : Byte) (g : Seg) (t : State) :
    withSegment f p tag [byteOf (segNumber g)] t = f g p tag [byteOf (segNumber g)] t := by
  have hbyte : segOfByte (byteAt [byteOf (segNumber g)] 0) = some g := by cases g <;> rfl
  rw [withSegment, hbyte]

theorem mgmtHas_iff {c : SegState} : mgmtHas c = true ↔ c.owner = some .mgmt ∨ .mgmt ∈ c.waiters := by
  unfold mgmtHas
  rw [Bool.or_eq_true, beq_iff_eq, List.contains_iff_mem]

/-- R97, R118: a segment as its recovery begins. -/
def SegState.recoveringFrom (q : Params) (g : Seg) (owner : Option Claimant) (c : SegState) : SegState :=
  { c with
    owner := owner, activity := none, legSlot := none, foreignBusy := false, newWatch := false, clock := none,
    quiet := none, attempts := 0, mode := (q.segs.get g).mode, cond := .recovering, speed := (q.segs.get g).speed,
    attemptLimit := some q.clockLimit }

theorem beginRecovery_eq (g : Seg) (owner : Option Claimant) (s : State) :
    beginRecovery g owner s = s.updSeg g (SegState.recoveringFrom s.working.params g owner) := by
  unfold beginRecovery startAttempt
  rw [State.updSeg_updSeg]
  rfl

/-- R93: a claim of MGMT on a segment that is free, by what it then has MGMT do. -/
theorem claim_mgmt_free {s : State} {g : Seg} (hr : (s.seg g).refuses = false) (hf : (s.seg g).free = true) :
    claim g .mgmt s = grantMgmt g (unwait .mgmt g s) := by
  unfold claim
  rw [hr, if_neg nofun, if_pos hf]
  rfl

/-- A claimant that stands in no wait list leaves none. -/
theorem unwait_of_empty {s : State} {g : Seg} (hw : (s.seg g).waiters = []) (c : Claimant) : unwait c g s = s := by
  refine State.updSeg_self ?_
  rw [hw, List.filter_nil, ← hw]

theorem claim_waiting {s : State} {g : Seg} (c : Claimant) (hr : (s.seg g).refuses = false) (hf : (s.seg g).free = false) :
    claim g c s = joinWaiters g c s := by
  unfold claim
  rw [hr, hf, if_neg nofun, if_neg nofun]

/-- R179: a FOREIGN segment as it is granted to MGMT in SHARED mode. -/
def SegState.mgmtWaiting (q : Params) (g : Seg) (c : SegState) : SegState :=
  { c with
    owner := some .mgmt, cond := .owned, activity := none, foreignBusy := true, mode := (q.segs.get g).mode,
    speed := (q.segs.get g).speed }

/-- The part with a SEGMENT-RESET taken from its queue and handed off. -/
def handedOff (e : QEntry) (rest : List QEntry) (g : Seg) (p : Port) (tag : Byte) (s : State) : State :=
  { takeHead e rest s with segResets := s.segResets ++ [⟨g, p, tag⟩] }

section
variable {s : State} {p : Port} {tag : Byte} {rest : List QEntry} {g : Seg} (hset : Settled s) (hl : TimersLaw s)
  (h : HeadFrame s p .segmentReset tag [byteOf (segNumber g)] rest)

section
include h

/-- R178 check 2 and 3 passed: the command is handed off. -/
theorem exec_segmentReset (hm : mgmtHas (s.seg g) = false) (hd : (s.seg g).cond ≠ .disabled)
    (hp : (s.seg g).pendingDisable = false) {t : State}
    (ht : (if (s.seg g).cond = .faulted
        then beginRecovery g (some .mgmt) (handedOff (.frame p .segmentReset tag [byteOf (segNumber g)]) rest g p tag s)
        else claim g .mgmt (handedOff (.frame p .segmentReset tag [byteOf (segNumber g)]) rest g p tag s)) = t) :
    exec .segmentReset s = .next (freeExecutor (finish t)) := by
  refine congrArg Host.Outcome.next ((h.run (withSegment segmentReset)).trans (congrArg freeExecutor ?_))
  refine (withSegment_seg ..).trans ((if_neg ?_).trans ((if_neg ?_).trans ?_))
  · show ¬mgmtHas (s.seg g) = true
    rw [hm]
    nofun
  · show ¬((s.seg g).cond = .disabled ∨ (s.seg g).pendingDisable = true)
    rw [hp]
    rintro (e | e)
    · exact hd e
    · exact absurd e nofun
  · rw [← ht]
    rfl

end

/-- R178, R118: on a free or a FAULTED segment MGMT's sequence begins. -/
theorem segmentReset_begins (ho : (s.seg g).owner = none) (hp : (s.seg g).pendingDisable = false)
    (hc : (s.seg g).cond = .idle ∨ (s.seg g).cond = .faulted) (hw : (s.seg g).waiters = []) {e : QEntry} :
    (if (s.seg g).cond = .faulted then beginRecovery g (some .mgmt) (handedOff e rest g p tag s)
        else claim g .mgmt (handedOff e rest g p tag s))
      = (handedOff e rest g p tag s).updSeg g (SegState.recoveringFrom s.working.params g (some .mgmt)) := by
  obtain hc | hc := hc
  · rw [if_neg (by rw [hc]; nofun)]
    have hr : ((handedOff e rest g p tag s).seg g).refuses = false := by
      show (s.seg g).refuses = false
      rw [SegState.refuses, hc, hp]
      rfl
    have hf : ((handedOff e rest g p tag s).seg g).free = true := by
      show (s.seg g).free = true
      rw [SegState.free, hc, ho]
      rfl
    rw [claim_mgmt_free hr hf, unwait_of_empty (s := handedOff e rest g p tag s) hw]
    unfold grantMgmt
    rw [show ((handedOff e rest g p tag s).seg g).cond = .idle from hc]
    exact beginRecovery_eq ..
  · rw [if_pos hc]
    exact beginRecovery_eq ..

/-- R179: on a FOREIGN segment in SHARED mode MGMT waits for the other controller. -/
theorem segmentReset_waits_foreign (ho : (s.seg g).owner = none) (hp : (s.seg g).pendingDisable = false)
    (hc : (s.seg g).cond = .foreign) (hm : (s.working.params.segs.get g).mode = .shared) (hw : (s.seg g).waiters = [])
    {e : QEntry} :
    (if (s.seg g).cond = .faulted then beginRecovery g (some .mgmt) (handedOff e rest g p tag s)
        else claim g .mgmt (handedOff e rest g p tag s))
      = (handedOff e rest g p tag s).updSeg g (SegState.mgmtWaiting s.working.params g) := by
  rw [if_neg (by rw [hc]; nofun)]
  have hr : ((handedOff e rest g p tag s).seg g).refuses = false := by
    show (s.seg g).refuses = false
    rw [SegState.refuses, hc, hp]
    rfl
  have hf : ((handedOff e rest g p tag s).seg g).free = true := by
    show (s.seg g).free = true
    rw [SegState.free, hc, ho]
    rfl
  rw [claim_mgmt_free hr hf, unwait_of_empty (s := handedOff e rest g p tag s) hw]
  refine if_pos ?_
  rw [show ((handedOff e rest g p tag s).seg g).cond = .foreign from hc,
    show ((handedOff e rest g p tag s).working.params.segs.get g).mode = .shared from hm]
  rfl

include hset hl

/-- R59, R178: what a hand-off that changes its segment alone leaves. -/
theorem finish_handedOff (e : QEntry) (he : s.executing = none) {k : SegState → SegState}
    (howner : ∀ p, ((k (s.seg g)).owner == some (.port p)) = ((s.seg g).owner == some (.port p)))
    (hwaits : ∀ p, (k (s.seg g)).waiters.contains (.port p) = (s.seg g).waiters.contains (.port p))
    (hserved : (k (s.seg g)).waiters ≠ [] → (k (s.seg g)).refuses = false ∧ (k (s.seg g)).free = false) :
    ∃ t, freeExecutor (finish ((handedOff e rest g p tag s).updSeg g k)) = t
      ∧ t.seg g = { k (s.seg g) with quiet := quietAfter s.working.params.clockLimit (k (s.seg g)) }
      ∧ (∀ h, h ≠ g → t.seg h = s.seg h)
      ∧ t = { s with cmdQueue := rest, segs := t.segs, segResets := s.segResets ++ [⟨g, p, tag⟩] } := by
  have hlH : TimersLaw (handedOff e rest g p tag s) := timersLaw_congr hl rfl rfl
  have hsetH : Settled (handedOff e rest g p tag s) := hset.congr rfl rfl
  obtain ⟨heq, hself, hother⟩ := retime_updSeg hlH howner
  rw [finish_updSeg (s := handedOff e rest g p tag s) howner hsetH hwaits hserved]
  generalize retime _ = u at heq hself hother ⊢
  refine ⟨_, rfl, hself, hother, ?_⟩
  rw [heq]
  exact congrArg (fun x => ({ s with
    cmdQueue := rest, segs := u.segs, segResets := s.segResets ++ [⟨g, p, tag⟩], executing := x } : State)) he.symm

end

theorem segReport_retime (s : State) (g : Seg) : segReport (retime s) g = segReport s g := by
  unfold segReport
  rw [seg_retime]

/-- R59, R181, R182: what a command leaves that changes its segment alone and reports it. -/
theorem respond_segReport {s : State} {p : Port} {tag : Byte} {rest : List QEntry} {g : Seg} (hl : TimersLaw s) (e : QEntry)
    (he : s.executing = none) {k : SegState → SegState}
    (howner : ∀ p, ((k (s.seg g)).owner == some (.port p)) = ((s.seg g).owner == some (.port p))) :
    ∃ t, freeExecutor (respond p .ok tag (segReport ((takeHead e rest s).updSeg g k) g)
        (retime ((takeHead e rest s).updSeg g k))) = t
      ∧ t.seg g = { k (s.seg g) with quiet := quietAfter s.working.params.clockLimit (k (s.seg g)) }
      ∧ (∀ h, h ≠ g → t.seg h = s.seg h)
      ∧ t = { answered p .ok tag [byteOf (segNumber g), condCode (t.seg g).cond, boolByte (t.seg g).pendingDisable] rest s with
        segs := t.segs } := by
  have hlT : TimersLaw (takeHead e rest s) := timersLaw_congr hl rfl rfl
  obtain ⟨heq, hself, hother⟩ := retime_updSeg hlT howner
  have hreport : segReport ((takeHead e rest s).updSeg g k) g
      = [byteOf (segNumber g), condCode (k (s.seg g)).cond, boolByte (k (s.seg g)).pendingDisable] := by
    unfold segReport
    rw [State.seg_updSeg_self]
    rfl
  rw [hreport]
  generalize retime _ = u at heq hself hother ⊢
  refine ⟨_, rfl, hself, hother, ?_⟩
  have hseg : u.seg g = { k (s.seg g) with quiet := quietAfter s.working.params.clockLimit (k (s.seg g)) } := hself
  show freeExecutor (respond p .ok tag _ u) = { answered p .ok tag [byteOf (segNumber g), condCode (u.seg g).cond,
    boolByte (u.seg g).pendingDisable] rest s with segs := u.segs }
  rw [hseg, heq]
  exact congrArg (fun t : State => { t with segs := u.segs }) (respond_takeHead he p .ok tag _ e rest)

theorem takeOut_free {c : SegState} (h : c.cond = .idle ∨ c.cond = .foreign) :
    takeOut c = { c with cond := .disabled, foreignBusy := false, newWatch := false } := if_pos h

theorem takeOut_busy {c : SegState} (h : c.cond = .owned ∨ c.cond = .recovering) :
    takeOut c = { c with pendingDisable := true } :=
  (if_neg (by rintro (e | e) <;> simp [e] at h)).trans (if_pos h)

theorem takeOut_disabled {c : SegState} (h : c.cond = .disabled) : takeOut c = c :=
  (if_neg (by rw [h]; nofun)).trans (if_neg (by rw [h]; nofun))

theorem takeOut_keeps (c : SegState) : (takeOut c).owner = c.owner ∧ (takeOut c).waiters = c.waiters := by
  unfold takeOut
  split
  · exact ⟨rfl, rfl⟩
  · split <;> exact ⟨rfl, rfl⟩

/-- R181: SEGMENT-DISABLE of a segment that is not FAULTED. -/
theorem exec_segmentDisable {s : State} {p : Port} {tag : Byte} {rest : List QEntry} {g : Seg}
    (h : HeadFrame s p .segmentDisable tag [byteOf (segNumber g)] rest) (hc : (s.seg g).cond ≠ .faulted) :
    exec .segmentDisable s = .next (freeExecutor (respond p .ok tag
      (segReport ((takeHead (.frame p .segmentDisable tag [byteOf (segNumber g)]) rest s).updSeg g takeOut) g)
      (finish ((takeHead (.frame p .segmentDisable tag [byteOf (segNumber g)]) rest s).updSeg g takeOut)))) :=
  congrArg Host.Outcome.next ((h.run (withSegment segmentDisable)).trans
    (congrArg freeExecutor ((withSegment_seg ..).trans (if_neg hc))))

theorem putIn_disabled {q : SegParams} {c : SegState} (h : c.cond = .disabled) : putIn q c = { c with
    cond := .idle, pendingDisable := false, foreignBusy := false, newWatch := q.mode == .shared, mode := q.mode,
    speed := q.speed } := if_pos h

theorem putIn_other {q : SegParams} {c : SegState} (h : c.cond ≠ .disabled) :
    putIn q c = { c with pendingDisable := false } := if_neg h

theorem quietRuns_disabled {c : SegState} (h : c.cond = .disabled) : c.quietRuns = false := by
  simp [SegState.quietRuns, SegState.watched, SegState.waiting, h]

theorem quietAfter_of_not_runs {c : SegState} {n : Nat} (h : c.quietRuns = false) : quietAfter n c = none := by
  unfold quietAfter
  rw [h]
  rfl

/-- R121: the watch of a segment that is enabled. -/
theorem quietAfter_putIn {q : SegParams} {c : SegState} (h : c.cond = .disabled) (hq : c.quiet = none) (n : Nat) :
    quietAfter n (putIn q c) = if q.mode = .shared ∧ c.lines.bothHigh = false then some n else none := by
  rw [putIn_disabled h]
  have hruns : ({ c with
      cond := .idle, pendingDisable := false, foreignBusy := false, newWatch := q.mode == .shared, mode := q.mode,
      speed := q.speed } : SegState).quietRuns = (q.mode == .shared && !c.lines.bothHigh) := by
    have hidle : (SegCondition.idle == SegCondition.foreign) = false := rfl
    simp [SegState.quietRuns, SegState.watched, hidle]
  unfold quietAfter
  rw [hruns]
  dsimp only
  rw [hq]
  refine if_congr ?_ rfl rfl
  rw [Bool.and_eq_true, beq_iff_eq, Bool.not_eq_true']

namespace Laws

/-- Settles O56: a staging image that passes replaces the working image; one that fails is answered with its failure. -/
theorem commit : Obligations.Commit := by
  intro s p tag payload rest e h hs ho hset hl
  refine ⟨fun hv hout => ?_, fun why slot hv => ?_⟩
  · have hbase : Settled (committing (.frame p .commit tag payload) rest s) := hset.congr rfl rfl
    have hstall : StallLaw (committing (.frame p .commit tag payload) rest s) := (timersLaw_congr hl rfl rfl).1
    obtain ⟨heq, happlied⟩ := finish_replaceImage hbase hstall e.staging .edited hout
    refine ⟨_, exec_commit_valid h hs ho hv, ?_⟩
    generalize finish (replaceImage e.staging .edited (committing (.frame p .commit tag payload) rest s)) = u at heq happlied
    rw [heq]
    exact ⟨rfl, rfl, rfl, rfl, rfl, rfl, ⟨rfl, rfl, rfl⟩, rfl, happlied⟩
  · have howner := withSession_owner (s := takeHead (.frame p .commit tag payload) rest s) hs ho tag
    refine congrArg Host.Outcome.next (h.run_respond (body := Machine.commit) ((howner _).trans ?_))
    have hsome : validate (takeHead (.frame p .commit tag payload) rest s).strap e.staging.fields = some (why, slot) := hv
    rw [hsome]
    rfl

/-- Settles O57: a bank that reads as good replaces the working image; of any other the record is set. -/
theorem loadBank : Obligations.LoadBank := by
  intro s p tag arg rest b h harg hidle hset hl
  replace harg : arg = bankCode b := by cases b <;> exact harg
  subst harg
  have hbank : withBank Machine.loadBank p tag [bankCode b] (takeHead (.frame p .loadBank tag [bankCode b]) rest s)
      = Machine.loadBank b p tag [bankCode b] (takeHead (.frame p .loadBank tag [bankCode b]) rest s) :=
    withBank_bank rfl hidle
  refine ⟨fun hsession => ?_, fun hsession hv hout => ?_, fun hsession hv => ?_⟩
  · exact congrArg Host.Outcome.next (h.run_respond (hbank.trans (if_pos hsession)))
  · obtain ⟨heq, happlied⟩ := finish_replaceImage
      (s := loading (.frame p .loadBank tag [bankCode b]) rest b ⟨true,
        some (s.store.banks.get b).header.generation.toNat, (s.store.records.get b).protected_⟩ s)
      (hset.congr rfl rfl) (timersLaw_congr hl rfl rfl).1 (imageFieldsOf (s.store.banks.get b).image).toImage
      (.bank b (s.store.banks.get b).header.generation.toNat) hout
    refine ⟨_, exec_loadBank_valid h hsession hidle hv, ?_⟩
    generalize finish _ = u at heq happlied ⊢
    rw [heq]
    exact ⟨rfl, rfl, rfl, rfl, hidle, rfl, rfl, ⟨rfl, rfl, rfl⟩, hsession, happlied⟩
  · obtain ⟨-, hrejected, hbad⟩ := loadBank_read (t := takeHead (.frame p .loadBank tag [bankCode b]) rest s) hsession b p tag
      [bankCode b] rfl
    have hrun := h.run (withBank Machine.loadBank)
    rw [hbank] at hrun
    cases hgood : (s.store.banks.get b).header.good (s.store.banks.get b).image with
    | false =>
      have hread : readBank s.strap (s.store.banks.get b) = .badHeader := by
        unfold readBank
        rw [hgood]
        rfl
      rw [hbad hread] at hrun
      exact ⟨_, congrArg Host.Outcome.next hrun, rfl, rfl, rfl, rfl, ⟨rfl, rfl, rfl⟩, rfl, rfl, rfl⟩
    | true =>
      cases hval : validate s.strap (imageFieldsOf (s.store.banks.get b).image) with
      | none =>
        rw [bankValid, hgood, hval] at hv
        exact absurd hv nofun
      | some failure =>
        obtain ⟨why, slot⟩ := failure
        have hread : readBank s.strap (s.store.banks.get b)
            = .rejected (s.store.banks.get b).header.generation.toNat why slot := by
          unfold readBank
          rw [if_pos hgood, hval]
        rw [hrejected _ _ _ hread] at hrun
        exact ⟨_, congrArg Host.Outcome.next hrun, rfl, rfl, rfl, rfl, ⟨rfl, rfl, rfl⟩, rfl, rfl, rfl⟩

/-- Settles O60: each command by the state in which it finds its segment. -/
theorem segmentCommands : Obligations.SegmentCommands := by
  intro s p tag rest g hset hl harb
  obtain ⟨-, -, hport, hmgmt, howned⟩ := harb g
  refine ⟨fun h => ⟨fun hm => ?_, fun hm hd => ?_, fun ho hp hc => ?_, fun ho hp hc hm => ?_, fun hc hp hw => ?_⟩,
    fun h => ⟨fun hc => ?_, fun hc hw => ?_⟩, fun h => ⟨fun hc => ?_, fun hc => ?_⟩⟩
  · exact congrArg Host.Outcome.next (h.run_respond ((withSegment_seg ..).trans (if_pos (mgmtHas_iff.mpr hm))))
  · have hrefuses : (s.seg g).refuses = true := by
      unfold SegState.refuses
      obtain h | h := hd <;> simp [h]
    have hw : (s.seg g).waiters = [] := served_of_micro hset g (.inr hrefuses)
    have hnot : ¬mgmtHas (s.seg g) = true := by
      rw [mgmtHas_iff, hw]
      exact fun e => e.elim hm nofun
    exact congrArg Host.Outcome.next (h.run_respond ((withSegment_seg ..).trans ((if_neg hnot).trans (if_pos hd))))
  · have hw : (s.seg g).waiters = [] := by
      refine served_of_micro hset g (hc.elim (fun hc => .inl ?_) fun hc => .inr ?_)
      · rw [SegState.free, ho, hc]
        rfl
      · rw [SegState.refuses, hc]
        rfl
    have hm : mgmtHas (s.seg g) = false := by rw [mgmtHas, ho, hw]; rfl
    obtain ⟨t, ht, hself, hother, heq⟩ := finish_handedOff (g := g) (p := p) (tag := tag) (rest := rest) hset hl
      (.frame p .segmentReset tag [byteOf (segNumber g)]) h.executing_none
      (k := SegState.recoveringFrom s.working.params g (some .mgmt)) (fun q => by rw [ho]; rfl) (fun q => rfl)
      fun hne => absurd hw hne
    refine ⟨t, (exec_segmentReset h hm (by rintro e; simp [e] at hc) hp (segmentReset_begins ho hp hc hw)).trans
      (congrArg _ ht), ?_⟩
    beta_reduce
    rw [hself]
    exact ⟨rfl, rfl, rfl, rfl, rfl, rfl, rfl, hother, heq⟩
  · have hfree : (s.seg g).free = true := by
      rw [SegState.free, ho, hc]
      rfl
    have hw : (s.seg g).waiters = [] := served_of_micro hset g (.inl hfree)
    have hmgmt : mgmtHas (s.seg g) = false := by rw [mgmtHas, ho, hw]; rfl
    obtain ⟨t, ht, hself, hother, heq⟩ := finish_handedOff (g := g) (p := p) (tag := tag) (rest := rest) hset hl
      (.frame p .segmentReset tag [byteOf (segNumber g)]) h.executing_none
      (k := SegState.mgmtWaiting s.working.params g) (fun q => by rw [ho]; rfl) (fun q => rfl)
      fun hne => absurd hw hne
    refine ⟨t, (exec_segmentReset h hmgmt (by rw [hc]; nofun) hp (segmentReset_waits_foreign ho hp hc hm hw)).trans
      (congrArg _ ht), ?_⟩
    beta_reduce
    rw [hself]
    exact ⟨rfl, rfl, rfl, rfl, hother, heq⟩
  · have hcond : (s.seg g).cond = .owned ∨ (s.seg g).cond = .recovering :=
      hc.elim (fun ⟨q, hq⟩ => .inl (hport q hq)) fun hc => .inr hc.2
    have hr : (s.seg g).refuses = false := by
      unfold SegState.refuses
      obtain hc | hc := hcond <;> simp [hc, hp]
    have hf : (s.seg g).free = false := by
      unfold SegState.free
      obtain hc | hc := hcond <;> simp [hc]
    have hm : mgmtHas (s.seg g) = false := by
      refine Bool.eq_false_of_not_eq_true fun e => (mgmtHas_iff.mp e).elim (fun e => ?_) hw
      obtain ⟨q, hq⟩ | ⟨hn, -⟩ := hc
      · rw [hq] at e
        exact absurd e nofun
      · rw [hn] at e
        exact absurd e nofun
    obtain ⟨t, ht, hself, hother, heq⟩ := finish_handedOff (g := g) (p := p) (tag := tag) (rest := rest) hset hl
      (.frame p .segmentReset tag [byteOf (segNumber g)]) h.executing_none
      (k := fun x => { x with waiters := x.waiters ++ [.mgmt] }) (fun q => rfl)
      (fun q => by simp) fun _ => ⟨hr, hf⟩
    refine ⟨t, (exec_segmentReset h hm (by rintro e; simp [e] at hcond) hp ((if_neg (by rintro e; simp [e] at hcond)).trans
      (claim_waiting .mgmt hr hf))).trans (congrArg _ ht), ?_, hother, heq⟩
    exact hself.trans (retimed_same (hl.2 g) rfl rfl)
  · exact congrArg Host.Outcome.next (h.run_respond ((withSegment_seg ..).trans (if_pos hc)))
  · obtain ⟨t, ht, hself, hother, heq⟩ := respond_segReport (g := g) (p := p) (tag := tag) (rest := rest) hl
      (.frame p .segmentDisable tag [byteOf (segNumber g)]) h.executing_none (k := takeOut)
      fun q => by rw [(takeOut_keeps _).1]
    have hfinish := finish_updSeg (s := takeHead (.frame p .segmentDisable tag [byteOf (segNumber g)]) rest s) (g := g)
      (k := takeOut) (fun q => by rw [(takeOut_keeps _).1]) (hset.congr rfl rfl) (fun q => by rw [(takeOut_keeps _).2])
      fun hne => absurd ((takeOut_keeps _).2.trans hw) hne
    refine ⟨t, ?_, ?_⟩
    · rw [exec_segmentDisable h hc, hfinish]
      exact congrArg Host.Outcome.next ht
    · refine ⟨fun ho hr => ?_, fun hb => ?_, hother, heq⟩
      · rw [hself]
        cases hcond : (s.seg g).cond with
        | idle => rw [takeOut_free (.inl hcond)]; exact ⟨rfl, quietAfter_of_not_runs (quietRuns_disabled rfl)⟩
        | foreign => rw [takeOut_free (.inr hcond)]; exact ⟨rfl, quietAfter_of_not_runs (quietRuns_disabled rfl)⟩
        | disabled => rw [takeOut_disabled hcond]; exact ⟨hcond, quietAfter_of_not_runs (quietRuns_disabled hcond)⟩
        | owned => exact absurd ho (howned hcond)
        | recovering => exact absurd hcond hr
        | faulted => exact absurd hcond hc
      · have hbusy : (s.seg g).cond = .owned ∨ (s.seg g).cond = .recovering := by
          refine hb.elim (fun ho => ?_) .inr
          cases hown : (s.seg g).owner with
          | none => exact absurd hown ho
          | some x =>
            cases x with
            | port q => exact .inl (hport q hown)
            | mgmt => exact hmgmt hown
        rw [hself, takeOut_busy hbusy]
        exact ⟨rfl, rfl, rfl⟩
  · exact congrArg Host.Outcome.next (h.run_respond ((withSegment_seg ..).trans (if_pos hc)))
  · have hkeeps : (putIn (s.working.params.segs.get g) (s.seg g)).owner = (s.seg g).owner
        ∧ (putIn (s.working.params.segs.get g) (s.seg g)).waiters = (s.seg g).waiters := by
      unfold putIn
      split <;> exact ⟨rfl, rfl⟩
    obtain ⟨t, ht, hself, hother, heq⟩ := respond_segReport (g := g) (p := p) (tag := tag) (rest := rest) hl
      (.frame p .segmentEnable tag [byteOf (segNumber g)]) h.executing_none (k := putIn (s.working.params.segs.get g))
      fun q => by rw [hkeeps.1]
    refine ⟨t, ?_, ?_⟩
    · refine congrArg Host.Outcome.next ((h.run (withSegment segmentEnable)).trans ?_)
      rw [← ht, ← segReport_retime]
      exact congrArg freeExecutor ((withSegment_seg ..).trans (if_neg hc))
    · refine ⟨?_, ?_, ?_, ?_, fun hd => ?_, hother, heq⟩
      · rw [hself]
        by_cases hd : (s.seg g).cond = .disabled
        · rw [if_pos hd, putIn_disabled hd]
        · rw [if_neg hd, putIn_other hd]
      · rw [hself]
        by_cases hd : (s.seg g).cond = .disabled
        · rw [putIn_disabled hd]
        · rw [putIn_other hd]
      · rw [hself]
        exact hkeeps.1
      · rw [hself]
        exact hkeeps.2
      · have hquiet : (s.seg g).quiet = none := by
          have hq := hl.2 g
          rw [quietRuns_disabled hd] at hq
          exact Option.isNone_iff_eq_none.mp (by rw [← Option.not_isSome, hq]; rfl)
        rw [hself, quietAfter_putIn hd hquiet, putIn_disabled hd]
        exact ⟨rfl, rfl, rfl, rfl, rfl⟩

end Laws
end Sys2Proof.Machine
end

section
/-!
PROOFS. An edge on a segment's wire, and the START and the STOP of another controller that edges form (O47).
-/
namespace Sys2Proof.Machine

/-! ### An edge (R111, R114, R121) -/

/-- R114, R121: whether an edge shows another controller's transaction on a segment. -/
def SegState.edgeSeen (w : Wire) (high : Bool) (c : SegState) : Bool :=
  c.watched && edgeBegins w high c.newWatch c.lines

/-- The segment as it has seen an edge, before what the edge is to its own leg. -/
def SegState.edged (w : Wire) (high : Bool) (c : SegState) : SegState :=
  { c with
    lines := setWire c.lines w high
    quiet := none
    newWatch := if c.edgeSeen w high then false else c.newWatch
    cond := if c.edgeSeen w high = true ∧ c.cond = .idle then .foreign else c.cond
    foreignBusy := if c.edgeSeen w high = true ∧ c.cond = .owned then true else c.foreignBusy }

theorem edged_eq (w : Wire) (high : Bool) (c : SegState) :
    (if c.watched && edgeBegins w high c.newWatch c.lines
      then foreignSeen { c with lines := setWire c.lines w high, quiet := none }
      else { c with lines := setWire c.lines w high, quiet := none }) = c.edged w high := by
  show (if c.edgeSeen w high = true then _ else _) = _
  unfold SegState.edged foreignSeen
  cases hseen : c.edgeSeen w high with
  | true => simp
  | false => simp

theorem lineEdge_sda (high : Bool) (n : Nat) (c : SegState) : lineEdge .sda high n c = c.edged .sda high :=
  edged_eq .sda high c

theorem lineEdge_scl (high : Bool) (n : Nat) (c : SegState) :
    lineEdge .scl high n c = sclEdge high n { c.edged .scl high with newWatch := false } :=
  congrArg (fun e : SegState => sclEdge high n { e with newWatch := false }) (edged_eq .scl high c)

theorem sclEdge_rise (n : Nat) (c : SegState) : sclEdge true n c = { c with clock := none } := rfl

theorem quietAfter_stopped {c : SegState} (h : c.quiet = none) (n : Nat) :
    quietAfter n c = if c.quietRuns then some n else none := by
  unfold quietAfter
  rw [h]

/-- R111, R52: what the fall of SCL leaves of a segment is its clock, and the end of a NACK clock. -/
theorem sclEdge_fall (n : Nat) (c : SegState) : sclEdge false n c = { c with
    activity := (sclEdge false n c).activity, clock := (sclEdge false n c).clock } := by
  unfold sclEdge
  rw [if_neg nofun]
  split <;> rfl

theorem exec_segmentLineEdge {s : State} {g : Seg} {w : Wire} {high : Bool} (hrun : s.run = .running)
    (h : ¬((s.seg g).watched = true ∧ w = .sda ∧ high = true ∧ (s.seg g).lines.scl = true)) :
    exec (.segmentLineEdge g w high) s
      = .next (retime (s.updSeg g (lineEdge w high s.working.params.clockLimit))) := by
  show Host.Outcome.next (whenRunning s _) = _
  rw [whenRunning_running hrun]
  refine congrArg _ (if_neg fun hc => h ?_)
  obtain ⟨hw, he⟩ := Bool.and_eq_true_iff.mp hc
  cases w with
  | scl => exact absurd he nofun
  | sda =>
    obtain ⟨hh, hl⟩ := Bool.and_eq_true_iff.mp he
    exact ⟨hw, rfl, hh, hl⟩

/-! ### The other controller's STOP (R114, R179) -/

theorem State.updSeg_congr {s : State} {g : Seg} {f k : SegState → SegState} (h : f (s.seg g) = k (s.seg g)) :
    s.updSeg g f = s.updSeg g k := by
  unfold State.updSeg
  rw [show f (s.segs.get g) = k (s.segs.get g) from h]

/-- What the end of the other controller's transaction makes of a segment. -/
def SegState.foreignEnded (q : Params) (g : Seg) (c : SegState) : SegState :=
  if c.cond = .owned ∧ c.owner = some .mgmt then c.recoveringFrom q g (some .mgmt)
  else { c with
    quiet := none, newWatch := false, cond := if c.cond = .foreign then .idle else c.cond, foreignBusy := false }

theorem foreignOver_eq (g : Seg) (s : State) :
    foreignOver g s = s.updSeg g (SegState.foreignEnded s.working.params g) := by
  unfold foreignOver
  split
  next h =>
    rw [beginRecovery_eq]
    exact State.updSeg_congr (if_pos h).symm
  next h => exact State.updSeg_congr (if_neg h).symm

/-- The level and the quiet timer as the STOP finds them. -/
theorem foreignEnded_seen (q : Params) (g : Seg) (c : SegState) (l : Lines) :
    SegState.foreignEnded q g { c with lines := l, quiet := none } = SegState.foreignEnded q g { c with lines := l } := by
  unfold SegState.foreignEnded
  exact if_congr Iff.rfl rfl rfl

theorem foreignOver_updSeg (g : Seg) (s : State) (k : SegState → SegState) : foreignOver g (s.updSeg g k)
    = s.updSeg g fun c => SegState.foreignEnded s.working.params g (k c) := by
  rw [foreignOver_eq, State.updSeg_updSeg]
  rfl

theorem foreignOver_stopEdge {s : State} {g : Seg} (hs : (s.seg g).lines.scl = true) :
    foreignOver g (s.updSeg g (lineEdge .sda true s.working.params.clockLimit))
      = foreignOver g (sampleLines g ⟨true, true⟩ s) := by
  unfold sampleLines
  rw [foreignOver_updSeg, foreignOver_updSeg]
  refine State.updSeg_congr ?_
  rw [lineEdge_of_stop hs, foreignEnded_seen]

/-! ### The other controller's START (R114, R121) -/

theorem exec_foreignStart {s : State} {g : Seg} {kind : ForeignKind} (hrun : s.run = .running)
    (hw : (s.seg g).watched = true) :
    exec (.foreignStart g kind) s = .next (retime (s.updSeg g (foreignStart kind))) := by
  show Host.Outcome.next (whenRunning s _) = _
  rw [whenRunning_running hrun, if_pos hw]

theorem exec_foreignStop {s : State} {g : Seg} (hrun : s.run = .running) (hw : (s.seg g).watched = true) :
    exec (.foreignStop g) s = .next (finish (foreignOver g (sampleLines g ⟨true, true⟩ s))) := by
  show Host.Outcome.next (whenRunning s _) = _
  rw [whenRunning_running hrun, if_pos hw]

/-- R114: on a part that runs the edge of a STOP is what FOREIGN_STOP brings. -/
theorem exec_stopEdge {s : State} {g : Seg} (hrun : s.run = .running) (hw : (s.seg g).watched = true)
    (hs : (s.seg g).lines.scl = true) :
    exec (.segmentLineEdge g .sda true) s = .next (finish (foreignOver g (sampleLines g ⟨true, true⟩ s))) := by
  show Host.Outcome.next (whenRunning s _) = _
  rw [whenRunning_running hrun, ← foreignOver_stopEdge hs]
  refine congrArg _ (if_pos ?_)
  rw [hw]
  exact hs

theorem exec_foreignEdge {s : State} {g : Seg} {kind : ForeignKind} {c : Instr} (hrun : s.run = .running)
    (hw : (s.seg g).watched = true) (h : ForeignEdge s g kind c) :
    exec c s = .next (retime (s.updSeg g (foreignStart kind))) := by
  obtain ⟨hact, hedge⟩ := h
  have hstart {w : Wire} {high : Bool}
      (hn : ¬((s.seg g).watched = true ∧ w = .sda ∧ high = true ∧ (s.seg g).lines.scl = true))
      (hk : lineEdge w high s.working.params.clockLimit (s.seg g) = foreignStart kind (s.seg g)) :
      exec (.segmentLineEdge g w high) s = .next (retime (s.updSeg g (foreignStart kind))) := by
    rw [exec_segmentLineEdge hrun hn, State.updSeg_congr hk]
  cases kind with
  | start =>
    obtain ⟨rfl, hs⟩ := hedge
    exact hstart (by simp) (lineEdge_of_start hw hs _)
  | sclEdge =>
    obtain ⟨rfl, hn⟩ | ⟨rfl, hn, hs, hclock⟩ := hedge
    · exact hstart (by simp) (lineEdge_of_fall hw hact hn _)
    · refine hstart (by simp) ?_
      rw [lineEdge_of_first_rise hw hn hs]
      show { foreignStart .sclEdge (s.seg g) with clock := none } = foreignStart .sclEdge (s.seg g)
      rw [← hclock]
      rfl

theorem ite_false_eq (a b : Bool) : (if a = true then false else b) = (b && true && !a) := by
  cases a <;> cases b <;> rfl

theorem and_false_and (a b : Bool) : (a && false && b) = false := by cases a <;> rfl

theorem exec_stopped {c : Instr} {s : State} (hc : reachesStopped c = false) (hrun : s.run ≠ .running) :
    exec c s = .next s := by
  obtain ⟨f, hf⟩ := exec_of_not_reachesStopped hc s
  rw [hf, whenRunning_stopped hrun]

theorem ForeignEdge.reachesStopped {s : State} {g : Seg} {kind : ForeignKind} {c : Instr} (h : ForeignEdge s g kind c) :
    reachesStopped c = false := by
  obtain ⟨-, hedge⟩ := h
  cases kind with
  | start => obtain ⟨rfl, -⟩ := hedge; rfl
  | sclEdge => obtain ⟨rfl, -⟩ | ⟨rfl, -⟩ := hedge <;> rfl

theorem onlySeg_of {s t : State} {g : Seg} (h : t = { s with segs := t.segs }) (hother : ∀ k, k ≠ g → t.seg k = s.seg k) :
    OnlySeg g s t := by
  have hsegs : t.segs = s.segs.set g (t.segs.get g) := PerSeg.ext_get fun k => by
    rw [PerSeg.get_set]
    split
    next e => rw [e]
    next e => exact hother k e
  unfold OnlySeg
  rw [← hsegs]
  exact h

namespace Laws

/-- Settles O47: the edge by its wire and its level; and the edges that are another controller's conditions. -/
theorem segmentLineEdge : Obligations.SegmentLineEdge := by
  refine ⟨fun s g wire high seen hrun hl hn hseen => ?_, fun s g hw => ⟨fun kind c h => ?_, fun hs => ?_⟩⟩
  · subst hseen
    obtain ⟨heq, hself, hother⟩ := retime_updSeg hl (g := g) (k := lineEdge wire high s.working.params.clockLimit)
      fun p => by rw [(lineEdge_frame ..).1]
    have honly : OnlySeg g s (retime (s.updSeg g (lineEdge wire high s.working.params.clockLimit))) := onlySeg_of heq hother
    refine ⟨_, exec_segmentLineEdge hrun hn, ?_⟩
    generalize retime _ = t at hself honly
    rw [hself]
    cases wire with
    | sda =>
      rw [lineEdge_sda, quietAfter_stopped (c := (s.seg g).edged .sda high) rfl]
      refine ⟨rfl, rfl, rfl, rfl, rfl, ?_, rfl, (if_neg nofun).symm, rfl, honly⟩
      exact ite_false_eq ..
    | scl =>
      cases high with
      | true =>
        rw [lineEdge_scl, sclEdge_rise, quietAfter_stopped rfl]
        exact ⟨rfl, rfl, rfl, rfl, rfl, (and_false_and ..).symm, rfl, (if_neg nofun).symm, rfl, honly⟩
      | false =>
        rw [lineEdge_scl, sclEdge_fall, quietAfter_stopped rfl]
        refine ⟨rfl, rfl, rfl, rfl, rfl, (and_false_and ..).symm, rfl, ?_, ?_, honly⟩
        · show (sclEdge false _ _).activity = _
          unfold sclEdge SegState.edged
          dsimp only
          rcases (s.seg g).activity with _ | ⟨o⟩ | ⟨b, placed⟩ | ⟨w⟩ | _ | ⟨check⟩
          case some.addressing => cases o <;> rfl
          case some.reading => cases w <;> rfl
          all_goals rfl
        · show (sclEdge false _ _).clock = _
          unfold sclEdge SegState.edged
          dsimp only
          rcases (s.seg g).activity with _ | ⟨o⟩ | ⟨b, placed⟩ | ⟨w⟩ | _ | ⟨check⟩
          case some.addressing => cases o <;> rfl
          case some.reading => cases w <;> rfl
          all_goals rfl
  · by_cases hrun : s.run = .running
    · rw [exec_foreignEdge hrun hw h, exec_foreignStart hrun hw]
    · rw [exec_stopped h.reachesStopped hrun, exec_stopped rfl hrun]
  · by_cases hrun : s.run = .running
    · rw [exec_stopEdge hrun hw hs, exec_foreignStop hrun hw]
    · rw [exec_stopped rfl hrun, exec_stopped rfl hrun]

end Laws
end Sys2Proof.Machine
end

section
/-!
PROOFS. O21: the address lookup of a valid working table, and the order of an address byte's decision (R11, R14, R25).
-/
namespace Sys2Proof.Machine

/-! ### The lookup (R11) -/

theorem lookupFrom_hit {p : Port} {a : Addr} {e : Entry} (hfound : e.found p a = true) :
    ∀ (slots : List (Option Entry)) (k n : Nat), slots[n]? = some (some e) →
      (∀ m x, m < n → slots[m]? = some (some x) → x.found p a = false) →
      lookupFrom p a k slots = some ⟨k + n, e⟩
  | [], k, n, hn, _ => by simp at hn
  | o :: rest, k, 0, hn, _ => by
    obtain rfl : o = some e := by simpa using hn
    exact if_pos hfound
  | o :: rest, k, n + 1, hn, hlow => by
    have ih : lookupFrom p a (k + 1) rest = some ⟨k + (n + 1), e⟩ := by
      rw [Nat.add_comm n, ← Nat.add_assoc]
      exact lookupFrom_hit hfound rest (k + 1) n hn fun m x hm hx => hlow (m + 1) x (Nat.succ_lt_succ hm) hx
    cases o with
    | none => exact ih
    | some x => exact (if_neg (Bool.eq_false_iff.mp (hlow 0 x (Nat.succ_pos n) rfl))).trans ih

theorem lookupFrom_miss {p : Port} {a : Addr} :
    ∀ (slots : List (Option Entry)) (k : Nat), (∀ (n : Nat) (x : Entry), slots[n]? = some (some x) → x.found p a = false) →
      lookupFrom p a k slots = none
  | [], _, _ => rfl
  | none :: rest, k, h => lookupFrom_miss rest (k + 1) fun n x hx => h (n + 1) x hx
  | some x :: rest, k, h =>
    (if_neg (Bool.eq_false_iff.mp (h 0 x rfl))).trans
      (lookupFrom_miss rest (k + 1) fun n y hy => h (n + 1) y hy)

theorem found_iff {e : Entry} {p : Port} {a : Addr} : e.found p a = true ↔ e.ports.get p = true ∧ e.vaddr = a := by
  simp [Entry.found]

/-! ### A valid table has no two entries of one port and address (R14, R15) -/

theorem no_dup_of_checkEntry {mgmt : Option Addr} {lower : List EntryFields} {f g : EntryFields}
    (h : checkEntry mgmt lower f = none) (hg : g ∈ lower) : collides f g = false := by
  unfold checkEntry at h
  split_ifs at h with _ _ _ _ _ hdup _
  exact Bool.eq_false_iff.mpr fun hc => hdup (List.any_eq_true.mpr ⟨g, hg, hc⟩)

/-- R14: of two entries of a valid image in ascending order, the later does not collide with the earlier. -/
theorem found_unique {strap : BitVec 2} {i : Image} (h : validate strap i.fields = none) {m n : Nat} {x y : Entry}
    (hmn : m < n) (hx : i.slots[m]? = some (some x)) (hy : i.slots[n]? = some (some y)) {p : Port} {a : Addr}
    (hfound : y.found p a = true) : x.found p a = false := by
  obtain ⟨hslots, -⟩ := validate_eq_none_iff.mp h
  have hfx : i.fields.slots[m]? = some (some x.fields) := by simp [Image.fields, hx]
  have hfy : i.fields.slots[n]? = some (some y.fields) := by simp [Image.fields, hy]
  have hfree : collides y.fields x.fields = false :=
    no_dup_of_checkEntry ((checkSlots_eq_none_iff _ _ _).mp hslots n _ hfy)
      (List.mem_append.mpr (.inr (mem_lowerEntries.mpr ⟨m, hmn, hfx⟩)))
  refine Bool.eq_false_iff.mpr fun hxf => Bool.eq_false_iff.mp hfree (collides_fields_iff.mpr ?_)
  obtain ⟨hyp, hya⟩ := found_iff.mp hfound
  obtain ⟨hxp, hxa⟩ := found_iff.mp hxf
  exact ⟨hya.trans hxa.symm, p, hyp, hxp⟩

theorem lookup_of_slot {strap : BitVec 2} {i : Image} (h : validate strap i.fields = none) {n : Nat} {e : Entry}
    (hn : i.slots[n]? = some (some e)) {p : Port} {a : Addr} (hfound : e.found p a = true) :
    lookup i.slots p a = some ⟨n, e⟩ :=
  (lookupFrom_hit hfound i.slots 0 n hn fun _ _ hm hx => found_unique h hm hx hn hfound).trans
    (by rw [Nat.zero_add])

/-! ### The decision (R25) -/

theorem find25_management {s : State} {p : Port} {a : Addr} (h : isManagement s p a = true) :
    find25 s p a = .management :=
  if_pos h

theorem decide25_management_write {s : State} {p : Port} {a : Addr} (h : isManagement s p a = true) :
    decide25 s p a .write = .wait (.mgmtWrite (a ++ 0#1)) :=
  congrArg (decideFound (s.port p) a .write) (find25_management h)

theorem decide25_management_read {s : State} {p : Port} {a : Addr} (h : isManagement s p a = true) :
    decide25 s p a .read = .wait (.mgmtRead (a ++ 1#1)) :=
  congrArg (decideFound (s.port p) a .read) (find25_management h)

theorem find25_missed {s : State} {p : Port} {a : Addr} (h : isManagement s p a = false)
    (hmiss : lookup s.working.slots p a = none) : find25 s p a = .missed := by
  unfold find25
  rw [h, hmiss]
  rfl

theorem find25_matched {s : State} {p : Port} {a : Addr} {sn : Snapshot} (h : isManagement s p a = false)
    (hfound : lookup s.working.slots p a = some sn) : find25 s p a = .matched sn := by
  unfold find25
  rw [h, hfound]
  rfl

theorem decide25_missed {s : State} {p : Port} {a : Addr} (h : isManagement s p a = false)
    (hmiss : lookup s.working.slots p a = none) (d : Dir) : decide25 s p a d = .wait .miss :=
  congrArg (decideFound (s.port p) a d) (find25_missed h hmiss)

theorem decide25_matched {s : State} {p : Port} {a : Addr} {sn : Snapshot} (h : isManagement s p a = false)
    (hfound : lookup s.working.slots p a = some sn) (d : Dir) : decide25 s p a d = decideEntry (s.port p) sn d :=
  congrArg (decideFound (s.port p) a d) (find25_matched h hfound)

theorem allows_eq_false_iff {e : Entry} {d : Dir} :
    e.access.allows d = false ↔ d = .read ∧ e.access = .write ∨ d = .write ∧ e.access = .read := by
  cases d <;> cases e.access <;> decide

theorem allows_iff {e : Entry} {d : Dir} :
    e.access.allows d = true ↔ d = .read ∧ e.access ≠ .write ∨ d = .write ∧ e.access ≠ .read := by
  cases d <;> cases e.access <;> decide

theorem decideEntry_denied {r : PortState} {sn : Snapshot} {d : Dir} (h : sn.entry.access.allows d = false) :
    decideEntry r sn d = .wait (.denied sn.slot) := by
  unfold decideEntry
  rw [h]
  rfl

theorem decideEntry_allowed {r : PortState} {sn : Snapshot} {d : Dir} (h : sn.entry.access.allows d = true) :
    decideEntry r sn d = if d = .read ∧ sn.entry.window.isSome = true ∧ carriedPointer r sn = none
      then .wait (.noOffset sn.slot) else .routed sn := by
  unfold decideEntry
  rw [h]
  rfl

namespace Laws

/-- Settles O21: the lookup by a valid table having one entry per port and address; the decision step by step. -/
theorem addressDecision : Obligations.AddressDecision := by
  refine ⟨fun s p a hlaw => ⟨fun n e hn hp ha => lookup_of_slot hlaw hn (found_iff.mpr ⟨hp, ha⟩), fun hmiss => ?_⟩,
    fun s p a d management pointer found hm hf hptr => ⟨fun h hd => ?_, fun h hd => ?_, fun h hnone => ?_, fun h n e hsome => ?_⟩⟩
  · refine lookupFrom_miss _ _ fun n x hx => Bool.eq_false_iff.mpr fun hfound => ?_
    obtain ⟨hxp, hxa⟩ := found_iff.mp hfound
    exact hmiss n x hx hxp hxa
  · subst hd
    exact decide25_management_write (hm.symm.trans h)
  · subst hd
    exact decide25_management_read (hm.symm.trans h)
  · exact decide25_missed (hm.symm.trans h) (hf.symm.trans hnone) d
  · have hentry := decide25_matched (hm.symm.trans h) (hf.symm.trans hsome) d
    have hcarried : pointer = carriedPointer (s.port p) ⟨n, e⟩ := by
      rw [hptr, hsome]
      rfl
    refine ⟨fun hd => hentry.trans (decideEntry_denied (allows_eq_false_iff.mpr hd)), fun hd => ?_⟩
    have hallowed := hentry.trans (decideEntry_allowed (r := s.port p) (sn := ⟨n, e⟩) (allows_iff.mpr hd))
    rw [← hcarried] at hallowed
    exact ⟨fun hw => hallowed.trans (if_pos hw), fun hw => hallowed.trans (if_neg hw)⟩

end Laws

end Sys2Proof.Machine
end

section
/-!
PROOFS. O39: the target's acknowledge, and the address join (R33, R34, R79, R80).
-/
namespace Sys2Proof.Machine

/-! ### The address join (R80) -/

/-- R80: the record when its address join has been answered. -/
def PortState.addressJoined (r : PortState) : PortState :=
  if (Seg.list.filter r.active).isEmpty then
    { r with
      phase := .drain, hold := none, ackOut := some .nack, sclHeld := false, inFlight := none, held := none,
      readStage := .none }
  else
    { r with
      phase := dataPhase r.dir, hold := none, sclHeld := false,
      ackOut := some (if (Seg.list.filter r.active).length = setSize r then .ack else .nack),
      readStage := if r.dir = .read then .addressAcked else .none }

theorem stopHold_bus (p : Port) (s : State) (r : PortState) (f : Seg → SegState) :
    stopHold p (s.bus p r f) = s.bus p { r with hold := none } f := State.updPort_bus ..

theorem enterData_bus (p : Port) (a : Ack) (s : State) (r : PortState) (f : Seg → SegState) :
    enterData p a (s.bus p r f) = s.bus p { r with
      phase := dataPhase r.dir, hold := none, ackOut := some a, sclHeld := false,
      readStage := if r.dir = .read then .addressAcked else .none } f := by
  unfold enterData
  rw [State.updPort_bus, giveAck_bus]

section
variable {r : PortState} (s : State) (p : Port) (f : Seg → SegState)

theorem joinAddress_waiting (h : ¬(r.phase = .awaitTarget ∧ allPaused r f = true)) :
    joinAddress p (s.bus p r f) = s.bus p r f := by
  unfold joinAddress
  rw [State.bus_port_self, all_isPaused_bus, if_neg h]

theorem joinAddress_joined (hphase : r.phase = .awaitTarget) (h : allPaused r f = true) :
    joinAddress p (s.bus p r f) = s.bus p r.addressJoined f := by
  unfold joinAddress PortState.addressJoined
  rw [State.bus_port_self, all_isPaused_bus, if_pos ⟨hphase, h⟩, activeSegs_bus]
  by_cases he : (Seg.list.filter r.active).isEmpty = true
  · rw [if_pos he, if_pos he, stopHold_bus, giveAck_bus, toDrain_bus]
  · rw [if_neg he, if_neg he]
    by_cases hn : (Seg.list.filter r.active).length = setSize r
    · rw [if_pos hn, if_pos hn, enterData_bus]
    · rw [if_neg hn, if_neg hn, enterData_bus]

end

/-- R80: a join of as many legs as the snapshot names segments, each of them one that it names, is a join of all. -/
theorem length_eq_setSize_iff {r : PortState} {sn : Snapshot} (hsn : r.snapshot = some sn)
    (h : ∀ g, r.active g = true → sn.entry.segs.get g = true) :
    (Seg.list.filter r.active).length = setSize r ↔ Seg.list.filter r.active = PerSeg.members sn.entry.segs := by
  have hsize : setSize r = (PerSeg.members sn.entry.segs).length := by
    unfold setSize
    rw [hsn]
  have hsub : (Seg.list.filter r.active).Sublist (PerSeg.members sn.entry.segs) :=
    List.monotone_filter_right Seg.list h
  rw [hsize]
  exact ⟨hsub.eq_of_length, congrArg List.length⟩

/-! ### A leg that answers (R33, R79) -/

/-- A record with its legs replaced. -/
def PortState.withLegs (r : PortState) (ls : List Leg) : PortState := { r with legs := ls }

/-- The legs of a record once one of them has been answered. -/
def answeredLegs (g : Seg) (ls : List Leg) : Ack → List Leg
  | .ack => ls
  | .nack => mapLegs (fun h => h == g) Leg.ended ls

/-- The segment of a leg that has been answered. -/
def answeredSeg (limit : Nat) (c : SegState) : Ack → SegState
  | .ack => ackedSeg c
  | .nack => nackedSeg limit c

theorem activeIn_answeredLegs (g h : Seg) (ls : List Leg) (a : Ack) :
    activeIn (answeredLegs g ls a) h = (activeIn ls h && (h != g || a == .ack)) := by
  cases a with
  | ack => exact (show (h != g || true) = true from Bool.or_true _) ▸ (Bool.and_true _).symm
  | nack =>
    rw [show (Ack.nack == Ack.ack) = false from rfl, Bool.or_false]
    exact activeIn_ended (fun k => k == g) ls h

theorem targetAnswer_eq (s : State) (p : Port) (g : Seg) (a : Ack) :
    targetAnswer p g a s = joinAddress p (s.bus p ((s.port p).withLegs (answeredLegs g (s.port p).legs a))
      (oneSeg s g (answeredSeg s.working.params.clockLimit (s.seg g) a))) := by
  have hpause : pause g s = s.bus p (s.port p) (oneSeg s g (ackedSeg (s.seg g))) := updSeg_eq_oneSeg ..
  unfold targetAnswer
  rw [hpause]
  cases a with
  | ack => rfl
  | nack =>
    dsimp only
    rw [endLeg_pause]
    rfl

theorem exec_targetAck {s : State} {p : Port} {g : Seg} (h : LegAt s p g (.addressing .placed)) (a : Ack) :
    exec (.targetAck g a) s = .next (retime (targetAnswer p g a s)) := by
  show Host.Outcome.next (whenRunning s _) = _
  rw [whenRunning_running h.1, ownerPort_of_legAt h, h.2.2]

theorem steady_answeredSeg {s : State} {p : Port} {g : Seg} (h : LegAt s p g (.addressing .placed)) (a : Ack) :
    Steady (s.seg g) (answeredSeg s.working.params.clockLimit (s.seg g) a) := by
  cases a with
  | ack => exact h.steady nofun (b := .paused) nofun none
  | nack => exact h.steady nofun (b := .closing none) nofun _

theorem answeredSeg_eq (limit : Nat) (c : SegState) (a : Ack) : answeredSeg limit c a = (match a with
    | .ack => { c with activity := some .paused, clock := none }
    | .nack => { c with activity := some (.closing none), clock := some limit }) := by
  cases a <;> rfl

namespace Laws

/-- Settles O39: by whether every leg that remains is PAUSED, which is when the address join is answered. -/
theorem targetAck : Obligations.TargetAck := by
  refine ⟨fun s p g a sn h hphase hscl hsn hl hact hsegs => ?_, fun s p g a h hphase hscl hl hact => ?_⟩
  · have hexec := exec_targetAck h a
    rw [targetAnswer_eq] at hexec
    have hactive (k : Seg) := activeIn_answeredLegs g k (s.port p).legs a
    have hsteady := steady_oneSeg (steady_answeredSeg h a)
    generalize answeredLegs g (s.port p).legs a = legs at hexec hactive
    by_cases hall : allPaused ((s.port p).withLegs legs)
        (oneSeg s g (answeredSeg s.working.params.clockLimit (s.seg g) a)) = true
    · rw [joinAddress_joined (r := (s.port p).withLegs legs) s p _ hphase hall, retime_steady hl hsteady] at hexec
      refine ⟨_, hexec, ?_⟩
      simp only [State.bus_port_self, State.bus_seg, legActive_bus, activeSegs_bus]
      have hlegs : ((s.port p).withLegs legs).addressJoined.legs = legs := by
        unfold PortState.addressJoined
        split <;> rfl
      refine ⟨fun k => ?_, (oneSeg_self ..).trans (answeredSeg_eq ..), fun k hk => oneSeg_other _ _ hk, onlyPortSegs_bus ..,
        ?_, fun _ => ?_⟩
      · rw [PortState.active_eq, hlegs]
        exact hactive k
      · rintro ⟨k, hk, hne⟩
        refine absurd (allPaused_iff.mp hall k ?_) hne
        rw [PortState.active_eq, hlegs] at hk
        exact hk
      · have hfilter (x : Option Nat) : PortState.active { ((s.port p).withLegs legs).addressJoined with stall := x }
            = ((s.port p).withLegs legs).active := congrArg activeIn hlegs
        have hset := length_eq_setSize_iff (r := (s.port p).withLegs legs) hsn
          fun k hk => hsegs k (Bool.and_eq_true_iff.mp ((hactive k).symm.trans hk)).1
        have hmembers : PerSeg.members sn.entry.segs ≠ [] :=
          List.ne_nil_of_mem ((mem_filter_list _ g).mpr (hsegs g hact))
        rw [hfilter]
        unfold PortState.addressJoined
        by_cases he : (Seg.list.filter ((s.port p).withLegs legs).active).isEmpty = true
        · have hnil := List.isEmpty_iff.mp he
          rw [if_pos he, if_pos hnil, if_neg (by rw [hnil]; exact fun e => hmembers e.symm)]
          exact ⟨rfl, rfl, rfl, rfl, rfl, hsn⟩
        · rw [if_neg he, if_neg fun e => he (List.isEmpty_iff.mpr e), if_congr hset rfl rfl]
          refine ⟨rfl, rfl, rfl, ?_, rfl, hsn⟩
          show dataPhase (s.port p).dir = _
          cases (s.port p).dir <;> rfl
    · rw [joinAddress_waiting (r := (s.port p).withLegs legs) s p _ fun e => hall e.2, retime_steady hl hsteady,
        stallBy_same (r := (s.port p).withLegs legs) hl rfl rfl rfl] at hexec
      refine ⟨_, hexec, ?_⟩
      simp only [State.bus_port_self, State.bus_seg, legActive_bus, activeSegs_bus]
      exact ⟨hactive, (oneSeg_self ..).trans (answeredSeg_eq ..), fun k hk => oneSeg_other _ _ hk, onlyPortSegs_bus ..,
        fun _ => rfl, fun hp => absurd (allPaused_iff.mpr hp) hall⟩
  · have hexec := exec_targetAck h a
    have hactive (k : Seg) := activeIn_answeredLegs g k (s.port p).legs a
    have hack : a = .ack → answeredLegs g (s.port p).legs a = (s.port p).legs := by rintro rfl; rfl
    rw [targetAnswer_eq] at hexec
    generalize answeredLegs g (s.port p).legs a = legs at hexec hactive hack
    rw [joinAddress_waiting (r := (s.port p).withLegs legs) s p _ fun e => absurd (hphase.symm.trans e.1) nofun,
      retime_steady hl (steady_oneSeg (steady_answeredSeg h a)),
      stallBy_same (r := (s.port p).withLegs legs) hl rfl rfl rfl] at hexec
    refine ⟨_, hexec, ?_⟩
    simp only [State.bus_port_self, State.bus_seg, legActive_bus]
    exact ⟨rfl, hactive, hack, (oneSeg_self ..).trans (answeredSeg_eq ..), fun k hk => oneSeg_other _ _ hk,
      onlyPortSegs_bus ..⟩

end Laws

end Sys2Proof.Machine
end

section
/-!
PROOFS. What an event sets off, one step at a time (log 14): the step that comes next where one thing is outstanding, and the operations of
the Segment Arbiter as values of one record and of the segments.
-/
namespace Sys2Proof.Machine

/-! ### One step of what an event sets off -/

/-- What an event sets off may be taken a step at a time. -/
theorem finish_of_micro {s t : State} (h : micro s = some t) : finish s = finish t := by
  have hfuel : settle settleFuel s = settle (settleFuel - 1) t := settle_step h (settleFuel - 1)
  have hdues : dues t ≤ settleFuel - 1 := by
    have hs := dues_le s
    have ht := dues_micro h
    have hf : settleFuel = 64 := rfl
    omega
  have hmore : settle settleFuel t = settle (settleFuel - 1) t :=
    settle_more (settleFuel - 1) t (micro_settle _ t hdues)
  unfold finish
  rw [hfuel, hmore]
where
  /-- A step more changes nothing once nothing is due. -/
  settle_more : ∀ (n : Nat) (s : State), micro (settle n s) = none → settle (n + 1) s = settle n s
    | 0, s, h => settle_of_none h 1
    | n + 1, s, h => by
      cases hm : micro s with
      | none => rw [settle_of_none hm, settle_of_none hm]
      | some t =>
        rw [settle_step hm] at h
        rw [settle_step hm, settle_step hm]
        exact settle_more n t h

theorem findSome?_only {α β : Type} {f : α → Option β} {x : α} {l : List α} (hx : x ∈ l) (h : ∀ y, y ≠ x → f y = none) :
    l.findSome? f = f x := by
  induction l with
  | nil => exact absurd hx List.not_mem_nil
  | cons y l ih =>
    rw [List.findSome?_cons]
    by_cases e : y = x
    · subst e
      cases hf : f y with
      | some z => rfl
      | none =>
        refine List.findSome?_eq_none_iff.mpr fun z _ => ?_
        by_cases e : z = y
        · rw [e, hf]
        · exact h z e
    · rw [h y e]
      exact ih ((List.mem_cons.mp hx).resolve_left fun e' => e e'.symm)

/-- A segment that has nobody waiting, or serves none of those who wait. -/
def SegState.still (c : SegState) : Prop := c.waiters = [] ∨ c.refuses = false ∧ c.free = false

theorem nextRefusal_of_still {s : State} {g : Seg} (h : (s.seg g).still) : nextRefusal s g = none := by
  unfold nextRefusal
  cases hw : (s.seg g).waiters with
  | nil => rfl
  | cons c l =>
    obtain h | ⟨h, -⟩ := h
    · exact absurd (hw.symm.trans h) nofun
    · dsimp only
      rw [h]
      rfl

theorem nextGrant_of_still {s : State} {g : Seg} (h : (s.seg g).still) : nextGrant s g = none := by
  unfold nextGrant
  cases hw : (s.seg g).waiters with
  | nil => rfl
  | cons c l =>
    obtain h | ⟨-, h⟩ := h
    · exact absurd (hw.symm.trans h) nofun
    · dsimp only
      rw [h]
      rfl

theorem findSome?_nextRefusal_of_still {s : State} (h : ∀ g, (s.seg g).still) :
    Seg.list.findSome? (nextRefusal s) = none :=
  List.findSome?_eq_none_iff.mpr fun g _ => nextRefusal_of_still (h g)

theorem findSome?_nextGrant_of_still {s : State} (h : ∀ g, (s.seg g).still) : Seg.list.findSome? (nextGrant s) = none :=
  List.findSome?_eq_none_iff.mpr fun g _ => nextGrant_of_still (h g)

theorem still_of_settled {s : State} (h : Settled s) (g : Seg) : (s.seg g).still := by
  by_cases hw : (s.seg g).waiters = []
  · exact .inl hw
  · exact .inr (h.served hw)

section
variable {s : State} {g : Seg} {c : Claimant} {cs : List Claimant}

/-- R98: the oldest waiter of a segment that has come to refuse, the others serving nobody. -/
theorem micro_refuse (hw : (s.seg g).waiters = c :: cs) (hr : (s.seg g).refuses = true)
    (hothers : ∀ h, h ≠ g → (s.seg h).still) : micro s = some (refuse g c s) := by
  have hnext : nextRefusal s g = some (g, c) := by
    unfold nextRefusal
    rw [hw]
    exact if_pos hr
  have hfind : Seg.list.findSome? (nextRefusal s) = some (g, c) :=
    (findSome?_only (Seg.mem_list g) fun h hh => nextRefusal_of_still (hothers h hh)).trans hnext
  unfold micro
  rw [hfind]

/-- R96, R97: the oldest waiter of a segment that has become free. -/
theorem micro_grant (hw : (s.seg g).waiters = c :: cs) (hr : (s.seg g).refuses = false) (hf : (s.seg g).free = true)
    (hothers : ∀ h, h ≠ g → (s.seg h).still) : micro s = some (grant g c s) := by
  have hno : nextRefusal s g = none := by
    unfold nextRefusal
    rw [hw]
    exact if_neg (by rw [hr]; nofun)
  have hnext : nextGrant s g = some (g, c) := by
    unfold nextGrant
    rw [hw]
    exact if_pos hf
  have hrefusal : Seg.list.findSome? (nextRefusal s) = none :=
    (findSome?_only (Seg.mem_list g) fun h hh => nextRefusal_of_still (hothers h hh)).trans hno
  have hgrant : Seg.list.findSome? (nextGrant s) = some (g, c) :=
    (findSome?_only (Seg.mem_list g) fun h hh => nextGrant_of_still (hothers h hh)).trans hnext
  unfold micro
  rw [hrefusal, hgrant]

end

section
variable {s : State} {p : Port} (hstill : ∀ g, (s.seg g).still)

theorem nextAnswer_of_none {s : State} {p : Port} (h : (s.port p).addrWait = none) : nextAnswer s p = none := by
  unfold nextAnswer
  rw [h]

theorem nextClaim_of_phase {s : State} {p : Port} (h : (s.port p).phase ≠ .awaitGrant) : nextClaim s p = none := by
  unfold nextClaim
  rw [beq_false_of_ne h]
  rfl

theorem acquired_of_phase {s : State} {p : Port} (h : (s.port p).phase ≠ .awaitGrant) : acquired s p = false := by
  unfold acquired
  rw [beq_false_of_ne h]
  rfl

include hstill

/-- R39: the answer of a record that owns no segment any longer. -/
theorem micro_answer {w : AddrWait} (hw : (s.port p).addrWait = some w) (ho : ∀ g, owns s p g = false)
    (hothers : ∀ q, q ≠ p → (s.port q).addrWait = none) : micro s = some (answerAddress p w s) := by
  have hempty : (ownedSegs s p).isEmpty = true :=
    List.isEmpty_iff.mpr (List.filter_eq_nil_iff.mpr fun g _ => by rw [ho g]; nofun)
  have hnext : nextAnswer s p = some (p, w) := by
    unfold nextAnswer
    rw [hw]
    exact if_pos hempty
  have hanswer : Port.list.findSome? (nextAnswer s) = some (p, w) :=
    (findSome?_only (Port.mem_list p) fun q hq => nextAnswer_of_none (hothers q hq)).trans hnext
  unfold micro
  rw [findSome?_nextRefusal_of_still hstill, findSome?_nextGrant_of_still hstill, hanswer]

/-- R31: the end of an acquisition, nothing else being due. -/
theorem micro_last (hanswer : nextAnswer s p = none)
    (hothers : ∀ q, q ≠ p → nextAnswer s q = none ∧ nextClaim s q = none ∧ acquired s q = false)
    (hphase : (s.port p).phase = .awaitGrant) (hnone : claimingSegs s p = []) :
    micro s = some (s.updPort p fun r => { r with phase := .awaitTarget }) := by
  have hanswers : Port.list.findSome? (nextAnswer s) = none := List.findSome?_eq_none_iff.mpr fun q _ => by
    by_cases e : q = p
    · rw [e, hanswer]
    · exact (hothers q e).1
  have hself : nextClaim s p = none := by
    unfold nextClaim
    rw [hnone, List.head?_nil, Option.bind_none, ite_self]
  have hclaims : Port.list.findSome? (nextClaim s) = none := List.findSome?_eq_none_iff.mpr fun q _ => by
    by_cases e : q = p
    · rw [e, hself]
    · exact (hothers q e).2.1
  have hacquired : acquired s p = true := by
    unfold acquired
    rw [hphase, hnone]
    rfl
  have hfind : Port.list.find? (acquired s) = some p := by
    cases hf : Port.list.find? (acquired s) with
    | none => exact absurd hacquired (List.find?_eq_none.mp hf p (Port.mem_list p))
    | some q =>
      by_cases e : q = p
      · rw [e]
      · exact absurd ((List.find?_some hf).symm.trans (hothers q e).2.2) nofun
  unfold micro
  rw [findSome?_nextRefusal_of_still hstill, findSome?_nextGrant_of_still hstill, hanswers, hclaims, hfind]

variable (hanswers : ∀ q, (s.port q).addrWait = none) (hothers : ∀ q, q ≠ p → (s.port q).phase ≠ .awaitGrant)
include hanswers hothers

/-- R31, R94: the next claim of the one acquisition outstanding. -/
theorem micro_claim {g : Seg} (h : nextClaim s p = some (p, g)) : micro s = some (claim g (.port p) s) := by
  have hanswer : Port.list.findSome? (nextAnswer s) = none :=
    List.findSome?_eq_none_iff.mpr fun q _ => nextAnswer_of_none (hanswers q)
  have hclaim : Port.list.findSome? (nextClaim s) = some (p, g) :=
    (findSome?_only (Port.mem_list p) fun q hq => nextClaim_of_phase (hothers q hq)).trans h
  unfold micro
  rw [findSome?_nextRefusal_of_still hstill, findSome?_nextGrant_of_still hstill, hanswer, hclaim]

/-- R31: the end of the one acquisition outstanding. -/
theorem micro_acquired (hphase : (s.port p).phase = .awaitGrant) (hnone : claimingSegs s p = []) :
    micro s = some (s.updPort p fun r => { r with phase := .awaitTarget }) :=
  micro_last hstill (nextAnswer_of_none (hanswers p)) (fun q hq => ⟨nextAnswer_of_none (hanswers q),
    nextClaim_of_phase (hothers q hq), acquired_of_phase (hothers q hq)⟩) hphase hnone

end

/-- R31, R39: with nobody served, no answer due and every acquisition waiting, an event sets off nothing. -/
theorem settled_of_still {s : State} (hstill : ∀ g, (s.seg g).still) (hanswers : ∀ q, nextAnswer s q = none)
    (hphase : ∀ q, (s.port q).phase = .awaitGrant → nextClaim s q = none ∧ claimingSegs s q ≠ []) : Settled s := by
  refine settled_iff.mpr ⟨fun g => nextRefusal_of_still (hstill g), fun g => nextGrant_of_still (hstill g), hanswers,
    fun q => ?_, fun q => ?_⟩
  · by_cases h : (s.port q).phase = .awaitGrant
    · exact (hphase q h).1
    · exact nextClaim_of_phase h
  · by_cases h : (s.port q).phase = .awaitGrant
    · unfold acquired
      rw [List.isEmpty_eq_false_iff.mpr (hphase q h).2, Bool.and_false]
    · exact acquired_of_phase h

/-! ### The operations of the arbiter (R31, R81, R95) -/

@[simp] theorem claimingSegs_bus (s : State) (p : Port) (r : PortState) (f : Seg → SegState) :
    claimingSegs (s.bus p r f) p = Seg.list.filter fun g => r.legs.any fun l => l.seg == g && l.state == .claiming := by
  unfold claimingSegs
  rw [State.bus_port_self]

theorem unwait_bus (c : Claimant) (g : Seg) (s : State) (p : Port) (r : PortState) (f : Seg → SegState) :
    unwait c g (s.bus p r f)
      = s.bus p r fun h => if h = g then { f g with waiters := (f g).waiters.filter fun w => !(w == c) } else f h :=
  State.updSeg_bus ..

/-- A leg whose segment has been granted to it. -/
def Leg.activated (l : Leg) : Leg := { l with state := .active, down := crc8Start }

/-- R95, R109: the record whose leg on a segment has been granted it. -/
def PortState.granted (g : Seg) (r : PortState) : PortState :=
  r.withLegs (mapLegs (fun h => h == g) Leg.activated r.legs)

/-- R95, R109: a segment granted to a record. -/
def SegState.grantedTo (q : SegParams) (p : Port) (slot : Option Nat) (c : SegState) : SegState :=
  { c with
    owner := some (.port p), cond := .owned, activity := some (.addressing .waitFresh),
    foreignBusy := c.cond == .foreign, mode := q.mode, speed := q.speed, legSlot := slot }

theorem grantPort_bus (g : Seg) (p : Port) (s : State) (r : PortState) (f : Seg → SegState) :
    grantPort g p (s.bus p r f) = s.bus p (r.granted g) fun h =>
      if h = g then (f g).grantedTo (s.working.params.segs.get g) p (r.snapshot.map (·.slot)) else f h := by
  have hslot : slotOf (s.bus p r f) p = r.snapshot.map (·.slot) := by rw [slotOf, State.bus_port_self]
  unfold grantPort
  rw [hslot, State.updSeg_bus, updLeg_bus]
  rfl

theorem grantPort_eq (g : Seg) (p : Port) (s : State) :
    grantPort g p s = s.bus p ((s.port p).granted g) fun h =>
      if h = g then (s.seg g).grantedTo (s.working.params.segs.get g) p (slotOf s p) else s.seg h := by
  have hbus := grantPort_bus g p s (s.port p) s.seg
  rw [State.bus_self] at hbus
  exact hbus

theorem activeIn_activated {g h : Seg} (hne : h ≠ g) (ls : List Leg) :
    activeIn (mapLegs (fun k => k == g) Leg.activated ls) h = activeIn ls h := by
  unfold activeIn mapLegs
  rw [List.any_map]
  congr 1
  funext l
  simp only [Function.comp_apply]
  by_cases e : l.seg = g
  · have hl : (l.seg == h) = false := beq_false_of_ne fun e' => hne (e'.symm.trans e)
    rw [if_pos (beq_iff_eq.mpr e), hl]
    exact (congrArg (· && _) hl).trans (Bool.false_and _)
  · rw [if_neg (by rw [beq_false_of_ne e]; nofun)]

theorem active_granted_other {r : PortState} {g h : Seg} (hne : h ≠ g) : (r.granted g).active h = r.active h :=
  activeIn_activated hne r.legs

/-- A claim that is not to be placed: ENDED. -/
def Leg.unclaimed (l : Leg) : Leg := if l.state == .claiming then l.ended else l

theorem endClaiming_bus (p : Port) (s : State) (r : PortState) (f : Seg → SegState) :
    endClaiming p (s.bus p r f) = s.bus p (r.withLegs (r.legs.map Leg.unclaimed)) f := State.updPort_bus ..

theorem seg_unclaimed (l : Leg) : l.unclaimed.seg = l.seg := by
  unfold Leg.unclaimed
  split <;> rfl

theorem activeIn_unclaimed (ls : List Leg) : activeIn (ls.map Leg.unclaimed) = activeIn ls := by
  funext g
  unfold activeIn
  rw [List.any_map]
  congr 1
  funext l
  simp only [Function.comp_apply, Leg.unclaimed]
  by_cases hs : l.state = .claiming
  · rw [hs]
    rfl
  · rw [beq_false_of_ne hs, if_neg nofun]

/-- R31, R36, R81: the legs of an address phase that is given up. -/
def PortState.legsGivenUp (r : PortState) : List Leg :=
  r.legs.map fun l => if l.state = .claiming ∨ r.active l.seg = true then l.ended else l

theorem legsGivenUp_eq (r : PortState) :
    mapLegs r.active Leg.ended (r.legs.map Leg.unclaimed) = r.legsGivenUp := by
  unfold mapLegs PortState.legsGivenUp
  rw [List.map_map]
  refine List.map_congr_left fun l _ => ?_
  simp only [Function.comp_apply, seg_unclaimed]
  unfold Leg.unclaimed
  by_cases hc : l.state = .claiming
  · simp [hc, Leg.ended]
  · simp [hc]

/-- R31, R36: the segments of an address phase that is given up. -/
def segGivenUp (q : Params) (r : PortState) (f : Seg → SegState) (g : Seg) : SegState :=
  if r.active g then (f g).closedBy q g none else f g

/-- R31, R36: every claim and every leg ACTIVE is ended. -/
theorem endActive_endClaiming_bus (p : Port) (s : State) (r : PortState) (f : Seg → SegState) :
    endActive p noCheck (endClaiming p (s.bus p r f))
      = s.bus p (r.withLegs r.legsGivenUp) (segGivenUp s.working.params r f) := by
  have hactive : (r.withLegs (r.legs.map Leg.unclaimed)).active = r.active := activeIn_unclaimed r.legs
  rw [endClaiming_bus, endActive_bus, hactive]
  refine State.bus_congr _ _ ?_ fun g => ?_
  · show r.withLegs (mapLegs r.active Leg.ended (r.legs.map Leg.unclaimed)) = _
    rw [legsGivenUp_eq]
  · rw [bind_noCheck]
    rfl

/-- R31, R36, R81: the record whose address phase has been given up. -/
def PortState.addressGivenUp (r : PortState) : PortState :=
  { r with
    phase := .drain, legs := r.legsGivenUp, ackOut := some .nack, sclHeld := false, hold := none, inFlight := none,
    held := none, readStage := .none }

/-- R31, R81: a claim refused gives up the address phase, with SEG_REFUSED. -/
theorem failAddress_bus (p : Port) (g : Seg) (s : State) (r : PortState) (f : Seg → SegState) :
    failAddress p g (s.bus p r f)
      = (note .segRefused (some (.port p)) (some (.seg g)) (r.snapshot.map (·.slot)) 0#16 s).bus p r.addressGivenUp
        (segGivenUp s.working.params r f) := by
  have hslot : slotOf (s.bus p r f) p = r.snapshot.map (·.slot) := by rw [slotOf, State.bus_port_self]
  unfold failAddress notePort
  rw [hslot, endActive_endClaiming_bus, giveAck_bus, State.updPort_bus, note_bus, toDrain_bus]
  rfl

theorem failAddress_eq (p : Port) (g : Seg) (s : State) :
    failAddress p g s
      = (note .segRefused (some (.port p)) (some (.seg g)) (slotOf s p) 0#16 s).bus p (s.port p).addressGivenUp
        (segGivenUp s.working.params (s.port p) s.seg) := by
  have hbus := failAddress_bus p g s (s.port p) s.seg
  rw [State.bus_self] at hbus
  exact hbus

theorem state_legsGivenUp {r : PortState} {l : Leg} (h : l ∈ r.legsGivenUp) : l.state = .ended ∨ l.state = .aborted := by
  obtain ⟨l, hl, rfl⟩ := List.mem_map.mp h
  by_cases hc : l.state = .claiming ∨ r.active l.seg = true
  · rw [if_pos hc]
    exact .inl rfl
  · rw [if_neg hc]
    obtain ⟨hnc, hna⟩ := not_or.mp hc
    cases hs : l.state with
    | claiming => exact absurd hs hnc
    | active => exact absurd (List.any_eq_true.mpr ⟨l, hl, by rw [hs, beq_self_eq_true]; rfl⟩) hna
    | ended => exact .inl rfl
    | aborted => exact .inr rfl

theorem segs_legsGivenUp (r : PortState) : r.legsGivenUp.map (·.seg) = r.legs.map (·.seg) := by
  unfold PortState.legsGivenUp
  rw [List.map_map]
  refine List.map_congr_left fun l _ => ?_
  simp only [Function.comp_apply]
  split <;> rfl

theorem activeIn_eq_false {ls : List Leg} (h : ∀ l ∈ ls, l.state ≠ .active) (g : Seg) : activeIn ls g = false :=
  List.any_eq_false.mpr fun l hl => by rw [beq_false_of_ne (h l hl), Bool.and_false]; nofun

theorem active_addressGivenUp (r : PortState) (g : Seg) : r.addressGivenUp.active g = false :=
  activeIn_eq_false (fun l hl => by obtain h | h := state_legsGivenUp hl <;> rw [h] <;> nofun) g

/-! ### The answer of an address byte (R26 to R29, R39) -/

/-- R26 to R29: the record whose address byte has been answered. -/
def PortState.addressAnswered (r : PortState) (credit : Bool) : AddrWait → PortState
  | .mgmtWrite b =>
    if credit then
      { r with
        addrWait := none, phase := .mgmtWrite, snapshot := none, assembler := some (Assembler.start b), ackOut := some .ack,
        sclHeld := false }
    else { r with addrWait := none, phase := .offBus, snapshot := none, ackOut := some .nack, sclHeld := false }
  | .mgmtRead b =>
    { r with
      addrWait := none, phase := .mgmtRead, snapshot := none, readPos := some (ReadPos.start b r.responses),
      sdaByte := some (ReadPos.start b r.responses).current, ackOut := some .ack, sclHeld := false }
  | .miss => { r with addrWait := none, phase := .offBus, snapshot := none, ackOut := some .nack, sclHeld := false }
  | .denied _ | .noOffset _ =>
    { r with
      addrWait := none, phase := .drain, inFlight := none, held := none, readStage := .none, ackOut := some .nack,
      sclHeld := false }

/-- R28, R29: the notice with which an address byte is answered, if there is one. -/
def addressNoted (p : Port) (d : Dir) (s : State) : AddrWait → State
  | .mgmtWrite _ | .mgmtRead _ | .miss => s
  | .denied n => note .accessDenied (some (.port p)) none (some n) (dirDetail d) s
  | .noOffset n => note .policy (some (.port p)) none (some n) (policyCode .noOffset) s

theorem creditFree_bus (s : State) (p : Port) (r : PortState) (f : Seg → SegState) :
    creditFree (s.bus p r f) p = decide (accepted s p + r.responses.length < Config.creditMax) := by
  unfold creditFree
  rw [State.bus_port_self]
  rfl

theorem answerAddress_bus (p : Port) (w : AddrWait) (s : State) (r : PortState) (f : Seg → SegState) :
    answerAddress p w (s.bus p r f)
      = (addressNoted p r.dir s w).bus p (r.addressAnswered (creditFree (s.bus p r f) p) w) f := by
  unfold answerAddress
  rw [State.updPort_bus]
  cases w with
  | mgmtWrite b =>
    show answerMgmtWrite p b _ = _
    unfold answerMgmtWrite PortState.addressAnswered
    rw [creditFree_bus, creditFree_bus, State.updPort_bus, State.updPort_bus, giveAck_bus, giveAck_bus]
    dsimp only
    split <;> rfl
  | mgmtRead b =>
    show answerMgmtRead p b _ = _
    unfold answerMgmtRead
    rw [State.updPort_bus, giveAck_bus]
    rfl
  | miss =>
    dsimp only
    rw [State.updPort_bus, giveAck_bus]
    rfl
  | denied n =>
    dsimp only
    rw [giveAck_bus, State.bus_port_self, notePort, note_bus, toDrain_bus]
    rfl
  | noOffset n =>
    dsimp only
    rw [giveAck_bus, notePort, note_bus, toDrain_bus]
    rfl

theorem answerAddress_eq (p : Port) (w : AddrWait) (s : State) :
    answerAddress p w s
      = (addressNoted p (s.port p).dir s w).bus p ((s.port p).addressAnswered (creditFree s p) w) s.seg := by
  have hbus := answerAddress_bus p w s (s.port p) s.seg
  rw [State.bus_self] at hbus
  exact hbus

theorem legs_addressAnswered (r : PortState) (credit : Bool) (w : AddrWait) : (r.addressAnswered credit w).legs = r.legs := by
  cases w with
  | mgmtWrite b => cases credit <;> rfl
  | mgmtRead _ | miss | denied _ | noOffset _ => rfl

theorem onlyNotices_addressNoted (p : Port) (d : Dir) (s : State) (w : AddrWait) : OnlyNotices s (addressNoted p d s w) := by
  cases w with
  | mgmtWrite _ | mgmtRead _ | miss => rfl
  | denied _ | noOffset _ => exact onlyNotices_note ..

/-! ### What no event sets off -/

/-- Nothing changes but the Transaction Records, the segments, the resets handed off and the Notice Log. -/
def BusOnly (s t : State) : Prop :=
  t = { s with
    ports := t.ports, segs := t.segs, segResets := t.segResets, notices := t.notices, lost := t.lost, nextSeq := t.nextSeq }

namespace BusOnly
variable {s t : State}

theorem refl (s : State) : BusOnly s s := rfl

theorem trans {u : State} (h : BusOnly s t) (k : BusOnly t u) : BusOnly s u := by
  unfold BusOnly
  conv_lhs => rw [show u = _ from k, show t = _ from h]

theorem updSeg (s : State) (g : Seg) (k : SegState → SegState) : BusOnly s (s.updSeg g k) := rfl

theorem updPort (s : State) (p : Port) (k : PortState → PortState) : BusOnly s (s.updPort p k) := rfl

theorem bus {u : State} (h : OnlyNotices s u) (p : Port) (r : PortState) (f : Seg → SegState) : BusOnly s (u.bus p r f) := by
  have hu : BusOnly s u := by
    rw [show u = _ from h]
    rfl
  exact hu.trans rfl

theorem answerSegReset (g : Seg) (st : Status) (pl : List Byte) (s : State) : BusOnly s (answerSegReset g st pl s) := by
  unfold Machine.answerSegReset
  split <;> rfl

theorem unwait (c : Claimant) (g : Seg) (s : State) : BusOnly s (unwait c g s) := updSeg s g _

theorem refuse (g : Seg) (c : Claimant) (s : State) : BusOnly s (refuse g c s) := by
  refine (unwait c g s).trans ?_
  cases c with
  | port p =>
    show BusOnly _ (failAddress p g (Machine.unwait (.port p) g s))
    rw [failAddress_eq]
    exact bus (onlyNotices_note ..) ..
  | mgmt =>
    show BusOnly _ (refuseMgmt g (Machine.unwait .mgmt g s))
    unfold refuseMgmt
    split
    · exact answerSegReset ..
    · exact answerSegReset ..

theorem grant (g : Seg) (c : Claimant) (s : State) : BusOnly s (grant g c s) := by
  refine (unwait c g s).trans ?_
  cases c with
  | port p =>
    show BusOnly _ (grantPort g p (Machine.unwait (.port p) g s))
    rw [grantPort_eq]
    exact bus (OnlyNotices.refl _) ..
  | mgmt =>
    show BusOnly _ (grantMgmt g (Machine.unwait .mgmt g s))
    unfold grantMgmt
    split
    · exact updSeg ..
    · rw [beginRecovery_eq]
      exact updSeg ..

theorem claim (g : Seg) (c : Claimant) (s : State) : BusOnly s (claim g c s) := by
  unfold Machine.claim
  split
  · exact refuse g c s
  · split
    · exact grant g c s
    · exact updSeg ..

theorem answerAddress (p : Port) (w : AddrWait) (s : State) : BusOnly s (answerAddress p w s) := by
  rw [answerAddress_eq]
  exact bus (onlyNotices_addressNoted ..) ..

theorem micro (h : micro s = some t) : BusOnly s t := by
  unfold Machine.micro at h
  split at h
  · cases h
    exact refuse ..
  split at h
  · cases h
    exact grant ..
  split at h
  · cases h
    exact answerAddress ..
  split at h
  · cases h
    exact claim ..
  split at h
  · cases h
    exact updPort ..
  · cases h

theorem settle : ∀ (n : Nat) (s : State), BusOnly s (settle n s)
  | 0, s => refl s
  | n + 1, s => by
    cases hm : Machine.micro s with
    | none => rw [settle_of_none hm]; exact refl s
    | some t => rw [settle_step hm]; exact (micro hm).trans (settle n t)

theorem retime (s : State) : BusOnly s (retime s) :=
  have quiet (g : Seg) (s : State) : BusOnly s (retimeQuiet g s) := updSeg s g _
  have stall (p : Port) (s : State) : BusOnly s (retimeStall p s) := updPort s p _
  (quiet .s3 s).trans <| (quiet .s2 _).trans <| (quiet .s1 _).trans <| (quiet .s0 _).trans <|
    (stall .u1 _).trans (stall .u0 _)

theorem finish (s : State) : BusOnly s (finish s) := (settle settleFuel s).trans (retime _)

theorem cmdQueue (h : BusOnly s t) : t.cmdQueue = s.cmdQueue := by rw [h]

theorem run (h : BusOnly s t) : t.run = s.run := by rw [h]

theorem working (h : BusOnly s t) : t.working = s.working := by rw [h]

theorem executing (h : BusOnly s t) : t.executing = s.executing := by rw [h]

end BusOnly

end Sys2Proof.Machine
end

section
/-!
PROOFS. O46: the end of a recovery attempt and of its sequence (R97, R118, R119, R123, R180).
-/
namespace Sys2Proof.Machine

/-! ### A SEGMENT-RESET answered (R180) -/

section
variable (g : Seg) (status : Status) (payload : List Byte) (s : State)

theorem answerSegReset_none {g : Seg} {s : State} (h : (s.segResets.find? fun r => r.seg == g) = none) :
    answerSegReset g status payload s = s := by
  unfold answerSegReset
  rw [h]

theorem answerSegReset_some {g : Seg} {s : State} {r : SegReset} (h : (s.segResets.find? fun r => r.seg == g) = some r) :
    answerSegReset g status payload s
      = respond r.port status r.tag payload { s with segResets := s.segResets.filter fun x => !(x.seg == g) } := by
  unfold answerSegReset
  rw [h]

/-- R180: an answer to MGMT changes one port's responses and the resets handed off. -/
theorem answerSegReset_eq : answerSegReset g status payload s
    = { s with
      ports := (answerSegReset g status payload s).ports, segResets := (answerSegReset g status payload s).segResets } := by
  cases h : s.segResets.find? fun r => r.seg == g with
  | none => rw [answerSegReset_none _ _ h]
  | some r =>
    rw [answerSegReset_some _ _ h]
    rfl

theorem seg_answerSegReset (x : Seg) : (answerSegReset g status payload s).seg x = s.seg x := by
  rw [answerSegReset_eq]
  rfl

theorem port_answerSegReset (p : Port) :
    ∃ l, (answerSegReset g status payload s).port p = { s.port p with responses := l } := by
  cases h : s.segResets.find? fun r => r.seg == g with
  | none => exact ⟨_, by rw [answerSegReset_none _ _ h]⟩
  | some r =>
    rw [answerSegReset_some _ _ h]
    unfold respond
    rw [State.port_updPort]
    split
    next e => subst e; exact ⟨_, rfl⟩
    next => exact ⟨_, rfl⟩

theorem resetAnswered_congr {s u t : State} {r : Option SegReset} (hports : u.ports = s.ports)
    (hresets : u.segResets = s.segResets) (h : ResetAnswered u t g r status payload) :
    ResetAnswered s t g r status payload := by
  unfold ResetAnswered answered at *
  dsimp only at *
  rw [hports, hresets] at h
  exact h

end

/-! ### The end of a sequence (R97, R119) -/

/-- R97, R119: a segment whose sequence has ended in success. -/
def SegState.recoveredBy (mode : SegMode) (c : SegState) : SegState :=
  { c with
    owner := none, attempts := 0, attemptLimit := none, foreignBusy := false, mode := mode, lines := ⟨true, true⟩,
    pendingDisable := false, cond := if c.pendingDisable then .disabled else .idle }

/-- R97, R119: a segment whose sequence has ended in its third failure. -/
def SegState.faultedBy (faults : Nat) (c : SegState) : SegState :=
  { c with
    owner := none, attempts := 0, attemptLimit := none, faults := faults, foreignBusy := false, pendingDisable := false,
    cond := .faulted }

/-- R119, R180: a sequence ends with its notice and, under MGMT, with its answer. -/
def sequenceEnded (kind : Kind) (d : Half) (k : SegState → SegState) (status : Status) (payload : List Byte) (g : Seg)
    (s : State) : State :=
  if (s.seg g).owner == some .mgmt then
    answerSegReset g status payload ((note kind none (some (.seg g)) none d s).updSeg g k)
  else (note kind none (some (.seg g)) none d s).updSeg g k

theorem recovered_eq (g : Seg) (n : Nat) (s : State) :
    recovered g n s = sequenceEnded .segRecovered (BitVec.ofNat 16 n)
      (SegState.recoveredBy (s.working.params.segs.get g).mode) .ok [segCode g, byteOf n] g s := by
  rfl

theorem faulted_eq (g : Seg) (s : State) :
    faulted g s = sequenceEnded .segFaulted (BitVec.ofNat 16 (faultsAfter (s.seg g).faults))
      (SegState.faultedBy (faultsAfter (s.seg g).faults)) .recoveryFailed
      [segCode g, byteOf (faultsAfter (s.seg g).faults)] g s := rfl

section
variable (kind : Kind) (d : Half) (k : SegState → SegState) (status : Status) (payload : List Byte) (g : Seg) (s : State)

theorem sequenceEnded_mgmt (h : (s.seg g).owner = some .mgmt) : sequenceEnded kind d k status payload g s
    = answerSegReset g status payload ((note kind none (some (.seg g)) none d s).updSeg g k) :=
  if_pos (by rw [h]; rfl)

theorem sequenceEnded_unowned (h : (s.seg g).owner = none) : sequenceEnded kind d k status payload g s
    = (note kind none (some (.seg g)) none d s).updSeg g k := if_neg (by rw [h]; nofun)

theorem sequenceEnded_eq : sequenceEnded kind d k status payload g s
    = { s with
      ports := (sequenceEnded kind d k status payload g s).ports,
      segs := (s.updSeg g k).segs,
      segResets := (sequenceEnded kind d k status payload g s).segResets,
      notices := (note kind none (some (.seg g)) none d s).notices,
      lost := (note kind none (some (.seg g)) none d s).lost,
      nextSeq := (note kind none (some (.seg g)) none d s).nextSeq } := by
  have hnote := onlyNotices_note kind none (some (.seg g)) none d s
  have hsegs : (note kind none (some (.seg g)) none d s).segs = s.segs := by rw [hnote]
  have hu : (note kind none (some (.seg g)) none d s).updSeg g k = { s with
      segs := (s.updSeg g k).segs, notices := (note kind none (some (.seg g)) none d s).notices,
      lost := (note kind none (some (.seg g)) none d s).lost,
      nextSeq := (note kind none (some (.seg g)) none d s).nextSeq } := by
    unfold State.updSeg
    rw [hsegs]
    conv_lhs => rw [show note kind none (some (.seg g)) none d s = _ from hnote]
  unfold sequenceEnded
  split
  · rw [answerSegReset_eq, hu]
  · rw [hu]

theorem busOnly_sequenceEnded : BusOnly s (sequenceEnded kind d k status payload g s) := by
  rw [sequenceEnded_eq]
  rfl

theorem seg_sequenceEnded (x : Seg) :
    (sequenceEnded kind d k status payload g s).seg x = if x = g then k (s.seg g) else s.seg x := by
  rw [sequenceEnded_eq]
  refine (State.seg_updSeg ..).trans ?_
  split
  next hx => subst hx; rfl
  next => rfl

theorem port_sequenceEnded (p : Port) :
    ∃ l, (sequenceEnded kind d k status payload g s).port p = { s.port p with responses := l } := by
  have hport : ((note kind none (some (.seg g)) none d s).updSeg g k).port p = s.port p :=
    note_port kind none (some (.seg g)) none d s p
  unfold sequenceEnded
  split
  · obtain ⟨l, hl⟩ := port_answerSegReset g status payload ((note kind none (some (.seg g)) none d s).updSeg g k) p
    rw [hport] at hl
    exact ⟨l, hl⟩
  · exact ⟨_, hport⟩

theorem recorded_sequenceEnded :
    Recorded kind none (some (.seg g)) none d s (sequenceEnded kind d k status payload g s) := by
  rw [sequenceEnded_eq]
  exact recorded_note ..

theorem resetAnswered_sequenceEnded {r : Option SegReset} (h : (s.seg g).owner = none ∧ r = none
      ∨ (s.seg g).owner = some .mgmt ∧ r = s.segResets.find? fun x => x.seg == g) :
    ResetAnswered s (sequenceEnded kind d k status payload g s) g r status payload := by
  have hnote := onlyNotices_note kind none (some (.seg g)) none d s
  obtain ⟨ho, rfl⟩ | ⟨ho, rfl⟩ := h
  · rw [sequenceEnded_unowned _ _ _ _ _ _ _ ho]
    exact ⟨by rw [hnote]; rfl, by rw [hnote]; rfl⟩
  · rw [sequenceEnded_mgmt _ _ _ _ _ _ _ ho]
    have hports : ((note kind none (some (.seg g)) none d s).updSeg g k).ports = s.ports := by rw [hnote]; rfl
    have hresets : ((note kind none (some (.seg g)) none d s).updSeg g k).segResets = s.segResets := by rw [hnote]; rfl
    rw [← hresets]
    exact resetAnswered_congr g status payload hports hresets (resetAnswered_answerSegReset ..)

/-- R59, R114, R119: the end of a sequence sets off nothing where nobody waits, and no timer. -/
theorem finish_sequenceEnded (hunc : Uncontended s) (hl : TimersLaw s)
    (howner : ∀ p, ((k (s.seg g)).owner == some (.port p)) = ((s.seg g).owner == some (.port p)))
    (hwaiters : (k (s.seg g)).waiters = []) (hquiet : (k (s.seg g)).quiet = none)
    (hruns : (k (s.seg g)).quietRuns = false) :
    finish (sequenceEnded kind d k status payload g s) = sequenceEnded kind d k status payload g s := by
  have hseg := seg_sequenceEnded kind d k status payload g s
  have hport := port_sequenceEnded kind d k status payload g s
  generalize sequenceEnded kind d k status payload g s = u at hseg hport
  obtain ⟨hw, hp⟩ := hunc
  have howns (p : Port) : owns u p = owns s p := funext fun x => by
    unfold owns
    rw [hseg]
    split
    next e => rw [e]; exact howner p
    next => rfl
  have hu : Uncontended u := by
    refine ⟨fun x => ?_, fun p => ?_⟩
    · rw [hseg]
      split
      · exact hwaiters
      · exact hw x
    · obtain ⟨l, hl⟩ := hport p
      rw [hl]
      exact hp p
  refine (finish_of_uncontended hu).trans (retime_of_law ⟨fun p => ?_, fun x => ?_⟩)
  · obtain ⟨l, hpl⟩ := hport p
    have hs := hl.1 p
    unfold stallRuns ownedSegs at hs ⊢
    rw [howns, hpl]
    exact hs
  · rw [hseg]
    split
    · rw [hquiet, hruns]
      rfl
    · exact hl.2 x

end

/-! ### The end of an attempt (R118, R119) -/

theorem quietRuns_unwatched {c : SegState} (hi : c.cond ≠ .idle) (hf : c.cond ≠ .foreign) (ho : c.cond ≠ .owned) :
    c.quietRuns = false := by
  simp [SegState.quietRuns, SegState.watched, SegState.waiting, hi, hf, ho]

theorem quietRuns_recovering {c : SegState} (h : c.cond = .recovering) : c.quietRuns = false :=
  quietRuns_unwatched (by rw [h]; nofun) (by rw [h]; nofun) (by rw [h]; nofun)

theorem TimersLaw.quiet_recovering {s : State} (hl : TimersLaw s) {g : Seg} (h : (s.seg g).cond = .recovering) :
    (s.seg g).quiet = none := by
  have hq := hl.2 g
  rw [quietRuns_recovering h] at hq
  exact Option.isNone_iff_eq_none.mp (by rw [← Option.not_isSome, hq]; rfl)

theorem quietRuns_recoveredBy (mode : SegMode) (c : SegState) : (c.recoveredBy mode).quietRuns = false := by
  cases hp : c.pendingDisable with
  | true =>
    refine quietRuns_disabled ?_
    show (if c.pendingDisable = true then SegCondition.disabled else .idle) = .disabled
    rw [if_pos hp]
  | false =>
    have hc : (c.recoveredBy mode).cond = .idle := if_neg (by rw [hp]; nofun)
    unfold SegState.quietRuns
    rw [hc]
    exact Bool.and_false _

theorem uncontended_sampleLines {s : State} (h : Uncontended s) (g : Seg) (l : Lines) : Uncontended (sampleLines g l s) := by
  refine ⟨fun x => ?_, h.2⟩
  unfold sampleLines
  rw [State.seg_updSeg]
  split
  next e => exact h.1 g
  next => exact h.1 x

theorem timersLaw_sampleLines {s : State} (hl : TimersLaw s) {g : Seg} (hc : (s.seg g).cond = .recovering) (l : Lines) :
    TimersLaw (sampleLines g l s) := by
  refine ⟨StallLaw.of_owns hl.1 rfl (owns_updSeg fun _ => rfl), fun x => ?_⟩
  unfold sampleLines
  rw [State.seg_updSeg]
  split
  next e =>
    show (s.seg g).quiet.isSome = _
    rw [hl.quiet_recovering hc]
    exact (quietRuns_recovering (by exact hc)).symm
  next => exact hl.2 x

/-- A failed attempt is followed by another below three. -/
def SegState.attemptedAgain (q : Params) (g : Seg) (c : SegState) : SegState :=
  { c with attempts := c.attempts + 1, speed := (q.segs.get g).speed, attemptLimit := some q.clockLimit }

theorem attemptFailed_again {g : Seg} {s : State} (h : (s.seg g).attempts + 1 < 3) :
    attemptFailed g s = s.updSeg g (SegState.attemptedAgain s.working.params g) := by
  unfold attemptFailed startAttempt
  rw [if_pos h, State.updSeg_updSeg]
  rfl

theorem attemptFailed_last {g : Seg} {s : State} (h : ¬(s.seg g).attempts + 1 < 3) : attemptFailed g s = faulted g s :=
  if_neg h

theorem exec_recoveryAttemptEnd {g : Seg} {s : State} (hrun : s.run = .running) (hc : (s.seg g).cond = .recovering)
    (lines : Lines) :
    exec (.recoveryAttemptEnd g lines) s = .next (finish (attemptEnded g lines (takeDueDisable g s))) := by
  show Host.Outcome.next (whenRunning s _) = _
  rw [whenRunning_running hrun, if_pos hc]

theorem exec_clockLimitExpiry_recovering {g : Seg} {s : State} (hrun : s.run = .running)
    (hc : (s.seg g).cond = .recovering) : exec (.clockLimitExpiry g) s = .next (finish (attemptFailed g s)) := by
  show Host.Outcome.next (whenRunning s _) = _
  rw [whenRunning_running hrun, if_pos hc]

theorem attemptEnded_high {g : Seg} {lines : Lines} (h : lines.bothHigh = true) (s : State) :
    attemptEnded g lines s = recovered g ((s.seg g).attempts + 1) s := if_pos h

theorem attemptEnded_low {g : Seg} {lines : Lines} (h : lines.bothHigh = false) (s : State) :
    attemptEnded g lines s = attemptFailed g (sampleLines g lines s) := if_neg (by rw [h]; nofun)

theorem lines_eq_of_bothHigh {l : Lines} (h : l.bothHigh = true) : l = ⟨true, true⟩ := by
  obtain ⟨hscl, hsda⟩ := Bool.and_eq_true_iff.mp h
  cases l
  exact congrArg₂ Lines.mk hscl hsda

/-- R118, R119: an attempt ends by its final check or by the clock limit. -/
theorem exec_attemptEnd {s : State} {g : Seg} {c : Instr} {lines seen : Lines} {failed : Bool} (hrun : s.run = .running)
    (hcond : (s.seg g).cond = .recovering)
    (hc : c = .clockLimitExpiry g ∧ failed = true ∧ seen = (s.seg g).lines
      ∨ c = .recoveryAttemptEnd g lines ∧ disableDue g s = false ∧ failed = !lines.bothHigh ∧ seen = lines) :
    (failed = false → seen = ⟨true, true⟩ ∧ exec c s = .next (finish (recovered g ((s.seg g).attempts + 1) s)))
      ∧ (failed = true → exec c s = .next (finish (attemptFailed g (sampleLines g seen s)))) := by
  obtain ⟨rfl, rfl, rfl⟩ | ⟨rfl, hdue, rfl, rfl⟩ := hc
  · have hsame : sampleLines g (s.seg g).lines s = s := State.updSeg_self rfl
    exact ⟨nofun, fun _ => by rw [hsame]; exact exec_clockLimitExpiry_recovering hrun hcond⟩
  · have hexec := exec_recoveryAttemptEnd hrun hcond seen
    rw [takeDueDisable_none hdue] at hexec
    refine ⟨fun h => ?_, fun h => ?_⟩
    · have hhigh : seen.bothHigh = true := by simpa using h
      exact ⟨lines_eq_of_bothHigh hhigh, by rw [hexec, attemptEnded_high hhigh]⟩
    · have hlow : seen.bothHigh = false := by simpa using h
      rw [hexec, attemptEnded_low hlow]

/-! ### A disable that falls together with a final check (R123) -/

/-- R97, R99: a segment in its recovery, marked or not, with no leg ACTIVE on it. -/
structure StillRecovering (marked : Bool) (g : Seg) (s : State) : Prop where
  cond : (s.seg g).cond = .recovering
  mark : (s.seg g).pendingDisable = marked
  inactive : ∀ q, legActive s q g = false

namespace StillRecovering
variable {marked : Bool} {g : Seg} {s : State}

theorem congr {t : State} (h : StillRecovering marked g s) (hc : (t.seg g).cond = (s.seg g).cond)
    (hm : (t.seg g).pendingDisable = (s.seg g).pendingDisable) (ha : ∀ q, legActive t q g = legActive s q g) :
    StillRecovering marked g t := ⟨hc.trans h.cond, hm.trans h.mark, fun q => (ha q).trans (h.inactive q)⟩

theorem not_free (h : StillRecovering marked g s) : (s.seg g).free = false := by
  unfold SegState.free
  rw [h.cond]
  exact Bool.and_false _

theorem ne_of_free (h : StillRecovering marked g s) {x : Seg} (hf : (s.seg x).free = true) : x ≠ g := by
  rintro rfl
  exact absurd (hf.symm.trans h.not_free) nofun

theorem legActive_bus_ne (u : State) {p q : Port} (r : PortState) (f : Seg → SegState) (hq : q ≠ p) (x : Seg) :
    legActive (u.bus p r f) q x = legActive u q x := by rw [legActive_eq, State.bus_port_ne _ _ _ hq, legActive_eq]

/-- A change of one record and the segments that leaves this segment and gives no leg ACTIVE on it. -/
theorem bus {u : State} (h : StillRecovering marked g s) (hports : ∀ q, u.port q = s.port q) {p : Port} {r : PortState}
    {f : Seg → SegState} (hr : r.active g = false) (hf : f g = s.seg g) : StillRecovering marked g (u.bus p r f) := by
  refine ⟨by rw [State.bus_seg, hf, h.cond], by rw [State.bus_seg, hf, h.mark], fun q => ?_⟩
  by_cases hq : q = p
  · rw [hq, legActive_bus, hr]
  · rw [legActive_bus_ne u r f hq, legActive_eq, hports]
    exact h.inactive q

theorem note (h : StillRecovering marked g s) (k : Kind) (a : Option PortPos) (b : Option SegPos) (n : Option Nat) (d : Half) :
    StillRecovering marked g (note k a b n d s) :=
  h.congr (by rw [note_seg]) (by rw [note_seg]) fun q => legActive_note ..

theorem updSeg (h : StillRecovering marked g s) {x : Seg} {k : SegState → SegState}
    (hk : x = g → (k (s.seg g)).cond = (s.seg g).cond ∧ (k (s.seg g)).pendingDisable = (s.seg g).pendingDisable) :
    StillRecovering marked g (s.updSeg x k) := by
  by_cases hx : x = g
  · subst hx
    obtain ⟨hc, hm⟩ := hk rfl
    exact h.congr (by rw [State.seg_updSeg_self]; exact hc) (by rw [State.seg_updSeg_self]; exact hm) fun q => rfl
  · have hseg : (s.updSeg x k).seg g = s.seg g := by rw [State.seg_updSeg, if_neg fun e => hx e.symm]
    exact h.congr (by rw [hseg]) (by rw [hseg]) fun q => rfl

theorem unwait (h : StillRecovering marked g s) (c : Claimant) (x : Seg) : StillRecovering marked g (unwait c x s) :=
  h.updSeg fun _ => ⟨rfl, rfl⟩

theorem answerSegReset (h : StillRecovering marked g s) (x : Seg) (st : Status) (pl : List Byte) :
    StillRecovering marked g (answerSegReset x st pl s) := by
  refine h.congr (by rw [seg_answerSegReset]) (by rw [seg_answerSegReset]) fun q => ?_
  obtain ⟨l, hl⟩ := port_answerSegReset x st pl s q
  rw [legActive_eq, hl]
  rfl

theorem refuse (h : StillRecovering marked g s) (x : Seg) (c : Claimant) : StillRecovering marked g (refuse x c s) := by
  have hu := h.unwait c x
  cases c with
  | port p =>
    show StillRecovering marked g (failAddress p x (Machine.unwait (.port p) x s))
    generalize Machine.unwait (.port p) x s = u at hu
    rw [failAddress_eq]
    refine hu.bus (fun q => note_port ..) (active_addressGivenUp _ g) (if_neg ?_)
    rw [← legActive_eq, hu.inactive p]
    nofun
  | mgmt =>
    show StillRecovering marked g (refuseMgmt x (Machine.unwait .mgmt x s))
    unfold refuseMgmt
    split
    · exact hu.answerSegReset ..
    · exact hu.answerSegReset ..

theorem grant (h : StillRecovering marked g s) {x : Seg} (hf : (s.seg x).free = true) (c : Claimant) :
    StillRecovering marked g (grant x c s) := by
  have hx := h.ne_of_free hf
  have hu := h.unwait c x
  cases c with
  | port p =>
    show StillRecovering marked g (grantPort x p (Machine.unwait (.port p) x s))
    generalize Machine.unwait (.port p) x s = u at hu
    rw [grantPort_eq]
    refine hu.bus (fun _ => rfl) ?_ (if_neg hx.symm)
    rw [active_granted_other hx.symm]
    exact hu.inactive p
  | mgmt =>
    show StillRecovering marked g (grantMgmt x (Machine.unwait .mgmt x s))
    unfold grantMgmt
    split
    · exact hu.updSeg fun e => absurd e hx
    · rw [beginRecovery_eq]
      exact hu.updSeg fun e => absurd e hx

theorem claim (h : StillRecovering marked g s) (x : Seg) (c : Claimant) : StillRecovering marked g (claim x c s) := by
  unfold Machine.claim
  split
  · exact h.refuse x c
  · split
    next hf => exact h.grant hf c
    next => exact h.updSeg fun _ => ⟨rfl, rfl⟩

theorem answerAddress (h : StillRecovering marked g s) (p : Port) (w : AddrWait) :
    StillRecovering marked g (answerAddress p w s) := by
  have hnote := onlyNotices_addressNoted p (s.port p).dir s w
  rw [answerAddress_eq]
  refine h.bus (fun q => by rw [hnote]; rfl) ?_ rfl
  rw [PortState.active_eq, legs_addressAnswered]
  exact h.inactive p

theorem micro (h : StillRecovering marked g s) {t : State} (ht : micro s = some t) : StillRecovering marked g t := by
  unfold Machine.micro at ht
  split at ht
  · cases ht
    exact h.refuse ..
  split at ht
  · rename_i x c hf
    cases ht
    obtain ⟨y, -, hy⟩ := List.exists_of_findSome?_eq_some hf
    obtain ⟨rfl, hfree⟩ := free_of_nextGrant hy
    exact h.grant hfree c
  split at ht
  · cases ht
    exact h.answerAddress ..
  split at ht
  · cases ht
    exact h.claim ..
  split at ht
  · cases ht
    rw [State.updPort_eq_bus]
    exact h.bus (fun _ => rfl) (h.inactive _) rfl
  · cases ht
where
  /-- R96: what is granted is free. -/
  free_of_nextGrant {s : State} {x y : Seg} {c : Claimant} (h : nextGrant s y = some (x, c)) :
      y = x ∧ (s.seg x).free = true := by
    unfold nextGrant at h
    split at h
    · cases h
    split at h
    next hf => cases h; exact ⟨rfl, hf⟩
    next => cases h

theorem settle : ∀ (n : Nat) {s : State}, StillRecovering marked g s → StillRecovering marked g (settle n s)
  | 0, _, h => h
  | n + 1, s, h => by
    cases hm : Machine.micro s with
    | none => rw [settle_of_none hm]; exact h
    | some t => rw [settle_step hm]; exact settle n (h.micro hm)

theorem finish (h : StillRecovering marked g s) : StillRecovering marked g (finish s) := by
  have hs := h.settle settleFuel
  unfold Machine.finish
  generalize Machine.settle settleFuel s = u at hs
  refine hs.congr (by rw [seg_retime]) (by rw [seg_retime]) fun q => ?_
  rw [legActive_eq, port_retime]
  rfl

end StillRecovering

/-- R123, R181: a SEGMENT-DISABLE that marks a segment in its recovery. -/
theorem segmentDisable_marks {s : State} {g : Seg} {p : Port} {tag : Byte} {rest : List QEntry}
    (h : HeadFrame s p .segmentDisable tag [byteOf (segNumber g)] rest) (hc : (s.seg g).cond = .recovering)
    (hlegs : ∀ q, legActive s q g = false) :
    StillRecovering true g (runFrame .segmentDisable (withSegment segmentDisable) s)
      ∧ (runFrame .segmentDisable (withSegment segmentDisable) s).cmdQueue = rest
      ∧ (runFrame .segmentDisable (withSegment segmentDisable) s).run = .running := by
  let e : QEntry := .frame p .segmentDisable tag [byteOf (segNumber g)]
  have hrun := h.run (withSegment segmentDisable)
  rw [whenRunning_running h.1] at hrun
  have hbody : withSegment segmentDisable p tag [byteOf (segNumber g)] (takeHead e rest s)
      = respond p .ok tag (segReport ((takeHead e rest s).updSeg g takeOut) g) (finish ((takeHead e rest s).updSeg g takeOut)) :=
    (withSegment_seg ..).trans (if_neg (by show (s.seg g).cond ≠ _; rw [hc]; nofun))
  have hmarked : StillRecovering true g ((takeHead e rest s).updSeg g takeOut) := by
    have hseg : ((takeHead e rest s).updSeg g takeOut).seg g = { s.seg g with pendingDisable := true } :=
      (State.seg_updSeg_self ..).trans (takeOut_busy (.inr hc))
    exact ⟨by rw [hseg]; exact hc, by rw [hseg], hlegs⟩
  have hbus := BusOnly.finish ((takeHead e rest s).updSeg g takeOut)
  rw [hrun, hbody]
  have hfin := hmarked.finish
  have hqueue : (finish ((takeHead e rest s).updSeg g takeOut)).cmdQueue = rest := hbus.cmdQueue
  have hrunning : (finish ((takeHead e rest s).updSeg g takeOut)).run = .running := hbus.run.trans h.1
  generalize finish _ = u at hfin hqueue hrunning
  refine ⟨hfin.congr rfl rfl fun q => ?_, hqueue, hrunning⟩
  show legActive (respond p .ok tag _ u) q g = _
  unfold respond
  rw [legActive_eq, State.port_updPort]
  split
  next hq => rw [hq]; rfl
  next => rfl

namespace Laws

/-- Settles O46: the attempt's end by its outcome and the attempts before it; and a disable that is due, taken before or at the check. -/
theorem recoveryAttempt : Obligations.RecoveryAttempt := by
  refine ⟨fun s g r c lines seen failed faults hrun hcond hattempts hunc hl howner hc hfaults => ?_,
    fun s g lines p tag rest h hcond hpend hlegs => ?_⟩
  · obtain ⟨hgood, hbad⟩ := exec_attemptEnd hrun hcond hc
    have hquiet := hl.quiet_recovering hcond
    have hwaiters := hunc.1 g
    have hown (q : Port) : (none == some (Claimant.port q)) = ((s.seg g).owner == some (.port q)) := by
      obtain ⟨ho, -⟩ | ⟨ho, -⟩ := howner
      · rw [ho]
      · rw [ho]
        rfl
    cases failed with
    | false =>
      obtain ⟨rfl, hexec⟩ := hgood rfl
      rw [recovered_eq, finish_sequenceEnded _ _ (SegState.recoveredBy _) _ _ _ _ hunc hl hown hwaiters hquiet
        (quietRuns_recoveredBy ..)] at hexec
      exact ⟨_, hexec, fun k hk => (seg_sequenceEnded ..).trans (if_neg hk), busOnly_sequenceEnded .., fun _ =>
        ⟨(seg_sequenceEnded ..).trans (if_pos rfl), recorded_sequenceEnded ..,
          resetAnswered_sequenceEnded _ _ _ _ _ _ _ howner⟩, nofun, nofun⟩
    | true =>
      have hexec := hbad rfl
      by_cases hagain : (s.seg g).attempts + 1 < 3
      · have hfailed : attemptFailed g (sampleLines g seen s) = s.updSeg g fun c =>
            SegState.attemptedAgain s.working.params g { c with lines := seen } := by
          have hsampled : ((sampleLines g seen s).seg g).attempts = (s.seg g).attempts := by
            unfold sampleLines
            rw [State.seg_updSeg_self]
          rw [attemptFailed_again (by rw [hsampled]; exact hagain)]
          unfold sampleLines
          rw [State.updSeg_updSeg]
          rfl
        rw [hfailed, finish_updSeg (fun _ => rfl) (settled_of_uncontended hunc) (fun _ => rfl)
          fun hw => absurd hwaiters hw] at hexec
        obtain ⟨heq, hself, hother⟩ := retime_updSeg hl (g := g)
          (k := fun c => SegState.attemptedAgain s.working.params g { c with lines := seen }) fun _ => rfl
        refine ⟨_, hexec, hother, ?_, nofun, fun _ _ => ⟨?_, onlySeg_of heq hother⟩, fun _ h2 => absurd hagain (by omega)⟩
        · rw [heq]
        · rw [hself]
          exact retimed_same (hl.2 g) rfl
            ((quietRuns_recovering (by exact hcond)).trans (quietRuns_recovering hcond).symm)
      · have hv := uncontended_sampleLines hunc g seen
        have hlv := timersLaw_sampleLines hl hcond seen
        have hseg : (sampleLines g seen s).seg g = { s.seg g with lines := seen } := State.seg_updSeg_self ..
        rw [attemptFailed_last (by rw [hseg]; exact hagain), faulted_eq, hseg, finish_sequenceEnded _ _ _ _ _ _ _ hv hlv
          (fun q => by rw [hseg]; exact hown q) (by rw [hseg]; exact hwaiters) (by rw [hseg]; exact hquiet)
          (by rw [hseg]; exact quietRuns_unwatched nofun nofun nofun)] at hexec
        have hfaults' : faultsAfter (s.seg g).faults = faults := hfaults.symm
        rw [hfaults'] at hexec
        refine ⟨_, hexec, fun k hk => ?_, ?_, nofun, fun _ h2 => absurd h2 (by omega), fun _ _ => ⟨?_, ?_, ?_⟩⟩
        · exact (seg_sequenceEnded ..).trans ((if_neg hk).trans ((State.seg_updSeg ..).trans (if_neg hk)))
        · exact (BusOnly.updSeg s g _).trans (busOnly_sequenceEnded ..)
        · exact (seg_sequenceEnded ..).trans ((if_pos rfl).trans (congrArg (SegState.faultedBy faults) hseg))
        · exact recorded_sequenceEnded .segFaulted _ _ _ _ g (sampleLines g seen s)
        · refine resetAnswered_sequenceEnded _ _ _ _ _ _ (sampleLines g seen s) ?_
          rw [hseg]
          exact howner
  · obtain ⟨hmarked, hqueue, hrunning⟩ := segmentDisable_marks h hcond hlegs
    refine ⟨_, congrArg Host.Outcome.next (whenRunning_running h.1 _), hmarked.cond, hmarked.mark, hqueue, ?_⟩
    rw [exec_recoveryAttemptEnd h.1 hcond, exec_recoveryAttemptEnd hrunning hmarked.cond,
      takeDueDisable_none (disableDue_marked hmarked.mark)]
    unfold takeDueDisable
    rw [if_pos (disableDue_head h hpend)]

end Laws

end Sys2Proof.Machine
end

section
/-!
PROOFS. An address byte and its decision as values of one record and of the segments, and the claims of a routed address (R25, R30, R31, R38,
R39, R93 to R95).
-/
namespace Sys2Proof.Machine

/-! ### What an address byte sets (R19, R30, R38, R39) -/

/-- R19, R63: the record as it takes an address byte. -/
def PortState.addressed (r : PortState) (a : Addr) (d : Dir) : PortState :=
  { r with
    dir := d, count := 0, held := none, prevSlot := none, earlyAddr := none, up := crc8 r.up (addressByteOf a d) }

/-- R39: the record whose answer waits for its segments' closing STOPs. -/
def PortState.awaitingClose (r : PortState) (w : AddrWait) : PortState :=
  { r with
    legs := mapLegs r.active Leg.ended r.legs, sclHeld := true, stall := none, addrWait := some w, pointer := none }

/-- R30, R38: the record as a routed address is taken, its legs as they then stand. -/
def PortState.routed (r : PortState) (limit : Nat) (sn : Snapshot) (phase : Phase) (legs : List Leg) : PortState :=
  { r with
    phase := phase, snapshot := some sn, hold := some limit, sclHeld := true, stall := none, legs := legs,
    readRemaining := if sn.entry.check = .regen ∧ r.dir = .read then sn.entry.readLen.getD 0 else r.readRemaining }

/-- R13, R37: the record with the offset pointer that its decision finds. -/
def PortState.carrying (r : PortState) (n : Option Nat) : PortState := { r with pointer := n }

/-- R38: the segments of the legs kept, each to see a repeated START. -/
def reopened (limit : Nat) (slot : Nat) (r : PortState) (f : Seg → SegState) (g : Seg) : SegState :=
  if r.active g then
    { f g with activity := some (.addressing .waitRepeated), legSlot := some slot, clock := some limit }
  else f g

/-- R38: the legs of a list, those ACTIVE rebuilt. -/
def rebuiltLegs (ls : List Leg) : List Leg := ls.map fun l => if l.state == .active then rebuiltLeg l else l

theorem takeAddress_bus (p : Port) (a : Addr) (d : Dir) (s : State) (r : PortState) (f : Seg → SegState) :
    takeAddress p a d (s.bus p r f) = s.bus p (r.addressed a d) f := State.updPort_bus ..

theorem endActive_noCheck_bus (p : Port) (s : State) (r : PortState) (f : Seg → SegState) :
    endActive p noCheck (s.bus p r f)
      = s.bus p (r.withLegs (mapLegs r.active Leg.ended r.legs)) (segGivenUp s.working.params r f) := by
  rw [endActive_bus]
  exact State.bus_congr _ _ rfl fun g => by rw [bind_noCheck]; rfl

theorem awaitClosed_bus (p : Port) (w : AddrWait) (s : State) (r : PortState) (f : Seg → SegState) :
    awaitClosed p w (s.bus p r f) = s.bus p (r.awaitingClose w) (segGivenUp s.working.params r f) := by
  unfold awaitClosed
  rw [holdScl_bus, endActive_noCheck_bus, State.updPort_bus]
  rfl

theorem takeRoute_bus (p : Port) (sn : Snapshot) (phase : Phase) (s : State) (r : PortState) (f : Seg → SegState) :
    takeRoute p sn phase (s.bus p r f) = s.bus p (r.routed s.working.params.holdLimit sn phase r.legs) f :=
  State.updPort_bus ..

theorem reopen_bus (p : Port) (slot : Nat) (s : State) (r : PortState) (f : Seg → SegState) :
    reopen p slot (s.bus p r f) = s.bus p r (reopened s.working.params.clockLimit slot r f) := by
  unfold reopen
  rw [activeSegs_bus]
  exact foldl_filter_updSeg_bus (fun q _ c =>
    { c with activity := some (.addressing .waitRepeated), legSlot := some slot, clock := some q.clockLimit })
    (fun t g => startClock_updSeg g _ t) r.active s r f

section
variable (p : Port) (sn : Snapshot) (s : State) {r : PortState} (f : Seg → SegState)

theorem route_kept_bus (h : Seg.list.filter r.active ≠ []) (hsame : PerSeg.members sn.entry.segs = Seg.list.filter r.active) :
    route p sn (s.bus p r f) = s.bus p
      (r.routed s.working.params.holdLimit sn .awaitTarget (rebuiltLegs r.legs))
      (reopened s.working.params.clockLimit sn.slot r f) := by
  unfold route
  rw [activeSegs_bus, if_pos ⟨h, hsame⟩, takeRoute_bus]
  dsimp only
  rw [reopen_bus, State.updPort_bus]
  rfl

theorem route_fresh_bus (h : ¬(Seg.list.filter r.active ≠ [] ∧ PerSeg.members sn.entry.segs = Seg.list.filter r.active)) :
    route p sn (s.bus p r f) = s.bus p
      (r.routed s.working.params.holdLimit sn .awaitGrant (freshLegs sn.entry.segs
        (keptOf p (segGivenUp s.working.params r f) (mapLegs r.active Leg.ended r.legs))))
      (segGivenUp s.working.params r f) := by
  unfold route
  rw [activeSegs_bus, if_neg h, endActive_noCheck_bus, takeRoute_bus]
  dsimp only
  rw [keptLegs_bus, State.updPort_bus]
  rfl

theorem addressTaken_wait_bus {a : Addr} {d : Dir} {found : Found} {w : AddrWait} (h : decideFound r a d found = .wait w) :
    addressTaken p a d found (s.bus p r f)
      = s.bus p ((r.addressed a d).awaitingClose w) (segGivenUp s.working.params r f) := by
  unfold addressTaken
  rw [State.bus_port_self, h]
  dsimp only
  rw [takeAddress_bus, awaitClosed_bus]
  rfl

theorem addressTaken_routed_bus {a : Addr} {d : Dir} {found : Found} (h : decideFound r a d found = .routed sn) :
    addressTaken p a d found (s.bus p r f)
      = route p sn (s.bus p ((r.addressed a d).carrying (carriedPointer r sn)) f) := by
  unfold addressTaken
  rw [State.bus_port_self, h]
  dsimp only
  rw [takeAddress_bus, State.updPort_bus]
  rfl

end

theorem exec_addressByte {s : State} {p : Port} (h : Ready s p .address) (a : Addr) (d : Dir) :
    exec (.addressByte p a d) s = .next (finish (addressTaken p a d (find25 s p a) s)) := by
  obtain ⟨hrun, hphase, hscl⟩ := h
  have hbyte : addressByte p a d s = decideAddress p a d (find25 s p a) s := by
    unfold addressByte
    rw [hscl, if_neg nofun, if_pos hphase]
  show Host.Outcome.next (whenRunning s _) = _
  rw [whenRunning_running hrun, hbyte]
  rfl

/-! ### The legs list built afresh (R19, R30) -/

/-- A record has a CLAIMING leg on a segment. -/
def PortState.claims (r : PortState) (g : Seg) : Bool := r.legs.any fun l => l.seg == g && l.state == .claiming

theorem claimingSegs_eq (s : State) (p : Port) : claimingSegs s p = Seg.list.filter (s.port p).claims := rfl

theorem claimingSegs_claims (s : State) (p : Port) (r : PortState) (f : Seg → SegState) :
    claimingSegs (s.bus p r f) p = Seg.list.filter r.claims := claimingSegs_bus ..

/-- The leg of the list built afresh that stands on a segment. -/
def freshLeg (segs : PerSeg Bool) (closing : List Leg) (g : Seg) : Option Leg :=
  if segs.get g then some (newLeg g) else closing.find? fun l => l.seg == g

theorem freshLegs_eq (segs : PerSeg Bool) (closing : List Leg) :
    freshLegs segs closing = Seg.list.filterMap (freshLeg segs closing) := rfl

theorem freshLeg_new {segs : PerSeg Bool} {g : Seg} (h : segs.get g = true) (closing : List Leg) :
    freshLeg segs closing g = some (newLeg g) := if_pos h

theorem freshLeg_other {segs : PerSeg Bool} {g : Seg} (h : ¬segs.get g = true) (closing : List Leg) :
    freshLeg segs closing g = closing.find? fun l => l.seg == g := if_neg h

theorem mem_freshLegs {segs : PerSeg Bool} {closing : List Leg} {l : Leg} (h : l ∈ freshLegs segs closing) :
    segs.get l.seg = true ∧ l = newLeg l.seg ∨ segs.get l.seg = false ∧ l ∈ closing := by
  obtain ⟨g, -, hg⟩ := List.mem_filterMap.mp h
  change freshLeg segs closing g = some l at hg
  by_cases hs : segs.get g = true
  · rw [freshLeg_new hs] at hg
    cases hg
    exact .inl ⟨hs, rfl⟩
  · rw [freshLeg_other hs] at hg
    have hseg := List.find?_some hg
    obtain rfl : l.seg = g := by simpa using hseg
    exact .inr ⟨Bool.eq_false_iff.mpr hs, List.mem_of_find?_eq_some hg⟩

/-- R30: the CLAIMING legs of the new list are those of the new set. -/
theorem filter_claiming_freshLegs (segs : PerSeg Bool) {closing : List Leg} (h : ∀ l ∈ closing, l.state ≠ .claiming) :
    (freshLegs segs closing).filter (·.state == .claiming) = (PerSeg.members segs).map newLeg := by
  rw [freshLegs_eq]
  unfold PerSeg.members
  induction Seg.list with
  | nil => rfl
  | cons g gs ih =>
    by_cases hs : segs.get g = true
    · rw [List.filterMap_cons_some (freshLeg_new hs _), List.filter_cons_of_pos (by rfl), List.filter_cons_of_pos hs,
        List.map_cons, ih]
    · rw [List.filter_cons_of_neg hs, ← ih]
      cases hf : closing.find? fun l => l.seg == g with
      | none => rw [List.filterMap_cons_none ((freshLeg_other hs _).trans hf)]
      | some l =>
        rw [List.filterMap_cons_some ((freshLeg_other hs _).trans hf), List.filter_cons_of_neg]
        rw [beq_false_of_ne (h l (List.mem_of_find?_eq_some hf))]
        nofun

/-- Where no leg still closes, the new list has one CLAIMING leg for each segment of the set. -/
theorem freshLegs_nil (segs : PerSeg Bool) : freshLegs segs [] = (PerSeg.members segs).map newLeg := by
  rw [← filter_claiming_freshLegs segs (closing := []) nofun]
  refine (List.filter_eq_self.mpr fun l hl => ?_).symm
  obtain ⟨-, h⟩ | ⟨-, h⟩ := mem_freshLegs hl
  · rw [h]
    rfl
  · exact absurd h List.not_mem_nil

theorem claims_of_filter {r : PortState} {segs : PerSeg Bool}
    (h : r.legs.filter (·.state == .claiming) = (PerSeg.members segs).map newLeg) (g : Seg) : r.claims g = segs.get g := by
  have hany : r.claims g = (r.legs.filter (·.state == .claiming)).any fun l => l.seg == g := by
    unfold PortState.claims
    rw [List.any_filter]
    congr 1
    funext l
    exact Bool.and_comm ..
  rw [hany, h, List.any_map, Bool.eq_iff_iff]
  simp [PerSeg.members, newLeg]

/-! ### The claims of an acquisition, all granted (R31, R94, R95) -/

/-- No other record's answer or acquisition is outstanding. -/
def OthersDone (s : State) (p : Port) : Prop := ∀ q, q ≠ p → (s.port q).addrWait = none ∧ (s.port q).phase ≠ .awaitGrant

theorem Uncontended.othersDone {s : State} (h : Uncontended s) (p : Port) : OthersDone s p := fun q _ => h.2 q

section
variable {s : State} {p : Port} (hothers : OthersDone s p)
include hothers

theorem OthersDone.addrWait_bus {r : PortState} (hw : r.addrWait = none) (f : Seg → SegState) (q : Port) :
    ((s.bus p r f).port q).addrWait = none := by
  by_cases hq : q = p
  · rw [hq, State.bus_port_self, hw]
  · rw [State.bus_port_ne _ _ _ hq]
    exact (hothers q hq).1

theorem OthersDone.phase_bus (r : PortState) (f : Seg → SegState) {q : Port} (hq : q ≠ p) :
    ((s.bus p r f).port q).phase ≠ .awaitGrant := by
  rw [State.bus_port_ne _ _ _ hq]
  exact (hothers q hq).2

theorem OthersDone.uncontended_bus {r : PortState} (hw : r.addrWait = none) (hphase : r.phase ≠ .awaitGrant)
    {f : Seg → SegState} (hf : ∀ g, (f g).waiters = []) : Uncontended (s.bus p r f) := by
  refine ⟨fun g => by rw [State.bus_seg]; exact hf g, fun q => ⟨hothers.addrWait_bus hw f q, ?_⟩⟩
  by_cases hq : q = p
  · rw [hq, State.bus_port_self]
    exact hphase
  · exact hothers.phase_bus r f hq

end

/-- The segments with those a test picks granted to a record. -/
def grantedSegs (q : Params) (p : Port) (slot : Option Nat) (c : Seg → Bool) (f : Seg → SegState) (g : Seg) : SegState :=
  if c g then (f g).grantedTo (q.segs.get g) p slot else f g

theorem claims_granted (r : PortState) (g h : Seg) : (r.granted g).claims h = (r.claims h && h != g) := by
  unfold PortState.claims PortState.granted PortState.withLegs mapLegs
  rw [List.any_map, Bool.eq_iff_iff]
  simp only [List.any_eq_true, Function.comp_apply, Bool.and_eq_true, beq_iff_eq, bne_iff_ne]
  constructor
  · rintro ⟨l, hl, hseg, hstate⟩
    by_cases e : l.seg = g
    · rw [if_pos e] at hstate
      exact absurd hstate nofun
    · rw [if_neg e] at hseg hstate
      exact ⟨⟨l, hl, hseg, hstate⟩, fun e' => e (hseg.trans e')⟩
  · rintro ⟨⟨l, hl, hseg, hstate⟩, hne⟩
    have e : ¬l.seg = g := fun e => hne (hseg.symm.trans e)
    refine ⟨l, hl, ?_⟩
    rw [if_neg e]
    exact ⟨hseg, hstate⟩

theorem active_granted_self {r : PortState} {g : Seg} (h : r.claims g = true) : (r.granted g).active g = true := by
  obtain ⟨l, hl, hg⟩ := List.any_eq_true.mp h
  obtain ⟨hseg, -⟩ := Bool.and_eq_true_iff.mp hg
  refine List.any_eq_true.mpr ⟨l.activated, List.mem_map.mpr ⟨l, hl, if_pos hseg⟩, ?_⟩
  exact Bool.and_eq_true_iff.mpr ⟨hseg, rfl⟩

theorem not_waits {s : State} (h : ∀ g, (s.seg g).waiters = []) (p : Port) : waits s p = false := by
  unfold waits
  rw [List.any_eq_false]
  exact fun g _ => by rw [h]; nofun

theorem claim_free {s : State} {g : Seg} {p : Port} (hw : (s.seg g).waiters = []) (hr : (s.seg g).refuses = false)
    (hf : (s.seg g).free = true) : claim g (.port p) s = grantPort g p s := by
  unfold claim
  rw [hr, if_neg nofun, if_pos hf]
  show grantPort g p (unwait (.port p) g s) = _
  rw [unwait_of_empty hw]

theorem owner_of_free {c : SegState} (h : c.free = true) : c.owner = none :=
  Option.isNone_iff_eq_none.mp (Bool.and_eq_true_iff.mp h).1

section
variable {s : State} {p : Port}

/-- R31, R94: the claim that a record places next. -/
theorem nextClaim_bus {r : PortState} {f : Seg → SegState} (hphase : r.phase = .awaitGrant) (hw : ∀ g, (f g).waiters = [])
    (hfirst : (∃ g, r.active g = true) ∨ ∀ g, (f g).owner ≠ some (.port p)) {k : Seg} {ks : List Seg}
    (hclaims : Seg.list.filter r.claims = k :: ks) (howner : (f k).owner ≠ some (.port p)) :
    nextClaim (s.bus p r f) p = some (p, k) := by
  have hready : (!(activeSegs (s.bus p r f) p).isEmpty || (ownedSegs (s.bus p r f) p).isEmpty) = true := by
    rw [activeSegs_bus, ownedSegs_bus]
    obtain ⟨g, hg⟩ | hnone := hfirst
    · rw [List.isEmpty_eq_false_iff.mpr (List.ne_nil_of_mem ((mem_filter_list _ g).mpr hg))]
      rfl
    · have hempty : (Seg.list.filter fun g => (f g).owner == some (.port p)).isEmpty = true :=
        List.isEmpty_iff.mpr (List.filter_eq_nil_iff.mpr fun g _ => by rw [beq_false_of_ne (hnone g)]; nofun)
      rw [hempty, Bool.or_true]
  have howns : owns (s.bus p r f) p k = false := by rw [owns_bus, beq_false_of_ne howner]
  unfold nextClaim
  rw [hready, State.bus_port_self, hphase, not_waits (fun g => by rw [State.bus_seg]; exact hw g), claimingSegs_claims,
    hclaims]
  refine (if_pos rfl).trans ?_
  rw [List.head?_cons, Option.bind_some, howns]
  rfl

/-- R31: with no leg CLAIMING left the acquisition ends. -/
theorem finish_acquired (hothers : OthersDone s p) {r : PortState} {f : Seg → SegState}
    (hclaims : Seg.list.filter r.claims = []) (hphase : r.phase = .awaitGrant) (haw : r.addrWait = none)
    (hw : ∀ g, (f g).waiters = []) :
    finish (s.bus p r f) = finish (s.bus p { r with phase := .awaitTarget } f) := by
  rw [finish_of_micro (micro_acquired (p := p) (fun g => .inl (by rw [State.bus_seg]; exact hw g)) (hothers.addrWait_bus haw f)
    (fun q hq => hothers.phase_bus r f hq) (by rw [State.bus_port_self, hphase]) ((claimingSegs_claims ..).trans hclaims)),
    State.updPort_bus]

/-- R31: the record whose last claim has been granted. -/
def PortState.acquired (r : PortState) : PortState :=
  { r with phase := .awaitTarget, legs := mapLegs r.claims Leg.activated r.legs }

theorem filter_claims_granted {r : PortState} {k : Seg} {ks : List Seg} (h : Seg.list.filter r.claims = k :: ks) :
    Seg.list.filter (r.granted k).claims = ks := by
  obtain ⟨hnot, -⟩ := List.nodup_cons.mp (h ▸ Seg.nodup_list.filter r.claims)
  have hfilter : Seg.list.filter (r.granted k).claims = (Seg.list.filter r.claims).filter (· != k) := by
    rw [List.filter_filter]
    exact List.filter_congr fun g _ => (claims_granted r k g).trans (Bool.and_comm ..)
  rw [hfilter, h, List.filter_cons_of_neg (by simp)]
  exact List.filter_eq_self.mpr fun g hg => bne_iff_ne.mpr fun e => hnot (e ▸ hg)

/-- R31, R93: the next claim, of a segment that is free. -/
theorem micro_claim_free (hothers : OthersDone s p) {r : PortState} {f : Seg → SegState} (hphase : r.phase = .awaitGrant)
    (haw : r.addrWait = none) (hw : ∀ g, (f g).waiters = [])
    (hfirst : (∃ g, r.active g = true) ∨ ∀ g, (f g).owner ≠ some (.port p)) {k : Seg} {ks : List Seg}
    (hks : Seg.list.filter r.claims = k :: ks) (hr : (f k).refuses = false) (hf : (f k).free = true) :
    micro (s.bus p r f) = some (s.bus p (r.granted k) fun g =>
      if g = k then (f k).grantedTo (s.working.params.segs.get k) p (r.snapshot.map (·.slot)) else f g) := by
  have howner : (f k).owner ≠ some (.port p) := by rw [owner_of_free hf]; nofun
  rw [micro_claim (p := p) (fun g => .inl (by rw [State.bus_seg]; exact hw g)) (hothers.addrWait_bus haw f)
    (fun q hq => hothers.phase_bus r f hq) (nextClaim_bus hphase hw hfirst hks howner),
    claim_free (by rw [State.bus_seg]; exact hw k) (by rw [State.bus_seg]; exact hr) (by rw [State.bus_seg]; exact hf),
    grantPort_bus]

/-- R31, R95: where every segment claimed is free, each is granted, lowest first, and the acquisition ends. -/
theorem finish_claims (hothers : OthersDone s p) : ∀ (n : Nat) {r : PortState} {f : Seg → SegState},
    (Seg.list.filter r.claims).length = n → r.phase = .awaitGrant → r.addrWait = none → (∀ g, (f g).waiters = []) →
    (∀ g, r.claims g = true → (f g).refuses = false ∧ (f g).free = true) →
    ((∃ g, r.active g = true) ∨ ∀ g, (f g).owner ≠ some (.port p)) →
    finish (s.bus p r f) = finish (s.bus p r.acquired
      (grantedSegs s.working.params p (r.snapshot.map (·.slot)) r.claims f))
  | 0, r, f, hn, hphase, haw, hw, hfree, hfirst => by
    have hnil : Seg.list.filter r.claims = [] := List.length_eq_zero_iff.mp hn
    have hno (g : Seg) : r.claims g = false := Bool.eq_false_iff.mpr fun hg =>
      absurd (hnil ▸ (mem_filter_list _ g).mpr hg) List.not_mem_nil
    rw [finish_acquired hothers hnil hphase haw hw, PortState.acquired, mapLegs_eq_self fun l _ => hno l.seg]
    refine congrArg finish (State.bus_congr _ _ rfl fun g => ?_)
    unfold grantedSegs
    rw [hno]
    rfl
  | n + 1, r, f, hn, hphase, haw, hw, hfree, hfirst => by
    obtain ⟨k, ks, hks⟩ := List.exists_cons_of_length_eq_add_one hn
    have hk : r.claims k = true := (mem_filter_list _ k).mp (hks ▸ List.mem_cons_self ..)
    obtain ⟨hkr, hkf⟩ := hfree k hk
    have hrest := filter_claims_granted hks
    have hstep := micro_claim_free hothers hphase haw hw hfirst hks hkr hkf
    have hrec := finish_claims hothers n (r := r.granted k) (f := fun g =>
        if g = k then (f k).grantedTo (s.working.params.segs.get k) p (r.snapshot.map (·.slot)) else f g)
      (by rw [hrest]; rw [hks] at hn; simpa using hn) hphase haw (fun g => by
        split
        · exact hw k
        · exact hw g) (fun g hg => by
        rw [claims_granted] at hg
        obtain ⟨hg, hne⟩ := Bool.and_eq_true_iff.mp hg
        rw [if_neg (bne_iff_ne.mp hne)]
        exact hfree g hg) (.inl ⟨k, active_granted_self hk⟩)
    have hclaims (g : Seg) : ((r.granted k).claims g || g == k) = r.claims g := by
      rw [claims_granted]
      by_cases e : g = k
      · rw [e, hk, beq_self_eq_true k, Bool.or_true]
      · rw [show (g != k) = true from bne_iff_ne.mpr e, beq_false_of_ne e, Bool.and_true, Bool.or_false]
    have hlegs : mapLegs (r.granted k).claims Leg.activated (r.granted k).legs = mapLegs r.claims Leg.activated r.legs := by
      rw [← funext hclaims]
      refine mapLegs_or (c := (r.granted k).claims) (d := fun g => g == k) (k := Leg.activated) (fun _ => rfl)
        (fun g hg => ?_) r.legs
      rw [claims_granted] at hg
      exact beq_false_of_ne (bne_iff_ne.mp (Bool.and_eq_true_iff.mp hg).2)
    rw [finish_of_micro hstep, hrec, PortState.acquired, hlegs]
    refine congrArg finish (State.bus_congr _ _ rfl fun g => ?_)
    unfold grantedSegs
    rw [claims_granted]
    dsimp only
    by_cases e : g = k
    · subst e
      rw [hk, if_pos rfl, if_pos rfl, if_neg (by simp)]
    · rw [if_neg e, show (g != k) = true from bne_iff_ne.mpr e, Bool.and_true]
      rfl

/-- R31: a record whose claim stands in a wait list waits. -/
theorem settled_waiting (hothers : OthersDone s p) {r : PortState} {f : Seg → SegState} (haw : r.addrWait = none)
    (hstill : ∀ g, (f g).still) {g : Seg} (hg : .port p ∈ (f g).waiters) (hclaims : Seg.list.filter r.claims ≠ []) :
    Settled (s.bus p r f) := by
  refine settled_of_still (fun k => by rw [State.bus_seg]; exact hstill k)
    (fun q => nextAnswer_of_none (hothers.addrWait_bus haw f q)) fun q hq => ?_
  by_cases e : q = p
  · subst e
    have hwaits : waits (s.bus q r f) q = true := by
      unfold waits
      rw [List.any_eq_true]
      exact ⟨g, Seg.mem_list g, by rw [State.bus_seg]; exact List.contains_iff_mem.mpr hg⟩
    refine ⟨?_, (claimingSegs_claims ..).trans_ne hclaims⟩
    unfold nextClaim
    rw [hwaits, Bool.not_true, Bool.and_false, Bool.false_and]
    rfl
  · exact absurd hq (hothers.phase_bus r f e)

end

end Sys2Proof.Machine
end

section
/-!
PROOFS. An address byte on a port that owns no segment: answered, routed, refused or waiting (O22, O23, O24).
-/
namespace Sys2Proof.Machine

/-! ### A state that differs in its notices alone -/

namespace OnlyNotices
variable {s u : State} (h : OnlyNotices s u)
include h

theorem port (p : Port) : u.port p = s.port p := by
  rw [show u = _ from h]
  rfl

theorem seg (g : Seg) : u.seg g = s.seg g := by
  rw [show u = _ from h]
  rfl

theorem working : u.working = s.working := by rw [show u = _ from h]

theorem timersLaw (hl : TimersLaw s) : TimersLaw u := timersLaw_congr hl (by rw [show u = _ from h]) (by rw [show u = _ from h])

theorem owning (p : Port) : owning u p = owning s p := by
  unfold Machine.owning owns
  simp only [h.seg]

theorem othersDone {p : Port} (ho : OthersDone s p) : OthersDone u p := fun q hq => by
  rw [h.port]
  exact ho q hq

/-- Where no segment's owner or quiet timer changes, `retime` is about one record's stall timer. -/
theorem retime_steady (hl : TimersLaw s) {p : Port} {r : PortState} {f : Seg → SegState}
    (hf : ∀ g, Steady (s.seg g) (f g)) :
    retime (u.bus p r f) = u.bus p { r with stall := r.stallBy s.working.params.stallLimit (Machine.owning s p) } f := by
  rw [Machine.retime_steady (h.timersLaw hl) fun g => by rw [h.seg]; exact hf g, h.working, h.owning]

end OnlyNotices

/-! ### A record that owns nothing -/

/-- R39: the record whose answer is due. -/
def PortState.awaiting (r : PortState) (w : AddrWait) : PortState :=
  { r with sclHeld := true, stall := none, addrWait := some w, pointer := none }

theorem awaitingClose_inactive {r : PortState} (h : ∀ g, r.active g = false) (w : AddrWait) :
    r.awaitingClose w = r.awaiting w := by
  unfold PortState.awaitingClose
  rw [mapLegs_eq_self fun l _ => h l.seg]
  rfl

theorem segGivenUp_inactive {r : PortState} (h : ∀ g, r.active g = false) (q : Params) (f : Seg → SegState) :
    segGivenUp q r f = f := funext fun g => if_neg (by rw [h]; nofun)

theorem addressAnswered_awaiting (r : PortState) (credit : Bool) (w : AddrWait) :
    (r.awaiting w).addressAnswered credit w
      = PortState.addressAnswered { r with stall := none, pointer := none } credit w := by
  cases w with
  | mgmtWrite b => cases credit <;> rfl
  | mgmtRead _ | miss | denied _ | noOffset _ => rfl

theorem addressAnswered_done (r : PortState) (credit : Bool) (w : AddrWait) :
    (r.addressAnswered credit w).addrWait = none ∧ (r.addressAnswered credit w).phase ≠ .awaitGrant := by
  cases w with
  | mgmtWrite b => cases credit <;> exact ⟨rfl, nofun⟩
  | mgmtRead _ | miss | denied _ | noOffset _ => exact ⟨rfl, nofun⟩

section
variable {s : State} {p : Port}

/-- R26 to R29, R39: the answer that was waiting is the last thing an event sets off. -/
theorem finish_answer {r : PortState} {f : Seg → SegState} {w : AddrWait} (hothers : OthersDone s p)
    (hw : ∀ g, (f g).waiters = []) (ho : ∀ g, (f g).owner ≠ some (.port p)) (haw : r.addrWait = some w) :
    finish (s.bus p r f)
      = retime ((addressNoted p r.dir s w).bus p (r.addressAnswered (creditFree (s.bus p r f) p) w) f) := by
  have hmicro := micro_answer (s := s.bus p r f) (p := p) (w := w) (fun g => .inl (by rw [State.bus_seg]; exact hw g))
    (by rw [State.bus_port_self, haw]) (fun g => by rw [owns_bus]; exact beq_false_of_ne (ho g))
    fun q hq => by rw [State.bus_port_ne _ _ _ hq]; exact (hothers q hq).1
  obtain ⟨hdone, hphase⟩ := addressAnswered_done r (creditFree (s.bus p r f) p) w
  rw [finish_of_micro hmicro, answerAddress_bus]
  exact finish_of_uncontended (((onlyNotices_addressNoted p r.dir s w).othersDone hothers).uncontended_bus hdone hphase hw)

/-- R26 to R29: on a record that owns no segment an address byte is answered at once. -/
theorem exec_addressByte_answered (hown : OwnsNothing s p) {a : Addr} {d : Dir} {w : AddrWait} (hr : Ready s p .address)
    (h : decide25 s p a d = .wait w) (hunc : Uncontended s) (hl : TimersLaw s) :
    exec (.addressByte p a d) s = .next ((addressNoted p d s w).bus p
      { PortState.addressAnswered { (s.port p).addressed a d with stall := none, pointer := none } (creditFree s p) w with
        stall := none } s.seg) := by
  have hno : ∀ g, ((s.port p).addressed a d).active g = false := hown.active
  have htaken := addressTaken_wait_bus p s s.seg h
  rw [State.bus_self, awaitingClose_inactive hno, segGivenUp_inactive hown.active] at htaken
  have hcredit : creditFree (s.bus p (((s.port p).addressed a d).awaiting w) s.seg) p = creditFree s p := creditFree_bus ..
  rw [exec_addressByte hr, htaken, finish_answer (hunc.othersDone p) hunc.1
    (fun g e => absurd (hown.owns g) (by rw [owns, e, beq_self_eq_true]; nofun)) rfl, hcredit, addressAnswered_awaiting]
  show Host.Outcome.next (retime ((addressNoted p d s w).bus p _ s.seg)) = _
  rw [(onlyNotices_addressNoted p d s w).retime_steady hl fun g => .refl _, hown.owning, stallBy_not_owning]

end

/-- R163: a read that begins is of the oldest response, or of the EMPTY frame. -/
theorem ReadPos.start_eq (b : Byte) (l : List Response) : ReadPos.start b l
    = ⟨l.head?.getD ⟨.empty, 0#8, []⟩, l.isEmpty, 0, 0, crc8 0xFF#8 b, false, false⟩ := by
  cases l with
  | nil => rfl
  | cons r l => rfl

theorem ReadPos.current_start (b : Byte) (l : List Response) :
    (ReadPos.start b l).current = statusCode (l.head?.getD ⟨.empty, 0#8, []⟩).status := by
  rw [ReadPos.start_eq]
  exact (if_neg nofun).trans (if_pos (Nat.succ_pos _))

/-! ### A routed address (R30, R31) -/

theorem state_ne_active {r : PortState} (h : ∀ g, r.active g = false) {l : Leg} (hl : l ∈ r.legs) : l.state ≠ .active :=
  fun e => absurd (h l.seg) (Bool.eq_false_iff.not.mpr (not_not.mpr
    (List.any_eq_true.mpr ⟨l, hl, by rw [e, beq_self_eq_true]; rfl⟩)))

/-- R19: a record that has no leg ACTIVE and owns no segment keeps no leg. -/
theorem keptOf_bare {p : Port} {f : Seg → SegState} {r : PortState} (h : ∀ g, r.active g = false)
    (ho : ∀ g, (f g).owner ≠ some (.port p)) : keptOf p f r.legs = [] :=
  List.filter_eq_nil_iff.mpr fun l hl => by
    rw [beq_false_of_ne (state_ne_active h hl), beq_false_of_ne (ho l.seg), Bool.and_false]
    nofun

section
variable {s : State} {p : Port} (hown : OwnsNothing s p) {a : Addr} {d : Dir} {sn : Snapshot}
include hown

/-- R30, R93: the record as its claims begin. -/
theorem exec_addressByte_routed (hr : Ready s p .address) (h : decide25 s p a d = .routed sn) :
    exec (.addressByte p a d) s = .next (finish (s.bus p
      ((((s.port p).addressed a d).carrying (carriedPointer (s.port p) sn)).routed s.working.params.holdLimit sn .awaitGrant
        ((PerSeg.members sn.entry.segs).map newLeg)) s.seg)) := by
  have hno : ∀ g, (((s.port p).addressed a d).carrying (carriedPointer (s.port p) sn)).active g = false := hown.active
  have htaken := addressTaken_routed_bus p sn s s.seg h
  rw [State.bus_self, route_fresh_bus _ _ _ _ fun e => e.1 (List.filter_eq_nil_iff.mpr fun g _ => by rw [hno]; nofun),
    segGivenUp_inactive hno, mapLegs_eq_self fun l _ => hno l.seg,
    keptOf_bare hno fun g e => absurd (hown.owns g) (by rw [owns, e, beq_self_eq_true]; nofun), freshLegs_nil] at htaken
  rw [exec_addressByte hr, htaken]

omit hown in
theorem claims_newLegs {r : PortState} {segs : PerSeg Bool} (h : r.legs = (PerSeg.members segs).map newLeg) (g : Seg) :
    r.claims g = segs.get g := by
  refine claims_of_filter ?_ g
  rw [h]
  exact List.filter_eq_self.mpr fun l hl => by
    obtain ⟨k, -, rfl⟩ := List.mem_map.mp hl
    rfl

omit hown in
theorem active_newLegs {r : PortState} {segs : PerSeg Bool} (h : r.legs = (PerSeg.members segs).map newLeg) (g : Seg) :
    r.active g = false := by
  rw [PortState.active_eq, h]
  refine activeIn_eq_false (fun l hl => ?_) g
  obtain ⟨k, -, rfl⟩ := List.mem_map.mp hl
  nofun

end

theorem activated_newLegs {c : Seg → Bool} {gs : List Seg} (h : ∀ g ∈ gs, c g = true) :
    mapLegs c Leg.activated (gs.map newLeg) = gs.map fun g => ⟨g, .active, 0, none, false, 0xFF#8⟩ := by
  unfold mapLegs
  rw [List.map_map]
  exact List.map_congr_left fun g hg => if_pos (h g hg)

theorem refuses_eq_false {c : SegState} (hp : c.pendingDisable = false) (hc : c.cond = .idle ∨ c.cond = .foreign) :
    c.refuses = false := by
  unfold SegState.refuses
  obtain hc | hc := hc
  · rw [hc, hp]
    rfl
  · rw [hc, hp]
    rfl

theorem free_of {c : SegState} (ho : c.owner = none) (hc : c.cond = .idle ∨ c.cond = .foreign) : c.free = true := by
  unfold SegState.free
  obtain hc | hc := hc
  · rw [hc, ho]
    rfl
  · rw [hc, ho]
    rfl

namespace Laws

/-- Settles O22: an answer is due at once, by what the byte was decided as. -/
theorem addressAnswered : Obligations.AddressAnswered := by
  refine ⟨fun s p a d hr hm hunc hown hl => ?_, fun s p a d w hr h hw hsn hunc hown hl => ?_⟩
  · have hscl := hr.2.2
    have haw := (hunc.2 p).1
    refine ⟨fun hd hc => ?_, fun hd hc => ?_, fun hd => ?_⟩
    · subst hd
      rw [exec_addressByte_answered hown hr (decide25_management_write hm) hunc hl, hc, State.updPort_eq_bus]
      refine congrArg _ (State.bus_congr _ _ ?_ fun _ => rfl)
      unfold PortState.addressAnswered PortState.addressed
      rw [hscl, haw]
      rfl
    · subst hd
      rw [exec_addressByte_answered hown hr (decide25_management_write hm) hunc hl, hc, State.updPort_eq_bus]
      refine congrArg _ (State.bus_congr _ _ ?_ fun _ => rfl)
      unfold PortState.addressAnswered PortState.addressed
      rw [hscl, haw]
      rfl
    · subst hd
      rw [exec_addressByte_answered hown hr (decide25_management_read hm) hunc hl, State.updPort_eq_bus]
      refine congrArg _ (State.bus_congr _ _ ?_ fun _ => rfl)
      unfold PortState.addressAnswered PortState.addressed
      dsimp only
      rw [ReadPos.current_start, ReadPos.start_eq, hscl, haw]
      rfl
  · have hexec := exec_addressByte_answered hown hr h hunc hl
    refine ⟨_, hexec, ?_⟩
    beta_reduce
    rw [State.bus_port_self]
    have honly := onlyPortSegsNotices_bus (onlyNotices_addressNoted p d s w) p
      { PortState.addressAnswered { (s.port p).addressed a d with stall := none, pointer := none } (creditFree s p) w with
        stall := none } s.seg
    obtain rfl | ⟨n, rfl⟩ | ⟨n, rfl⟩ := hw
    · exact ⟨rfl, rfl, rfl, rfl, rfl, rfl, rfl, rfl, rfl, honly, fun _ => ⟨rfl, rfl, rfl⟩, nofun, nofun⟩
    · refine ⟨rfl, rfl, rfl, hsn, rfl, rfl, rfl, rfl, rfl, honly, nofun, fun m hm => ?_, nofun⟩
      cases hm
      refine (congrArg (Recorded .accessDenied (some (.port p)) none (some n) · s _) ?_).mp (recorded_bus_note ..)
      cases d <;> rfl
    · refine ⟨rfl, rfl, rfl, hsn, rfl, rfl, rfl, rfl, rfl, honly, nofun, nofun, fun m hm => ?_⟩
      cases hm
      exact recorded_bus_note ..

/-- Settles O23: every claim is granted at once, and the acquisition ends. -/
theorem routedGranted : Obligations.RoutedGranted := by
  intro s p a d sn hr h hunc hown hl hfree
  have hexec := exec_addressByte_routed hown hr h
  have hothers := hunc.othersDone p
  generalize hR : (((s.port p).addressed a d).carrying (carriedPointer (s.port p) sn)).routed s.working.params.holdLimit sn
    .awaitGrant ((PerSeg.members sn.entry.segs).map newLeg) = R at hexec
  have hlegs : R.legs = (PerSeg.members sn.entry.segs).map newLeg := by rw [← hR]; rfl
  have hclaims := claims_newLegs hlegs
  have haw : R.addrWait = none := by rw [← hR]; exact (hunc.2 p).1
  have hsn : R.snapshot = some sn := by rw [← hR]; rfl
  have hscl : R.sclHeld = true := by rw [← hR]; rfl
  have hnone (g : Seg) : (s.seg g).owner ≠ some (.port p) := fun e =>
    absurd (hown.owns g) (by rw [owns, e, beq_self_eq_true]; nofun)
  have howner (g : Seg) (q : Port) (hq : q ≠ p) :
      ((grantedSegs s.working.params p (some sn.slot) R.claims s.seg g).owner == some (.port q)) = owns s q g := by
    unfold grantedSegs
    split
    next hg =>
      rw [hclaims] at hg
      rw [owns, (hfree g hg).1]
      exact beq_false_of_ne fun e => hq (by cases e; rfl)
    next => rfl
  rw [finish_claims hothers _ rfl (by rw [← hR]; rfl) haw hunc.1
      (fun g hg => by
        rw [hclaims] at hg
        obtain ⟨ho, hp, hc⟩ := hfree g hg
        exact ⟨refuses_eq_false hp hc, free_of ho hc⟩) (.inr hnone), hsn,
    finish_of_uncontended (hothers.uncontended_bus (r := R.acquired) haw (by exact nofun) fun g => by
      unfold grantedSegs
      split <;> exact hunc.1 g), Option.map_some, retime_bus hl howner] at hexec
  refine ⟨_, hexec, ?_, fun g => ?_, onlyPortSegs_bus ..⟩
  · rw [State.bus_port_self, stallBy_held (r := R.acquired) hscl, PortState.acquired, hlegs,
      activated_newLegs (gs := PerSeg.members sn.entry.segs) fun g hg => (hclaims g).trans ((mem_filter_list _ g).mp hg), ← hR]
    rfl
  · rw [State.bus_seg]
    unfold grantedSegs
    rw [hclaims]
    split
    next => rfl
    next => exact retimed_same (hl.2 g) rfl rfl

/-- Settles O24: the first claim is refused, or joins the tail of an empty wait list. -/
theorem routedRefusedOrWaiting : Obligations.RoutedRefusedOrWaiting := by
  intro s p a d sn g hr h hunc hown hl hhead
  have hexec := exec_addressByte_routed hown hr h
  have hothers := hunc.othersDone p
  generalize hR : (((s.port p).addressed a d).carrying (carriedPointer (s.port p) sn)).routed s.working.params.holdLimit sn
    .awaitGrant ((PerSeg.members sn.entry.segs).map newLeg) = R at hexec
  have hlegs : R.legs = (PerSeg.members sn.entry.segs).map newLeg := by rw [← hR]; rfl
  have hclaims := claims_newLegs hlegs
  have hphase : R.phase = .awaitGrant := by rw [← hR]; rfl
  have haw : R.addrWait = none := by rw [← hR]; exact (hunc.2 p).1
  have hsn : R.snapshot = some sn := by rw [← hR]; rfl
  have hscl : R.sclHeld = true := by rw [← hR]; rfl
  have hnone (k : Seg) : (s.seg k).owner ≠ some (.port p) := fun e =>
    absurd (hown.owns k) (by rw [owns, e, beq_self_eq_true]; nofun)
  obtain ⟨ks, hks⟩ : ∃ ks, Seg.list.filter R.claims = g :: ks := by
    rw [funext hclaims]
    exact List.head?_eq_some_iff.mp hhead
  have hstep : micro (s.bus p R s.seg) = some (claim g (.port p) (s.bus p R s.seg)) :=
    micro_claim (fun k => .inl (by rw [State.bus_seg]; exact hunc.1 k)) (hothers.addrWait_bus haw _)
      (fun q hq => hothers.phase_bus R _ hq) (nextClaim_bus hphase hunc.1 (.inr hnone) hks (hnone g))
  have hseg : (s.bus p R s.seg).seg g = s.seg g := State.bus_seg ..
  rw [finish_of_micro hstep] at hexec
  refine ⟨fun hrefuse => ?_, fun hnf hnd hnp hbusy => ?_⟩
  · have hrefuses : (s.seg g).refuses = true := by
      unfold SegState.refuses
      obtain e | e | e := hrefuse <;> simp [e]
    have hclaim : claim g (.port p) (s.bus p R s.seg) = (note .segRefused (some (.port p)) (some (.seg g)) (some sn.slot)
        0#16 s).bus p R.addressGivenUp s.seg := by
      unfold claim
      rw [hseg, if_pos hrefuses]
      show failAddress p g (unwait (.port p) g (s.bus p R s.seg)) = _
      rw [unwait_of_empty (by rw [hseg]; exact hunc.1 g), failAddress_bus, hsn, segGivenUp_inactive (active_newLegs hlegs)]
      rfl
    have hnote := onlyNotices_note .segRefused (some (.port p)) (some (.seg g)) (some sn.slot) 0#16 s
    rw [hclaim, finish_of_uncontended ((hnote.othersDone hothers).uncontended_bus (r := R.addressGivenUp) haw
        (by exact nofun) hunc.1),
      hnote.retime_steady hl fun k => .refl _, hown.owning, stallBy_not_owning] at hexec
    refine ⟨_, hexec, ?_⟩
    beta_reduce
    rw [State.bus_port_self]
    refine ⟨rfl, rfl, rfl, rfl, hsn, fun l hl => ?_, recorded_bus_note .., rfl, onlyPortSegsNotices_bus_note ..⟩
    obtain ⟨k, hk, rfl⟩ := List.mem_map.mp hl
    rw [hlegs] at hk
    obtain ⟨x, -, rfl⟩ := List.mem_map.mp hk
    rfl
  · have hrefuses : (s.seg g).refuses = false := by
      unfold SegState.refuses
      rw [beq_false_of_ne hnf, beq_false_of_ne hnd, hnp]
      rfl
    have hnotfree : (s.seg g).free = false := by
      unfold SegState.free
      obtain ho | hc := hbusy
      · rw [Option.isNone_eq_false_iff.mpr (Option.isSome_iff_ne_none.mpr ho)]
        rfl
      · rw [hc]
        exact Bool.and_false _
    have hclaim : claim g (.port p) (s.bus p R s.seg)
        = s.bus p R (oneSeg s g { s.seg g with waiters := [.port p] }) := by
      rw [claim_waiting _ (by rw [hseg]; exact hrefuses) (by rw [hseg]; exact hnotfree)]
      unfold joinWaiters
      rw [State.updSeg_bus]
      refine State.bus_congr _ _ rfl fun k => ?_
      rw [hunc.1 g]
      rfl
    have hsettled : Settled (s.bus p R (oneSeg s g { s.seg g with waiters := [.port p] })) := by
      refine settled_waiting hothers haw (fun k => ?_) (g := g) ?_ (by rw [hks]; nofun)
      · by_cases e : k = g
        · subst e
          rw [oneSeg_self]
          exact .inr ⟨hrefuses, hnotfree⟩
        · rw [oneSeg_other _ _ e]
          exact .inl (hunc.1 k)
      · rw [oneSeg_self]
        exact List.mem_singleton_self _
    rw [hclaim, finish_of_settled hsettled,
      retime_steady hl (steady_oneSeg (c := { s.seg g with waiters := [.port p] }) ⟨rfl, rfl, rfl⟩)] at hexec
    refine ⟨_, hexec, ?_⟩
    beta_reduce
    rw [State.bus_port_self]
    exact ⟨hphase, hscl, hsn, by rw [← hR]; rfl, by rw [← hR]; rfl, hlegs, (State.bus_seg ..).trans (oneSeg_self ..),
      fun k hk => (State.bus_seg ..).trans (oneSeg_other _ _ hk), onlyPortSegs_bus ..⟩

end Laws

end Sys2Proof.Machine
end

section
/-!
PROOFS. An address byte on a port that owns a segment, and one decided as a confirmation is joined (O20, O25).
-/
namespace Sys2Proof.Machine

/-! ### What stays due while a record owns a segment (R39, R94) -/

section
variable {s : State} {p : Port}

theorem ownedSegs_bus_ne_nil {r : PortState} {f : Seg → SegState} {g : Seg} (ho : (f g).owner = some (.port p)) :
    (ownedSegs (s.bus p r f) p).isEmpty = false := by
  rw [ownedSegs_bus]
  exact List.isEmpty_eq_false_iff.mpr (List.ne_nil_of_mem ((mem_filter_list _ g).mpr (beq_iff_eq.mpr ho)))

/-- R39: an answer waits while the record owns a segment. -/
theorem settled_answerWaiting (hothers : OthersDone s p) {r : PortState} {f : Seg → SegState} (hphase : r.phase ≠ .awaitGrant)
    (hw : ∀ g, (f g).waiters = []) {g : Seg} (ho : (f g).owner = some (.port p)) : Settled (s.bus p r f) := by
  refine settled_of_still (fun k => .inl (by rw [State.bus_seg]; exact hw k)) (fun q => ?_) fun q hq => ?_
  · by_cases e : q = p
    · subst e
      unfold nextAnswer
      rw [ownedSegs_bus_ne_nil ho]
      split <;> rfl
    · exact nextAnswer_of_none (by rw [State.bus_port_ne _ _ _ e]; exact (hothers q e).1)
  · by_cases e : q = p
    · subst e
      rw [State.bus_port_self] at hq
      exact absurd hq hphase
    · exact absurd hq (hothers.phase_bus r f e)

/-- R94: the first claim waits while the record owns a segment. -/
theorem settled_firstClaim (hothers : OthersDone s p) {r : PortState} {f : Seg → SegState} (haw : r.addrWait = none)
    (hw : ∀ g, (f g).waiters = []) (hno : ∀ g, r.active g = false) (hclaims : Seg.list.filter r.claims ≠ []) {g : Seg}
    (ho : (f g).owner = some (.port p)) : Settled (s.bus p r f) := by
  refine settled_of_still (fun k => .inl (by rw [State.bus_seg]; exact hw k))
    (fun q => nextAnswer_of_none (hothers.addrWait_bus haw f q)) fun q hq => ?_
  by_cases e : q = p
  · subst e
    refine ⟨?_, (claimingSegs_claims ..).trans_ne hclaims⟩
    unfold nextClaim
    rw [ownedSegs_bus_ne_nil ho, activeSegs_eq_nil fun k => (legActive_bus ..).trans (hno k)]
    exact if_neg (by simp)
  · exact absurd hq (hothers.phase_bus r f e)

end

/-! ### The legs of a new segment set (R19, R30) -/

/-- R19, R30: the legs list of a routed address that keeps no leg ACTIVE. -/
def reroutedLegs (q : Params) (p : Port) (segs : PerSeg Bool) (r : PortState) (f : Seg → SegState) : List Leg :=
  freshLegs segs (keptOf p (segGivenUp q r f) (mapLegs r.active Leg.ended r.legs))

theorem state_keptEnded {q : Params} {p : Port} {r : PortState} {f : Seg → SegState} {l : Leg}
    (h : l ∈ keptOf p (segGivenUp q r f) (mapLegs r.active Leg.ended r.legs)) : l.state = .ended := by
  obtain ⟨hl, hk⟩ := List.mem_filter.mp h
  obtain ⟨l, hmem, rfl⟩ := List.mem_map.mp hl
  by_cases ha : r.active l.seg = true
  · rw [if_pos ha]
    rfl
  · rw [if_neg ha] at hk ⊢
    have hna : l.state ≠ .active := fun e => ha (List.any_eq_true.mpr ⟨l, hmem, by rw [e, beq_self_eq_true]; rfl⟩)
    rw [beq_false_of_ne hna, Bool.false_or] at hk
    exact eq_of_beq (Bool.and_eq_true_iff.mp hk).1

section
variable {q : Params} {p : Port} {segs : PerSeg Bool} {r : PortState} {f : Seg → SegState}

theorem filter_claiming_reroutedLegs :
    (reroutedLegs q p segs r f).filter (·.state == .claiming) = (PerSeg.members segs).map newLeg :=
  filter_claiming_freshLegs segs fun l hl => by rw [state_keptEnded hl]; nofun

theorem activeIn_reroutedLegs (g : Seg) : activeIn (reroutedLegs q p segs r f) g = false := by
  refine activeIn_eq_false (fun l hl => ?_) g
  obtain ⟨-, h⟩ | ⟨-, h⟩ := mem_freshLegs hl
  · rw [h]
    nofun
  · rw [state_keptEnded h]
    nofun

end

theorem rebuiltLegs_eq (ls : List Leg) : rebuiltLegs ls
    = ls.map fun l => if l.state = .active then { l with retries := 0, retryLimit := none, marked := false } else l :=
  List.map_congr_left fun _ _ => if_congr beq_iff_eq rfl rfl

theorem activeIn_rebuiltLegs (ls : List Leg) : activeIn (rebuiltLegs ls) = activeIn ls := by
  funext g
  unfold activeIn rebuiltLegs
  rw [List.any_map]
  congr 1
  funext l
  simp only [Function.comp_apply]
  split <;> rfl

/-- R19: of a record's legs that still close one stays on each segment that the new set does not name. -/
theorem find?_keptEnded {s : State} {p : Port} {q : Params} (ho : ∀ g, (segGivenUp q (s.port p) s.seg g).owner = (s.seg g).owner)
    (g : Seg) :
    (keptOf p (segGivenUp q (s.port p) s.seg) (mapLegs (s.port p).active Leg.ended (s.port p).legs)).find? (fun l => l.seg == g)
      = (endedLegs s p).find? fun l => l.seg == g && l.state == .ended && owns s p g := by
  unfold keptOf
  rw [List.find?_filter, ← endedLegs_eq]
  refine List.find?_congr fun l hl => ?_
  have hna : l.state ≠ .active := fun e => absurd (activeIn_ended (s.port p).active (s.port p).legs l.seg) (by
    rw [← endedLegs_eq, ← PortState.active_eq, Bool.and_not_self]
    exact fun h => absurd (List.any_eq_true.mpr ⟨l, hl, by rw [e, beq_self_eq_true]; rfl⟩) (Bool.eq_false_iff.mp h))
  rw [beq_false_of_ne hna, Bool.false_or, ho, Bool.eq_iff_iff]
  simp only [Bool.and_eq_true, decide_eq_true_eq, beq_iff_eq, owns]
  constructor
  · rintro ⟨⟨hs, howner⟩, rfl⟩
    exact ⟨⟨rfl, hs⟩, howner⟩
  · rintro ⟨⟨rfl, hs⟩, howner⟩
    exact ⟨⟨hs, howner⟩, rfl⟩

/-! ### A routed address (R30, R38, R39) -/

theorem waiters_closedBy (q : Params) (g : Seg) (check : Option Byte) (c : SegState) :
    (c.closedBy q g check).waiters = c.waiters := by
  unfold SegState.closedBy
  rcases c.activity with _ | ((_ | _ | _) | _ | _ | _ | _) <;> rfl

theorem waiters_segGivenUp (q : Params) (r : PortState) (f : Seg → SegState) (g : Seg) :
    (segGivenUp q r f g).waiters = (f g).waiters := by
  unfold segGivenUp
  split
  · exact waiters_closedBy ..
  · rfl

/-- R13, R19: the record as a routed address byte is taken. -/
def PortState.taken (r : PortState) (a : Addr) (d : Dir) (sn : Snapshot) : PortState :=
  (r.addressed a d).carrying (carriedPointer r sn)

theorem waiters_reopened (limit slot : Nat) (r : PortState) (f : Seg → SegState) (g : Seg) :
    (reopened limit slot r f g).waiters = (f g).waiters := by
  unfold reopened
  split <;> rfl

section
variable {s : State} {p : Port} (hothers : OthersDone s p) {a : Addr} {d : Dir} {found : Found} {sn : Snapshot}
  {r : PortState} {f : Seg → SegState} (haw : r.addrWait = none) (hw : ∀ g, (f g).waiters = [])
  (h : decideFound r a d found = .routed sn)
include hothers haw hw h

/-- R38: a routed address of the segments that the record keeps. -/
theorem finish_addressTaken_kept (hne : Seg.list.filter r.active ≠ [])
    (hsame : PerSeg.members sn.entry.segs = Seg.list.filter r.active) :
    finish (addressTaken p a d found (s.bus p r f))
      = retime (s.bus p ((r.taken a d sn).routed s.working.params.holdLimit sn .awaitTarget
        (rebuiltLegs r.legs)) (reopened s.working.params.clockLimit sn.slot r f)) := by
  rw [addressTaken_routed_bus p sn s f h]
  refine (congrArg finish (route_kept_bus p sn s (r := r.taken a d sn) f hne hsame)).trans ?_
  exact finish_of_uncontended (hothers.uncontended_bus
    (r := (r.taken a d sn).routed s.working.params.holdLimit sn .awaitTarget (rebuiltLegs r.legs))
    (f := reopened s.working.params.clockLimit sn.slot r f) haw (by exact nofun)
    fun g => (waiters_reopened ..).trans (hw g))

/-- R30, R39, R94: a routed address of other segments, on a record that still owns one. -/
theorem finish_addressTaken_fresh
    (hdiff : ¬(Seg.list.filter r.active ≠ [] ∧ PerSeg.members sn.entry.segs = Seg.list.filter r.active)) {g : Seg}
    (ho : (segGivenUp s.working.params r f g).owner = some (.port p)) :
    finish (addressTaken p a d found (s.bus p r f))
      = retime (s.bus p ((r.taken a d sn).routed s.working.params.holdLimit sn
        (if PerSeg.members sn.entry.segs = [] then .awaitTarget else .awaitGrant)
        (reroutedLegs s.working.params p sn.entry.segs r f)) (segGivenUp s.working.params r f)) := by
  have hwaiters (k : Seg) : (segGivenUp s.working.params r f k).waiters = [] := (waiters_segGivenUp ..).trans (hw k)
  rw [addressTaken_routed_bus p sn s f h]
  refine (congrArg finish (route_fresh_bus p sn s (r := r.taken a d sn) f hdiff)).trans ?_
  show finish (s.bus p ((r.taken a d sn).routed s.working.params.holdLimit sn .awaitGrant
    (reroutedLegs s.working.params p sn.entry.segs r f)) (segGivenUp s.working.params r f)) = _
  have htaken : (r.taken a d sn).addrWait = none := haw
  generalize r.taken a d sn = R at htaken
  have hclaims (k : Seg) : (R.routed s.working.params.holdLimit sn .awaitGrant
      (reroutedLegs s.working.params p sn.entry.segs r f)).claims k = sn.entry.segs.get k :=
    claims_of_filter filter_claiming_reroutedLegs k
  have haw' : (R.routed s.working.params.holdLimit sn .awaitGrant
      (reroutedLegs s.working.params p sn.entry.segs r f)).addrWait = none := htaken
  by_cases hm : PerSeg.members sn.entry.segs = []
  · rw [if_pos hm, finish_acquired hothers ((List.filter_congr fun k _ => hclaims k).trans hm) rfl haw' hwaiters]
    exact finish_of_uncontended (hothers.uncontended_bus (by exact htaken) (by exact nofun) hwaiters)
  · rw [if_neg hm]
    exact finish_of_settled (settled_firstClaim hothers haw' hwaiters activeIn_reroutedLegs
      (fun e => hm ((List.filter_congr fun k _ => (hclaims k).symm).trans e)) ho)

end

section
variable {s : State} {p : Port} (hothers : OthersDone s p) {a : Addr} {d : Dir} {found : Found} {w : AddrWait}
  {r : PortState} {f : Seg → SegState} (hphase : r.phase ≠ .awaitGrant) (hw : ∀ g, (f g).waiters = [])
  (h : decideFound r a d found = .wait w)
include hothers hphase hw h

/-- R39: an answer, on a record that still owns a segment. -/
theorem finish_addressTaken_wait {g : Seg} (ho : (segGivenUp s.working.params r f g).owner = some (.port p)) :
    finish (addressTaken p a d found (s.bus p r f))
      = retime (s.bus p ((r.addressed a d).awaitingClose w) (segGivenUp s.working.params r f)) := by
  rw [addressTaken_wait_bus p s f h]
  exact finish_of_settled (settled_answerWaiting hothers hphase (fun k => (waiters_segGivenUp ..).trans (hw k)) ho)

end

/-! ### Legs PAUSED (R33, R38) -/

section
variable {r : PortState} {f : Seg → SegState} (hp : ∀ g, r.active g = true → (f g).activity = some .paused)
include hp

theorem segGivenUp_paused (q : Params) (g : Seg) :
    segGivenUp q r f g = if r.active g then closing none q.clockLimit (f g) else f g := by
  unfold segGivenUp
  split
  next hg => exact closedBy_paused (hp g hg) ..
  next => rfl

theorem owner_segGivenUp_paused (q : Params) (g : Seg) : (segGivenUp q r f g).owner = (f g).owner := by
  rw [segGivenUp_paused hp]
  split <;> rfl

theorem steady_segGivenUp_paused (q : Params) (g : Seg) : Steady (f g) (segGivenUp q r f g) := by
  rw [segGivenUp_paused hp]
  split
  next hg => exact steady_closing (hp g hg) nofun _ _
  next => exact .refl _

theorem steady_reopened (limit slot : Nat) (g : Seg) : Steady (f g) (reopened limit slot r f g) := by
  unfold reopened
  split
  next hg =>
    exact (steady_of_leg (b := .addressing .waitRepeated) (hp g hg) nofun nofun (some limit)).trans
      (steady_legSlot _ (some slot))
  next => exact .refl _

end

/-! ### A confirmation joined (R37, R69, R84) -/

/-- R69, R84: the record as the last leg of a confirmed byte has been answered. -/
def PortState.confirmed (r : PortState) (g : Seg) (a : Ack) : PortState :=
  { r with legs := answeredLegs g r.legs a, inFlight := none }

/-- R37, R69: the record in its new address phase. -/
def confirmedPort (s : State) (p : Port) (g : Seg) (a : Ack) : PortState :=
  ((s.port p).confirmed g a).begun (keptOf p s.seg (answeredLegs g (s.port p).legs a))

/-- R37, R69: the segments in the new address phase. -/
def confirmedSegs (s : State) (p : Port) (g : Seg) (a : Ack) (h : Seg) : SegState :=
  ungoverned p (oneSeg s g (answeredSeg s.working.params.clockLimit (s.seg g) a) h)

theorem owner_answeredSeg (limit : Nat) (c : SegState) (a : Ack) : (answeredSeg limit c a).owner = c.owner := by
  cases a <;> rfl

theorem marked_answeredLegs {ls : List Leg} (h : ∀ l ∈ ls, l.marked = false) (g : Seg) (a : Ack) :
    ∀ l ∈ answeredLegs g ls a, l.marked = false := by
  cases a with
  | ack => exact h
  | nack =>
    intro l hl
    obtain ⟨l, hmem, rfl⟩ := List.mem_map.mp hl
    split
    · exact h l hmem
    · exact h l hmem

theorem beginAddress_confirmed {s : State} {p : Port} (h : ∀ l ∈ (s.port p).legs, l.marked = false) (g : Seg) (a : Ack) :
    beginAddress p (s.bus p ((s.port p).confirmed g a) (oneSeg s g (answeredSeg s.working.params.clockLimit (s.seg g) a)))
      = s.bus p (confirmedPort s p g a) (confirmedSegs s p g a) := by
  rw [beginAddress_unmarked_bus _ _ _ (toStop_eq_false (r := (s.port p).confirmed g a) (marked_answeredLegs h g a))]
  unfold confirmedPort
  rw [← keptOf_congr (f' := oneSeg s g (answeredSeg s.working.params.clockLimit (s.seg g) a)) (f := s.seg) fun k => by
    unfold oneSeg
    split
    next e => rw [e, owner_answeredSeg]
    next => rfl]
  rfl

section
variable {s : State} {p : Port} {g : Seg} {b : Byte} {x : InFlight} (hleg : LegAt s p g (.writing b true))
  (hfl : (s.port p).inFlight = some x) (hafter : x.after = .repeatedStart)
  (hothers : ∀ h, legActive s p h = true → h ≠ g → (s.seg h).activity = some .paused)
include hleg hfl hafter hothers

/-- R69, R84: the last leg of a confirmed byte has answered. -/
theorem exec_deviceAck_confirmed (a : Ack) :
    exec (.deviceAck g a) s = .next (retime (toAddress p (s.bus p ((s.port p).confirmed g a)
      (oneSeg s g (answeredSeg s.working.params.clockLimit (s.seg g) a))))) := by
  rw [exec_deviceAck hleg]
  cases a with
  | ack =>
    rw [deviceAnswer_ack, joinData_repeated hfl _ _ _ (allPaused_iff.mpr fun k hk => ?_) hafter]
    · rfl
    · by_cases e : k = g
      · subst e
        rw [oneSeg_self]
        rfl
      · rw [oneSeg_other _ _ e]
        exact hothers k hk e
  | nack =>
    have hx : ((s.port p).lostLeg (mapLegs (fun h => h == g) Leg.ended (s.port p).legs)).inFlight
        = some { x with lost := true } := by
      unfold PortState.lostLeg
      rw [hfl]
      rfl
    rw [deviceAnswer_nack, joinData_repeated hx _ _ _ (allPaused_iff.mpr fun k hk => ?_) hafter]
    · rfl
    · rw [active_lostLeg] at hk
      obtain ⟨hk, hne⟩ := Bool.and_eq_true_iff.mp hk
      rw [oneSeg_other _ _ (bne_iff_ne.mp hne)]
      exact hothers k hk (bne_iff_ne.mp hne)

omit hfl hafter hothers in
theorem steady_confirmedSegs (a : Ack) (k : Seg) : Steady (s.seg k) (confirmedSegs s p g a k) := by
  refine Steady.trans (steady_oneSeg ?_ k) (steady_ungoverned p _)
  cases a with
  | ack => exact hleg.steady nofun (b := .paused) nofun none
  | nack => exact hleg.steady nofun (b := .closing none) nofun _

end

theorem active_confirmedPort (s : State) (p : Port) (g : Seg) (a : Ack) (h : Seg) :
    (confirmedPort s p g a).active h = (legActive s p h && (h != g || a == .ack)) :=
  (congrFun (activeIn_keptOf p s.seg _) h).trans (activeIn_answeredLegs g h (s.port p).legs a)

theorem waiters_confirmedSegs (s : State) (p : Port) (g : Seg) (a : Ack) (h : Seg) :
    (confirmedSegs s p g a h).waiters = (s.seg h).waiters := by
  have hungoverned (c : SegState) : (ungoverned p c).waiters = c.waiters := by
    unfold ungoverned
    split <;> rfl
  unfold confirmedSegs
  rw [hungoverned]
  unfold oneSeg
  split
  next e =>
    rw [e]
    cases a <;> rfl
  next => rfl

theorem confirmedSegs_self {s : State} {p : Port} {g : Seg} (ho : (s.seg g).owner = some (.port p)) (a : Ack) :
    confirmedSegs s p g a g = { answeredSeg s.working.params.clockLimit (s.seg g) a with legSlot := none } := by
  unfold confirmedSegs
  rw [oneSeg_self, ungoverned_of_owner (by rw [owner_answeredSeg, ho])]

theorem confirmedSegs_other {s : State} {p : Port} {g h : Seg} (hne : h ≠ g) (a : Ack) :
    confirmedSegs s p g a h = if owns s p h then { s.seg h with legSlot := none } else s.seg h := by
  unfold confirmedSegs
  rw [oneSeg_other _ _ hne, ungoverned_eq]

theorem decideFound_congr {r r' : PortState} (hprev : r'.prevSlot = r.prevSlot) (hptr : r'.pointer = r.pointer) (a : Addr)
    (d : Dir) (found : Found) : decideFound r' a d found = decideFound r a d found := by
  unfold decideFound decideEntry carriedPointer
  rw [hprev, hptr]

namespace Laws

/-- Settles O20: the address phase begins with the legs that ACKed; an address byte that came before it is decided then. -/
theorem confirmationJoined : Obligations.ConfirmationJoined := by
  refine ⟨fun s p g b answer x sn hleg hphase hfl hafter hsn hearly hl hact hothers hmarked => ?_,
    fun s p g b answer x sn e hleg hphase hfl hafter hsn hearly hscl hunc hl hact hlegs hstates kept hkept => ?_⟩
  · have hexec := exec_deviceAck_confirmed hleg hfl hafter hothers answer
    rw [toAddress_none (by rw [State.bus_port_self]; exact hearly), beginAddress_confirmed hmarked,
      retime_steady hl (steady_confirmedSegs hleg answer)] at hexec
    refine ⟨_, hexec, ?_⟩
    simp only [State.bus_port_self, State.bus_seg, legActive_bus]
    refine ⟨rfl, rfl, rfl, rfl, rfl, rfl, rfl, rfl, congrArg (Option.map Snapshot.slot) hsn, rfl, rfl,
      active_confirmedPort s p g answer, ?_, fun h hh => confirmedSegs_other hh answer, onlyPortSegs_bus ..⟩
    rw [confirmedSegs_self hleg.2.1]
    cases answer <;> rfl
  · have hothers (h : Seg) (hh : legActive s p h = true) (hne : h ≠ g) := (hlegs h hh).2 hne
    have hexec := exec_deviceAck_confirmed hleg hfl hafter hothers answer
    have hto : toAddress p (s.bus p ((s.port p).confirmed g answer)
        (oneSeg s g (answeredSeg s.working.params.clockLimit (s.seg g) answer)))
        = settle settleFuel (addressTaken p e.addr e.dir e.found
          (s.bus p (confirmedPort s p g answer) (confirmedSegs s p g answer))) := by
      unfold toAddress
      rw [State.bus_port_self, show ((s.port p).confirmed g answer).earlyAddr = some e from hearly]
      dsimp only
      rw [beginAddress_confirmed fun l hl => (hstates l hl).1]
      rfl
    have hfin : exec (.deviceAck g answer) s = .next (finish (addressTaken p e.addr e.dir e.found
        (s.bus p (confirmedPort s p g answer) (confirmedSegs s p g answer)))) := hexec.trans (by rw [hto]; rfl)
    clear hexec hto
    have hactive := active_confirmedPort s p g answer
    have hkeptActive : Seg.list.filter (confirmedPort s p g answer).active = kept := by
      rw [hkept]
      unfold activeSegs
      rw [List.filter_filter]
      exact List.filter_congr fun h _ => (hactive h).trans (Bool.and_comm ..)
    have hpaused (h : Seg) (hh : (confirmedPort s p g answer).active h = true) :
        (confirmedSegs s p g answer h).activity = some .paused := by
      obtain ⟨hh, hstay⟩ := Bool.and_eq_true_iff.mp ((hactive h).symm.trans hh)
      by_cases hne : h = g
      · subst hne
        rw [confirmedSegs_self hleg.2.1]
        cases answer with
        | ack => rfl
        | nack => simp at hstay
      · rw [confirmedSegs_other hne, if_pos (hlegs h hh).1]
        exact hothers h hh hne
    have hwaiters (h : Seg) : (confirmedSegs s p g answer h).waiters = [] :=
      (waiters_confirmedSegs s p g answer h).trans (hunc.1 h)
    have howner : (segGivenUp s.working.params (confirmedPort s p g answer) (confirmedSegs s p g answer) g).owner
        = some (.port p) := by
      rw [owner_segGivenUp_paused hpaused, (steady_confirmedSegs hleg answer g).owner]
      exact hleg.2.1
    have hended (h : Seg) (hh : legActive s p h = true) : (segGivenUp s.working.params (confirmedPort s p g answer)
        (confirmedSegs s p g answer) h).activity = some (.closing none) := by
      rw [segGivenUp_paused hpaused]
      split
      next => rfl
      next hna =>
        obtain rfl : h = g := by
          by_contra hne
          exact hna ((hactive h).trans (by rw [hh, show (h != g) = true from bne_iff_ne.mpr hne]; rfl))
        rw [confirmedSegs_self hleg.2.1]
        cases answer with
        | ack => exact absurd ((hactive h).trans (by rw [hh]; simp)) hna
        | nack => rfl
    have hprev : (confirmedPort s p g answer).prevSlot = some sn.slot := congrArg (Option.map Snapshot.slot) hsn
    have hcarried (sn' : Snapshot) : carriedPointer (confirmedPort s p g answer) sn'
        = if sn'.slot = sn.slot then (s.port p).pointer else none := by
      unfold carriedPointer
      rw [hprev]
      exact if_congr ⟨fun h => (Option.some.inj h).symm, fun h => congrArg some h.symm⟩ rfl rfl
    have hdecide : decideFound (confirmedPort s p g answer) e.addr e.dir e.found
        = decideFound { s.port p with prevSlot := some sn.slot } e.addr e.dir e.found :=
      decideFound_congr (r := { s.port p with prevSlot := some sn.slot }) (r' := confirmedPort s p g answer)
        (by exact hprev) (by exact rfl) ..
    rw [← hdecide]
    have hdone := hunc.othersDone p
    have haw := (hunc.2 p).1
    cases hd : decideFound (confirmedPort s p g answer) e.addr e.dir e.found with
    | wait w =>
      rw [finish_addressTaken_wait hdone (by exact nofun) hwaiters hd howner, retime_steady hl fun k =>
        (steady_confirmedSegs hleg answer k).trans (steady_segGivenUp_paused hpaused _ k), stallBy_held rfl] at hfin
      refine ⟨_, hfin, ?_⟩
      beta_reduce
      rw [State.bus_port_self]
      refine ⟨rfl, rfl, rfl, rfl, rfl, rfl, rfl, rfl, onlyPortSegs_bus .., fun w' hw' => ?_, nofun⟩
      cases hw'
      refine ⟨rfl, rfl, rfl, rfl, fun h => (legActive_bus ..).trans ?_, fun h hh => ?_⟩
      · exact (activeIn_ended _ _ h).trans (Bool.and_not_self _)
      · rw [State.bus_seg]
        exact hended h hh
    | routed sn' =>
      by_cases hsame : Seg.list.filter (confirmedPort s p g answer).active ≠ []
          ∧ PerSeg.members sn'.entry.segs = Seg.list.filter (confirmedPort s p g answer).active
      · rw [finish_addressTaken_kept hdone (by exact rfl) hwaiters hd hsame.1 hsame.2, retime_steady hl fun k =>
          (steady_confirmedSegs hleg answer k).trans (steady_reopened hpaused _ _ k), stallBy_held rfl] at hfin
        refine ⟨_, hfin, ?_⟩
        beta_reduce
        rw [State.bus_port_self]
        rw [hkeptActive] at hsame
        refine ⟨rfl, rfl, rfl, rfl, rfl, rfl, rfl, rfl, onlyPortSegs_bus .., nofun, fun sn'' hsn'' => ?_⟩
        cases hsn''
        refine ⟨rfl, rfl, ?_, fun _ _ => ⟨rfl, fun h => ?_, fun h hh => ?_⟩, fun _ hno => ?_⟩
        · exact hcarried sn'
        · rw [legActive_bus, PortState.active_eq, ← hkeptActive, mem_filter_list]
          exact Eq.to_iff (congrArg (· = true) (congrFun (activeIn_rebuiltLegs _) h))
        · have hh' := (mem_filter_list _ h).mp (hkeptActive ▸ hh)
          rw [State.bus_seg]
          unfold reopened
          rw [if_pos hh']
          exact ⟨rfl, rfl, rfl⟩
        · obtain hno | hno := hno
          · exact absurd hno hsame.1
          · exact absurd hsame.2 hno
      · rw [finish_addressTaken_fresh hdone (by exact rfl) hwaiters hd hsame howner, retime_steady hl fun k =>
          (steady_confirmedSegs hleg answer k).trans (steady_segGivenUp_paused hpaused _ k), stallBy_held rfl] at hfin
        refine ⟨_, hfin, ?_⟩
        beta_reduce
        rw [State.bus_port_self]
        rw [hkeptActive] at hsame
        refine ⟨rfl, rfl, rfl, rfl, rfl, rfl, rfl, rfl, onlyPortSegs_bus .., nofun, fun sn'' hsn'' => ?_⟩
        cases hsn''
        refine ⟨rfl, rfl, ?_, fun hne hm => absurd ⟨hne, hm⟩ hsame, fun hm _ => ⟨if_neg hm, fun h => ?_, ?_, fun h hh => ?_⟩⟩
        · exact hcarried sn'
        · exact (legActive_bus ..).trans (activeIn_reroutedLegs h)
        · rw [claimingSegs_claims]
          exact List.filter_congr fun h _ => claims_of_filter filter_claiming_reroutedLegs h
        · rw [State.bus_seg]
          exact hended h hh

/-- Settles O25: the legs kept where the new segment set is theirs, and else ended; the new claims and the answer wait for the STOPs. -/
theorem addressOnKeptLegs : Obligations.AddressOnKeptLegs := by
  refine ⟨fun s p a d sn hr h hunc hl hp howned => ?_, fun s p a d w hr h hunc hl hp howned => ?_⟩
  · have hothers := hunc.othersDone p
    have haw := (hunc.2 p).1
    have hpaused (g : Seg) (hg : (s.port p).active g = true) := (hp g hg).2
    have hexec := exec_addressByte hr a d
    have hdecide : decideFound (s.port p) a d (find25 s p a) = .routed sn := h
    have hbus : addressTaken p a d (find25 s p a) s = addressTaken p a d (find25 s p a) (s.bus p (s.port p) s.seg) := by
      rw [State.bus_self]
    rw [hbus] at hexec
    by_cases hsame : Seg.list.filter (s.port p).active ≠ []
        ∧ PerSeg.members sn.entry.segs = Seg.list.filter (s.port p).active
    · rw [finish_addressTaken_kept hothers haw hunc.1 hdecide hsame.1 hsame.2,
        retime_steady hl (steady_reopened hpaused _ _), stallBy_held rfl] at hexec
      have hall (g : Seg) : legActive s p g = sn.entry.segs.get g := by
        rw [Bool.eq_iff_iff, ← mem_filter_list (legActive s p) g, ← mem_filter_list sn.entry.segs.get g]
        exact Eq.to_iff (congrArg (g ∈ ·) hsame.2.symm)
      refine ⟨_, hexec, ?_⟩
      beta_reduce
      rw [State.bus_port_self]
      exact ⟨rfl, rfl, rfl, rfl, rfl, rfl, rfl, rfl, haw, rfl, onlyPortSegs_bus .., fun _ _ =>
        ⟨rfl, rebuiltLegs_eq _, fun g => State.bus_seg ..⟩, fun hn => absurd hall hn⟩
    · obtain ⟨g, ho⟩ := List.exists_mem_of_ne_nil _ howned
      have howner := eq_of_beq ((mem_filter_list (owns s p) g).mp ho)
      rw [finish_addressTaken_fresh hothers haw hunc.1 hdecide hsame (g := g)
          (by rw [owner_segGivenUp_paused hpaused]; exact howner),
        retime_steady hl (steady_segGivenUp_paused hpaused _), stallBy_held rfl] at hexec
      refine ⟨_, hexec, ?_⟩
      beta_reduce
      rw [State.bus_port_self]
      refine ⟨rfl, rfl, rfl, rfl, rfl, rfl, rfl, rfl, haw, rfl, onlyPortSegs_bus .., fun hact hall => ?_,
        fun hn hm => ⟨if_neg hm, ?_, ?_, ?_, fun g => (State.bus_seg ..).trans (segGivenUp_paused hpaused _ g)⟩⟩
      · refine absurd ⟨hact, ?_⟩ hsame
        exact List.filter_congr fun g _ => (hall g).symm
      · exact activeSegs_eq_nil fun g => (legActive_bus ..).trans (activeIn_reroutedLegs g)
      · exact filter_claiming_reroutedLegs
      · refine List.filterMap_congr fun g _ => ?_
        exact if_congr Iff.rfl rfl (find?_keptEnded (fun k => owner_segGivenUp_paused hpaused _ k) g)
  · have hothers := hunc.othersDone p
    have hpaused (g : Seg) (hg : (s.port p).active g = true) := (hp g hg).2
    have hexec := exec_addressByte hr a d
    have hdecide : decideFound (s.port p) a d (find25 s p a) = .wait w := h
    have hbus : addressTaken p a d (find25 s p a) s = addressTaken p a d (find25 s p a) (s.bus p (s.port p) s.seg) := by
      rw [State.bus_self]
    obtain ⟨g, ho⟩ := List.exists_mem_of_ne_nil _ howned
    have howner := eq_of_beq ((mem_filter_list (owns s p) g).mp ho)
    rw [hbus, finish_addressTaken_wait hothers (by rw [hr.2.1]; nofun) hunc.1 hdecide (g := g)
        (by rw [owner_segGivenUp_paused hpaused]; exact howner),
      retime_steady hl (steady_segGivenUp_paused hpaused _), stallBy_held rfl] at hexec
    refine ⟨_, hexec, ?_⟩
    beta_reduce
    rw [State.bus_port_self]
    exact ⟨hr.2.1, rfl, rfl, rfl, rfl, rfl, rfl, rfl, fun g => (State.bus_seg ..).trans (segGivenUp_paused hpaused _ g),
      onlyPortSegs_bus ..⟩

end Laws

end Sys2Proof.Machine
end

section
/-!
PROOFS. O36: the hold timer's expiry (R36, R82, R94, R101).
-/
namespace Sys2Proof.Machine

/-! ### What stays settled when one record's transaction is given up -/

/-- R31, R39: no port's answer, claim or end of an acquisition is due. -/
def PortsDone (s : State) : Prop := ∀ p, nextAnswer s p = none ∧ nextClaim s p = none ∧ acquired s p = false

theorem Settled.portsDone {s : State} (h : Settled s) : PortsDone s := by
  obtain ⟨-, -, hanswers, hclaims, hacquired⟩ := settled_iff.mp h
  exact fun p => ⟨hanswers p, hclaims p, hacquired p⟩

theorem PortsDone.settled {s : State} (h : PortsDone s) (hstill : ∀ g, (s.seg g).still) : Settled s :=
  settled_iff.mpr ⟨fun g => nextRefusal_of_still (hstill g), fun g => nextGrant_of_still (hstill g), fun p => (h p).1,
    fun p => (h p).2.1, fun p => (h p).2.2⟩

section
variable {s t : State} {p : Port} (hport : t.port p = s.port p) (howns : ∀ g, owns t p g = owns s p g)
include hport

theorem acquired_congr : acquired t p = acquired s p := by
  unfold acquired claimingSegs
  rw [hport]

include howns

theorem nextAnswer_congr : nextAnswer t p = nextAnswer s p := by
  unfold nextAnswer ownedSegs
  rw [hport, funext howns]

theorem nextClaim_congr (hwaits : waits t p = waits s p) : nextClaim t p = nextClaim s p := by
  unfold nextClaim claimingSegs activeSegs ownedSegs legActive
  rw [hport, hwaits, funext howns]

end

theorem waits_of_mem {s : State} {p : Port} {g : Seg} (h : .port p ∈ (s.seg g).waiters) : waits s p = true :=
  List.any_eq_true.mpr ⟨g, Seg.mem_list g, List.contains_iff_mem.mpr h⟩

theorem nextClaim_of_waits {s : State} {p : Port} (h : waits s p = true) : nextClaim s p = none := by
  unfold nextClaim
  rw [h, Bool.not_true, Bool.and_false, Bool.false_and]
  rfl

theorem acquired_of_claiming {s : State} {p : Port} (h : claimingSegs s p ≠ []) : acquired s p = false := by
  unfold acquired
  rw [List.isEmpty_eq_false_iff.mpr h, Bool.and_false]

section
variable {s u : State} (hu : OnlyNotices s u) {p : Port} {r : PortState} {f : Seg → SegState}

/-- R39: a record that owes no answer, or owns a segment, has none to give. -/
theorem nextAnswer_bus (haw : r.addrWait = none ∨ ∃ g, (f g).owner = some (.port p)) : nextAnswer (u.bus p r f) p = none := by
  obtain haw | ⟨g, ho⟩ := haw
  · exact nextAnswer_of_none (by rw [State.bus_port_self, haw])
  · unfold nextAnswer
    rw [ownedSegs_bus_ne_nil ho]
    split <;> rfl

variable (howns : ∀ q, q ≠ p → ∀ g, ((f g).owner == some (.port q)) = owns s q g)
  (hwaits : ∀ q, q ≠ p → ∀ g, (f g).waiters.contains (.port q) = (s.seg g).waiters.contains (.port q))
include hu howns hwaits

/-- R31, R39: a change of one record and of its segments makes nothing due for the others. -/
theorem PortsDone.others (h : PortsDone s) {q : Port} (hq : q ≠ p) : nextAnswer (u.bus p r f) q = none
    ∧ nextClaim (u.bus p r f) q = none ∧ acquired (u.bus p r f) q = false := by
  have hport : (u.bus p r f).port q = s.port q := (State.bus_port_ne _ _ _ hq).trans (hu.port q)
  have hown (g : Seg) : owns (u.bus p r f) q g = owns s q g := (owns_bus ..).trans (howns q hq g)
  have hwaiting : waits (u.bus p r f) q = waits s q := by
    unfold waits
    congr 1
    funext g
    rw [State.bus_seg]
    exact hwaits q hq g
  rw [nextAnswer_congr hport hown, nextClaim_congr hport hown hwaiting, acquired_congr hport]
  exact h q

variable (haw : r.addrWait = none ∨ ∃ g, (f g).owner = some (.port p))
  (hself : r.phase ≠ .awaitGrant ∨ (∃ g, .port p ∈ (f g).waiters) ∧ Seg.list.filter r.claims ≠ [])
include haw hself

/-- R31, R39: nor for that record, where it has no answer to give, and no claim, or its claim waits. -/
theorem PortsDone.other_port (h : PortsDone s) : PortsDone (u.bus p r f) := by
  intro q
  by_cases e : q = p
  · subst e
    refine ⟨nextAnswer_bus haw, ?_⟩
    obtain hphase | ⟨⟨g, hg⟩, hne⟩ := hself
    · exact ⟨nextClaim_of_phase (by rw [State.bus_port_self]; exact hphase),
        acquired_of_phase (by rw [State.bus_port_self]; exact hphase)⟩
    · exact ⟨nextClaim_of_waits (waits_of_mem (g := g) (by rw [State.bus_seg]; exact hg)),
        acquired_of_claiming ((claimingSegs_claims ..).trans_ne hne)⟩
  · exact h.others hu howns hwaits e

/-- R31, R39, R98: where no segment comes to serve a waiter, such a change sets off nothing. -/
theorem Settled.other_port (hset : Settled s) (hstill : ∀ g, (f g).still) : Settled (u.bus p r f) :=
  (hset.portsDone.other_port hu howns hwaits haw hself).settled fun g => by rw [State.bus_seg]; exact hstill g

end

/-! ### A leg that is given up (R31, R33, R36) -/

theorem waiting_of_owner {c : SegState} {p : Port} (ho : c.owner = some (.port p))
    (ha : c.activity ≠ some (.addressing .waitFresh)) : c.waiting = false := by
  unfold SegState.waiting
  rw [ho, beq_false_of_ne ha, show (some (Claimant.port p) == some Claimant.mgmt) = false from beq_false_of_ne nofun]
  simp

theorem steady_closing_owned {c : SegState} {p : Port} (ho : c.owner = some (.port p))
    (ha : c.activity ≠ some (.addressing .waitFresh)) (check : Option Byte) (n : Nat) : Steady c (closing check n c) :=
  ⟨rfl, rfl, SegState.quietRuns_congr rfl rfl
    ((waiting_of_owner (c := closing check n c) ho (by exact nofun)).trans (waiting_of_owner ho ha).symm) rfl rfl⟩

theorem segGivenUp_of_active {r : PortState} {g : Seg} (h : r.active g = true) (q : Params) (f : Seg → SegState) :
    segGivenUp q r f g = (f g).closedBy q g none := if_pos h

theorem segGivenUp_of_inactive {r : PortState} {g : Seg} (h : r.active g = false) (q : Params) (f : Seg → SegState) :
    segGivenUp q r f g = f g := if_neg (Bool.eq_false_iff.mp h)

/-- R33, R96: a leg that waits for its fresh START gives its segment up at once. -/
theorem closedBy_waitFresh {c : SegState} (h : c.activity = some (.addressing .waitFresh)) (q : Params) (g : Seg)
    (check : Option Byte) : c.closedBy q g check = c.releasedBy (q.segs.get g) c.foreignBusy := by
  unfold SegState.closedBy
  rw [h]

theorem cond_releasedBy (q : SegParams) (foreign : Bool) (c : SegState) : (c.releasedBy q foreign).cond ≠ .owned := by
  unfold SegState.releasedBy
  dsimp only
  split
  · nofun
  · split <;> nofun

theorem owner_closedBy {c : SegState} (h : c.activity ≠ some (.addressing .waitFresh)) (q : Params) (g : Seg)
    (check : Option Byte) : (c.closedBy q g check).owner = c.owner := by
  revert h
  unfold SegState.closedBy
  rcases c.activity with _ | ((_ | _ | _) | _ | _ | _ | _)
  case some.addressing.waitFresh => exact fun h => absurd rfl h
  all_goals exact fun _ => rfl

theorem owner_closedBy_ne {c : SegState} {p q : Port} (ho : c.owner = some (.port p)) (hq : q ≠ p) (k : Params) (g : Seg)
    (check : Option Byte) : ((c.closedBy k g check).owner == some (.port q)) = false := by
  by_cases h : c.activity = some (.addressing .waitFresh)
  · rw [closedBy_waitFresh h]
    rfl
  · rw [owner_closedBy h, ho]
    exact beq_false_of_ne fun e => hq (by cases e; rfl)

theorem eq_of_owns {s : State} {p : Port} {g : Seg} (h : owns s p g = true) : (s.seg g).owner = some (.port p) := eq_of_beq h

section
variable {s : State} {p : Port} (howns : ∀ g, legActive s p g = true → owns s p g = true)
include howns

/-- R33: giving up a record's legs takes no segment of another. -/
theorem owner_segGivenUp {f : Seg → SegState} (hf : ∀ g, (f g).owner = (s.seg g).owner) {q : Port} (hq : q ≠ p) (g : Seg) :
    ((segGivenUp s.working.params (s.port p) f g).owner == some (.port q)) = owns s q g := by
  unfold segGivenUp
  split
  next hg =>
    have ho := eq_of_owns (howns g hg)
    rw [owner_closedBy_ne ((hf g).trans ho) hq, owns, ho]
    exact (beq_false_of_ne fun e => hq (by cases e; rfl)).symm
  next => rw [hf, owns]

variable (hl : TimersLaw s) (hclosing : ∀ g c, legActive s p g = true → (s.seg g).activity ≠ some (.closing c))
include hl hclosing

/-- R33, R114: a leg that is to place its STOP, its quiet timer as it was. -/
theorem retimed_closing {g : Seg} (hg : legActive s p g = true)
    (ha : (s.seg g).activity ≠ some (.addressing .waitFresh)) (n : Nat) :
    { (s.seg g).closedBy s.working.params g none with
      quiet := quietAfter n ((s.seg g).closedBy s.working.params g none) }
      = closing none s.working.params.clockLimit (s.seg g) := by
  rw [SegState.closedBy_eq_closing ha fun c => hclosing g c hg]
  have hsteady := steady_closing_owned (eq_of_owns (howns g hg)) ha none s.working.params.clockLimit
  exact retimed_same (hl.2 g) hsteady.quiet hsteady.runs

/-- R31, R36, R81: what becomes of the segment of a leg given up. -/
theorem legGivenUp_of {t : State} {g : Seg} (hg : legActive s p g = true) {n : Nat}
    (ht : t.seg g = { (s.seg g).closedBy s.working.params g none with
      quiet := quietAfter n ((s.seg g).closedBy s.working.params g none) }) : LegGivenUp s t g := by
  unfold LegGivenUp
  split
  next ha =>
    rw [ht, closedBy_waitFresh ha]
    exact ⟨rfl, cond_releasedBy _ _ _⟩
  next ha => rw [ht, retimed_closing howns hl hclosing hg ha]

end

/-- Where only one record's segments change their owner, `retime` touches of the other ports nothing. -/
theorem OnlyNotices.retime_bus {s u : State} (h : OnlyNotices s u) (hl : TimersLaw s) {p : Port} {r : PortState}
    {f : Seg → SegState} (ho : ∀ g q, q ≠ p → ((f g).owner == some (.port q)) = owns s q g) :
    retime (u.bus p r f)
      = u.bus p { r with
          stall := r.stallBy s.working.params.stallLimit (Seg.list.any fun g => (f g).owner == some (.port p)) }
          fun g => { f g with quiet := quietAfter s.working.params.clockLimit (f g) } := by
  rw [Machine.retime_bus (h.timersLaw hl) fun g q hq => by rw [ho g q hq, owns, owns, h.seg], h.working]

/-! ### The hold timer (R36) -/

/-- R36, R101: the segments with a record's claim withdrawn. -/
def withdrawn (s : State) (p : Port) (g : Seg) : SegState :=
  { s.seg g with waiters := (s.seg g).waiters.filter fun w => !(w == .port p) }

theorem withdraw_eq (p : Port) (s : State) : withdraw p s = s.bus p (s.port p) (withdrawn s p) := by
  have hbus : withdraw p s = withdraw p (s.bus p (s.port p) s.seg) := by rw [State.bus_self]
  rw [hbus]
  unfold withdraw
  rw [unwait_bus, unwait_bus, unwait_bus, unwait_bus]
  exact State.bus_congr _ _ rfl fun g => by cases g <;> rfl

theorem withdrawn_of_not_mem {s : State} {p : Port} {g : Seg} (h : .port p ∉ (s.seg g).waiters) :
    withdrawn s p g = s.seg g := by
  have hfilter : (s.seg g).waiters.filter (fun w => !(w == .port p)) = (s.seg g).waiters :=
    List.filter_eq_self.mpr fun w hw => by
      have hne : w ≠ .port p := fun e => h (e ▸ hw)
      rw [beq_false_of_ne hne]
      rfl
  unfold withdrawn
  rw [hfilter]

theorem holdExpired_eq (p : Port) (s : State) :
    holdExpired p s
      = (note .holdExpired (some (.port p)) ((holdSegment s p).map .seg) (slotOf s p) 0#16 s).bus p
        (s.port p).addressGivenUp (segGivenUp s.working.params (s.port p) (withdrawn s p)) := by
  unfold holdExpired notePort
  rw [withdraw_eq, endActive_endClaiming_bus, giveAck_bus, stopHold_bus, note_bus, toDrain_bus]
  rfl

theorem exec_holdExpired {s : State} {p : Port} (hrun : s.run = .running) (hh : (s.port p).hold.isSome = true) :
    exec (.holdExpired p) s = .next (finish (holdExpired p s)) := by
  show Host.Outcome.next (whenRunning s _) = _
  rw [whenRunning_running hrun, if_pos hh]

/-- R31, R36: the legs given up are those ACTIVE, where no claim is outstanding. -/
theorem legsGivenUp_eq_endedLegs {s : State} {p : Port} (h : ∀ l ∈ (s.port p).legs, l.state ≠ .claiming) :
    (s.port p).legsGivenUp = endedLegs s p :=
  List.map_congr_left fun l hl => if_congr (or_iff_right (h l hl)) rfl rfl

/-- R31, R36: the legs given up are those CLAIMING, where none is ACTIVE. -/
theorem legsGivenUp_eq_unclaimed {r : PortState} (h : ∀ g, r.active g = false) :
    r.legsGivenUp = r.legs.map fun l => if l.state = .claiming then { l with state := .ended } else l :=
  List.map_congr_left fun l _ => if_congr (or_iff_left (by rw [h]; nofun)) rfl rfl

theorem find?_waiting_none {s : State} {p : Port} (h : ∀ g, .port p ∉ (s.seg g).waiters) :
    (Seg.list.find? fun g => (s.seg g).waiters.contains (.port p)) = none :=
  List.find?_eq_none.mpr fun g _ e => h g (List.contains_iff_mem.mp e)

theorem find?_waiting_only {s : State} {p : Port} {g : Seg} (hg : .port p ∈ (s.seg g).waiters)
    (h : ∀ k, k ≠ g → .port p ∉ (s.seg k).waiters) :
    (Seg.list.find? fun k => (s.seg k).waiters.contains (.port p)) = some g := by
  cases hf : Seg.list.find? fun k => (s.seg k).waiters.contains (.port p) with
  | none => exact absurd (List.contains_iff_mem.mpr hg) (List.find?_eq_none.mp hf g (Seg.mem_list g))
  | some k =>
    by_cases e : k = g
    · rw [e]
    · have hk := List.find?_some hf
      exact absurd (List.contains_iff_mem.mp hk) (h k e)

namespace Laws

/-- Settles O36: by what the address phase waits for: its targets, its claim in a wait list, or the STOPs before its first claim. -/
theorem holdExpired : Obligations.HoldExpired := by
  refine ⟨fun s p hrun hphase hhold hunc hl howns hclosing hstates => ?_,
    fun s p g others hrun halone hhold hl href hfree => ?_,
    fun s p hrun hphase hhold hnot hact howned haw hset hl => ?_⟩
  · have hnot (g : Seg) : Claimant.port p ∉ (s.seg g).waiters := by rw [hunc.1 g]; exact List.not_mem_nil
    have hsame : withdrawn s p = s.seg := funext fun g => withdrawn_of_not_mem (hnot g)
    have hexec := exec_holdExpired hrun hhold
    have hseg : holdSegment s p = (activeSegs s p).find? fun g => (s.seg g).activity != some .paused := by
      unfold holdSegment
      rw [find?_waiting_none hnot]
      exact if_neg (by rw [hphase]; nofun)
    have hnote := onlyNotices_note .holdExpired (some (.port p)) ((holdSegment s p).map .seg) (slotOf s p) 0#16 s
    rw [holdExpired_eq, hsame, finish_of_uncontended ((hnote.othersDone (hunc.othersDone p)).uncontended_bus
        (r := (s.port p).addressGivenUp) (hunc.2 p).1 (by exact nofun)
        fun g => (waiters_segGivenUp ..).trans (hunc.1 g)),
      hnote.retime_bus hl fun g q hq => owner_segGivenUp howns (fun _ => rfl) hq g, hseg] at hexec
    refine ⟨_, hexec, ?_⟩
    beta_reduce
    rw [State.bus_port_self]
    refine ⟨rfl, rfl, rfl, rfl, rfl, legsGivenUp_eq_endedLegs hstates, recorded_bus_note .., fun g hg => ⟨fun ha => ?_, fun ha => ?_⟩,
      fun g hg => ?_, onlyPortSegsNotices_bus_note ..⟩
    · rw [State.bus_seg, segGivenUp_of_active (r := s.port p) hg, closedBy_waitFresh ha]
      rfl
    · rw [State.bus_seg, segGivenUp_of_active (r := s.port p) hg]
      exact retimed_closing howns hl hclosing hg ha _
    · rw [State.bus_seg, segGivenUp_of_inactive (r := s.port p) hg]
      exact retimed_same (hl.2 g) rfl rfl
  · obtain ⟨hphase, hwait, hnot, hothers, haw, hphases, hlegs⟩ := halone
    have hdone : OthersDone s p := fun q hq => ⟨haw q, hphases q hq⟩
    have howns (k : Seg) (hk : legActive s p k = true) := (hlegs k hk).1
    have hclosing (k : Seg) (c : Option Byte) (hk : legActive s p k = true) := (hlegs k hk).2.2 c
    have hexec := exec_holdExpired hrun hhold
    have hseg : holdSegment s p = some g := by
      unfold holdSegment
      rw [find?_waiting_only (g := g) (by rw [hwait]; exact List.mem_cons_self ..) fun k hk => by
        rw [hothers k hk]
        exact List.not_mem_nil]
    have hother (k : Seg) (hk : k ≠ g) : withdrawn s p k = s.seg k :=
      withdrawn_of_not_mem (by rw [hothers k hk]; exact List.not_mem_nil)
    have hself : withdrawn s p g = { s.seg g with waiters := others } := by
      unfold withdrawn
      rw [hwait, List.filter_cons_of_neg (by simp), List.filter_eq_self.mpr fun w hw => ?_]
      have hne : w ≠ .port p := fun e => hnot (e ▸ hw)
      rw [beq_false_of_ne hne]
      rfl
    have hgself : segGivenUp s.working.params (s.port p) (withdrawn s p) g = { s.seg g with waiters := others } :=
      (if_neg fun hg => (hlegs g hg).2.1 rfl).trans hself
    have hgother (k : Seg) (hk : k ≠ g) : segGivenUp s.working.params (s.port p) (withdrawn s p) k
        = segGivenUp s.working.params (s.port p) s.seg k := by
      unfold segGivenUp
      rw [hother k hk]
    have hnote := onlyNotices_note .holdExpired (some (.port p)) ((holdSegment s p).map .seg) (slotOf s p) 0#16 s
    have hsettled : Settled ((note .holdExpired (some (.port p)) ((holdSegment s p).map .seg) (slotOf s p) 0#16 s).bus p
        (s.port p).addressGivenUp (segGivenUp s.working.params (s.port p) (withdrawn s p))) := by
      refine settled_of_still (fun k => ?_) (fun q => nextAnswer_of_none ((hnote.othersDone hdone).addrWait_bus
        (r := (s.port p).addressGivenUp) (haw p) _ q))
        fun q hq => ?_
      · rw [State.bus_seg]
        by_cases e : k = g
        · rw [e, hgself]
          exact .inr ⟨href, hfree⟩
        · rw [hgother k e]
          exact .inl ((waiters_segGivenUp ..).trans (hothers k e))
      · by_cases e : q = p
        · rw [e, State.bus_port_self] at hq
          exact absurd hq nofun
        · exact absurd hq ((hnote.othersDone hdone).phase_bus _ _ e)
    rw [holdExpired_eq, finish_of_settled hsettled,
      hnote.retime_bus hl fun k q hq => owner_segGivenUp howns (f := withdrawn s p) (fun _ => rfl) hq k, hseg] at hexec
    refine ⟨_, hexec, ?_⟩
    beta_reduce
    rw [State.bus_port_self]
    refine ⟨rfl, rfl, rfl, rfl, rfl, rfl, ?_, fun k hk => ?_, recorded_bus_note .., onlyPortSegsNotices_bus_note ..⟩
    · rw [State.bus_seg, hgself]
      exact retimed_same (hl.2 g) rfl rfl
    · split
      next hact =>
        refine legGivenUp_of howns hl hclosing hact (n := s.working.params.clockLimit) ?_
        rw [State.bus_seg, hgother k hk, segGivenUp_of_active (r := s.port p) hact]
      next hact =>
        rw [State.bus_seg, hgother k hk, segGivenUp_of_inactive (r := s.port p) (Bool.eq_false_iff.mpr hact)]
        exact retimed_same (hl.2 k) rfl rfl
  · have hno (g : Seg) : (s.port p).active g = false := Bool.eq_false_iff.mpr fun hg =>
      List.ne_nil_of_mem ((mem_filter_list (legActive s p) g).mpr hg) hact
    have hsame : withdrawn s p = s.seg := funext fun g => withdrawn_of_not_mem (hnot g)
    have hexec := exec_holdExpired hrun hhold
    have hseg : holdSegment s p = Seg.list.find? fun h => owns s p h := by
      unfold holdSegment
      rw [find?_waiting_none hnot]
      exact (if_pos hphase).trans (List.head?_filter ..)
    have hnote := onlyNotices_note .holdExpired (some (.port p)) ((holdSegment s p).map .seg) (slotOf s p) 0#16 s
    rw [holdExpired_eq, hsame, segGivenUp_inactive hno,
      finish_of_settled (Settled.other_port hnote (r := (s.port p).addressGivenUp) (fun _ _ _ => rfl) (fun _ _ _ => rfl)
        (.inl haw) (.inl (by exact nofun)) hset (still_of_settled hset)), hnote.retime_steady hl fun g => .refl _, hseg] at hexec
    refine ⟨_, hexec, ?_⟩
    beta_reduce
    rw [State.bus_port_self]
    exact ⟨rfl, rfl, rfl, rfl, rfl, legsGivenUp_eq_unclaimed hno, rfl, recorded_bus_note .., onlyPortSegsNotices_bus_note ..⟩

end Laws

end Sys2Proof.Machine
end

section
/-!
PROOFS. A segment's release to its oldest waiter (R95, R96), and O40: the closing STOP.
-/
namespace Sys2Proof.Machine

/-! ### The oldest waiter of a segment that has become free (R95, R96, R97) -/

/-- R31, R95: the record whose last claim has been granted. -/
def PortState.lastGranted (g : Seg) (r : PortState) : PortState := { r.granted g with phase := .awaitTarget }

/-- R95: a segment granted to a record, the other waiters in order. -/
def SegState.passedTo (q : SegParams) (p : Port) (slot : Option Nat) (others : List Claimant) (c : SegState) : SegState :=
  { c.grantedTo q p slot with waiters := others }

/-- R95: the segments with one granted to a record. -/
def grantedSeg (s : State) (g : Seg) (q : Port) (others : List Claimant) (h : Seg) : SegState :=
  if h = g then (s.seg g).passedTo (s.working.params.segs.get g) q (slotOf s q) others else s.seg h

theorem grantedSeg_self (s : State) (g : Seg) (q : Port) (others : List Claimant) : grantedSeg s g q others g
    = (s.seg g).passedTo (s.working.params.segs.get g) q (slotOf s q) others := if_pos rfl

theorem grantedSeg_other (s : State) {g h : Seg} (q : Port) (others : List Claimant) (hne : h ≠ g) :
    grantedSeg s g q others h = s.seg h := if_neg hne

theorem filter_waiters_cons {c : Claimant} {cs : List Claimant} (h : c ∉ cs) :
    (c :: cs).filter (fun w => !(w == c)) = cs := by
  rw [List.filter_cons_of_neg (by simp)]
  exact List.filter_eq_self.mpr fun w hw => by
    have hne : w ≠ c := fun e => h (e ▸ hw)
    rw [beq_false_of_ne hne]
    rfl

section
variable {s : State} {g : Seg} {others : List Claimant}

theorem grant_port_eq {q : Port} (hw : (s.seg g).waiters = .port q :: others) (hnot : .port q ∉ others) :
    grant g (.port q) s = s.bus q ((s.port q).granted g) (grantedSeg s g q others) := by
  show grantPort g q (s.updSeg g _) = _
  rw [State.updSeg_eq_bus s q, grantPort_bus]
  refine State.bus_congr _ _ rfl fun h => ?_
  unfold grantedSeg
  split
  next =>
    rw [if_pos rfl, hw, filter_waiters_cons hnot]
    rfl
  next => rfl

/-- R93: a segment that a record owns serves nobody who waits. -/
theorem still_of_owned {c : SegState} {q : Port} (ho : c.owner = some (.port q)) (hc : c.cond = .owned)
    (hp : c.pendingDisable = false) : c.still := by
  refine .inr ⟨?_, ?_⟩
  · unfold SegState.refuses
    rw [hc, hp]
    rfl
  · unfold SegState.free
    rw [ho]
    rfl

theorem pendingDisable_of_not_refuses {c : SegState} (h : c.refuses = false) : c.pendingDisable = false :=
  (Bool.or_eq_false_iff.mp h).2

theorem claims_lastGranted {r : PortState} (h : Seg.list.filter r.claims = [g]) : Seg.list.filter (r.granted g).claims = [] := by
  refine List.filter_eq_nil_iff.mpr fun k _ => ?_
  rw [claims_granted, Bool.and_eq_true, bne_iff_ne]
  rintro ⟨hk, hne⟩
  have hmem := (mem_filter_list r.claims k).mpr hk
  rw [h] at hmem
  exact hne (List.mem_singleton.mp hmem)

section
variable (hdone : PortsDone s) (hothers : ∀ h, h ≠ g → (s.seg h).still) (hr : (s.seg g).refuses = false)
  (hf : (s.seg g).free = true)
include hdone hothers hr hf

/-- R31, R95: of a free segment with a waiter the oldest is granted; that being a record's last claim, nothing more is due. -/
theorem finish_granted {q : Port} (hw : (s.seg g).waiters = .port q :: others) (hnot : .port q ∉ others)
    (hphase : (s.port q).phase = .awaitGrant) (hclaims : claimingSegs s q = [g]) :
    finish s = retime (s.bus q ((s.port q).lastGranted g) (grantedSeg s g q others)) := by
  have hown (r : Port) (hrq : r ≠ q) (h : Seg) : ((grantedSeg s g q others h).owner == some (.port r)) = owns s r h := by
    by_cases e : h = g
    · subst e
      rw [grantedSeg_self, owns, owner_of_free hf]
      exact beq_false_of_ne fun e => hrq (by cases e; rfl)
    · rw [grantedSeg_other _ _ _ e, owns]
  have hwait (r : Port) (hrq : r ≠ q) (h : Seg) :
      (grantedSeg s g q others h).waiters.contains (.port r) = (s.seg h).waiters.contains (.port r) := by
    by_cases e : h = g
    · subst e
      have hne : (Claimant.port r == Claimant.port q) = false := beq_false_of_ne fun e => hrq (by cases e; rfl)
      rw [grantedSeg_self, hw, List.contains_cons, hne, Bool.false_or]
      rfl
    · rw [grantedSeg_other _ _ _ e]
  have hstill (h : Seg) : (grantedSeg s g q others h).still := by
    by_cases e : h = g
    · rw [e, grantedSeg_self]
      exact still_of_owned (q := q) rfl rfl (pendingDisable_of_not_refuses (c := s.seg g) hr)
    · rw [grantedSeg_other _ _ _ e]
      exact hothers h e
  have howner : (grantedSeg s g q others g).owner = some (.port q) := by rw [grantedSeg_self]; rfl
  have hmicro : micro (s.bus q ((s.port q).granted g) (grantedSeg s g q others))
      = some (s.bus q ((s.port q).lastGranted g) (grantedSeg s g q others)) := by
    rw [micro_last (fun h => by rw [State.bus_seg]; exact hstill h) (p := q) (nextAnswer_bus (.inr ⟨g, howner⟩))
      (fun r hrq => hdone.others (.refl s) hown hwait hrq) (by rw [State.bus_port_self]; exact hphase)
      ((claimingSegs_claims ..).trans (claims_lastGranted hclaims)), State.updPort_bus]
    rfl
  rw [finish_of_micro (micro_grant hw hr hf hothers), grant_port_eq hw hnot, finish_of_micro hmicro]
  exact finish_of_settled ((hdone.other_port (.refl s) hown hwait (.inr ⟨g, howner⟩) (.inl (by exact nofun))).settled
    fun h => by rw [State.bus_seg]; exact hstill h)

end

/-! ### MGMT as the oldest waiter (R95, R179) -/

/-- R95, R179: a free segment granted to MGMT, the other waiters in order. -/
def SegState.mgmtGranted (q : Params) (g : Seg) (others : List Claimant) (c : SegState) : SegState :=
  if c.cond == .foreign && (q.segs.get g).mode == .shared then { c.mgmtWaiting q g with waiters := others }
  else { c.recoveringFrom q g (some .mgmt) with waiters := others }

theorem mgmtGranted_owner (q : Params) (g : Seg) (others : List Claimant) (c : SegState) :
    (c.mgmtGranted q g others).owner = some .mgmt := by
  unfold SegState.mgmtGranted
  split <;> rfl

theorem mgmtGranted_waiters (q : Params) (g : Seg) (others : List Claimant) (c : SegState) :
    (c.mgmtGranted q g others).waiters = others := by
  unfold SegState.mgmtGranted
  split <;> rfl

theorem mgmtGranted_still (q : Params) (g : Seg) (others : List Claimant) {c : SegState} (hr : c.refuses = false) :
    (c.mgmtGranted q g others).still := by
  have hp := pendingDisable_of_not_refuses hr
  refine .inr ⟨?_, ?_⟩
  · unfold SegState.mgmtGranted SegState.refuses
    split
    · show (SegCondition.owned == .faulted || SegCondition.owned == .disabled || c.pendingDisable) = false
      rw [hp]
      rfl
    · show (SegCondition.recovering == .faulted || SegCondition.recovering == .disabled || c.pendingDisable) = false
      rw [hp]
      rfl
  · unfold SegState.free
    rw [mgmtGranted_owner]
    rfl

theorem grant_mgmt_eq (hw : (s.seg g).waiters = .mgmt :: others) (hnot : .mgmt ∉ others) :
    grant g .mgmt s = s.updSeg g (SegState.mgmtGranted s.working.params g others) := by
  have hunwait : unwait .mgmt g s = s.updSeg g fun c => { c with waiters := others } :=
    State.updSeg_congr (by rw [hw, filter_waiters_cons hnot])
  show grantMgmt g (unwait .mgmt g s) = _
  rw [hunwait]
  unfold grantMgmt
  rw [State.seg_updSeg_self]
  by_cases hc : ((s.seg g).cond == .foreign && (s.working.params.segs.get g).mode == .shared) = true
  · refine (if_pos hc).trans ((State.updSeg_updSeg ..).trans (State.updSeg_congr ?_))
    unfold SegState.mgmtGranted
    rw [if_pos hc]
    rfl
  · refine (if_neg hc).trans ((beginRecovery_eq ..).trans ((State.updSeg_updSeg ..).trans (State.updSeg_congr ?_)))
    unfold SegState.mgmtGranted
    rw [if_neg hc]
    rfl

/-- R95, R179: of a free segment with MGMT as its oldest waiter MGMT becomes the owner. -/
theorem finish_granted_mgmt (hdone : PortsDone s) (hothers : ∀ h, h ≠ g → (s.seg h).still) (hr : (s.seg g).refuses = false)
    (hf : (s.seg g).free = true) (hw : (s.seg g).waiters = .mgmt :: others) (hnot : .mgmt ∉ others) :
    finish s = retime (s.updSeg g (SegState.mgmtGranted s.working.params g others)) := by
  have hseg (h : Seg) : (s.updSeg g (SegState.mgmtGranted s.working.params g others)).seg h
      = if h = g then (s.seg g).mgmtGranted s.working.params g others else s.seg h := State.seg_updSeg ..
  rw [finish_of_micro (micro_grant hw hr hf hothers), grant_mgmt_eq hw hnot]
  refine finish_of_settled (PortsDone.settled (fun q => ?_) fun h => ?_)
  · have hown (h : Seg) : owns (s.updSeg g (SegState.mgmtGranted s.working.params g others)) q h = owns s q h := by
      unfold owns
      rw [hseg]
      split
      next e =>
        rw [mgmtGranted_owner, e, owner_of_free hf]
        rfl
      next => rfl
    have hwait : waits (s.updSeg g (SegState.mgmtGranted s.working.params g others)) q = waits s q := by
      unfold waits
      congr 1
      funext h
      rw [hseg]
      split
      next e =>
        have hne : (Claimant.port q == Claimant.mgmt) = false := beq_false_of_ne nofun
        rw [mgmtGranted_waiters, e, hw, List.contains_cons, hne, Bool.false_or]
      next => rfl
    rw [nextAnswer_congr (by exact rfl) hown, nextClaim_congr (by exact rfl) hown hwait, acquired_congr (by exact rfl)]
    exact hdone q
  · rw [hseg]
    split
    · exact mgmtGranted_still _ _ _ hr
    next hne => exact hothers h hne

end

/-! ### The closing STOP (R96) -/

/-- R19: a record whose ENDED leg on a segment has left it. -/
def PortState.leftLeg (g : Seg) (r : PortState) : PortState :=
  r.withLegs (r.legs.filter fun l => !(l.seg == g && l.state == .ended))

theorem stopPlaced_eq (s : State) (p : Port) (g : Seg) :
    release g false (dropEndedLeg p g s) = s.bus p ((s.port p).leftLeg g) (oneSeg s g (released s g)) := by
  have hreleased : (s.seg g).releasedBy (s.working.params.segs.get g) false = released s g := rfl
  unfold dropEndedLeg
  rw [State.updPort_eq_bus, release_eq, State.updSeg_bus, ← hreleased]
  rfl

theorem exec_stopPlaced {s : State} {p : Port} {g : Seg} {check : Option Byte} (h : LegAt s p g (.closing check)) :
    exec (.stopPlaced g) s
      = .next (finish (s.bus p ((s.port p).leftLeg g) (oneSeg s g (released s g)))) := by
  show Host.Outcome.next (whenRunning s _) = _
  rw [whenRunning_running h.1, ownerPort_of_legAt h, h.2.2, ← stopPlaced_eq]

theorem Port.eq_of_ne {p q r : Port} (hq : q ≠ p) (hr : r ≠ p) : r = q := by
  cases p <;> cases q <;> cases r <;> simp_all

section
variable {s : State} {p : Port} {g : Seg} {check : Option Byte} (hleg : LegAt s p g (.closing check)) (hl : TimersLaw s)
include hleg

/-- R59: what remains to the record's stall timer once the segment has left it. -/
theorem stallBy_left {r : PortState} (hphase : r.phase = (s.port p).phase) (hscl : r.sclHeld = (s.port p).sclHeld)
    (hstall : r.stall = (s.port p).stall) {c : SegState} (hc : c.owner ≠ some (.port p)) (hl : TimersLaw s) :
    r.stallBy s.working.params.stallLimit (Seg.list.any fun h => (oneSeg s g c h).owner == some (.port p))
      = (leftSegment s p g).stall := by
  have hany : (Seg.list.any fun h => (oneSeg s g c h).owner == some (.port p))
      = Seg.list.any (fun h => h != g && owns s p h) := by
    congr 1
    funext h
    by_cases e : h = g
    · rw [e, oneSeg_self, beq_false_of_ne hc]
      simp
    · rw [oneSeg_other _ _ e, show (h != g) = true from bne_iff_ne.mpr e, owns, Bool.true_and]
  rw [hany]
  unfold leftSegment
  dsimp only
  by_cases ho : Seg.list.any (fun h => h != g && owns s p h) = true
  · have howning : owning s p = true := List.any_eq_true.mpr ⟨g, Seg.mem_list g, hleg.owns⟩
    rw [if_pos ho, ho, ← howning]
    exact stallBy_same hl hphase hscl hstall
  · rw [if_neg ho, Bool.eq_false_iff.mpr ho]
    rfl

end

/-- Nothing changes but the Transaction Records and the segments. -/
def RecordsSegs (s t : State) : Prop := t = { s with ports := t.ports, segs := t.segs }

namespace RecordsSegs
variable {s t u : State}

theorem trans (h : RecordsSegs s t) (k : RecordsSegs t u) : RecordsSegs s u := by
  unfold RecordsSegs
  conv_lhs => rw [show u = _ from k, show t = _ from h]

theorem bus (s : State) (p : Port) (r : PortState) (f : Seg → SegState) : RecordsSegs s (s.bus p r f) := rfl

theorem retime (s : State) : RecordsSegs s (retime s) :=
  have quiet (g : Seg) (s : State) : RecordsSegs s (retimeQuiet g s) := rfl
  have stall (p : Port) (s : State) : RecordsSegs s (retimeStall p s) := rfl
  (quiet .s3 s).trans <| (quiet .s2 _).trans <| (quiet .s1 _).trans <| (quiet .s0 _).trans <|
    (stall .u1 _).trans (stall .u0 _)

end RecordsSegs

theorem port_retime_bus (s : State) (p : Port) :
    (retime s).port p
      = { s.port p with stall := (s.port p).stallBy s.working.params.stallLimit (owning s p) } := by
  rw [port_retime, stallAfter_eq, isEmpty_ownedSegs, Bool.not_not]

theorem slotOf_bus_ne (s : State) {p q : Port} (r : PortState) (f : Seg → SegState) (hq : q ≠ p) :
    slotOf (s.bus p r f) q = slotOf s q := by rw [slotOf, State.bus_port_ne _ _ _ hq, slotOf]

/-- R95: the segments once a waiter has been granted one that has been released. -/
theorem grantedSeg_bus (s : State) {p q : Port} (r : PortState) (g : Seg) (c : SegState) (others : List Claimant)
    (hq : q ≠ p) : grantedSeg (s.bus p r (oneSeg s g c)) g q others
      = oneSeg s g (c.passedTo (s.working.params.segs.get g) q (slotOf s q) others) := by
  funext h
  unfold grantedSeg
  rw [slotOf_bus_ne _ _ _ hq, State.bus_seg, oneSeg_self, State.bus_seg]
  unfold oneSeg
  split <;> rfl

theorem owning_bus (s : State) (p q : Port) (r : PortState) (f : Seg → SegState) :
    owning (s.bus p r f) q = Seg.list.any fun h => (f h).owner == some (.port q) := by
  unfold owning
  congr 1
  funext h
  exact owns_bus ..

/-- R19, R59: the record that a segment leaves. -/
theorem leftSegment_eq {s : State} {p : Port} {g : Seg} {n : Option Nat} (h : n = (leftSegment s p g).stall) :
    { (s.port p).leftLeg g with stall := n } = leftSegment s p g := by
  rw [h]
  rfl

theorem released_pending {s : State} {g : Seg} (h : (s.seg g).pendingDisable = false) :
    (released s g).cond = .idle ∧ (released s g).refuses = false ∧ (released s g).free = true := by
  have hcond : (released s g).cond = .idle := if_neg (by rw [h]; nofun)
  exact ⟨hcond, refuses_eq_false rfl (.inl hcond), free_of rfl (.inl hcond)⟩

namespace Laws

/-- Settles O40: the release, and the grant to the oldest waiter where there is one. -/
theorem stopPlaced : Obligations.StopPlaced := by
  intro s p g check hleg hl hcond
  have hexec := exec_stopPlaced hleg
  have howner (h : Seg) (q : Port) (hq : q ≠ p) {c : SegState} (hc : (c.owner == some (.port q)) = false) :
      ((oneSeg s g c h).owner == some (.port q)) = owns s q h := by
    by_cases e : h = g
    · rw [e, oneSeg_self, hc, owns, hleg.2.1]
      exact (beq_false_of_ne fun e => hq (by cases e; rfl)).symm
    · rw [oneSeg_other _ _ e, owns]
  have hother (h : Seg) (hh : h ≠ g) {c : SegState} {n : Nat} :
      { oneSeg s g c h with quiet := quietAfter n (oneSeg s g c h) } = s.seg h := by
    rw [oneSeg_other _ _ hh]
    exact retimed_same (hl.2 h) rfl rfl
  refine ⟨fun hunc => ?_, fun others hpend hwaiters haw hphase => ⟨fun q hq hw hnot hqphase hclaims => ?_,
    fun hw hnot hphases => ?_⟩⟩
  · rw [finish_of_uncontended ((hunc.othersDone p).uncontended_bus (r := (s.port p).leftLeg g) (hunc.2 p).1 (hunc.2 p).2
        fun h => ?_), retime_bus hl fun h q hq => howner h q hq (c := released s g) rfl] at hexec
    · refine ⟨_, hexec, ?_⟩
      beta_reduce
      rw [State.bus_port_self]
      refine ⟨(State.bus_seg ..).trans (by rw [State.bus_seg, oneSeg_self]), ?_,
        fun h hh => (State.bus_seg ..).trans (hother h hh), onlyPortSegs_bus ..⟩
      exact leftSegment_eq (stallBy_left hleg (by exact rfl) (by exact rfl) (by exact rfl) (by exact nofun) hl)
    · unfold oneSeg
      split
      · exact hunc.1 g
      · exact hunc.1 h
  · obtain ⟨hidle, hrefuses, hfree⟩ := released_pending hpend
    have hport : (s.bus p ((s.port p).leftLeg g) (oneSeg s g (released s g))).port q = s.port q :=
      State.bus_port_ne _ _ _ hq
    have hself : (s.bus p ((s.port p).leftLeg g) (oneSeg s g (released s g))).seg g = released s g :=
      (State.bus_seg ..).trans (oneSeg_self ..)
    have hdone : PortsDone (s.bus p ((s.port p).leftLeg g) (oneSeg s g (released s g))) := by
      intro r
      by_cases e : r = p
      · subst e
        exact ⟨nextAnswer_of_none (by rw [State.bus_port_self]; exact haw r),
          nextClaim_of_phase (by rw [State.bus_port_self]; exact hphase),
          acquired_of_phase (by rw [State.bus_port_self]; exact hphase)⟩
      · obtain rfl := Port.eq_of_ne hq e
        refine ⟨nextAnswer_of_none (by rw [hport]; exact haw r), nextClaim_of_waits (waits_of_mem (g := g) ?_),
          acquired_of_claiming ?_⟩
        · rw [hself]
          show _ ∈ (s.seg g).waiters
          rw [hw]
          exact List.mem_cons_self ..
        · unfold claimingSegs at hclaims ⊢
          rw [hport, hclaims]
          nofun
    rw [finish_granted (q := q) (others := others) hdone (fun h hh => .inl ?_) (by rw [hself]; exact hrefuses)
      (by rw [hself]; exact hfree) (by rw [hself]; exact hw) hnot (by rw [hport]; exact hqphase) ?_,
      grantedSeg_bus _ _ _ _ _ hq, hport] at hexec
    · have hpassed : (released s g).passedTo (s.working.params.segs.get g) q (slotOf s q) others = { released s g with
          owner := some (.port q), waiters := others, cond := .owned, activity := some (.addressing .waitFresh),
          legSlot := (s.port q).snapshot.map (·.slot), speed := (s.working.params.segs.get g).speed } := by
        unfold SegState.passedTo SegState.grantedTo
        rw [hidle]
        rfl
      have hne : ((released s g).passedTo (s.working.params.segs.get g) q (slotOf s q) others).owner ≠ some (.port p) :=
        fun e => hq (by cases e; rfl)
      refine ⟨_, hexec, ?_⟩
      beta_reduce
      rw [seg_retime, port_retime_bus, port_retime_bus, owning_bus, State.bus_port_self, State.bus_port_ne _ _ _ hq.symm,
        State.bus_port_self, State.bus_seg, oneSeg_self]
      refine ⟨by rw [hpassed], leftSegment_eq (stallBy_left hleg (by exact rfl) (by exact rfl) (by exact rfl) hne hl), rfl,
        fun h hh => ?_, ((RecordsSegs.bus ..).trans (.bus ..)).trans (.retime _)⟩
      rw [seg_retime, State.bus_seg]
      exact hother h hh
    · unfold claimingSegs at hclaims ⊢
      rw [hport, hclaims]
    · rw [State.bus_seg, oneSeg_other _ _ hh]
      exact hwaiters h hh
  · obtain ⟨hidle, hrefuses, hfree⟩ := released_pending hpend
    have hself : (s.bus p ((s.port p).leftLeg g) (oneSeg s g (released s g))).seg g = released s g :=
      (State.bus_seg ..).trans (oneSeg_self ..)
    have hdone : PortsDone (s.bus p ((s.port p).leftLeg g) (oneSeg s g (released s g))) := by
      intro r
      have hr : ((s.bus p ((s.port p).leftLeg g) (oneSeg s g (released s g))).port r).addrWait = none
          ∧ ((s.bus p ((s.port p).leftLeg g) (oneSeg s g (released s g))).port r).phase ≠ .awaitGrant := by
        by_cases e : r = p
        · subst e
          rw [State.bus_port_self]
          exact ⟨haw r, hphase⟩
        · rw [State.bus_port_ne _ _ _ e]
          exact ⟨haw r, hphases r⟩
      exact ⟨nextAnswer_of_none hr.1, nextClaim_of_phase hr.2, acquired_of_phase hr.2⟩
    rw [finish_granted_mgmt (others := others) hdone (fun h hh => .inl ?_) (by rw [hself]; exact hrefuses)
      (by rw [hself]; exact hfree) (by rw [hself]; exact hw) hnot, updSeg_bus_oneSeg,
      retime_bus hl fun h q hq => howner h q hq ?_] at hexec
    · refine ⟨_, hexec, ?_⟩
      beta_reduce
      rw [State.bus_port_self]
      refine ⟨(State.bus_seg ..).trans ?_, leftSegment_eq (stallBy_left hleg (by exact rfl) (by exact rfl) (by exact rfl)
          (by rw [mgmtGranted_owner]; nofun) hl),
        fun h hh => (State.bus_seg ..).trans (hother h hh), onlyPortSegs_bus ..⟩
      have hmgmt : (released s g).mgmtGranted s.working.params g others
          = { seized s g with owner := some .mgmt, waiters := others } := by
        have hsame : s.seg g = { s.seg g with pendingDisable := false } := by rw [← hpend]
        unfold SegState.mgmtGranted seized
        rw [hidle]
        conv_rhs => rw [hsame]
        rfl
      rw [oneSeg_self, State.bus_working, hmgmt, quietAfter_of_not_runs (quietRuns_recovering (by exact rfl))]
      rfl
    · rw [mgmtGranted_owner]
      exact beq_false_of_ne nofun
    · rw [State.bus_seg, oneSeg_other _ _ hh]
      exact hwaiters h hh

end Laws

end Sys2Proof.Machine
end

section
/-!
PROOFS. O26: what waits for the closing STOPs of a record's segments (R39, R94).
-/
namespace Sys2Proof.Machine

/-! ### The record that its last segment leaves (R19, R39) -/

theorem any_leftLeg (g h : Seg) (st : LegState) (hst : st ≠ .ended) (r : PortState) :
    ((r.leftLeg g).legs.any fun l => l.seg == h && l.state == st) = r.legs.any fun l => l.seg == h && l.state == st := by
  show (r.legs.filter _).any _ = _
  rw [List.any_filter]
  congr 1
  funext l
  by_cases e : l.state = st
  · rw [e, beq_false_of_ne hst, Bool.and_false, Bool.not_false, Bool.true_and]
  · rw [beq_false_of_ne e, Bool.and_false, Bool.and_false]

theorem claims_leftLeg (g : Seg) (r : PortState) : (r.leftLeg g).claims = r.claims :=
  funext fun h => any_leftLeg g h .claiming nofun r

theorem active_leftLeg (g : Seg) (r : PortState) : (r.leftLeg g).active = r.active :=
  funext fun h => any_leftLeg g h .active nofun r

theorem accepted_notices {s u : State} (h : OnlyNotices s u) (p : Port) : accepted u p = accepted s p := by
  rw [show u = _ from h]
  rfl

theorem answered_settles (r : PortState) (credit : Bool) (w : AddrWait) :
    (r.addressAnswered credit w).addrWait = none ∧ (r.addressAnswered credit w).sclHeld = false
      ∧ (r.snapshot = none → (r.addressAnswered credit w).snapshot = none) := by
  cases w with
  | mgmtWrite b => cases credit <;> exact ⟨rfl, rfl, fun _ => rfl⟩
  | mgmtRead _ | miss => exact ⟨rfl, rfl, fun _ => rfl⟩
  | denied _ | noOffset _ => exact ⟨rfl, rfl, id⟩

section
variable {s u : State} {p : Port} {g : Seg} {c : SegState}

/-- A record whose only segment has no owner any longer owns none. -/
theorem owner_oneSeg_ne (hc : c.owner = none) (hown : ∀ h, owns s p h = true → h = g) (h : Seg) :
    (oneSeg s g c h).owner ≠ some (.port p) := by
  by_cases e : h = g
  · rw [e, oneSeg_self, hc]
    nofun
  · rw [oneSeg_other _ _ e]
    exact fun ho => e (hown h (by rw [owns, ho]; exact beq_self_eq_true _))

theorem any_owner_eq_false {f : Seg → SegState} (h : ∀ g, (f g).owner ≠ some (.port p)) :
    (Seg.list.any fun g => (f g).owner == some (.port p)) = false :=
  List.any_eq_false.mpr fun g _ => by rw [beq_false_of_ne (h g)]; nofun

theorem waiters_oneSeg (hc : c.waiters = (s.seg g).waiters) (h : Seg) : (oneSeg s g c h).waiters = (s.seg h).waiters := by
  by_cases e : h = g
  · rw [e, oneSeg_self, hc]
  · rw [oneSeg_other _ _ e]

/-- A segment that a record owned, and that no record owns any longer, is no other record's. -/
theorem owner_oneSeg_other (hc : c.owner = none) (ho : (s.seg g).owner = some (.port p)) (h : Seg) (q : Port) (hq : q ≠ p) :
    ((oneSeg s g c h).owner == some (.port q)) = owns s q h := by
  by_cases e : h = g
  · rw [e, oneSeg_self, hc, owns, ho]
    exact (beq_false_of_ne fun e => hq (by cases e; rfl)).symm
  · rw [oneSeg_other _ _ e, owns]

variable (hu : OnlyNotices s u) (hl : TimersLaw s) (hothers : OthersDone s p) (hw : ∀ h, (s.seg h).waiters = [])
  (ho : (s.seg g).owner = some (.port p)) (hown : ∀ h, owns s p h = true → h = g) (hc : c.owner = none)
  (hcw : c.waiters = (s.seg g).waiters)
include hu hl hothers hw ho hown hc hcw

/-- R39: the answer that waited for the last of a record's segments. -/
theorem finish_closedAnswer {w : AddrWait} (haw : (s.port p).addrWait = some w) :
    finish (u.bus p ((s.port p).leftLeg g) (oneSeg s g c))
      = (addressNoted p (s.port p).dir u w).bus p
        { ((s.port p).leftLeg g).addressAnswered (creditFree s p) w with stall := none }
        fun h => { oneSeg s g c h with quiet := quietAfter s.working.params.clockLimit (oneSeg s g c h) } := by
  have hno := owner_oneSeg_ne hc hown
  have hcredit : creditFree (u.bus p ((s.port p).leftLeg g) (oneSeg s g c)) p = creditFree s p := by
    rw [creditFree_bus, accepted_notices hu]
    rfl
  have hnoted : OnlyNotices s (addressNoted p (s.port p).dir u w) := hu.trans (onlyNotices_addressNoted ..)
  rw [finish_answer (hu.othersDone hothers) (fun h => (waiters_oneSeg hcw h).trans (hw h)) hno (by exact haw), hcredit]
  show retime ((addressNoted p (s.port p).dir u w).bus p _ _) = _
  rw [hnoted.retime_bus hl fun h q hq => owner_oneSeg_other hc ho h q hq, any_owner_eq_false hno, stallBy_not_owning]

/-- R31, R94: the claims that waited for the last of a record's segments, all granted. -/
theorem finish_closedClaims (haw : (s.port p).addrWait = none) (hphase : (s.port p).phase = .awaitGrant)
    (hscl : (s.port p).sclHeld = true)
    (hfree : ∀ h, (s.port p).claims h = true → (oneSeg s g c h).refuses = false ∧ (oneSeg s g c h).free = true) :
    finish (u.bus p ((s.port p).leftLeg g) (oneSeg s g c)) = u.bus p { ((s.port p).leftLeg g).acquired with stall := none }
      fun h => { grantedSegs s.working.params p (slotOf s p) (s.port p).claims (oneSeg s g c) h with
        quiet := quietAfter s.working.params.clockLimit
          (grantedSegs s.working.params p (slotOf s p) (s.port p).claims (oneSeg s g c) h) } := by
  have hno := owner_oneSeg_ne hc hown
  have hwaiters (h : Seg) : (oneSeg s g c h).waiters = [] := (waiters_oneSeg hcw h).trans (hw h)
  have hclaims := claims_leftLeg g (s.port p)
  have howner (h : Seg) (q : Port) (hq : q ≠ p) :
      ((grantedSegs s.working.params p (slotOf s p) (s.port p).claims (oneSeg s g c) h).owner == some (.port q)) = owns s q h := by
    rw [← owner_oneSeg_other hc ho h q hq]
    unfold grantedSegs
    split
    next hh =>
      rw [owner_of_free (hfree h hh).2]
      exact beq_false_of_ne fun e => hq (by cases e; rfl)
    next => rfl
  rw [finish_claims (hu.othersDone hothers) _ rfl (r := (s.port p).leftLeg g) hphase haw hwaiters
      (fun h hh => hfree h (by rw [hclaims] at hh; exact hh)) (.inr hno), hclaims, hu.working]
  show finish (u.bus p ((s.port p).leftLeg g).acquired (grantedSegs s.working.params p (slotOf s p) (s.port p).claims
    (oneSeg s g c))) = _
  rw [finish_of_uncontended ((hu.othersDone hothers).uncontended_bus (r := ((s.port p).leftLeg g).acquired) haw
      (by exact nofun) fun h => by
        unfold grantedSegs
        split
        · exact hwaiters h
        · exact hwaiters h),
    hu.retime_bus hl howner, stallBy_held (r := ((s.port p).leftLeg g).acquired) hscl]

end

/-! ### An acquisition that comes to a segment not free (R31, R93, R94) -/

theorem segNumber_head {c : Seg → Bool} {k : Seg} {ks : List Seg} (h : Seg.list.filter c = k :: ks) {x : Seg}
    (hx : c x = true) : k = x ∨ segNumber k < segNumber x := by
  have hsorted : Seg.list.Pairwise fun a b => segNumber a < segNumber b := by decide
  have hfilter := hsorted.filter c
  rw [h] at hfilter
  obtain e | hmem := List.mem_cons.mp (h ▸ (mem_filter_list c x).mpr hx)
  · exact .inl e.symm
  · exact .inr ((List.pairwise_cons.mp hfilter).1 x hmem)

/-- A record has a claim on a segment numbered below another. -/
def PortState.claimsBelow (g : Seg) (r : PortState) (h : Seg) : Bool := r.claims h && decide (segNumber h < segNumber g)

/-- R31: the record whose claims below a segment have been granted. -/
def PortState.grantedBelow (g : Seg) (r : PortState) : PortState :=
  r.withLegs (mapLegs (r.claimsBelow g) Leg.activated r.legs)

/-- R93: a segment that a record alone waits for. -/
def SegState.awaitedBy (p : Port) (c : SegState) : SegState := { c with waiters := [.port p] }

/-- R31, R93: the segments as a record waits for one of them, those below it granted. -/
def blockedSegs (q : Params) (p : Port) (g : Seg) (r : PortState) (f : Seg → SegState) (h : Seg) : SegState :=
  if h = g then (f g).awaitedBy p else grantedSegs q p (r.snapshot.map (·.slot)) (r.claimsBelow g) f h

theorem claimsBelow_granted (r : PortState) {g k : Seg} (h : Seg) :
    (r.granted k).claimsBelow g h = (r.claimsBelow g h && h != k) := by
  unfold PortState.claimsBelow
  rw [claims_granted, Bool.and_right_comm]

section
variable {s : State} {p : Port} (hothers : OthersDone s p) {g : Seg}
include hothers

theorem finish_claims_blocked : ∀ (n : Nat) {r : PortState} {f : Seg → SegState},
    (Seg.list.filter r.claims).length = n → r.phase = .awaitGrant → r.addrWait = none → (∀ h, (f h).waiters = []) →
    r.claims g = true → (f g).refuses = false → (f g).free = false → (f g).owner ≠ some (.port p) →
    (∀ h, r.claimsBelow g h = true → (f h).refuses = false ∧ (f h).free = true) →
    ((∃ h, r.active h = true) ∨ ∀ h, (f h).owner ≠ some (.port p)) →
    finish (s.bus p r f) = finish (s.bus p (r.grantedBelow g) (blockedSegs s.working.params p g r f))
  | 0, r, f, hn, _, _, _, hg, _, _, _, _, _ => by
    have hnil : Seg.list.filter r.claims = [] := List.length_eq_zero_iff.mp hn
    exact absurd (hnil ▸ (mem_filter_list _ g).mpr hg) List.not_mem_nil
  | n + 1, r, f, hn, hphase, haw, hw, hg, hgr, hgf, hgo, hfree, hfirst => by
    obtain ⟨k, ks, hks⟩ := List.exists_cons_of_length_eq_add_one hn
    have hk : r.claims k = true := (mem_filter_list _ k).mp (hks ▸ List.mem_cons_self ..)
    obtain rfl | hlt := segNumber_head hks hg
    · have hnone (h : Seg) : r.claimsBelow k h = false := by
        refine Bool.eq_false_iff.mpr fun hh => ?_
        obtain ⟨hc, hb⟩ := Bool.and_eq_true_iff.mp hh
        have hb := of_decide_eq_true hb
        obtain rfl | hb' := segNumber_head hks hc
        · exact absurd hb (Nat.lt_irrefl _)
        · exact absurd hb (Nat.lt_asymm hb')
      have hstep : micro (s.bus p r f) = some (s.bus p r fun h => if h = k then (f k).awaitedBy p else f h) := by
        rw [micro_claim (p := p) (fun h => .inl (by rw [State.bus_seg]; exact hw h)) (hothers.addrWait_bus haw f)
          (fun q hq => hothers.phase_bus r f hq) (nextClaim_bus hphase hw hfirst hks hgo),
          claim_waiting _ (by rw [State.bus_seg]; exact hgr) (by rw [State.bus_seg]; exact hgf), joinWaiters,
          State.updSeg_bus, hw k]
        rfl
      rw [finish_of_micro hstep, PortState.grantedBelow, mapLegs_eq_self fun l _ => hnone l.seg]
      refine congrArg finish (State.bus_congr _ _ rfl fun h => ?_)
      unfold blockedSegs grantedSegs
      rw [hnone, if_neg (c := false = true) nofun]
    · have hkg : k ≠ g := fun e => absurd hlt (by rw [e]; exact Nat.lt_irrefl _)
      have hbelow : r.claimsBelow g k = true := Bool.and_eq_true_iff.mpr ⟨hk, decide_eq_true hlt⟩
      obtain ⟨hkr, hkf⟩ := hfree k hbelow
      have hrest := filter_claims_granted hks
      have hstep := micro_claim_free hothers hphase haw hw hfirst hks hkr hkf
      have hrec := finish_claims_blocked n (r := r.granted k) (f := fun h =>
          if h = k then (f k).grantedTo (s.working.params.segs.get k) p (r.snapshot.map (·.slot)) else f h)
        (by rw [hrest]; rw [hks] at hn; simpa using hn) hphase haw (fun h => by
          split
          · exact hw k
          · exact hw h) (by rw [claims_granted, hg, Bool.true_and]; exact bne_iff_ne.mpr hkg.symm)
        (by rw [if_neg hkg.symm]; exact hgr) (by rw [if_neg hkg.symm]; exact hgf) (by rw [if_neg hkg.symm]; exact hgo)
        (fun h hh => by
          rw [claimsBelow_granted] at hh
          obtain ⟨hh, hne⟩ := Bool.and_eq_true_iff.mp hh
          rw [if_neg (bne_iff_ne.mp hne)]
          exact hfree h hh) (.inl ⟨k, active_granted_self hk⟩)
      have hclaims (h : Seg) : ((r.granted k).claimsBelow g h || h == k) = r.claimsBelow g h := by
        rw [claimsBelow_granted]
        by_cases e : h = k
        · rw [e, hbelow, beq_self_eq_true k, Bool.or_true]
        · rw [show (h != k) = true from bne_iff_ne.mpr e, beq_false_of_ne e, Bool.and_true, Bool.or_false]
      have hlegs : mapLegs ((r.granted k).claimsBelow g) Leg.activated (r.granted k).legs
          = mapLegs (r.claimsBelow g) Leg.activated r.legs := by
        rw [← funext hclaims]
        refine mapLegs_or (c := (r.granted k).claimsBelow g) (d := fun h => h == k) (k := Leg.activated) (fun _ => rfl)
          (fun h hh => ?_) r.legs
        rw [claimsBelow_granted] at hh
        exact beq_false_of_ne (bne_iff_ne.mp (Bool.and_eq_true_iff.mp hh).2)
      rw [finish_of_micro hstep, hrec, PortState.grantedBelow, hlegs]
      refine congrArg finish (State.bus_congr _ _ rfl fun h => ?_)
      unfold blockedSegs grantedSegs
      rw [claimsBelow_granted]
      dsimp only
      by_cases eg : h = g
      · rw [if_pos eg, if_pos eg, if_neg hkg.symm]
      · rw [if_neg eg, if_neg eg]
        by_cases e : h = k
        · subst e
          rw [if_pos rfl, hbelow, if_neg (by simp)]
          rfl
        · rw [if_neg e, show (h != k) = true from bne_iff_ne.mpr e, Bool.and_true]
          rfl

end

section
variable {s u : State} {p : Port} {g : Seg} {c : SegState} (hu : OnlyNotices s u) (hl : TimersLaw s)
  (hothers : OthersDone s p) (hw : ∀ h, (s.seg h).waiters = []) (ho : (s.seg g).owner = some (.port p))
  (hown : ∀ h, owns s p h = true → h = g) (hc : c.owner = none) (hcw : c.waiters = (s.seg g).waiters)
include hu hl hothers hw ho hown hc hcw

/-- R31, R94: the claims that waited for the last of a record's segments, where they come to that segment and it is not free. -/
theorem finish_closedBlocked (haw : (s.port p).addrWait = none) (hphase : (s.port p).phase = .awaitGrant)
    (hscl : (s.port p).sclHeld = true) (hg : (s.port p).claims g = true) (hcr : c.refuses = false) (hcf : c.free = false)
    (hfree : ∀ h, (s.port p).claimsBelow g h = true → (s.seg h).refuses = false ∧ (s.seg h).free = true) :
    finish (u.bus p ((s.port p).leftLeg g) (oneSeg s g c))
      = u.bus p { ((s.port p).leftLeg g).grantedBelow g with stall := none }
        fun h => { blockedSegs s.working.params p g (s.port p) (oneSeg s g c) h with
          quiet := quietAfter s.working.params.clockLimit
            (blockedSegs s.working.params p g (s.port p) (oneSeg s g c) h) } := by
  have hno := owner_oneSeg_ne hc hown
  have hwaiters (h : Seg) : (oneSeg s g c h).waiters = [] := (waiters_oneSeg hcw h).trans (hw h)
  have hclaims := claims_leftLeg g (s.port p)
  have hbelow : ((s.port p).leftLeg g).claimsBelow g = (s.port p).claimsBelow g := by
    unfold PortState.claimsBelow
    rw [hclaims]
  have hne {h : Seg} (hh : (s.port p).claimsBelow g h = true) : h ≠ g := by
    rintro rfl
    exact absurd (of_decide_eq_true (Bool.and_eq_true_iff.mp hh).2) (Nat.lt_irrefl _)
  have hfree' (h : Seg) (hh : (s.port p).claimsBelow g h = true) :
      (oneSeg s g c h).refuses = false ∧ (oneSeg s g c h).free = true := by
    rw [oneSeg_other _ _ (hne hh)]
    exact hfree h hh
  have hsegs : blockedSegs s.working.params p g ((s.port p).leftLeg g) (oneSeg s g c)
      = blockedSegs s.working.params p g (s.port p) (oneSeg s g c) := by
    unfold blockedSegs
    rw [hbelow]
    rfl
  have hself : blockedSegs s.working.params p g (s.port p) (oneSeg s g c) g = c.awaitedBy p :=
    (if_pos rfl).trans (by rw [oneSeg_self])
  have hstill (h : Seg) : (blockedSegs s.working.params p g (s.port p) (oneSeg s g c) h).still := by
    by_cases e : h = g
    · rw [e, hself]
      exact .inr ⟨hcr, hcf⟩
    · refine .inl ?_
      unfold blockedSegs grantedSegs
      rw [if_neg e]
      split
      · exact hwaiters h
      · exact hwaiters h
  have howner (h : Seg) (q : Port) (hq : q ≠ p) :
      ((blockedSegs s.working.params p g (s.port p) (oneSeg s g c) h).owner == some (.port q)) = owns s q h := by
    rw [← owner_oneSeg_other hc ho h q hq]
    by_cases e : h = g
    · rw [e, hself, oneSeg_self]
      rfl
    · unfold blockedSegs grantedSegs
      rw [if_neg e]
      split
      next hh =>
        rw [owner_of_free (hfree' h hh).2]
        exact beq_false_of_ne fun e => hq (by cases e; rfl)
      next => rfl
  have hremain : Seg.list.filter (((s.port p).leftLeg g).grantedBelow g).claims ≠ [] := by
    refine List.ne_nil_of_mem ((mem_filter_list _ g).mpr ?_)
    obtain ⟨l, hl, hlc⟩ := List.any_eq_true.mp ((congrFun hclaims g).trans hg)
    refine List.any_eq_true.mpr ⟨l, List.mem_map.mpr ⟨l, hl, if_neg fun hh => ?_⟩, hlc⟩
    rw [hbelow] at hh
    exact hne hh (eq_of_beq (Bool.and_eq_true_iff.mp hlc).1)
  rw [finish_claims_blocked (hu.othersDone hothers) (g := g) _ rfl (r := (s.port p).leftLeg g) hphase haw hwaiters
      ((congrFun hclaims g).trans hg) (by rw [oneSeg_self]; exact hcr) (by rw [oneSeg_self]; exact hcf) (hno g)
      (fun h hh => hfree' h (by rw [hbelow] at hh; exact hh)) (.inr hno), hu.working, hsegs,
    finish_of_settled (settled_waiting (hu.othersDone hothers) (r := ((s.port p).leftLeg g).grantedBelow g) haw hstill
      (g := g) (by rw [hself]; exact List.mem_singleton_self _) hremain),
    hu.retime_bus hl howner, stallBy_held (r := ((s.port p).leftLeg g).grantedBelow g) hscl]

end

/-! ### The clock limit of a leg (R97, R112, R113) -/

theorem seize_eq {s u : State} (hu : OnlyNotices s u) (p : Port) (g : Seg) :
    beginRecovery g none u = u.bus p (s.port p) (oneSeg s g (seized s g)) := by
  rw [beginRecovery_eq, State.updSeg_eq_bus u p, hu.port, hu.working, hu.seg]
  refine State.bus_congr _ _ rfl fun h => ?_
  rw [hu.seg]
  rfl

theorem exec_clockLimitExpiry_leg {s : State} {p : Port} {g : Seg} {a : Activity} (h : LegAt s p g a)
    (hc : (s.seg g).cond = .owned) (hk : (s.seg g).clock.isSome = true) :
    exec (.clockLimitExpiry g) s = .next (finish (tellAbort p g (some a)
      ((note .segTimeout (some (.port p)) (some (.seg g)) (s.seg g).legSlot detailHeld s).bus p (s.port p)
        (oneSeg s g (seized s g))))) := by
  show Host.Outcome.next (whenRunning s _) = _
  rw [whenRunning_running h.1, if_neg (by rw [hc]; nofun), if_pos ⟨hc, hk⟩, ownerPort_of_legAt h, ← seize_eq (onlyNotices_note ..),
    ← h.2.2]
  rfl

theorem tellAbort_closing (p : Port) (g : Seg) (check : Option Byte) (u : State) (r : PortState) (f : Seg → SegState) :
    tellAbort p g (some (.closing check)) (u.bus p r f) = u.bus p (r.leftLeg g) f := by
  show dropEndedLeg p g (u.bus p r f) = _
  unfold dropEndedLeg
  rw [State.updPort_bus]
  rfl

theorem active_activated {r : PortState} {c : Seg → Bool} {h : Seg} (hc : c h = true) (hr : r.claims h = true) :
    activeIn (mapLegs c Leg.activated r.legs) h = true := by
  obtain ⟨l, hl, hg⟩ := List.any_eq_true.mp hr
  obtain ⟨hseg, -⟩ := Bool.and_eq_true_iff.mp hg
  refine List.any_eq_true.mpr ⟨l.activated, List.mem_map.mpr ⟨l, hl, if_pos (by rw [eq_of_beq hseg]; exact hc)⟩, ?_⟩
  exact Bool.and_eq_true_iff.mpr ⟨hseg, rfl⟩

theorem grantedSegs_other {q : Params} {p : Port} {slot : Option Nat} {c : Seg → Bool} {f : Seg → SegState} {h : Seg}
    (hc : c h = false) : grantedSegs q p slot c f h = f h := if_neg (Bool.eq_false_iff.mp hc)

theorem grantedSegs_self {q : Params} {p : Port} {slot : Option Nat} {c : Seg → Bool} {f : Seg → SegState} {h : Seg}
    (hc : c h = true) : grantedSegs q p slot c f h = (f h).grantedTo (q.segs.get h) p slot := if_pos hc

/-- R31, R95, R109: a segment granted, its quiet timer then set. -/
theorem granted_bus {s u : State} {p : Port} {r : PortState} {f : Seg → SegState} {h : Seg} {c : SegState} {n : Nat}
    (hf : f h = c.grantedTo (s.working.params.segs.get h) p (slotOf s p)) (hact : r.active h = true) :
    Granted s (u.bus p r fun h => { f h with quiet := quietAfter n (f h) }) p h := by
  unfold Granted
  rw [State.bus_seg, hf, legActive_bus]
  exact ⟨rfl, rfl, rfl, rfl, rfl, rfl, hact⟩

namespace Laws

/-- Settles O26: what waits goes on once the record's last segment is released, or taken from it. -/
theorem closedThenAnswered : Obligations.ClosedThenAnswered := by
  refine ⟨fun s p g check w hleg hcond hl hw hown haws hphases hphase hscl hsn haw => ?_,
    fun s p g check hleg hcond hl hw hown haws hphases hphase hscl hact hne hfree => ?_,
    fun s p g check w hleg hcond hclock hl hw hown haws hphases hphase hscl hsn haw => ?_,
    fun s p g check hleg hcond hclock hl hw hown haws hphases hphase hscl hact hne hfree => ?_⟩
  · have hothers : OthersDone s p := fun q hq => ⟨haws q hq, hphases q⟩
    have hexec := exec_stopPlaced hleg
    rw [finish_closedAnswer (.refl s) hl hothers hw hleg.2.1 hown (by exact rfl) (by exact rfl) haw] at hexec
    obtain ⟨hdone, hscl', hsn'⟩ := answered_settles ((s.port p).leftLeg g) (creditFree s p) w
    refine ⟨_, hexec, ?_⟩
    beta_reduce
    rw [State.bus_port_self, State.bus_seg, oneSeg_self]
    refine ⟨rfl, rfl, rfl, fun h hh => ?_, legs_addressAnswered .., hdone, hscl', hsn' hsn, rfl, ?_⟩
    · rw [State.bus_seg, oneSeg_other _ _ hh]
      exact retimed_same (hl.2 h) rfl rfl
    · cases w with
      | mgmtWrite b =>
        refine ⟨fun x hx => ?_, nofun, nofun, nofun, nofun⟩
        cases hx
        refine ⟨onlyPortSegs_bus .., ?_⟩
        cases creditFree s p <;> exact ⟨rfl, rfl, rfl⟩
      | mgmtRead b =>
        refine ⟨nofun, fun x hx => ?_, nofun, nofun, nofun⟩
        cases hx
        exact ⟨onlyPortSegs_bus .., rfl, rfl, congrArg some (ReadPos.start_eq ..)⟩
      | miss => exact ⟨nofun, nofun, fun _ => ⟨onlyPortSegs_bus .., rfl, rfl⟩, nofun, nofun⟩
      | denied n =>
        refine ⟨nofun, nofun, nofun, fun x hx => ?_, nofun⟩
        cases hx
        refine ⟨onlyPortSegsNotices_bus_note .., rfl, rfl, ?_⟩
        refine (congrArg (Recorded .accessDenied (some (.port p)) none (some n) · s _) ?_).mp (recorded_bus_note ..)
        cases (s.port p).dir <;> rfl
      | noOffset n =>
        refine ⟨nofun, nofun, nofun, nofun, fun x hx => ?_⟩
        cases hx
        exact ⟨onlyPortSegsNotices_bus_note .., rfl, rfl, recorded_bus_note ..⟩
  · have hothers : OthersDone s p := fun q hq => ⟨haws q, hphases q hq⟩
    have hexec := exec_stopPlaced hleg
    have hclaims (h : Seg) : (s.port p).claims h = true ↔ h ∈ claimingSegs s p := (mem_filter_list _ h).symm
    rw [finish_closedClaims (.refl s) hl hothers hw hleg.2.1 hown (by exact rfl) (by exact rfl) (haws p) hphase hscl
      fun h hh => ?_] at hexec
    · refine ⟨_, hexec, ?_⟩
      beta_reduce
      rw [State.bus_port_self]
      refine ⟨rfl, hscl, rfl, rfl, fun h hh => ?_, fun hh => ?_, fun h hne' hh => ?_, onlyPortSegs_bus ..⟩
      · have hc := (hclaims h).mpr hh
        have hleft : ((s.port p).leftLeg g).claims h = true := (congrFun (claims_leftLeg g (s.port p)) h).trans hc
        exact granted_bus (grantedSegs_self hc) (active_activated (r := (s.port p).leftLeg g) hleft hleft)
      · have hc : (s.port p).claims g = false := Bool.eq_false_iff.mpr fun e => hh ((hclaims g).mp e)
        rw [State.bus_seg, grantedSegs_other hc, oneSeg_self]
        rfl
      · have hc : (s.port p).claims h = false := Bool.eq_false_iff.mpr fun e => hh ((hclaims h).mp e)
        rw [State.bus_seg, grantedSegs_other hc, oneSeg_other _ _ hne']
        exact retimed_same (hl.2 h) rfl rfl
    · obtain ⟨hpend, hother⟩ := hfree h ((hclaims h).mp hh)
      by_cases e : h = g
      · subst e
        rw [oneSeg_self]
        exact (released_pending hpend).2
      · obtain ⟨ho, hc⟩ := hother e
        rw [oneSeg_other _ _ e]
        exact ⟨refuses_eq_false hpend hc, free_of ho hc⟩
  · have hothers : OthersDone s p := fun q hq => ⟨haws q hq, hphases q⟩
    have hexec := exec_clockLimitExpiry_leg hleg hcond hclock
    rw [tellAbort_closing, finish_closedAnswer (onlyNotices_note ..) hl hothers hw hleg.2.1 hown (by exact rfl) (by exact rfl)
      haw] at hexec
    obtain ⟨hdone, hscl', hsn'⟩ := answered_settles ((s.port p).leftLeg g) (creditFree s p) w
    refine ⟨_, hexec, ?_⟩
    beta_reduce
    rw [State.bus_port_self, State.bus_seg, oneSeg_self]
    refine ⟨?_, fun h hh => ?_, ?_, legs_addressAnswered .., hdone, hscl', hsn' hsn, rfl, ?_⟩
    · rw [quietAfter_of_not_runs (quietRuns_recovering (by exact rfl))]
      rfl
    · rw [State.bus_seg, oneSeg_other _ _ hh]
      exact retimed_same (hl.2 h) rfl rfl
    · exact onlyPortSegsNotices_bus ((onlyNotices_note ..).trans (onlyNotices_addressNoted ..)) ..
    · cases w with
      | mgmtWrite b =>
        refine ⟨fun x hx => ?_, nofun, nofun, nofun, nofun, fun _ => recorded_bus_note ..⟩
        cases creditFree s p <;> exact ⟨rfl, rfl⟩
      | mgmtRead b => exact ⟨nofun, fun _ _ => ⟨rfl, rfl⟩, nofun, nofun, nofun, fun _ => recorded_bus_note ..⟩
      | miss => exact ⟨nofun, nofun, fun _ => ⟨rfl, rfl⟩, nofun, nofun, fun _ => recorded_bus_note ..⟩
      | denied n =>
        refine ⟨nofun, nofun, nofun, fun x hx => ?_, nofun, fun hno => absurd rfl (hno n).1⟩
        cases hx
        refine ⟨rfl, rfl, ?_⟩
        refine (congrArg (Recorded .accessDenied (some (.port p)) none (some n) · _ _) ?_).mp (recorded_bus_note ..)
        cases (s.port p).dir <;> rfl
      | noOffset n =>
        refine ⟨nofun, nofun, nofun, nofun, fun x hx => ?_, fun hno => absurd rfl (hno n).2⟩
        cases hx
        exact ⟨rfl, rfl, recorded_bus_note ..⟩
  · have hothers : OthersDone s p := fun q hq => ⟨haws q, hphases q hq⟩
    have hexec := exec_clockLimitExpiry_leg hleg hcond hclock
    have hclaims (h : Seg) : (s.port p).claims h = true ↔ h ∈ claimingSegs s p := (mem_filter_list _ h).symm
    have hfree' (h : Seg) (hc : (s.port p).claims h = true) (hne' : h ≠ g) :
        (s.seg h).refuses = false ∧ (s.seg h).free = true := by
      obtain ⟨hpend, hother⟩ := hfree h ((hclaims h).mp hc)
      obtain ⟨ho, hc⟩ := hother hne'
      exact ⟨refuses_eq_false hpend hc, free_of ho hc⟩
    have hquiet (x : List Claimant) : { ({ seized s g with waiters := x } : SegState) with
        quiet := quietAfter s.working.params.clockLimit { seized s g with waiters := x } }
        = { seized s g with waiters := x } := by
      rw [quietAfter_of_not_runs (quietRuns_recovering (by exact rfl))]
      rfl
    rw [tellAbort_closing] at hexec
    by_cases hg : g ∈ claimingSegs s p
    · have hc := (hclaims g).mpr hg
      have hbelow {h : Seg} (hh : h ∈ claimingSegs s p) (hlt : segNumber h < segNumber g) :
          (s.port p).claimsBelow g h = true := Bool.and_eq_true_iff.mpr ⟨(hclaims h).mpr hh, decide_eq_true hlt⟩
      have hne {h : Seg} (hlt : segNumber h < segNumber g) : h ≠ g := by
        rintro rfl
        exact absurd hlt (Nat.lt_irrefl _)
      have hrefuses : (seized s g).refuses = false := by
        show (SegCondition.recovering == .faulted || SegCondition.recovering == .disabled || (s.seg g).pendingDisable) = false
        rw [(hfree g hg).1]
        rfl
      rw [finish_closedBlocked (onlyNotices_note ..) hl hothers hw hleg.2.1 hown (by exact rfl) (by exact rfl) (haws p) hphase
        hscl hc hrefuses (by exact rfl) fun h hh => by
          obtain ⟨hch, hlt⟩ := Bool.and_eq_true_iff.mp hh
          exact hfree' h hch (hne (of_decide_eq_true hlt))] at hexec
      refine ⟨_, hexec, ?_⟩
      beta_reduce
      rw [State.bus_port_self, if_pos hg, if_pos hg]
      refine ⟨hscl, rfl, rfl, hphase, ?_, fun h hh hor => ?_, fun h hh hor => ?_, recorded_bus_note ..,
        onlyPortSegsNotices_bus_note ..⟩
      · have hself : blockedSegs s.working.params p g (s.port p) (oneSeg s g (seized s g)) g
            = { seized s g with waiters := [.port p] } := (if_pos rfl).trans (by rw [oneSeg_self]; rfl)
        rw [State.bus_seg, hself]
        exact hquiet _
      · have hlt := hor.resolve_left fun e => e hg
        have hleft : ((s.port p).leftLeg g).claims h = true :=
          (congrFun (claims_leftLeg g (s.port p)) h).trans ((hclaims h).mpr hh)
        have hleftBelow : ((s.port p).leftLeg g).claimsBelow g h = true :=
          Bool.and_eq_true_iff.mpr ⟨hleft, decide_eq_true hlt⟩
        exact granted_bus ((if_neg (hne hlt)).trans (grantedSegs_self (hbelow hh hlt)))
          (active_activated (r := (s.port p).leftLeg g) hleftBelow hleft)
      · have hno : (s.port p).claimsBelow g h = false := Bool.eq_false_iff.mpr fun e => by
          obtain ⟨hch, hlt⟩ := Bool.and_eq_true_iff.mp e
          obtain hnot | ⟨-, hgt⟩ := hor
          · exact hnot ((hclaims h).mp hch)
          · exact absurd (of_decide_eq_true hlt) (Nat.lt_asymm hgt)
        rw [State.bus_seg, blockedSegs, if_neg hh, grantedSegs_other hno, oneSeg_other _ _ hh]
        exact retimed_same (hl.2 h) rfl rfl
    · have hc : (s.port p).claims g = false := Bool.eq_false_iff.mpr fun e => hg ((hclaims g).mp e)
      have hne {h : Seg} (hh : (s.port p).claims h = true) : h ≠ g := by
        rintro rfl
        exact absurd (hh.symm.trans hc) nofun
      rw [finish_closedClaims (onlyNotices_note ..) hl hothers hw hleg.2.1 hown (by exact rfl) (by exact rfl) (haws p) hphase
        hscl fun h hh => by
          rw [oneSeg_other _ _ (hne hh)]
          exact hfree' h hh (hne hh)] at hexec
      refine ⟨_, hexec, ?_⟩
      beta_reduce
      rw [State.bus_port_self, if_neg hg, if_neg hg]
      refine ⟨hscl, rfl, rfl, rfl, ?_, fun h hh _ => ?_, fun h hh hor => ?_, recorded_bus_note ..,
        onlyPortSegsNotices_bus_note ..⟩
      · rw [State.bus_seg, grantedSegs_other hc, oneSeg_self]
        exact (hquiet (s.seg g).waiters).trans (by rw [hw g])
      · have hch := (hclaims h).mpr hh
        have hleft : ((s.port p).leftLeg g).claims h = true := (congrFun (claims_leftLeg g (s.port p)) h).trans hch
        exact granted_bus (grantedSegs_self hch) (active_activated (r := (s.port p).leftLeg g) hleft hleft)
      · have hch : (s.port p).claims h = false := Bool.eq_false_iff.mpr fun e =>
          hor.elim (fun hn => hn ((hclaims h).mp e)) fun hgt => hg hgt.1
        rw [State.bus_seg, grantedSegs_other hch, oneSeg_other _ _ hh]
        exact retimed_same (hl.2 h) rfl rfl

end Laws

end Sys2Proof.Machine
end

section
/-!
PROOFS. The abort of a leg (R34, R55, R56, R79, R80, R84): what its record makes of it.
-/
namespace Sys2Proof.Machine

/-! ### The legs and the joins without it -/

/-- R34: a leg whose segment has been taken from its record. -/
def Leg.aborted (l : Leg) : Leg := { l with state := .aborted }

theorem abortLeg_bus (p : Port) (g : Seg) (s : State) (r : PortState) (f : Seg → SegState) :
    abortLeg p g (s.bus p r f) = s.bus p (r.withLegs (mapLegs (fun h => h == g) Leg.aborted r.legs)) f := updLeg_bus ..

theorem abortedLegs_eq (s : State) (p : Port) (g : Seg) :
    abortedLegs s p g = mapLegs (fun h => h == g) Leg.aborted (s.port p).legs := rfl

/-- The legs of a list in one state, once those on a segment have left it. -/
theorem any_mapLegs_left (g h : Seg) {k : Leg → Leg} {st : LegState} (hst : ∀ l, (k l).state ≠ st) (ls : List Leg) :
    (mapLegs (fun x => x == g) k ls).any (fun l => l.seg == h && l.state == st)
      = (ls.any (fun l => l.seg == h && l.state == st) && h != g) := by
  unfold mapLegs
  rw [List.any_map, Bool.eq_iff_iff]
  simp only [List.any_eq_true, Function.comp_apply, Bool.and_eq_true, beq_iff_eq, bne_iff_ne]
  constructor
  · rintro ⟨l, hl, hs, hstate⟩
    by_cases e : l.seg = g
    · rw [if_pos e] at hstate
      exact absurd hstate (hst l)
    · rw [if_neg e] at hs hstate
      exact ⟨⟨l, hl, hs, hstate⟩, fun e' => e (hs.trans e')⟩
  · rintro ⟨⟨l, hl, hs, hstate⟩, hne⟩
    have e : ¬l.seg = g := fun e => hne (hs.symm.trans e)
    refine ⟨l, hl, ?_⟩
    rw [if_neg e]
    exact ⟨hs, hstate⟩

section
variable {s : State} {p : Port} {g : Seg}

theorem activeIn_abortedLegs (h : Seg) : activeIn (abortedLegs s p g) h = (legActive s p h && h != g) :=
  any_mapLegs_left g h (k := Leg.aborted) (st := .active) nofun (s.port p).legs

theorem othersPaused_iff : othersPaused s p g = true
    ↔ ∀ h, h ≠ g → legActive s p h = true → (s.seg h).activity = some .paused := by
  unfold othersPaused
  simp only [List.all_eq_true, Bool.or_eq_true, beq_iff_eq, Bool.not_eq_true']
  constructor
  · intro h k hk ha
    obtain (e | e) | e := h k (Seg.mem_list k)
    · exact absurd e hk
    · exact absurd (ha.symm.trans e) nofun
    · exact e
  · intro h k _
    by_cases e : k = g
    · exact .inl (.inl e)
    · cases ha : legActive s p k with
      | false => exact .inl (.inr rfl)
      | true => exact .inr (h k e ha)

/-- R80, R84: the legs that remain are all PAUSED. -/
theorem allPaused_aborted {r : PortState} (hr : r.legs = abortedLegs s p g) (c : SegState) :
    allPaused r (oneSeg s g c) = othersPaused s p g := by
  rw [Bool.eq_iff_iff, allPaused_iff, othersPaused_iff]
  have hactive (h : Seg) : r.active h = (legActive s p h && h != g) := by
    rw [PortState.active_eq, hr]
    exact activeIn_abortedLegs h
  constructor
  · intro hall h hh ha
    rw [← oneSeg_other s c hh]
    exact hall h (by rw [hactive, ha]; exact bne_iff_ne.mpr hh)
  · intro hall h ha
    rw [hactive] at ha
    obtain ⟨ha, hh⟩ := Bool.and_eq_true_iff.mp ha
    rw [oneSeg_other _ _ (bne_iff_ne.mp hh)]
    exact hall h (bne_iff_ne.mp hh) ha

theorem isEmpty_active_aborted {r : PortState} (hr : r.legs = abortedLegs s p g) :
    (Seg.list.filter r.active).isEmpty = !othersActive s p g :=
  isEmpty_filter_active rfl fun h => by
    rw [PortState.active_eq, hr]
    exact activeIn_abortedLegs h

end

/-! ### The record after the abort (R34, R55, R56) -/

/-- R34, R55, R56: a record and the segments as the abort of a leg leaves them, before anything that sets off. -/
structure Aborted (s : State) (p : Port) (g : Seg) (act : Activity) (c : SegState) (r : PortState) (f : Seg → SegState) :
    Prop where
  self : f g = c
  other : ∀ h, h ≠ g → f h = s.seg h ∨ f h = { s.seg h with legSlot := none }
  addrWait : r.addrWait = none
  waits : r.phase ≠ .awaitGrant ∨ (∃ h, h ≠ g ∧ .port p ∈ (s.seg h).waiters) ∧ Seg.list.filter r.claims ≠ []
  answered : ∀ (t : State) (n : Option Nat), t.port p = { r with stall := n } → (∀ h, h ≠ g → t.seg h = f h) →
    AbortAnswered s t p g act

/-- R53, R55: the record as its reading leg is taken from it. -/
def PortState.readAborted (r : PortState) (w : Reading) (legs : List Leg) : PortState :=
  { r with
    legs := legs, phase := .drain, inFlight := none, held := none, readStage := .none,
    sdaByte := if w = .nackClock then r.sdaByte else some 0xFF#8
    sclHeld := if w = .nackClock then r.sclHeld else false }

section
variable {s u : State} {p : Port} {g : Seg} {c : SegState} (hc : c.owner ≠ some (.port p))

theorem aborted_closing {check : Option Byte} (hmet : AbortMet s p g (.closing check)) :
    Aborted s p g (.closing check) c ((s.port p).leftLeg g) (oneSeg s g c) where
  self := oneSeg_self ..
  other h hh := .inl (oneSeg_other _ _ hh)
  addrWait := hmet.1
  waits := .inl hmet.2
  answered t n hport hseg := by
    refine ⟨?_, fun h hh => (hseg h hh).trans (oneSeg_other _ _ hh)⟩
    dsimp only
    rw [hport]
    rfl

theorem tellAbort_reading {w : Reading} (hphase : (s.port p).phase = .read) :
    tellAbort p g (some (.reading w)) (u.bus p (s.port p) (oneSeg s g c))
      = u.bus p ((s.port p).readAborted w (abortedLegs s p g)) (oneSeg s g c) := by
  show (if ((u.bus p (s.port p) (oneSeg s g c)).port p).phase = .read then _ else _) = _
  rw [State.bus_port_self, if_pos hphase, abortLeg_bus, ← abortedLegs_eq]
  cases w with
  | nackClock => exact toDrain_bus ..
  | data | check =>
    show supply p _ (toDrain p _) = _
    rw [toDrain_bus, supply_bus]
    rfl

theorem aborted_reading {w : Reading} (hmet : AbortMet s p g (.reading w)) :
    Aborted s p g (.reading w) c ((s.port p).readAborted w (abortedLegs s p g)) (oneSeg s g c) where
  self := oneSeg_self ..
  other h hh := .inl (oneSeg_other _ _ hh)
  addrWait := hmet.1
  waits := .inl nofun
  answered t n hport hseg := by
    refine ⟨?_, fun h hh => (hseg h hh).trans (oneSeg_other _ _ hh)⟩
    show ReadAborted s t p g w
    unfold ReadAborted
    rw [hport]
    exact ⟨rfl, rfl, rfl, rfl, rfl, rfl, rfl, rfl⟩

/-- R80, R34: a join that an abort completes is a NACK. -/
theorem ackOut_addressJoined (hmet : legActive s p g = true)
    (hset : ∀ sn, (s.port p).snapshot = some sn → ∀ h, legActive s p h = true → sn.entry.segs.get h = true) :
    ((s.port p).withLegs (abortedLegs s p g)).addressJoined.ackOut = some .nack := by
  have hactive (h : Seg) : ((s.port p).withLegs (abortedLegs s p g)).active h = (legActive s p h && h != g) :=
    activeIn_abortedLegs h
  unfold PortState.addressJoined
  split
  next => rfl
  next hne =>
    refine congrArg some (if_neg fun hlen => ?_)
    cases hsn : (s.port p).snapshot with
    | none =>
      have hsize : setSize ((s.port p).withLegs (abortedLegs s p g)) = 0 := by
        unfold setSize
        rw [show ((s.port p).withLegs (abortedLegs s p g)).snapshot = none from hsn]
      rw [hsize] at hlen
      exact hne (List.isEmpty_iff.mpr (List.length_eq_zero_iff.mp hlen))
    | some sn =>
      have heq := (length_eq_setSize_iff (r := (s.port p).withLegs (abortedLegs s p g)) hsn fun h hh =>
        hset sn hsn h (Bool.and_eq_true_iff.mp ((hactive h).symm.trans hh)).1).mp hlen
      have hmem : g ∈ Seg.list.filter ((s.port p).withLegs (abortedLegs s p g)).active := by
        rw [heq]
        exact (mem_filter_list _ g).mpr (hset sn hsn g hmet)
      have hg := (hactive g).symm.trans ((mem_filter_list _ g).mp hmem)
      simp at hg

/-- R34, R79, R80: the record as a leg ADDRESSING is taken from it. -/
def PortState.addressAborted (r : PortState) (legs : List Leg) (joined : Bool) : PortState :=
  if joined then (r.withLegs legs).addressJoined else r.withLegs legs

/-- The join of the legs that remain is complete. -/
def addressComplete (s : State) (p : Port) (g : Seg) : Bool :=
  decide ((s.port p).phase = .awaitTarget) && othersPaused s p g

theorem tellAbort_addressing (o : Opening) :
    tellAbort p g (some (.addressing o)) (u.bus p (s.port p) (oneSeg s g c))
      = u.bus p ((s.port p).addressAborted (abortedLegs s p g) (addressComplete s p g)) (oneSeg s g c) := by
  show joinAddress p (abortLeg p g (u.bus p (s.port p) (oneSeg s g c))) = _
  have hpaused := allPaused_aborted (r := (s.port p).withLegs (abortedLegs s p g)) rfl c
  rw [abortLeg_bus, ← abortedLegs_eq]
  unfold PortState.addressAborted addressComplete
  by_cases h : (s.port p).phase = .awaitTarget ∧ othersPaused s p g = true
  · rw [joinAddress_joined _ _ _ (r := (s.port p).withLegs (abortedLegs s p g)) h.1 (hpaused.trans h.2), h.2,
      decide_eq_true h.1]
    rfl
  · rw [joinAddress_waiting _ _ _ (r := (s.port p).withLegs (abortedLegs s p g)) (by rw [hpaused]; exact h), if_neg]
    rw [Bool.and_eq_true, decide_eq_true_eq]
    exact h

theorem claims_abortedLegs (h : Seg) :
    ((s.port p).withLegs (abortedLegs s p g)).claims h = ((s.port p).claims h && h != g) :=
  any_mapLegs_left g h (k := Leg.aborted) (st := .claiming) nofun (s.port p).legs

theorem aborted_addressing {o : Opening} (hmet : AbortMet s p g (.addressing o)) :
    Aborted s p g (.addressing o) c ((s.port p).addressAborted (abortedLegs s p g) (addressComplete s p g))
      (oneSeg s g c) := by
  obtain ⟨haw, hact, hphase⟩ := hmet
  have hempty := isEmpty_active_aborted (r := (s.port p).withLegs (abortedLegs s p g)) rfl
  unfold PortState.addressAborted
  by_cases hjoin : addressComplete s p g = true
  · obtain ⟨hawait, hpaused⟩ := Bool.and_eq_true_iff.mp hjoin
    have hawait := of_decide_eq_true hawait
    have hset := (hphase.resolve_right fun e => absurd (hawait.symm.trans e.1) nofun).2
    have hack := ackOut_addressJoined hact hset
    rw [if_pos hjoin]
    have hfields : ((s.port p).withLegs (abortedLegs s p g)).addressJoined.legs = abortedLegs s p g
        ∧ ((s.port p).withLegs (abortedLegs s p g)).addressJoined.addrWait = none
        ∧ ((s.port p).withLegs (abortedLegs s p g)).addressJoined.sclHeld = false
        ∧ ((s.port p).withLegs (abortedLegs s p g)).addressJoined.hold = none
        ∧ ((s.port p).withLegs (abortedLegs s p g)).addressJoined.snapshot = (s.port p).snapshot
        ∧ ((s.port p).withLegs (abortedLegs s p g)).addressJoined.count = (s.port p).count
        ∧ ((s.port p).withLegs (abortedLegs s p g)).addressJoined.pointer = (s.port p).pointer
        ∧ ((s.port p).withLegs (abortedLegs s p g)).addressJoined.phase
          = if othersActive s p g then dataPhase (s.port p).dir else .drain := by
      unfold PortState.addressJoined
      rw [hempty]
      cases othersActive s p g with
      | false => exact ⟨rfl, haw, rfl, rfl, rfl, rfl, rfl, rfl⟩
      | true => exact ⟨rfl, haw, rfl, rfl, rfl, rfl, rfl, rfl⟩
    obtain ⟨hlegs, haw', hscl, hhold, hsn, hcount, hptr, hph⟩ := hfields
    refine ⟨oneSeg_self .., fun h hh => .inl (oneSeg_other _ _ hh), haw', .inl ?_, fun t n hport hseg =>
      ⟨?_, fun h hh => (hseg h hh).trans (oneSeg_other _ _ hh)⟩⟩
    · rw [hph]
      split
      · cases (s.port p).dir <;> nofun
      · nofun
    · show AddressAborted s t p g
      unfold AddressAborted
      rw [if_pos ⟨hawait, hpaused⟩, hport]
      refine ⟨hlegs, hack, hscl, hhold, hsn, hcount, hptr, hph.trans ?_⟩
      cases (s.port p).dir <;> rfl
  · have hnot : ¬((s.port p).phase = .awaitTarget ∧ othersPaused s p g = true) := fun e =>
      hjoin (Bool.and_eq_true_iff.mpr ⟨decide_eq_true e.1, e.2⟩)
    rw [if_neg hjoin]
    refine ⟨oneSeg_self .., fun h hh => .inl (oneSeg_other _ _ hh), haw, ?_, fun t n hport hseg =>
      ⟨?_, fun h hh => (hseg h hh).trans (oneSeg_other _ _ hh)⟩⟩
    · obtain ⟨hawait, -⟩ | ⟨-, h, hmem, hne, hwait⟩ := hphase
      · exact .inl (by show (s.port p).phase ≠ _; rw [hawait]; nofun)
      · refine .inr ⟨⟨h, hne, hwait⟩, List.ne_nil_of_mem ((mem_filter_list _ h).mpr ?_)⟩
        have hclaims : (s.port p).claims h = true := (mem_filter_list _ h).mp hmem
        rw [claims_abortedLegs, hclaims]
        exact bne_iff_ne.mpr hne
    · show AddressAborted s t p g
      unfold AddressAborted
      rw [if_neg hnot, hport]
      rfl

/-- R55, R84: the record as a leg that places the byte in flight is taken from it. -/
theorem tellAbort_writing (b : Byte) (placed : Bool) :
    tellAbort p g (some (.writing b placed)) (u.bus p (s.port p) (oneSeg s g c))
      = joinData p (u.bus p ((s.port p).lostLeg (abortedLegs s p g)) (oneSeg s g c)) := by
  show joinData p (loseLeg p (abortLeg p g (u.bus p (s.port p) (oneSeg s g c)))) = _
  rw [abortLeg_bus, ← abortedLegs_eq, loseLeg, State.updPort_bus]
  rfl

theorem inFlight_lostLeg {r : PortState} {x : InFlight} (h : r.inFlight = some x) (legs : List Leg) :
    (r.lostLeg legs).inFlight = some { x with lost := true } := by
  unfold PortState.lostLeg
  rw [h]
  rfl

theorem aborted_written {b : Byte} {placed : Bool} {x : InFlight} (haw : (s.port p).addrWait = none)
    (hphase : (s.port p).phase = .write) (hx : (s.port p).inFlight = some x) (hpaused : othersPaused s p g = false) :
    Aborted s p g (.writing b placed) c ((s.port p).lostLeg (abortedLegs s p g)) (oneSeg s g c) where
  self := oneSeg_self ..
  other h hh := .inl (oneSeg_other _ _ hh)
  addrWait := haw
  waits := .inl (by show (s.port p).phase ≠ _; rw [hphase]; nofun)
  answered t n hport hseg := by
    refine ⟨fun f hf => ?_, fun h hh => ?_⟩
    · obtain rfl : x = f := Option.some.inj (hx.symm.trans hf)
      unfold WriteAborted
      rw [if_pos hpaused, hport]
      show _ = _
      rw [← inFlight_lostLeg hx (abortedLegs s p g)]
      rfl
    · rw [hseg h hh, oneSeg_other _ _ hh, hpaused, Bool.and_false]
      exact (if_neg (by nofun)).symm

theorem aborted_joined {b : Byte} {placed : Bool} {x : InFlight} (haw : (s.port p).addrWait = none)
    (hphase : (s.port p).phase = .write) (hx : (s.port p).inFlight = some x) (hpaused : othersPaused s p g = true)
    (hafter : x.after ≠ .repeatedStart) :
    Aborted s p g (.writing b placed) c (((s.port p).lostLeg (abortedLegs s p g)).joined { x with lost := true })
      (oneSeg s g c) := by
  have hempty := isEmpty_active_aborted (r := (s.port p).lostLeg (abortedLegs s p g)) rfl
  have hrepeated : (x.after == .repeatedStart) = false := beq_false_of_ne hafter
  refine ⟨oneSeg_self .., fun h hh => .inl (oneSeg_other _ _ hh), ?_, .inl ?_, fun t n hport hseg =>
    ⟨fun f hf => ?_, fun h hh => ?_⟩⟩
  · unfold PortState.joined
    rw [hempty]
    cases othersActive s p g <;> exact haw
  · unfold PortState.joined
    rw [hempty]
    cases othersActive s p g with
    | false => exact nofun
    | true =>
      show (s.port p).phase ≠ _
      rw [hphase]
      nofun
  · obtain rfl : x = f := Option.some.inj (hx.symm.trans hf)
    unfold WriteAborted
    rw [if_neg (by rw [hpaused]; nofun), if_neg hafter, hport]
    unfold PortState.joined
    rw [hempty]
    cases othersActive s p g with
    | false => exact ⟨rfl, rfl, rfl, rfl, rfl, rfl, rfl, rfl, rfl⟩
    | true =>
      refine ⟨rfl, rfl, rfl, rfl, rfl, rfl, rfl, hphase, ?_⟩
      unfold heldAfter
      cases x.after <;> rfl
  · rw [hseg h hh, oneSeg_other _ _ hh, hx, Option.any_some, hrepeated, Bool.and_false, Bool.false_and, Bool.false_and]
    exact (if_neg (by nofun)).symm

theorem marked_abortedLegs (h : ∀ l ∈ (s.port p).legs, l.marked = false) : ∀ l ∈ abortedLegs s p g, l.marked = false := by
  intro l hl
  obtain ⟨l, hmem, rfl⟩ := List.mem_map.mp hl
  split
  · exact h l hmem
  · exact h l hmem

/-- R37, R69, R55: the record of a confirmed byte in its new address phase. -/
def abortedAddress (s : State) (p : Port) (g : Seg) (c : SegState) : PortState :=
  ((s.port p).withLegs (abortedLegs s p g)).begun (keptOf p (oneSeg s g c) (abortedLegs s p g))

theorem beginAddress_aborted (hmarked : ∀ l ∈ (s.port p).legs, l.marked = false) (r : PortState)
    (hr : r = { (s.port p).lostLeg (abortedLegs s p g) with inFlight := none }) :
    beginAddress p (u.bus p r (oneSeg s g c)) = u.bus p (abortedAddress s p g c) fun h => ungoverned p (oneSeg s g c h) := by
  rw [beginAddress_unmarked_bus _ _ _ (toStop_eq_false (r := r) (by rw [hr]; exact marked_abortedLegs hmarked)), hr]
  rfl

include hc in
theorem aborted_confirmed {b : Byte} {placed : Bool} {x : InFlight} (hx : (s.port p).inFlight = some x)
    (hpaused : othersPaused s p g = true) (hafter : x.after = .repeatedStart) :
    Aborted s p g (.writing b placed) c (abortedAddress s p g c) fun h => ungoverned p (oneSeg s g c h) := by
  have hother (h : Seg) (hh : h ≠ g) :
      ungoverned p (oneSeg s g c h) = if owns s p h then { s.seg h with legSlot := none } else s.seg h := by
    rw [oneSeg_other _ _ hh, ungoverned_eq]
  refine ⟨?_, fun h hh => ?_, rfl, .inl (by exact nofun), fun t n hport hseg => ⟨fun f hf => ?_, fun h hh => ?_⟩⟩
  · rw [oneSeg_self]
    exact if_neg (by rw [beq_false_of_ne hc]; nofun)
  · rw [hother h hh]
    split
    · exact .inr rfl
    · exact .inl rfl
  · obtain rfl : x = f := Option.some.inj (hx.symm.trans hf)
    unfold WriteAborted
    rw [if_neg (by rw [hpaused]; nofun), if_pos hafter]
    simp only [legActive_eq]
    rw [hport]
    refine ⟨rfl, rfl, rfl, rfl, rfl, rfl, rfl, rfl, rfl, rfl, rfl, fun h => ?_⟩
    exact (congrFun (activeIn_keptOf p (oneSeg s g c) _) h).trans (activeIn_abortedLegs h)
  · have hrepeated : (x.after == .repeatedStart) = true := beq_iff_eq.mpr hafter
    rw [hseg h hh, hother h hh, hx, Option.any_some, hrepeated, hpaused]
    rfl

/-- R34, R55, R56: the abort of a leg, by its activity. -/
theorem tellAbort_aborted {act : Activity} (hmet : AbortMet s p g act) (hc : c.owner ≠ some (.port p)) :
    ∃ r f, tellAbort p g (some act) (u.bus p (s.port p) (oneSeg s g c)) = u.bus p r f ∧ Aborted s p g act c r f := by
  cases act with
  | addressing o => exact ⟨_, _, tellAbort_addressing o, aborted_addressing hmet⟩
  | reading w => exact ⟨_, _, tellAbort_reading hmet.2.2, aborted_reading hmet⟩
  | paused => exact absurd hmet.2 id
  | closing check => exact ⟨_, _, tellAbort_closing .., aborted_closing hmet⟩
  | writing b placed =>
    obtain ⟨haw, -, hphase, x, hx, hrepeated⟩ := hmet
    have hlost := inFlight_lostLeg hx (abortedLegs s p g)
    have hall := allPaused_aborted (r := (s.port p).lostLeg (abortedLegs s p g)) rfl c
    cases hpaused : othersPaused s p g with
    | false =>
      rw [hpaused] at hall
      exact ⟨_, _, (tellAbort_writing b placed).trans (joinData_waiting hlost _ _ _ hall),
        aborted_written haw hphase hx hpaused⟩
    | true =>
      rw [hpaused] at hall
      by_cases hafter : x.after = .repeatedStart
      · obtain ⟨hearly, hmarked⟩ := hrepeated hafter
        refine ⟨_, _, ?_, aborted_confirmed hc hx hpaused hafter⟩
        rw [tellAbort_writing, joinData_repeated hlost _ _ _ hall (by exact hafter),
          toAddress_none (by rw [State.bus_port_self]; exact hearly)]
        exact beginAddress_aborted hmarked _ rfl
      · exact ⟨_, _, (tellAbort_writing b placed).trans (joinData_answered hlost _ _ _ hall (by exact hafter)),
          aborted_joined haw hphase hx hpaused hafter⟩

end

end Sys2Proof.Machine
end

section
/-!
PROOFS. O45: the clock limit of a leg (R97, R112, R113), and what its record then owes.
-/
namespace Sys2Proof.Machine

/-! ### What an abort sets off (R34, R39, R93) -/

section
variable {s u : State} {p : Port} {g : Seg} {act : Activity} {c : SegState} {r : PortState} {f : Seg → SegState}

theorem Aborted.owner_other (h : Aborted s p g act c r f) {k : Seg} (hk : k ≠ g) :
    (f k).owner = (s.seg k).owner ∧ (f k).waiters = (s.seg k).waiters ∧ Steady (s.seg k) (f k) := by
  obtain e | e := h.other k hk
  · rw [e]
    exact ⟨rfl, rfl, .refl _⟩
  · rw [e]
    exact ⟨rfl, rfl, steady_legSlot _ none⟩

theorem Aborted.timed (h : Aborted s p g act c r f) {n : Nat} (hl : TimersLaw s) (k : Seg) (hk : k ≠ g) :
    { f k with quiet := quietAfter n (f k) } = f k := by
  have hsteady := (h.owner_other hk).2.2
  exact retimed_same (hl.2 k) hsteady.quiet hsteady.runs

theorem Aborted.still_other (h : Aborted s p g act c r f) (hset : Settled s) {k : Seg} (hk : k ≠ g) : ((u.bus p r f).seg k).still := by
  rw [State.bus_seg]
  obtain e | e := h.other k hk <;> rw [e] <;> exact still_of_settled hset k

variable (h : Aborted s p g act c r f) (hc : ∀ q, c.owner ≠ some (.port q)) (ho : (s.seg g).owner = some (.port p))
include h hc ho

theorem Aborted.owns_other (k : Seg) (q : Port) (hq : q ≠ p) : ((f k).owner == some (.port q)) = owns s q k := by
  by_cases e : k = g
  · rw [e, h.self, beq_false_of_ne (hc q), owns, ho]
    exact (beq_false_of_ne fun e => hq (by cases e; rfl)).symm
  · rw [(h.owner_other e).1, owns]

/-- R59, R114: the timers of an abort. -/
theorem Aborted.retime (hl : TimersLaw s) (hu : OnlyNotices s u) : retime (u.bus p r f) = u.bus p
    { r with
      stall := r.stallBy s.working.params.stallLimit (Seg.list.any fun g => (f g).owner == some (.port p)) }
    fun k => { f k with quiet := quietAfter s.working.params.clockLimit (f k) } :=
  hu.retime_bus hl fun k q hq => h.owns_other hc ho k q hq

variable (hset : Settled s) (hu : OnlyNotices s u) (hcw : c.waiters = (s.seg g).waiters)
include hset hu hcw

theorem Aborted.portsDone : PortsDone (u.bus p r f) := by
  have hwaiters (k : Seg) : (f k).waiters = (s.seg k).waiters := by
    by_cases e : k = g
    · rw [e, h.self, hcw]
    · exact (h.owner_other e).2.1
  refine hset.portsDone.other_port hu (fun q hq k => h.owns_other hc ho k q hq) (fun q _ k => by rw [hwaiters])
    (.inl h.addrWait) (h.waits.imp_right ?_)
  rintro ⟨⟨k, -, hk⟩, hne⟩
  exact ⟨⟨k, by rw [hwaiters]; exact hk⟩, hne⟩

end

section
variable {s u : State} {p : Port} {g : Seg} {act : Activity} {c : SegState} (hu : OnlyNotices s u)
  (hc : ∀ q, c.owner ≠ some (.port q)) (hcw : c.waiters = (s.seg g).waiters) (hstill : c.still)
  (ho : (s.seg g).owner = some (.port p)) (hmet : AbortMet s p g act) (hset : Settled s) (hl : TimersLaw s)
include hu hc hcw hstill ho hmet hset hl

/-- R34, R55, R56: the abort of a leg whose segment then serves nobody. -/
theorem finish_aborted : ∃ r f, finish (tellAbort p g (some act) (u.bus p (s.port p) (oneSeg s g c))) = u.bus p r f
    ∧ AbortAnswered s (u.bus p r f) p g act
    ∧ f g = { c with quiet := quietAfter s.working.params.clockLimit c } := by
  obtain ⟨r, f, heq, h⟩ := tellAbort_aborted (u := u) hmet (hc p)
  have hsettled : Settled (u.bus p r f) := (h.portsDone hc ho hset hu hcw).settled fun k => by
    by_cases e : k = g
    · rw [e, State.bus_seg, h.self]
      exact hstill
    · exact h.still_other hset e
  rw [heq, finish_of_settled hsettled, h.retime hc ho hl hu]
  refine ⟨_, _, rfl, h.answered _ _ (State.bus_port_self ..) fun k hk => ?_, by rw [h.self]⟩
  rw [State.bus_seg]
  exact h.timed hl k hk

end

/-- R93, R97: a segment that is being recovered serves nobody who waits. -/
theorem seized_still {s : State} (hset : Settled s) (g : Seg) : (seized s g).still := by
  by_cases hw : (s.seg g).waiters = []
  · exact .inl hw
  · refine .inr ⟨?_, rfl⟩
    show (SegCondition.recovering == .faulted || SegCondition.recovering == .disabled || (s.seg g).pendingDisable) = false
    rw [pendingDisable_of_not_refuses (hset.served hw).1]
    rfl

theorem quietAfter_seized (n : Nat) (s : State) (g : Seg) : quietAfter n (seized s g) = none :=
  quietAfter_of_not_runs (quietRuns_recovering (by exact rfl))

/-! ### What a claim keeps of its record (R31) -/

/-- R31, R81: of a record what its claims, granted or refused, leave as it was. -/
structure RecordKept (r x : PortState) : Prop where
  snapshot : x.snapshot = r.snapshot
  pointer : x.pointer = r.pointer
  early : x.earlyAddr = r.earlyAddr
  dir : x.dir = r.dir
  count : x.count = r.count
  up : x.up = r.up
  addrWait : x.addrWait = r.addrWait
  inFlight : r.inFlight = none → x.inFlight = none
  held : r.held = none → x.held = none

namespace RecordKept
variable {r x y : PortState} {s t : State} {p : Port}

theorem refl (r : PortState) : RecordKept r r := ⟨rfl, rfl, rfl, rfl, rfl, rfl, rfl, id, id⟩

theorem trans (h : RecordKept r x) (k : RecordKept x y) : RecordKept r y :=
  ⟨k.snapshot.trans h.snapshot, k.pointer.trans h.pointer, k.early.trans h.early, k.dir.trans h.dir,
    k.count.trans h.count, k.up.trans h.up, k.addrWait.trans h.addrWait, k.inFlight ∘ h.inFlight, k.held ∘ h.held⟩

theorem bus {q : Port} (h : q = p → RecordKept (s.port p) x) {u : State} (hu : u.port p = s.port p) (f : Seg → SegState) :
    RecordKept (s.port p) ((u.bus q x f).port p) := by
  by_cases e : q = p
  · subst e
    rw [State.bus_port_self]
    exact h rfl
  · rw [State.bus_port_ne _ _ _ fun e' => e e'.symm, hu]
    exact refl _

theorem refuse (g : Seg) (c : Claimant) : RecordKept (s.port p) ((refuse g c s).port p) := by
  cases c with
  | port q =>
    show RecordKept (s.port p) ((failAddress q g (unwait (.port q) g s)).port p)
    rw [failAddress_eq]
    refine bus (s := unwait (.port q) g s) (fun e => ?_) (note_port ..) _
    subst e
    exact ⟨rfl, rfl, rfl, rfl, rfl, rfl, rfl, fun _ => rfl, fun _ => rfl⟩
  | mgmt =>
    show RecordKept (s.port p) ((refuseMgmt g (unwait .mgmt g s)).port p)
    unfold refuseMgmt
    split
    · obtain ⟨l, hl⟩ := port_answerSegReset g .recoveryFailed
        [segCode g, byteOf ((unwait .mgmt g s).seg g).faults] (unwait .mgmt g s) p
      rw [hl]
      exact ⟨rfl, rfl, rfl, rfl, rfl, rfl, rfl, id, id⟩
    · obtain ⟨l, hl⟩ := port_answerSegReset g .segDisabled [segCode g] (unwait .mgmt g s) p
      rw [hl]
      exact ⟨rfl, rfl, rfl, rfl, rfl, rfl, rfl, id, id⟩

theorem grant (g : Seg) (c : Claimant) : RecordKept (s.port p) ((grant g c s).port p) := by
  cases c with
  | port q =>
    show RecordKept (s.port p) ((grantPort g q (unwait (.port q) g s)).port p)
    rw [grantPort_eq]
    refine bus (s := unwait (.port q) g s) (fun e => ?_) rfl _
    subst e
    exact ⟨rfl, rfl, rfl, rfl, rfl, rfl, rfl, id, id⟩
  | mgmt =>
    show RecordKept (s.port p) ((grantMgmt g (unwait .mgmt g s)).port p)
    unfold grantMgmt
    split
    · exact refl _
    · rw [beginRecovery_eq]
      exact refl _

/-- R31: what one step of what an event sets off keeps of a record that owes no answer. -/
theorem micro (haw : (s.port p).addrWait = none) (h : micro s = some t) : RecordKept (s.port p) (t.port p) := by
  unfold Machine.micro at h
  split at h
  · cases h
    exact refuse ..
  split at h
  · cases h
    exact grant ..
  split at h
  next q w hq =>
    cases h
    rw [answerAddress_eq]
    refine bus (fun e => ?_) ((onlyNotices_addressNoted ..).port p) _
    subst e
    obtain ⟨q', -, hq'⟩ := List.exists_of_findSome?_eq_some hq
    unfold nextAnswer at hq'
    split at hq'
    · cases hq'
    next hw =>
      split at hq'
      · cases hq'
        exact absurd (hw.symm.trans haw) nofun
      · cases hq'
  split at h
  · cases h
    unfold claim
    split
    · exact refuse ..
    · split
      · exact grant ..
      · exact refl _
  split at h
  next q hq =>
    cases h
    rw [State.updPort_eq_bus]
    refine bus (fun e => ?_) rfl _
    subst e
    exact ⟨rfl, rfl, rfl, rfl, rfl, rfl, rfl, id, id⟩
  · cases h

theorem settle : ∀ (n : Nat) (s : State), (s.port p).addrWait = none → RecordKept (s.port p) ((settle n s).port p)
  | 0, s, _ => refl _
  | n + 1, s, haw => by
    cases hm : Machine.micro s with
    | none => rw [settle_of_none hm]; exact refl _
    | some t =>
      have hstep := micro haw hm
      rw [settle_step hm]
      exact hstep.trans (settle n t (hstep.addrWait.trans haw))

theorem finish (haw : (s.port p).addrWait = none) : RecordKept (s.port p) ((finish s).port p) := by
  have hsettle := settle settleFuel s haw
  unfold Machine.finish
  rw [port_retime]
  exact ⟨hsettle.snapshot, hsettle.pointer, hsettle.early, hsettle.dir, hsettle.count, hsettle.up, hsettle.addrWait,
    hsettle.inFlight, hsettle.held⟩

end RecordKept

/-! ### The final loss of a leg to another controller (R116, R117) -/

theorem lost_eq {s u : State} (hu : OnlyNotices s u) (p : Port) (g : Seg) :
    release g true u
      = u.bus p (s.port p) (oneSeg s g ((s.seg g).releasedBy (s.working.params.segs.get g) true)) := by
  rw [release_eq, State.updSeg_eq_bus u p, hu.port, hu.working, hu.seg]
  refine State.bus_congr _ _ rfl fun h => ?_
  rw [hu.seg]
  rfl

/-- R117: the notice's detail, by what the leg was at. -/
def lossDetail (a : Activity) : Half := if a = .addressing .placed then detailAddress else detailData

theorem exec_arbLoss_final {s : State} {p : Port} {g : Seg} {a : Activity} (h : LegAt s p g a)
    (hmode : (s.seg g).mode = .shared) (hhigh : a.leavesHigh = true)
    (hretry : a = .addressing .placed → (legOn s p g).any retriesLeft = false) :
    exec (.arbLoss g) s = .next (finish (tellAbort p g (some a)
      ((note .arbLost (some (.port p)) (some (.seg g)) (s.seg g).legSlot (lossDetail a) s).bus p (s.port p)
        (oneSeg s g ((s.seg g).releasedBy (s.working.params.segs.get g) true))))) := by
  have hlost : arbitrationLost p g a s = finish (loseArbitration p g (lossDetail a) s) := by
    unfold arbitrationLost lossDetail
    by_cases ha : a = .addressing .placed
    · rw [if_pos ha, if_pos ha, hretry ha]
      rfl
    · rw [if_neg ha, if_neg ha]
  show Host.Outcome.next (whenRunning s _) = _
  rw [whenRunning_running h.1, if_pos hmode, ownerPort_of_legAt h, h.2.2, ← lost_eq (onlyNotices_note ..), ← h.2.2]
  rw [h.2.2]
  dsimp only
  rw [if_pos hhigh, hlost, loseArbitration, h.2.2]
  rfl

/-! ### An address byte that came before a confirmation was lost (R37, R55, R69) -/

theorem finish_settle (s : State) : finish (settle settleFuel s) = finish s := by
  unfold finish
  rw [settle_of_none (settled_settle s)]

theorem toAddress_some {p : Port} {s : State} {e : EarlyAddr} (h : (s.port p).earlyAddr = some e) :
    toAddress p s = decideAddress p e.addr e.dir e.found (beginAddress p s) := by
  unfold toAddress
  rw [h]

section
variable {s u : State} {p : Port} {g : Seg} {c : SegState} {x : InFlight} {sn : Snapshot} {e : EarlyAddr}
  (hu : OnlyNotices s u) (hx : (s.port p).inFlight = some x) (hafter : x.after = .repeatedStart)
  (hearly : (s.port p).earlyAddr = some e) (hmarked : ∀ l ∈ (s.port p).legs, l.marked = false)
  (honly : ∀ h, legActive s p h = true ↔ h = g)

include hx hafter hearly hmarked honly in
theorem finish_abortedEarly (b : Byte) (placed : Bool) :
    finish (tellAbort p g (some (.writing b placed)) (u.bus p (s.port p) (oneSeg s g c)))
      = finish (addressTaken p e.addr e.dir e.found
        (u.bus p (abortedAddress s p g c) fun h => ungoverned p (oneSeg s g c h))) := by
  have hpaused : othersPaused s p g = true := othersPaused_iff.mpr fun h hh ha => absurd ((honly h).mp ha) hh
  have hall := (allPaused_aborted (r := (s.port p).lostLeg (abortedLegs s p g)) rfl c).trans hpaused
  rw [tellAbort_writing, joinData_repeated (inFlight_lostLeg hx _) _ _ _ hall (by exact hafter),
    toAddress_some (e := e) (by rw [State.bus_port_self]; exact hearly), beginAddress_aborted hmarked _ rfl]
  exact finish_settle _

theorem active_abortedAddress (honly : ∀ h, legActive s p h = true ↔ h = g) (k : Seg) :
    (abortedAddress s p g c).active k = false := by
  have hkept : (abortedAddress s p g c).active k = activeIn (abortedLegs s p g) k :=
    congrFun (activeIn_keptOf p (oneSeg s g c) _) k
  rw [hkept, activeIn_abortedLegs]
  by_cases e : k = g
  · rw [e]
    simp
  · rw [Bool.eq_false_iff.mpr fun ha => e ((honly k).mp ha)]
    rfl

end

/-- R26 to R29: what an answer leaves of its record. -/
theorem answered_keeps {r : PortState} (hfl : r.inFlight = none) (hheld : r.held = none) (credit : Bool) (w : AddrWait) :
    (r.addressAnswered credit w).earlyAddr = r.earlyAddr ∧ (r.addressAnswered credit w).inFlight = none
      ∧ (r.addressAnswered credit w).held = none ∧ (r.addressAnswered credit w).dir = r.dir
      ∧ (r.addressAnswered credit w).count = r.count ∧ (r.addressAnswered credit w).up = r.up
      ∧ (r.addressAnswered credit w).pointer = r.pointer := by
  cases w with
  | mgmtWrite b => cases credit <;> exact ⟨rfl, hfl, hheld, rfl, rfl, rfl, rfl⟩
  | mgmtRead _ | miss => exact ⟨rfl, hfl, hheld, rfl, rfl, rfl, rfl⟩
  | denied _ | noOffset _ => exact ⟨rfl, rfl, rfl, rfl, rfl, rfl, rfl⟩

/-- R30, R39: a routed address on a record with no leg ACTIVE. -/
theorem addressTaken_bare {s : State} {p : Port} {r : PortState} {a : Addr} {d : Dir} {found : Found} {sn : Snapshot}
    (f : Seg → SegState) (hno : ∀ g, r.active g = false) (h : decideFound r a d found = .routed sn) :
    ∃ legs, addressTaken p a d found (s.bus p r f)
      = s.bus p ((r.taken a d sn).routed s.working.params.holdLimit sn .awaitGrant legs) f := by
  have hno' (g : Seg) : (r.taken a d sn).active g = false := hno g
  rw [addressTaken_routed_bus p sn s f h]
  show ∃ legs, route p sn (s.bus p (r.taken a d sn) f) = _
  rw [route_fresh_bus p sn s f fun e => e.1 (List.filter_eq_nil_iff.mpr fun g _ => by rw [hno' g]; nofun),
    segGivenUp_inactive hno']
  exact ⟨_, rfl⟩

namespace Laws

/-- Settles O45: the abort by its activity; and the address byte that waited for a confirmation, decided once its leg is gone. -/
theorem clockLimit : Obligations.ClockLimit := by
  refine ⟨fun s p g act hleg hcond hclock hmet hset hl => ?_,
    fun s p g b placed x sn e i hleg hcond hphase hx hafter hsn hearly hunc hl hown honly hlegs hi => ?_⟩
  · have hexec := exec_clockLimitExpiry_leg hleg hcond hclock
    obtain ⟨r, f, hfin, hans, hself⟩ := finish_aborted (c := seized s g) (act := act)
      (onlyNotices_note .segTimeout (some (.port p)) (some (.seg g)) (s.seg g).legSlot detailHeld s) nofun rfl
      (seized_still hset g) hleg.2.1 hmet hset hl
    rw [hfin] at hexec
    refine ⟨_, hexec, hans, ?_, recorded_bus_note .., onlyPortSegsNotices_bus_note ..⟩
    rw [State.bus_seg, hself, quietAfter_seized]
    rfl
  · have hmarked (l : Leg) (hl : l ∈ (s.port p).legs) := (hlegs l hl).1
    have hfin : ∃ u c, OnlyNotices s u ∧ c.owner = none ∧ c.waiters = (s.seg g).waiters
        ∧ exec i s = .next (finish (tellAbort p g (some (.writing b placed)) (u.bus p (s.port p) (oneSeg s g c)))) := by
      obtain ⟨rfl, hclock⟩ | ⟨rfl, hmode, rfl, hb⟩ := hi
      · refine ⟨_, _, ?_, ?_, ?_, exec_clockLimitExpiry_leg hleg hcond hclock⟩
        · exact onlyNotices_note ..
        · rfl
        · rfl
      · refine ⟨_, _, ?_, ?_, ?_, exec_arbLoss_final hleg hmode (bne_iff_ne.mpr hb) (by exact nofun)⟩
        · exact onlyNotices_note ..
        · rfl
        · rfl
    obtain ⟨u, c, hu, hc, hcw, hexec⟩ := hfin
    have hinactive := active_abortedAddress (c := c) honly
    have hno (h : Seg) : (ungoverned p (oneSeg s g c h)).owner ≠ some (.port p) := by
      rw [(steady_ungoverned p _).owner]
      exact owner_oneSeg_ne hc hown h
    have hwaiters (h : Seg) : (ungoverned p (oneSeg s g c h)).waiters = [] := by
      have hsame : (ungoverned p (oneSeg s g c h)).waiters = (oneSeg s g c h).waiters := by
        unfold ungoverned
        split <;> rfl
      rw [hsame, waiters_oneSeg hcw, hunc.1]
    have hprev : (abortedAddress s p g c).prevSlot = some sn.slot := congrArg (Option.map Snapshot.slot) hsn
    have hcarried (sn' : Snapshot) : carriedPointer (abortedAddress s p g c) sn'
        = if sn'.slot = sn.slot then (s.port p).pointer else none := by
      unfold carriedPointer
      rw [hprev]
      exact if_congr ⟨fun h => (Option.some.inj h).symm, fun h => congrArg some h.symm⟩ rfl rfl
    have hdecide : decideFound (abortedAddress s p g c) e.addr e.dir e.found
        = decideFound { s.port p with prevSlot := some sn.slot } e.addr e.dir e.found :=
      decideFound_congr (r := { s.port p with prevSlot := some sn.slot }) (r' := abortedAddress s p g c)
        (by exact hprev) (by exact rfl) ..
    rw [← hdecide]
    rw [finish_abortedEarly hx hafter hearly hmarked honly] at hexec
    cases hd : decideFound (abortedAddress s p g c) e.addr e.dir e.found with
    | wait w =>
      have hinactive' (h : Seg) : ((abortedAddress s p g c).addressed e.addr e.dir).active h = false := hinactive h
      rw [addressTaken_wait_bus p u _ hd, awaitingClose_inactive hinactive', segGivenUp_inactive hinactive,
        finish_answer (hu.othersDone (hunc.othersDone p)) hwaiters hno rfl, addressAnswered_awaiting] at hexec
      refine ⟨_, hexec, ?_⟩
      beta_reduce
      rw [port_retime, State.bus_port_self]
      generalize creditFree _ p = credit
      obtain ⟨hearly', hfl', hheld', hdir', hcount', hup', hptr'⟩ := answered_keeps
        (r := { (abortedAddress s p g c).addressed e.addr e.dir with stall := none, pointer := none }) rfl rfl credit w
      obtain ⟨haw', hscl', hsn'⟩ := answered_settles
        { (abortedAddress s p g c).addressed e.addr e.dir with stall := none, pointer := none } credit w
      refine ⟨hearly', hfl', hheld', hdir', hcount', haw', hup'.trans ?_, fun hmiss => ?_,
        fun _ _ => ⟨hscl', hptr', hsn' rfl⟩, nofun⟩
      · show crc8 (s.port p).up (addressByteOf e.addr e.dir) = _
        cases e.dir <;> rfl
      · cases hmiss
        exact ⟨rfl, rfl, rfl⟩
    | routed sn' =>
      obtain ⟨legs, htaken⟩ := addressTaken_bare (s := u) (p := p) (fun h => ungoverned p (oneSeg s g c h)) hinactive hd
      have hkept := RecordKept.finish (p := p) (s := u.bus p (((abortedAddress s p g c).taken e.addr e.dir sn').routed
        u.working.params.holdLimit sn' .awaitGrant legs) fun h => ungoverned p (oneSeg s g c h))
        (by rw [State.bus_port_self]; rfl)
      rw [State.bus_port_self] at hkept
      rw [htaken] at hexec
      generalize finish _ = t at hexec hkept
      refine ⟨t, hexec, hkept.early, hkept.inFlight rfl, hkept.held rfl, hkept.dir, hkept.count, hkept.addrWait,
        hkept.up.trans ?_, nofun, nofun, fun sn'' hsn'' => ?_⟩
      · show crc8 (s.port p).up (addressByteOf e.addr e.dir) = _
        cases e.dir <;> rfl
      · cases hsn''
        exact ⟨hkept.snapshot, hkept.pointer.trans (hcarried sn')⟩

end Laws

end Sys2Proof.Machine
end

section
/-!
PROOFS. O38: the START of a leg, and the lines found low before it (R109, R110, R114).
-/
namespace Sys2Proof.Machine

/-! ### The START and the target address (R64, R109) -/

/-- R64: a leg whose START and target address have been placed. -/
def Leg.placed (byte : Byte) (retries : Nat) (fromValue : Leg → Byte) (l : Leg) : Leg :=
  { l with down := crc8 (fromValue l) byte, retryLimit := some (l.retryLimit.getD retries) }

/-- R109, R111: the segment of a leg whose START has been placed. -/
def placedSeg (limit : Nat) (c : SegState) : SegState := { c with activity := some (.addressing .placed), clock := some limit }

theorem placeAddress_bus {p : Port} {g : Seg} {s : State} {r : PortState} {sn : Snapshot} (hsn : r.snapshot = some sn)
    (k : Leg → Byte) (c : SegState) :
    placeAddress p g k (s.bus p r (oneSeg s g c)) = s.bus p
      (r.withLegs (mapLegs (fun h => h == g)
        (Leg.placed (addressByteOf sn.entry.target r.dir) s.working.params.retries k) r.legs))
      (oneSeg s g (placedSeg s.working.params.clockLimit c)) := by
  unfold placeAddress
  rw [State.bus_port_self, hsn]
  dsimp only
  rw [startClock_updSeg, updSeg_bus_oneSeg, updLeg_bus]
  rfl

theorem exec_legOpen_fresh {s : State} {p : Port} {g : Seg} (h : LegAt s p g (.addressing .waitFresh)) (lines : Lines) :
    exec (.legOpen g lines) s = .next (openFresh p g lines s) := by
  show Host.Outcome.next (whenRunning s _) = _
  rw [whenRunning_running h.1, ownerPort_of_legAt h, h.2.2]

theorem exec_legOpen_repeated {s : State} {p : Port} {g : Seg} (h : LegAt s p g (.addressing .waitRepeated)) (lines : Lines) :
    exec (.legOpen g lines) s = .next (retime (placeAddress p g (fun l => l.down) s)) := by
  show Host.Outcome.next (whenRunning s _) = _
  rw [whenRunning_running h.1, ownerPort_of_legAt h, h.2.2]

/-- The segment with its lines as last seen. -/
def SegState.seen (lines : Lines) (c : SegState) : SegState := { c with lines := lines }

theorem sampleLines_eq (p : Port) (g : Seg) (lines : Lines) (s : State) :
    sampleLines g lines s = s.bus p (s.port p) (oneSeg s g ((s.seg g).seen lines)) := updSeg_eq_oneSeg ..

theorem oneSeg_seg (s : State) (g : Seg) : oneSeg s g (s.seg g) = s.seg := funext fun h => by
  unfold oneSeg
  split
  next e => rw [e]
  next => rfl

/-- R59, R114: with a record's legs and a segment changed, and no owner, that segment's quiet timer alone is set. -/
theorem retime_legs_oneSeg {s : State} (hl : TimersLaw s) {p : Port} {g : Seg} {ls : List Leg} {c : SegState}
    (hc : c.owner = (s.seg g).owner) : retime (s.bus p ((s.port p).withLegs ls) (oneSeg s g c))
      = s.bus p ((s.port p).withLegs ls) (oneSeg s g { c with quiet := quietAfter s.working.params.clockLimit c }) := by
  have howner (h : Seg) : (oneSeg s g c h).owner = (s.seg h).owner := by
    unfold oneSeg
    split
    next e => rw [e, hc]
    next => rfl
  have hany : (Seg.list.any fun h => (oneSeg s g c h).owner == some (.port p)) = owning s p := by
    unfold owning
    congr 1
    funext h
    rw [howner, owns]
  have hstall : ((s.port p).withLegs ls).stallBy s.working.params.stallLimit (owning s p) = (s.port p).stall :=
    stallBy_same hl rfl rfl rfl
  rw [retime_bus hl fun h q _ => by rw [howner, owns], hany, hstall]
  refine State.bus_congr _ _ rfl fun h => ?_
  by_cases e : h = g
  · rw [e, oneSeg_self, oneSeg_self]
  · rw [oneSeg_other _ _ e, oneSeg_other _ _ e]
    exact retimed_same (hl.2 h) rfl rfl

/-- R109: a leg that may start, by what its START finds. -/
theorem exec_legOpen {s : State} {p : Port} {g : Seg} {lines : Lines} {o : Opening} {sn : Snapshot}
    (hleg : LegAt s p g (.addressing o)) (hsn : (s.port p).snapshot = some sn)
    (ho : (o = .waitFresh ∧ lines = ⟨true, true⟩ ∧ ((s.seg g).mode = .exclusive ∨ (s.seg g).foreignBusy = false))
      ∨ o = .waitRepeated) :
    exec (.legOpen g lines) s = .next (retime (s.bus p
      ((s.port p).withLegs (mapLegs (fun h => h == g) (Leg.placed (addressByteOf sn.entry.target (s.port p).dir)
        s.working.params.retries fun l => if o = .waitFresh then 0xFF#8 else l.down) (s.port p).legs))
      (oneSeg s g (placedSeg s.working.params.clockLimit
        ((s.seg g).seen (if o = .waitFresh then lines else (s.seg g).lines)))))) := by
  obtain ⟨rfl, rfl, hmode⟩ | rfl := ho
  · have hopen : openFresh p g ⟨true, true⟩ s
        = retime (placeAddress p g (fun _ => crc8Start) (sampleLines g ⟨true, true⟩ s)) := by
      unfold openFresh
      obtain hm | hb := hmode
      · rw [hm]
        rfl
      · rw [hb]
        split <;> rfl
    rw [exec_legOpen_fresh hleg, hopen, sampleLines_eq p, placeAddress_bus hsn]
    rfl
  · have hself : s = s.bus p (s.port p) (oneSeg s g (s.seg g)) := by rw [oneSeg_seg, State.bus_self]
    have hplace := placeAddress_bus (p := p) (g := g) (s := s) hsn (fun l => l.down) (s.seg g)
    rw [← hself] at hplace
    rw [exec_legOpen_repeated hleg, hplace]
    rfl

/-! ### The lines found low (R110) -/

theorem linesLow_eq (p : Port) (g : Seg) (lines : Lines) (s : State) :
    linesLowAtStart p g (sampleLines g lines s) = tellAbort p g (s.seg g).activity
      ((note .segTimeout (some (.port p)) (some (.seg g)) (s.seg g).legSlot detailLinesLow s).bus p (s.port p)
        (oneSeg s g ((seized s g).seen lines))) := by
  unfold linesLowAtStart notePort
  rw [sampleLines_eq p, State.bus_seg, oneSeg_self, note_bus, beginRecovery_eq, State.updSeg_bus, oneSeg_self,
    State.bus_working, (onlyNotices_note ..).working]
  refine congrArg (tellAbort p g (s.seg g).activity) (State.bus_congr _ _ rfl fun h => ?_)
  unfold oneSeg
  split <;> rfl

theorem quietAfter_waitingLow {c : SegState} {n : Nat} (hm : c.mode = .shared) (hc : c.cond = .owned)
    (ha : c.activity = some (.addressing .waitFresh)) (hl : c.lines.bothHigh = false) :
    quietAfter n c = some (c.quiet.getD n) := by
  have hruns : c.quietRuns = true := by
    unfold SegState.quietRuns SegState.watched SegState.waiting
    rw [hm, hc, ha, hl]
    rfl
  unfold quietAfter
  rw [hruns]
  cases c.quiet <;> rfl

namespace Laws

/-- Settles O38: by the mode, the lines and the foreign-busy mark that a leg's START finds. -/
theorem legOpen : Obligations.LegOpen := by
  refine ⟨fun s p g lines o sn hleg hsn hl ho => ?_, fun s p g lines hleg hlow hmode hmet hset hl => ?_,
    fun s p g lines hleg hmode => ⟨fun hbusy => ?_, fun hbusy hlow hcond hl => ?_⟩⟩
  · have hexec := exec_legOpen hleg hsn ho
    rw [retime_legs_oneSeg hl (by exact rfl)] at hexec
    refine ⟨_, hexec, ?_⟩
    beta_reduce
    rw [State.bus_port_self]
    refine ⟨?_, ?_, fun h hh => (State.bus_seg ..).trans (oneSeg_other _ _ hh), onlyPortSegs_bus ..⟩
    · refine congrArg (s.port p).withLegs (List.map_congr_left fun l _ => ?_)
      split
      · unfold Leg.placed
        cases (s.port p).dir <;> rfl
      · rfl
    · rw [State.bus_seg, oneSeg_self]
      rfl
  · have hopen : openFresh p g lines s = finish (linesLowAtStart p g (sampleLines g lines s)) := by
      unfold openFresh
      rw [hmode, hlow]
      rfl
    have hstill : ((seized s g).seen lines).still := seized_still hset g
    obtain ⟨r, f, hfin, hans, hself⟩ := finish_aborted (c := (seized s g).seen lines)
      (onlyNotices_note .segTimeout (some (.port p)) (some (.seg g)) (s.seg g).legSlot detailLinesLow s) nofun rfl hstill
      hleg.2.1 hmet hset hl
    have hexec := exec_legOpen_fresh hleg lines
    rw [hopen, linesLow_eq, hleg.2.2, hfin] at hexec
    refine ⟨_, hexec, hans, ?_, recorded_bus_note .., onlyPortSegsNotices_bus_note ..⟩
    rw [State.bus_seg, hself, quietAfter_of_not_runs (quietRuns_recovering (by exact rfl))]
    rfl
  · rw [exec_legOpen_fresh hleg]
    unfold openFresh
    rw [if_pos hmode, if_pos hbusy]
  · have hopen : openFresh p g lines s = retime (sampleLines g lines s) := by
      unfold openFresh
      rw [if_pos hmode, hbusy, hlow]
      rfl
    obtain ⟨heq, hself, hother⟩ := retime_updSeg hl (g := g) (k := fun c => { c with lines := lines }) fun _ => rfl
    have hexec := exec_legOpen_fresh hleg lines
    rw [hopen] at hexec
    refine ⟨_, hexec, ?_, onlySeg_of heq hother⟩
    refine hself.trans ?_
    rw [quietAfter_waitingLow (by exact hmode) (by exact hcond) (by exact hleg.2.2) (by exact hlow)]

end Laws

end Sys2Proof.Machine
end

section
/-!
PROOFS. O44: what a watched segment makes of another controller (R110, R114, R121, R179).
-/
namespace Sys2Proof.Machine

/-! ### A watched segment (R91, R114) -/

section
variable {c : SegState} (hw : c.watched = true) (hlaw : c.lawful)
include hw

theorem mode_of_watched : c.mode = .shared := eq_of_beq (Bool.and_eq_true_iff.mp hw).1

theorem cond_of_watched : c.cond = .idle ∨ c.cond = .foreign ∨ c.waiting = true := by
  obtain ⟨-, h⟩ := Bool.and_eq_true_iff.mp hw
  obtain h | h := Bool.or_eq_true_iff.mp h
  · exact (Bool.or_eq_true_iff.mp h).imp eq_of_beq fun h => .inl (eq_of_beq h)
  · exact .inr (.inr h)

omit hw in
theorem cond_of_waiting (h : c.waiting = true) : c.cond = .owned := eq_of_beq (Bool.and_eq_true_iff.mp h).1

include hlaw

/-- R91, R114: a watched segment with no owner is free, and one with an owner waits. -/
theorem watched_unowned (ho : c.owner = none) : c.cond = .idle ∨ c.cond = .foreign := by
  obtain ⟨-, -, -, -, howned⟩ := hlaw
  obtain h | h | h := cond_of_watched hw
  · exact .inl h
  · exact .inr h
  · exact absurd ho (howned (cond_of_waiting h))

theorem watched_owned (ho : c.owner ≠ none) : c.cond = .owned ∧ c.waiting = true := by
  obtain ⟨-, -, hport, hmgmt, -⟩ := hlaw
  have hcond : c.cond = .owned ∨ c.cond = .recovering := by
    cases hown : c.owner with
    | none => exact absurd hown ho
    | some x =>
      cases x with
      | port p => exact .inl (hport p hown)
      | mgmt => exact hmgmt hown
  obtain h | h | h := cond_of_watched hw
  · rw [h] at hcond
    obtain e | e := hcond <;> exact absurd e nofun
  · rw [h] at hcond
    obtain e | e := hcond <;> exact absurd e nofun
  · exact ⟨cond_of_waiting h, h⟩

/-- R114, R121: a segment on which another controller's START has been seen. -/
theorem foreignStart_eq (kind : ForeignKind) : foreignStart kind c = { c with
    cond := if c.owner = none then .foreign else .owned, foreignBusy := if c.owner = none then c.foreignBusy else true,
    newWatch := false, lines := foreignLines kind c.newWatch c.lines, quiet := none } := by
  unfold foreignStart foreignSeen
  by_cases ho : c.owner = none
  · obtain h | h := watched_unowned hw hlaw ho <;> simp [ho, h]
  · simp [ho, (watched_owned hw hlaw ho).1]

theorem quietRuns_foreignStart (kind : ForeignKind) : (foreignStart kind c).quietRuns = true := by
  have hmode := mode_of_watched hw
  rw [foreignStart_eq hw hlaw]
  unfold SegState.quietRuns SegState.watched
  by_cases ho : c.owner = none
  · simp [ho, hmode]
  · have hwaiting := (watched_owned hw hlaw ho).2
    unfold SegState.waiting at hwaiting ⊢
    rw [(watched_owned hw hlaw ho).1] at hwaiting
    simp only [ho, if_false, hmode]
    rw [hwaiting]
    simp

/-- R114: a segment on which another controller's transaction is over. -/
theorem foreignEnded_eq (hm : c.owner ≠ some .mgmt) (q : Params) (g : Seg) (lines : Lines) :
    (c.seen lines).foreignEnded q g = { c with
      cond := if c.owner = none then .idle else .owned, foreignBusy := false, newWatch := false, lines := lines,
      quiet := none } := by
  unfold SegState.foreignEnded SegState.seen
  rw [if_neg fun e => hm e.2]
  by_cases ho : c.owner = none
  · obtain h | h := watched_unowned hw hlaw ho <;> simp [ho, h]
  · simp [ho, (watched_owned hw hlaw ho).1]

end

theorem foreignOver_seen (g : Seg) (lines : Lines) (s : State) : foreignOver g (sampleLines g lines s)
    = s.updSeg g fun c => (c.seen lines).foreignEnded s.working.params g := foreignOver_updSeg g s (SegState.seen lines)

section
variable {s : State} {g : Seg} {k : SegState → SegState}

/-- R59, R98, R114: a change of one segment that leaves its owner and its waiters, of whom it serves none. -/
theorem finish_onlySeg (hset : Settled s) (hl : TimersLaw s) (howner : (k (s.seg g)).owner = (s.seg g).owner)
    (hwaiters : (k (s.seg g)).waiters = (s.seg g).waiters) (hstill : (k (s.seg g)).still) :
    ∃ t, finish (s.updSeg g k) = t
      ∧ t.seg g = { k (s.seg g) with quiet := quietAfter s.working.params.clockLimit (k (s.seg g)) }
      ∧ (∀ h, h ≠ g → t.seg h = s.seg h) ∧ t = { s with segs := t.segs } := by
  have howner' (p : Port) : ((k (s.seg g)).owner == some (.port p)) = ((s.seg g).owner == some (.port p)) := by rw [howner]
  obtain ⟨heq, hself, hother⟩ := retime_updSeg hl howner'
  exact ⟨_, finish_updSeg howner' hset (fun p => by rw [hwaiters]) fun hw => hstill.resolve_left hw, hself, hother,
    heq⟩

end

theorem exec_quietTimerExpiry_high {s : State} {g : Seg} {lines : Lines} (hrun : s.run = .running)
    (hq : (s.seg g).quiet.isSome = true) (h : lines.bothHigh = true) :
    exec (.quietTimerExpiry g lines) s = .next (finish (foreignOver g (sampleLines g lines s))) := by
  show Host.Outcome.next (whenRunning s _) = _
  rw [whenRunning_running hrun, if_pos hq, if_pos h]

theorem exec_quietTimerExpiry_low {s : State} {g : Seg} {lines : Lines} (hrun : s.run = .running)
    (hq : (s.seg g).quiet.isSome = true) (h : lines.bothHigh = false) :
    exec (.quietTimerExpiry g lines) s = .next (finish (quietLow g (sampleLines g lines s))) := by
  show Host.Outcome.next (whenRunning s _) = _
  rw [whenRunning_running hrun, if_pos hq, if_neg (by rw [h]; nofun)]

theorem owner_sampleLines (g : Seg) (lines : Lines) (s : State) : ((sampleLines g lines s).seg g).owner = (s.seg g).owner := by
  rw [sampleLines, State.seg_updSeg_self]

theorem note_updSeg (k : Kind) (a : Option PortPos) (b : Option SegPos) (n : Option Nat) (d : Half) (s : State) (g : Seg)
    (f : SegState → SegState) : note k a b n d (s.updSeg g f) = (note k a b n d s).updSeg g f := by
  rw [updSeg_eq_oneSeg s .u0, note_bus, State.updSeg_eq_bus (note k a b n d s) .u0, note_port]
  refine State.bus_congr _ _ rfl fun h => ?_
  rw [note_seg, note_seg]
  rfl

theorem quietLow_unowned {s : State} {g : Seg} (lines : Lines) (ho : (s.seg g).owner = none) :
    quietLow g (sampleLines g lines s)
      = (note .segTimeout none (some (.seg g)) none detailLinesLow s).updSeg g fun c =>
        (c.seen lines).recoveringFrom s.working.params g none := by
  unfold quietLow
  rw [owner_sampleLines, ho]
  dsimp only
  rw [sampleLines, note_updSeg, beginRecovery_eq, State.updSeg_updSeg]
  show (note _ _ _ _ _ s).updSeg g (fun c => (c.seen lines).recoveringFrom (note _ _ _ _ _ s).working.params g none) = _
  rw [note_working]

theorem quietLow_mgmt {s : State} {g : Seg} (lines : Lines) (ho : (s.seg g).owner = some .mgmt) :
    quietLow g (sampleLines g lines s)
      = s.updSeg g fun c => (c.seen lines).recoveringFrom s.working.params g (some .mgmt) := by
  unfold quietLow
  rw [owner_sampleLines, ho]
  dsimp only
  rw [sampleLines, beginRecovery_eq, State.updSeg_updSeg]
  rfl

theorem quietLow_port {s : State} {g : Seg} {p : Port} (lines : Lines) (ho : (s.seg g).owner = some (.port p)) :
    quietLow g (sampleLines g lines s) = linesLowAtStart p g (sampleLines g lines s) := by
  unfold quietLow
  rw [owner_sampleLines, ho]

namespace Laws

/-- Settles O44: another controller's START and STOP on a watched segment, and the quiet timer's end, by the segment's owner. -/
theorem foreignConditions : Obligations.ForeignConditions := by
  refine ⟨fun s g kind lines hrun hw hm hunc hl hlaw => ⟨fun c hc => ?_, fun c hc => ?_, fun hlow hq ho => ?_⟩,
    fun s g lines hrun hw hset hl hlaw => ⟨fun p hlow hq hleg hmet => ?_, fun ho => ⟨fun kind c hc => ?_, fun c seen hc => ?_⟩⟩⟩
  · have hexec : exec c s = .next (retime (s.updSeg g (foreignStart kind))) :=
      hc.elim (fun e => e ▸ exec_foreignStart hrun hw) fun e => exec_foreignEdge hrun hw e
    have hstart := foreignStart_eq hw (hlaw g) kind
    obtain ⟨heq, hself, hother⟩ := retime_updSeg hl (g := g) (k := foreignStart kind) fun p => rfl
    refine ⟨_, hexec, hself.trans ?_, onlySeg_of heq hother⟩
    rw [quietAfter_stopped (c := foreignStart kind (s.seg g)) rfl, if_pos (quietRuns_foreignStart hw (hlaw g) kind), hstart]
    cases kind <;> rfl
  · have hexec : exec c s = .next (finish (foreignOver g (sampleLines g ⟨true, true⟩ s))) := by
      obtain rfl | ⟨rfl, hs⟩ | ⟨rfl, hq⟩ := hc
      · exact exec_foreignStop hrun hw
      · exact exec_stopEdge hrun hw hs
      · exact exec_quietTimerExpiry_high hrun hq rfl
    have hended := foreignEnded_eq hw (hlaw g) hm s.working.params g ⟨true, true⟩
    obtain ⟨t, ht, hself, hother, heq⟩ := finish_onlySeg (g := g)
      (k := fun c => (c.seen ⟨true, true⟩).foreignEnded s.working.params g) (settled_of_uncontended hunc) hl
      (by rw [hended]) (by rw [hended]) (.inl (by rw [hended]; exact hunc.1 g))
    rw [foreignOver_seen, ht] at hexec
    refine ⟨_, hexec, hself.trans ?_, onlySeg_of heq hother⟩
    rw [hended, quietAfter_of_not_runs]
    unfold SegState.quietRuns
    by_cases ho : (s.seg g).owner = none
    · rw [if_pos ho]
      exact Bool.and_false _
    · rw [if_neg ho]
      exact Bool.and_false _
  · have hexec := exec_quietTimerExpiry_low hrun hq hlow
    have hu := onlyNotices_note .segTimeout none (some (.seg g)) none detailLinesLow s
    have hset : Settled (note .segTimeout none (some (.seg g)) none detailLinesLow s) :=
      (settled_of_uncontended hunc).congr (by rw [hu]) (by rw [hu])
    obtain ⟨t, ht, hself, hother, heq⟩ := finish_onlySeg (g := g)
      (k := fun c => (c.seen lines).recoveringFrom s.working.params g none) hset (hu.timersLaw hl)
      (by rw [hu.seg, ho]; rfl) (by exact rfl) (.inl (by rw [hu.seg]; exact hunc.1 g))
    rw [quietLow_unowned lines ho, ht] at hexec
    rw [quietAfter_of_not_runs (quietRuns_recovering (by exact rfl))] at hself
    refine ⟨_, hexec, ?_⟩
    beta_reduce
    rw [hself]
    refine ⟨rfl, rfl, rfl, rfl, rfl, ?_, ?_, fun h hh => (hother h hh).trans (hu.seg h)⟩
    · rw [heq]
      exact recorded_note ..
    · rw [heq, hu]
  · have hstill : ((seized s g).seen lines).still := seized_still hset g
    obtain ⟨r, f, hfin, hans, hself⟩ := finish_aborted (c := (seized s g).seen lines)
      (onlyNotices_note .segTimeout (some (.port p)) (some (.seg g)) (s.seg g).legSlot detailLinesLow s) nofun rfl hstill
      hleg.2.1 hmet hset hl
    have hexec := exec_quietTimerExpiry_low hrun hq hlow
    rw [quietLow_port lines hleg.2.1, linesLow_eq, hleg.2.2, hfin] at hexec
    refine ⟨_, hexec, hans, ?_, recorded_bus_note .., onlyPortSegsNotices_bus_note ..⟩
    rw [State.bus_seg, hself, quietAfter_of_not_runs (quietRuns_recovering (by exact rfl))]
    rfl
  · have hexec : exec c s = .next (retime (s.updSeg g (foreignStart kind))) :=
      hc.elim (fun e => e ▸ exec_foreignStart hrun hw) fun e => exec_foreignEdge hrun hw e
    have hstart := foreignStart_eq hw (hlaw g) kind
    obtain ⟨heq, hself, hother⟩ := retime_updSeg hl (g := g) (k := foreignStart kind) fun p => rfl
    refine ⟨_, hexec, ?_⟩
    beta_reduce
    rw [hself, hstart, ho]
    exact ⟨rfl, rfl, rfl, onlySeg_of heq hother⟩
  · have hexec : exec c s = .next (finish (s.updSeg g fun c =>
        (c.seen seen).recoveringFrom s.working.params g (some .mgmt))) := by
      have hended (l : Lines) : s.updSeg g (fun c => (c.seen l).foreignEnded s.working.params g)
          = s.updSeg g fun c => (c.seen l).recoveringFrom s.working.params g (some .mgmt) :=
        State.updSeg_congr (if_pos ⟨(watched_owned hw (hlaw g) (by rw [ho]; nofun)).1, ho⟩)
      obtain ⟨rfl, rfl⟩ | ⟨rfl, hs, rfl⟩ | ⟨rfl, rfl, hq⟩ := hc
      · rw [exec_foreignStop hrun hw, foreignOver_seen, hended]
      · rw [exec_stopEdge hrun hw hs, foreignOver_seen, hended]
      · cases hlines : seen.bothHigh with
        | true => rw [exec_quietTimerExpiry_high hrun hq hlines, foreignOver_seen, hended]
        | false => rw [exec_quietTimerExpiry_low hrun hq hlines, quietLow_mgmt _ ho]
    have hstill : SegState.still ((SegState.seen seen (s.seg g)).recoveringFrom s.working.params g (some .mgmt)) := by
      by_cases hwaiters : (s.seg g).waiters = []
      · exact .inl hwaiters
      · refine .inr ⟨?_, rfl⟩
        show (SegCondition.recovering == .faulted || SegCondition.recovering == .disabled || (s.seg g).pendingDisable) = false
        rw [pendingDisable_of_not_refuses (hset.served hwaiters).1]
        rfl
    obtain ⟨t, ht, hself, hother, heq⟩ := finish_onlySeg (g := g)
      (k := fun c => (c.seen seen).recoveringFrom s.working.params g (some .mgmt)) hset hl ho.symm (by exact rfl) hstill
    rw [ht] at hexec
    rw [quietAfter_of_not_runs (quietRuns_recovering (by exact rfl))] at hself
    refine ⟨_, hexec, ?_⟩
    beta_reduce
    rw [hself]
    exact ⟨rfl, rfl, rfl, rfl, rfl, rfl, rfl, onlySeg_of heq hother⟩

end Laws

end Sys2Proof.Machine
end

section
/-!
PROOFS. O43: arbitration lost (R96, R109, R115, R116, R117).
-/
namespace Sys2Proof.Machine

/-! ### A retry (R116) -/

/-- R116: a leg that tries its address again. -/
def Leg.retried (l : Leg) : Leg := { l with retries := l.retries + 1, down := crc8Start }

/-- R116: the segment of a leg that waits for the foreign STOP. -/
def retriedSeg (c : SegState) : SegState :=
  { c with activity := some (.addressing .waitFresh), foreignBusy := true, clock := none }

theorem retryAddress_eq (p : Port) (g : Seg) (s : State) : retryAddress p g s
    = s.bus p ((s.port p).withLegs (mapLegs (fun h => h == g) Leg.retried (s.port p).legs))
      (oneSeg s g (retriedSeg (s.seg g))) := by
  unfold retryAddress
  rw [updSeg_eq_oneSeg s p, updLeg_bus]
  rfl

theorem retriesLeft_eq (l : Leg) : retriesLeft l = l.retryLimit.any fun n => decide (l.retries < n) := by
  unfold retriesLeft
  cases l.retryLimit <;> rfl

theorem exec_arbLoss_retried {s : State} {p : Port} {g : Seg} (h : LegAt s p g (.addressing .placed))
    (hmode : (s.seg g).mode = .shared) (hretry : (legOn s p g).any retriesLeft = true) :
    exec (.arbLoss g) s = .next (retime (retryAddress p g s)) := by
  have hlost : arbitrationLost p g (.addressing .placed) s = retime (retryAddress p g s) := by
    unfold arbitrationLost
    rw [if_pos rfl, if_pos hretry]
  show Host.Outcome.next (whenRunning s _) = _
  rw [whenRunning_running h.1, if_pos hmode, ownerPort_of_legAt h, h.2.2]
  dsimp only
  rw [if_pos (by exact rfl), hlost]

/-! ### The loss of a segment, and its next owner (R96, R117) -/

/-- R96, R117: a segment lost to another controller. -/
def lostSeg (s : State) (g : Seg) : SegState := (s.seg g).releasedBy (s.working.params.segs.get g) true

theorem cond_lostSeg {s : State} {g : Seg} (h : (s.seg g).pendingDisable = false) : (lostSeg s g).cond
    = if (s.working.params.segs.get g).mode = .shared then .foreign else .idle := by
  unfold lostSeg SegState.releasedBy
  dsimp only
  rw [h, if_neg nofun, Bool.true_and]
  exact if_congr beq_iff_eq rfl rfl

theorem lostSeg_serves {s : State} {g : Seg} (h : (s.seg g).pendingDisable = false) :
    (lostSeg s g).refuses = false ∧ (lostSeg s g).free = true := by
  have hcond : (lostSeg s g).cond = .idle ∨ (lostSeg s g).cond = .foreign := by
    rw [cond_lostSeg h]
    split
    · exact .inr rfl
    · exact .inl rfl
  exact ⟨refuses_eq_false rfl hcond, free_of rfl hcond⟩

section
variable {s u : State} {p : Port} {g : Seg} {act : Activity} {c : SegState} {others : List Claimant}
  (hu : OnlyNotices s u) (hcown : c.owner = none) (ho : (s.seg g).owner = some (.port p)) (hmet : AbortMet s p g act)
  (hset : Settled s) (hl : TimersLaw s) (hcw : c.waiters = (s.seg g).waiters) (hr : c.refuses = false) (hf : c.free = true)
include hu hcown ho hmet hset hl hcw hr hf

/-- R34, R96: the abort of a leg whose segment goes to its oldest waiter, a record. -/
theorem finish_aborted_granted {q : Port} (hq : q ≠ p) (hw : (s.seg g).waiters = .port q :: others)
    (hnot : .port q ∉ others) (hphase : (s.port q).phase = .awaitGrant) (hclaims : claimingSegs s q = [g]) :
    ∃ t, finish (tellAbort p g (some act) (u.bus p (s.port p) (oneSeg s g c))) = t ∧ AbortAnswered s t p g act
      ∧ t.seg g = { c.passedTo (s.working.params.segs.get g) q (slotOf s q) others with quiet := (t.seg g).quiet }
      ∧ t.port q = { (s.port q).lastGranted g with stall := (t.port q).stall } ∧ RecordsSegs u t := by
  have hc (q : Port) : c.owner ≠ some (.port q) := by rw [hcown]; nofun
  obtain ⟨r, f, heq, h⟩ := tellAbort_aborted (u := u) hmet (hc p)
  have hport : (u.bus p r f).port q = s.port q := (State.bus_port_ne _ _ _ hq).trans (hu.port q)
  have hself : (u.bus p r f).seg g = c := (State.bus_seg ..).trans h.self
  have hslot : slotOf (u.bus p r f) q = slotOf s q := by rw [slotOf, hport, slotOf]
  have hclaims' : claimingSegs (u.bus p r f) q = [g] := by
    unfold claimingSegs at hclaims ⊢
    rw [hport, hclaims]
  rw [heq, finish_granted (q := q) (others := others) (h.portsDone hc ho hset hu hcw) (fun k hk => h.still_other hset hk)
    (by rw [hself]; exact hr) (by rw [hself]; exact hf) (by rw [hself, hcw, hw]) hnot (by rw [hport]; exact hphase) hclaims',
    hport]
  refine ⟨_, rfl, h.answered _ (stallAfter ((u.bus p r f).bus q ((s.port q).lastGranted g)
    (grantedSeg (u.bus p r f) g q others)) p) ?_ fun k hk => ?_, ?_, ?_,
    ((RecordsSegs.bus ..).trans (.bus ..)).trans (.retime _)⟩
  · rw [port_retime, State.bus_port_ne _ _ _ hq.symm, State.bus_port_self]
  · rw [seg_retime, State.bus_seg, grantedSeg_other _ _ _ hk, State.bus_seg]
    exact h.timed hl k hk
  · rw [seg_retime, State.bus_seg, grantedSeg_self, hself, hslot, State.bus_working, hu.working]
  · rw [port_retime, State.bus_port_self]

/-- R34, R96, R179: the abort of a leg whose segment goes to its oldest waiter, MGMT. -/
theorem finish_aborted_mgmt (hw : (s.seg g).waiters = .mgmt :: others) (hnot : .mgmt ∉ others) :
    ∃ r f, finish (tellAbort p g (some act) (u.bus p (s.port p) (oneSeg s g c))) = u.bus p r f
      ∧ AbortAnswered s (u.bus p r f) p g act
      ∧ f g = { c.mgmtGranted s.working.params g others with quiet := (f g).quiet } := by
  have hc (q : Port) : c.owner ≠ some (.port q) := by rw [hcown]; nofun
  obtain ⟨r, f, heq, h⟩ := tellAbort_aborted (u := u) hmet (hc p)
  have hself : (u.bus p r f).seg g = c := (State.bus_seg ..).trans h.self
  have howner (k : Seg) (q : Port) (hq : q ≠ p) :
      ((if k = g then (f g).mgmtGranted u.working.params g others else f k).owner == some (.port q)) = owns s q k := by
    split
    next e =>
      rw [mgmtGranted_owner, e, owns, ho]
      exact (beq_false_of_ne fun e => hq (by cases e; rfl)).symm
    next => exact h.owns_other hc ho k q hq
  rw [heq, finish_granted_mgmt (others := others) (h.portsDone hc ho hset hu hcw) (fun k hk => h.still_other hset hk)
    (by rw [hself]; exact hr) (by rw [hself]; exact hf) (by rw [hself, hcw, hw]) hnot, State.updSeg_bus,
    State.bus_working, hu.retime_bus hl howner]
  refine ⟨_, _, rfl, h.answered _ _ (State.bus_port_self ..) fun k hk => ?_, ?_⟩
  · rw [State.bus_seg, if_neg hk]
    exact h.timed hl k hk
  · rw [if_pos rfl, h.self, hu.working]

end

theorem RecordsSegs.recorded {k : Kind} {a : Option PortPos} {b : Option SegPos} {n : Option Nat} {d : Half} {s t : State}
    (h : RecordsSegs (note k a b n d s) t) : Recorded k a b n d s t := by
  rw [show t = _ from h]
  exact recorded_note k a b n d s

/-- R31, R95, R109: the waiter that a released segment has passed to. -/
theorem granted_passedTo {s t : State} {q : Port} {g : Seg} {c : SegState} {others : List Claimant} {n : Option Nat}
    (hseg : t.seg g = { c.passedTo (s.working.params.segs.get g) q (slotOf s q) others with quiet := n })
    (hact : (t.port q).active g = true) : Granted s t q g := by
  unfold Granted
  rw [hseg, legActive_eq]
  exact ⟨rfl, rfl, rfl, rfl, rfl, rfl, hact⟩

theorem claims_of_claimingSegs {s : State} {q : Port} {gs : List Seg} (h : claimingSegs s q = gs) {g : Seg} (hg : g ∈ gs) :
    (s.port q).claims g = true := (mem_filter_list (s.port q).claims g).mp (by rw [← claimingSegs_eq, h]; exact hg)

theorem mgmtGranted_foreign {q : Params} {g : Seg} {others : List Claimant} {c : SegState} (hc : c.cond = .foreign)
    (hm : (q.segs.get g).mode = .shared) : c.mgmtGranted q g others = { c.mgmtWaiting q g with waiters := others } :=
  if_pos (by rw [hc, hm]; rfl)

theorem mgmtGranted_exclusive {q : Params} {g : Seg} {others : List Claimant} {c : SegState}
    (hm : (q.segs.get g).mode = .exclusive) :
    c.mgmtGranted q g others = { c.recoveringFrom q g (some .mgmt) with waiters := others } :=
  if_neg (by rw [hm, show (SegMode.exclusive == SegMode.shared) = false from rfl, Bool.and_false]; nofun)

theorem lossDetail_eq (a : Activity) : lossDetail a = if a = .addressing .placed then 0x0001#16 else 0x0002#16 := rfl

namespace Laws

/-- Settles O43: a loss in the address byte is retried; the final loss is an abort, and the segment goes to its oldest waiter. -/
theorem arbLoss : Obligations.ArbLoss := by
  refine ⟨fun s p g act retried hleg hmode hmet hact hset hl hretried => ?_, fun s p g act hleg hno => ?_⟩
  · have hretries : (legOn s p g).any (fun l => l.retryLimit.any fun n => decide (l.retries < n))
        = (legOn s p g).any retriesLeft := by
      congr 1
      funext l
      exact (retriesLeft_eq l).symm
    rw [hretries] at hretried
    have hhigh : act.leavesHigh = true := by
      obtain rfl | ⟨b, rfl, hb⟩ | rfl | rfl | ⟨check, rfl⟩ := hact
      · rfl
      · exact bne_iff_ne.mpr hb
      · rfl
      · rfl
      · rfl
    have hfinal (h : retried = false) := exec_arbLoss_final hleg hmode hhigh fun ha => by
      rw [hretried, ha] at h
      exact h
    have hserved (c : Claimant) (others : List Claimant) (hw : (s.seg g).waiters = c :: others) :=
      lostSeg_serves (pendingDisable_of_not_refuses (hset.served (g := g) (by rw [hw]; nofun)).1)
    refine ⟨fun h => ?_, fun h hw => ?_, fun others h => ⟨fun q hq hw hnot hphase hclaims => ?_, fun hw hnot => ?_⟩⟩
    · rw [h] at hretried
      obtain ⟨ha, hretry⟩ := Bool.and_eq_true_iff.mp hretried.symm
      obtain rfl := eq_of_beq ha
      have hexec := exec_arbLoss_retried hleg hmode hretry
      rw [retryAddress_eq, retime_legs_oneSeg hl (by exact rfl)] at hexec
      refine ⟨_, hexec, ?_⟩
      beta_reduce
      rw [State.bus_port_self, State.bus_seg, oneSeg_self]
      exact ⟨rfl, rfl, fun k hk => (State.bus_seg ..).trans (oneSeg_other _ _ hk), onlyPortSegs_bus ..⟩
    · obtain ⟨r, f, hfin, hans, hself⟩ := finish_aborted (c := lostSeg s g)
        (onlyNotices_note .arbLost (some (.port p)) (some (.seg g)) (s.seg g).legSlot (lossDetail act) s) nofun rfl (.inl hw)
        hleg.2.1 hmet hset hl
      have hexec := hfinal h
      rw [← lostSeg, hfin, lossDetail_eq] at hexec
      refine ⟨_, hexec, hans, ?_, recorded_bus_note .., onlyPortSegsNotices_bus_note ..⟩
      rw [State.bus_seg, hself]
      unfold lostSeg SegState.releasedBy
      simp only [Bool.true_and, beq_iff_eq]
    · obtain ⟨hr, hf⟩ := hserved _ _ hw
      have hpend := pendingDisable_of_not_refuses (hset.served (g := g) (by rw [hw]; nofun)).1
      obtain ⟨t, hfin, hans, hseg, hport, honly⟩ := finish_aborted_granted (c := lostSeg s g)
        (onlyNotices_note .arbLost (some (.port p)) (some (.seg g)) (s.seg g).legSlot (lossDetail act) s) rfl hleg.2.1 hmet hset
        hl rfl hr hf hq hw hnot hphase hclaims
      have hexec := hfinal h
      rw [← lostSeg, hfin] at hexec
      refine ⟨t, hexec, hans, granted_passedTo hseg (by
          rw [hport]
          exact active_granted_self (claims_of_claimingSegs hclaims (List.mem_singleton_self g))), by rw [hseg]; rfl, ?_, by rw [hport]; rfl,
        by rw [hport]; rfl, by rw [hport]; rfl, honly.recorded⟩
      rw [hseg]
      show ((lostSeg s g).cond == .foreign) = _
      rw [cond_lostSeg hpend]
      cases (s.working.params.segs.get g).mode <;> rfl
    · obtain ⟨hr, hf⟩ := hserved _ _ hw
      have hpend := pendingDisable_of_not_refuses (hset.served (g := g) (by rw [hw]; nofun)).1
      have hcond := cond_lostSeg hpend
      obtain ⟨r, f, hfin, hans, hself⟩ := finish_aborted_mgmt (c := lostSeg s g)
        (onlyNotices_note .arbLost (some (.port p)) (some (.seg g)) (s.seg g).legSlot (lossDetail act) s) rfl hleg.2.1 hmet hset
        hl rfl hr hf hw hnot
      have hexec := hfinal h
      rw [← lostSeg, hfin, lossDetail_eq] at hexec
      refine ⟨_, hexec, hans, ?_⟩
      rw [State.bus_seg, hself]
      cases hm : (s.working.params.segs.get g).mode with
      | shared =>
        rw [hm, if_pos rfl] at hcond
        rw [mgmtGranted_foreign hcond hm]
        exact ⟨rfl, rfl, rfl, hm, fun _ => ⟨rfl, rfl⟩, nofun, recorded_bus_note .., onlyPortSegsNotices_bus_note ..⟩
      | exclusive =>
        rw [mgmtGranted_exclusive hm]
        exact ⟨rfl, rfl, rfl, hm, nofun, fun _ => ⟨rfl, rfl⟩, recorded_bus_note .., onlyPortSegsNotices_bus_note ..⟩
  · have hsame : (if (s.seg g).mode = .shared then if act.leavesHigh then arbitrationLost p g act s else s else s) = s := by
      obtain hm | hlow : (s.seg g).mode = .exclusive ∨ act.leavesHigh = false := by
        obtain hm | ⟨b, rfl⟩ | rfl | rfl | rfl | rfl | rfl := hno
        · exact .inl hm
        all_goals exact .inr rfl
      · rw [hm]
        rfl
      · rw [hlow]
        exact ite_self _
    show Host.Outcome.next (whenRunning s _) = _
    rw [whenRunning_running hleg.1, ownerPort_of_legAt hleg, hleg.2.2]
    exact congrArg Host.Outcome.next hsame

end Laws

end Sys2Proof.Machine
end

section
/-!
PROOFS. O42: a waiter served as a recovery or a transaction ends (R31, R79, R96, R97, R119).
-/
namespace Sys2Proof.Machine

/-! ### One record and the segments, with the timers set -/

/-- R59, R114: what the timers leave of a change of one record and the segments. -/
theorem retimed_bus (u : State) (q : Port) (r : PortState) (f : Seg → SegState) :
    (∀ h, (retime (u.bus q r f)).seg h = { f h with quiet := quietAfter u.working.params.clockLimit (f h) })
      ∧ (∃ n, (retime (u.bus q r f)).port q = { r with stall := n }) ∧ RecordsSegs u (retime (u.bus q r f)) := by
  refine ⟨fun h => ?_, ⟨stallAfter (u.bus q r f) q, ?_⟩, (RecordsSegs.bus ..).trans (.retime _)⟩
  · rw [seg_retime, State.bus_seg, State.bus_working]
  · rw [port_retime, State.bus_port_self]

theorem RecordsSegs.keepsNotices {s t : State} (h : RecordsSegs s t) : KeepsNotices s t := by
  rw [show t = _ from h]
  exact ⟨rfl, rfl, rfl⟩

/-! ### A record that waits alone (R31) -/

theorem Recorded.recordsSegs {k : Kind} {a : Option PortPos} {b : Option SegPos} {n : Option Nat} {d : Half} {s u t : State}
    (h : Recorded k a b n d s u) (ht : RecordsSegs u t) : Recorded k a b n d s t := by
  rw [show t = _ from ht]
  exact h

section
variable {s u : State} {q : Port} {g : Seg} {others : List Claimant} (h : WaitsAlone s q g others)
include h

theorem WaitsAlone.othersDone : OthersDone s q := by
  obtain ⟨-, -, -, -, haw, hphases, -⟩ := h
  exact fun r hr => ⟨haw r, hphases r hr⟩

/-- R31: nothing is due for the ports while the one claim waits. -/
theorem WaitsAlone.portsDone (haw : ∀ r, (u.port r).addrWait = (s.port r).addrWait)
    (hphase : ∀ r, (u.port r).phase = (s.port r).phase) (hwait : .port q ∈ (u.seg g).waiters)
    (hclaims : claimingSegs u q ≠ []) : PortsDone u := by
  obtain ⟨-, -, -, -, haw', hphases, -⟩ := h
  intro r
  have hanswer := nextAnswer_of_none ((haw r).trans (haw' r))
  by_cases e : r = q
  · subst e
    exact ⟨hanswer, nextClaim_of_waits (waits_of_mem hwait), acquired_of_claiming hclaims⟩
  · have hne : (u.port r).phase ≠ .awaitGrant := by
      rw [hphase]
      exact hphases r e
    exact ⟨hanswer, nextClaim_of_phase hne, acquired_of_phase hne⟩

end

/-! ### A recovery that ends in success (R96, R97, R119) -/

theorem exec_recovered {s : State} {g : Seg} (hrun : s.run = .running) (hcond : (s.seg g).cond = .recovering)
    (hdue : disableDue g s = false) :
    exec (.recoveryAttemptEnd g ⟨true, true⟩) s = .next (finish (sequenceEnded .segRecovered
      (BitVec.ofNat 16 ((s.seg g).attempts + 1)) (SegState.recoveredBy (s.working.params.segs.get g).mode) .ok
      [segCode g, byteOf ((s.seg g).attempts + 1)] g s)) := by
  rw [exec_recoveryAttemptEnd hrun hcond, takeDueDisable_none hdue, attemptEnded_high rfl, recovered_eq]

theorem recoveredBy_serves {c : SegState} (hp : c.pendingDisable = false) (mode : SegMode) :
    (c.recoveredBy mode).cond = .idle ∧ (c.recoveredBy mode).refuses = false ∧ (c.recoveredBy mode).free = true := by
  have hcond : (c.recoveredBy mode).cond = .idle := if_neg (by rw [hp]; nofun)
  exact ⟨hcond, refuses_eq_false rfl (.inl hcond), free_of rfl (.inl hcond)⟩

/-- R180: the answer to the only SEGMENT-RESET handed off. -/
theorem resetAnswered_only {s t : State} {g : Seg} {r : Option SegReset} {status : Status} {payload : List Byte}
    (h : ResetAnswered s t g r status payload) (hall : s.segResets = r.toList) (hseg : ∀ x ∈ r, x.seg = g) :
    t.segResets = [] ∧ ∀ x ∈ s.segResets,
      (t.port x.port).responses = (s.port x.port).responses ++ [⟨status, x.tag, payload⟩] := by
  cases r with
  | none =>
    obtain ⟨-, hresets⟩ := h
    rw [hresets, hall]
    exact ⟨rfl, nofun⟩
  | some x =>
    obtain ⟨hports, hresets⟩ := h
    rw [hresets, hall]
    refine ⟨List.filter_eq_nil_iff.mpr fun y hy => ?_, fun y hy => ?_⟩
    · rw [List.mem_singleton.mp hy, hseg x rfl]
      simp
    · obtain rfl := List.mem_singleton.mp hy
      show (t.ports.get y.port).responses = _
      rw [hports, answered, PerPort.get_set_self]
      rfl

/-! ### The next claim of a record that a segment passes to (R31, R79, R93) -/

/-- R96: a segment that a record leaves at its closing STOP. -/
def State.leftBy (p : Port) (g : Seg) (s : State) : State := s.bus p ((s.port p).leftLeg g) (oneSeg s g (released s g))

/-- R96: the segments with one passed to the record that waited for it alone. -/
def passedSegs (s : State) (g : Seg) (q : Port) : Seg → SegState :=
  oneSeg s g ((released s g).passedTo (s.working.params.segs.get g) q (slotOf s q) [])

theorem passedSegs_self (s : State) (g : Seg) (q : Port) :
    passedSegs s g q g = (released s g).passedTo (s.working.params.segs.get g) q (slotOf s q) [] := oneSeg_self ..

theorem segs_granted (g : Seg) (r : PortState) : (r.granted g).legs.map (·.seg) = r.legs.map (·.seg) := by
  have hlegs : (r.granted g).legs = mapLegs (fun h => h == g) Leg.activated r.legs := rfl
  rw [hlegs, mapLegs, List.map_map]
  refine List.map_congr_left fun l _ => ?_
  simp only [Function.comp_apply]
  split <;> rfl

/-- R96: a segment passed to a record that gives it up at once is IDLE. -/
theorem cond_releasedBy_passed {s : State} {g : Seg} {q : SegParams} {p : Port} {n : Option Nat} {others : List Claimant}
    (h : (released s g).cond = .idle) : (((released s g).passedTo q p n others).releasedBy q
      ((released s g).passedTo q p n others).foreignBusy).cond = .idle := by
  have hforeign : ((released s g).passedTo q p n others).foreignBusy = false := by
    show ((released s g).cond == .foreign) = false
    rw [h]
    rfl
  rw [hforeign]
  rfl

/-- R31: the segments with, besides, the one next claimed changed. -/
def nextSegs (s : State) (g : Seg) (q : Port) (k : Seg) (c : SegState) (h : Seg) : SegState :=
  if h = k then c else passedSegs s g q h

theorem nextSegs_self (s : State) (g : Seg) (q : Port) (k : Seg) (c : SegState) : nextSegs s g q k c k = c := if_pos rfl

theorem nextSegs_passed (s : State) (g : Seg) (q : Port) {k h : Seg} (c : SegState) (hne : h ≠ k) :
    nextSegs s g q k c h = passedSegs s g q h := if_neg hne

theorem passedSegs_other (s : State) (q : Port) {g h : Seg} (hne : h ≠ g) : passedSegs s g q h = s.seg h :=
  oneSeg_other _ _ hne

section
variable {s : State} {p q : Port} {g k : Seg} (hqp : q ≠ p) (hpend : (s.seg g).pendingDisable = false)
  (halone : WaitsAlone s q g []) (hclaims : claimingSegs s q = [g, k])
include halone

theorem waiters_passedSegs (h : Seg) : (passedSegs s g q h).waiters = [] := by
  obtain ⟨-, -, -, hothers, -⟩ := halone
  by_cases e : h = g
  · rw [e, passedSegs_self]
    rfl
  · rw [passedSegs_other _ _ e, hothers h e]

theorem othersDone_leftBy : OthersDone (s.leftBy p g) q := fun r hr => by
  obtain ⟨haw, hphase⟩ := halone.othersDone r hr
  by_cases e : r = p
  · subst e
    rw [State.leftBy, State.bus_port_self]
    exact ⟨haw, hphase⟩
  · rw [State.leftBy, State.bus_port_ne _ _ _ e]
    exact ⟨haw, hphase⟩

include hqp hpend in
/-- R95, R96: the segment passes to the record that waits for it. -/
theorem finish_leftBy : finish (s.leftBy p g)
    = finish ((s.leftBy p g).bus q ((s.port q).granted g) (passedSegs s g q)) := by
  obtain ⟨-, hw, hnot, hothers, -⟩ := halone
  obtain ⟨-, hr, hf⟩ := released_pending hpend
  have hself : (s.leftBy p g).seg g = released s g := (State.bus_seg ..).trans (oneSeg_self ..)
  have hw' : ((s.leftBy p g).seg g).waiters = [.port q] := by rw [hself]; exact hw
  have hstill (h : Seg) (hh : h ≠ g) : ((s.leftBy p g).seg h).still := .inl (by
    rw [State.leftBy, State.bus_seg, oneSeg_other _ _ hh, hothers h hh])
  rw [finish_of_micro (micro_grant hw' (by rw [hself]; exact hr) (by rw [hself]; exact hf) hstill), grant_port_eq hw' hnot,
    State.leftBy, grantedSeg_bus _ _ _ _ _ hqp, State.bus_port_ne _ _ _ hqp]
  rfl

include hclaims

omit halone in
theorem ne_of_claims : k ≠ g := by
  have hnodup := Seg.nodup_list.filter (s.port q).claims
  rw [← claimingSegs_eq, hclaims] at hnodup
  rintro rfl
  exact (List.nodup_cons.mp hnodup).1 (List.mem_singleton_self _)

omit halone in
theorem filter_claims_passed : Seg.list.filter ((s.port q).granted g).claims = [k] := filter_claims_granted hclaims

omit halone in
theorem active_passed : ((s.port q).granted g).active g = true :=
  active_granted_self (claims_of_claimingSegs hclaims (List.mem_cons_self ..))

/-- R31: of the next segment the claim is placed. -/
theorem micro_passed (hown : owns s q k = false) :
    micro ((s.leftBy p g).bus q ((s.port q).granted g) (passedSegs s g q))
      = some (claim k (.port q) ((s.leftBy p g).bus q ((s.port q).granted g) (passedSegs s g q))) := by
  have hw := waiters_passedSegs halone
  obtain ⟨hphase, -, -, -, haw, -⟩ := id halone
  have hdone := othersDone_leftBy (p := p) halone
  refine micro_claim (fun h => .inl (by rw [State.bus_seg]; exact hw h)) (hdone.addrWait_bus (r := (s.port q).granted g) (haw q) _)
    (fun r hr => hdone.phase_bus _ _ hr)
    (nextClaim_bus (r := (s.port q).granted g) hphase hw (.inl ⟨g, active_passed hclaims⟩) (filter_claims_passed hclaims) ?_)
  rw [passedSegs_other _ _ (ne_of_claims hclaims)]
  exact fun e => absurd hown (by rw [owns, e]; simp)

/-- R31, R95: the next segment, free, is granted in its turn, and the acquisition ends. -/
theorem finish_passed_free (hr : (s.seg k).refuses = false) (hf : (s.seg k).free = true) :
    finish ((s.leftBy p g).bus q ((s.port q).granted g) (passedSegs s g q))
      = retime ((s.leftBy p g).bus q (((s.port q).granted g).lastGranted k)
        (nextSegs s g q k ((s.seg k).grantedTo (s.working.params.segs.get k) q (slotOf s q)))) := by
  have hw := waiters_passedSegs halone
  obtain ⟨hphase, -, -, -, haw, -⟩ := id halone
  have hdone := othersDone_leftBy (p := p) halone
  have hk : passedSegs s g q k = s.seg k := passedSegs_other _ _ (ne_of_claims hclaims)
  have hclaims' := filter_claims_passed hclaims
  have hw' (h : Seg) : (if h = k then (passedSegs s g q k).grantedTo (s.working.params.segs.get k) q (slotOf s q)
      else passedSegs s g q h).waiters = [] := by
    split
    · exact hw k
    · exact hw h
  have hmicro := micro_claim_free hdone (r := (s.port q).granted g) hphase (haw q) hw (.inl ⟨g, active_passed hclaims⟩) hclaims'
    (by rw [hk]; exact hr) (by rw [hk]; exact hf)
  have hlast := finish_acquired hdone (r := ((s.port q).granted g).granted k) (filter_claims_granted hclaims') hphase (haw q) hw'
  rw [finish_of_micro hmicro]
  refine hlast.trans ((finish_of_uncontended (hdone.uncontended_bus (r := ((s.port q).granted g).lastGranted k) (haw q)
    (by exact nofun) hw')).trans ?_)
  rw [hk]
  rfl

/-- R31, R93: the next segment, not free, is waited for. -/
theorem finish_passed_blocked (hown : owns s q k = false) (hr : (s.seg k).refuses = false) (hf : (s.seg k).free = false) :
    finish ((s.leftBy p g).bus q ((s.port q).granted g) (passedSegs s g q))
      = retime ((s.leftBy p g).bus q ((s.port q).granted g) (nextSegs s g q k ((s.seg k).awaitedBy q))) := by
  have hw := waiters_passedSegs halone
  obtain ⟨-, -, -, -, haw, -⟩ := id halone
  have hdone := othersDone_leftBy (p := p) halone
  have hk : passedSegs s g q k = s.seg k := passedSegs_other _ _ (ne_of_claims hclaims)
  have hjoin : claim k (.port q) ((s.leftBy p g).bus q ((s.port q).granted g) (passedSegs s g q))
      = (s.leftBy p g).bus q ((s.port q).granted g) (nextSegs s g q k ((s.seg k).awaitedBy q)) := by
    rw [claim_waiting _ (by rw [State.bus_seg, hk]; exact hr) (by rw [State.bus_seg, hk]; exact hf), joinWaiters,
      State.updSeg_bus, hw k, hk]
    rfl
  rw [finish_of_micro (micro_passed halone hclaims hown), hjoin]
  refine finish_of_settled (settled_waiting hdone (haw q) (fun h => ?_) (g := k) (by rw [nextSegs_self]; exact List.mem_singleton_self _)
    (by rw [filter_claims_passed hclaims]; nofun))
  unfold nextSegs
  split
  · exact .inr ⟨hr, hf⟩
  · exact .inl (hw h)

/-- R31, R33, R81: the next segment refuses, and every segment granted is given up. -/
theorem finish_passed_refused (hown : owns s q k = false) (hr : (s.seg k).refuses = true) :
    finish ((s.leftBy p g).bus q ((s.port q).granted g) (passedSegs s g q))
      = retime ((note .segRefused (some (.port q)) (some (.seg k)) ((s.port q).snapshot.map (·.slot)) 0#16 (s.leftBy p g)).bus q
        ((s.port q).granted g).addressGivenUp (segGivenUp s.working.params ((s.port q).granted g) (passedSegs s g q))) := by
  have hw := waiters_passedSegs halone
  obtain ⟨-, -, -, -, haw, -⟩ := id halone
  have hdone := othersDone_leftBy (p := p) halone
  have hk : passedSegs s g q k = s.seg k := passedSegs_other _ _ (ne_of_claims hclaims)
  have hclaim : claim k (.port q) ((s.leftBy p g).bus q ((s.port q).granted g) (passedSegs s g q))
      = (note .segRefused (some (.port q)) (some (.seg k)) ((s.port q).snapshot.map (·.slot)) 0#16 (s.leftBy p g)).bus q
        ((s.port q).granted g).addressGivenUp (segGivenUp s.working.params ((s.port q).granted g) (passedSegs s g q)) := by
    unfold claim
    rw [if_pos (by rw [State.bus_seg, hk]; exact hr)]
    show failAddress q k (unwait (.port q) k _) = _
    rw [unwait_of_empty (by rw [State.bus_seg]; exact hw k), failAddress_bus]
    rfl
  rw [finish_of_micro (micro_passed halone hclaims hown), hclaim]
  exact finish_of_uncontended (((onlyNotices_note ..).othersDone hdone).uncontended_bus
    (r := ((s.port q).granted g).addressGivenUp) (haw q) (by exact nofun) fun h => (waiters_segGivenUp ..).trans (hw h))

end

namespace Laws

/-- Settles O42: the release's grant, to a record or to MGMT; and, for a record, what its next claim then comes to. -/
theorem waitersGranted : Obligations.WaitersGranted := by
  refine ⟨fun s g q others hrun hcond hpend hatt hl hdue => ⟨fun halone hclaims hreset => ?_, fun hw ho hports => ?_⟩,
    fun s p q g k check hleg hqp hcond hpend hkw hl halone hclaims hown => ?_⟩
  · obtain ⟨hphase, hw, hnot, hothers, haw, hphases, hlegs⟩ := id halone
    have hexec := exec_recovered hrun hcond hdue
    have hseg := seg_sequenceEnded .segRecovered (BitVec.ofNat 16 ((s.seg g).attempts + 1))
      (SegState.recoveredBy (s.working.params.segs.get g).mode) .ok [segCode g, byteOf ((s.seg g).attempts + 1)] g s
    have hport := port_sequenceEnded .segRecovered (BitVec.ofNat 16 ((s.seg g).attempts + 1))
      (SegState.recoveredBy (s.working.params.segs.get g).mode) .ok [segCode g, byteOf ((s.seg g).attempts + 1)] g s
    have hrec := recorded_sequenceEnded .segRecovered (BitVec.ofNat 16 ((s.seg g).attempts + 1))
      (SegState.recoveredBy (s.working.params.segs.get g).mode) .ok [segCode g, byteOf ((s.seg g).attempts + 1)] g s
    have hbus := busOnly_sequenceEnded .segRecovered (BitVec.ofNat 16 ((s.seg g).attempts + 1))
      (SegState.recoveredBy (s.working.params.segs.get g).mode) .ok [segCode g, byteOf ((s.seg g).attempts + 1)] g s
    have hans {r : Option SegReset} := resetAnswered_sequenceEnded .segRecovered (BitVec.ofNat 16 ((s.seg g).attempts + 1))
      (SegState.recoveredBy (s.working.params.segs.get g).mode) .ok [segCode g, byteOf ((s.seg g).attempts + 1)] g s (r := r)
    generalize sequenceEnded _ _ _ _ _ _ _ = v at hexec hseg hport hrec hbus hans
    have hself : v.seg g = (s.seg g).recoveredBy (s.working.params.segs.get g).mode := (hseg g).trans (if_pos rfl)
    have hother (h : Seg) (hh : h ≠ g) : v.seg h = s.seg h := (hseg h).trans (if_neg hh)
    obtain ⟨hidle, hr, hf⟩ := recoveredBy_serves hpend (s.working.params.segs.get g).mode
    have hlegsv (r : Port) : (v.port r).legs = (s.port r).legs ∧ (v.port r).phase = (s.port r).phase
        ∧ (v.port r).addrWait = (s.port r).addrWait ∧ (v.port r).snapshot = (s.port r).snapshot
        ∧ (v.port r).sclHeld = (s.port r).sclHeld ∧ (v.port r).hold = (s.port r).hold := by
      obtain ⟨l, hl⟩ := hport r
      rw [hl]
      exact ⟨rfl, rfl, rfl, rfl, rfl, rfl⟩
    have hclaims' : claimingSegs v q = [g] := by
      unfold claimingSegs at hclaims ⊢
      rw [(hlegsv q).1, hclaims]
    have hdone : PortsDone v := halone.portsDone (fun r => (hlegsv r).2.2.1) (fun r => (hlegsv r).2.1)
      (by rw [hself]; show _ ∈ (s.seg g).waiters; rw [hw]; exact List.mem_cons_self ..) (by rw [hclaims']; nofun)
    rw [finish_granted (others := others) hdone (fun h hh => .inl (by rw [hother h hh]; exact hothers h hh))
      (by rw [hself]; exact hr) (by rw [hself]; exact hf) (by rw [hself]; exact hw) hnot
      (by rw [(hlegsv q).2.1]; exact hphase) hclaims'] at hexec
    have hresponses (r : Port) :
        ((retime (v.bus q ((v.port q).lastGranted g) (grantedSeg v g q others))).port r).responses = (v.port r).responses := by
      rw [port_retime]
      by_cases e : r = q
      · rw [e, State.bus_port_self]
        rfl
      · rw [State.bus_port_ne _ _ _ e]
    obtain ⟨hseg', ⟨n, hportq⟩, honly⟩ := retimed_bus v q ((v.port q).lastGranted g) (grantedSeg v g q others)
    generalize retime _ = t at hexec honly hseg' hportq hresponses
    obtain ⟨r, hans, hres, hrseg⟩ : ∃ r, ResetAnswered s v g r .ok [segCode g, byteOf ((s.seg g).attempts + 1)]
        ∧ s.segResets = r.toList ∧ ∀ x ∈ r, x.seg = g := by
      obtain ⟨ho, hnil⟩ | ⟨ho, p, tag, hone⟩ := hreset
      · exact ⟨none, hans (.inl ⟨ho, rfl⟩), hnil, nofun⟩
      · refine ⟨some ⟨g, p, tag⟩, hans (.inr ⟨ho, ?_⟩), hone, fun x hx => by cases hx; rfl⟩
        rw [hone]
        exact (List.find?_cons_of_pos (p := fun x : SegReset => x.seg == g) (beq_self_eq_true g)).symm
    obtain ⟨hnone, hanswered⟩ := resetAnswered_only hans hres hrseg
    have hslot : slotOf v q = slotOf s q := by rw [slotOf, (hlegsv q).2.2.2.1, slotOf]
    have hactive : ((v.port q).lastGranted g).active g = true :=
      active_granted_self (claims_of_claimingSegs hclaims' (List.mem_singleton_self g))
    have hself' : grantedSeg v g q others g
        = ((s.seg g).recoveredBy (s.working.params.segs.get g).mode).passedTo (s.working.params.segs.get g) q (slotOf s q)
          others := by
      rw [grantedSeg_self, hself, hslot, hbus.working]
    have hresets : t.segResets = v.segResets := by rw [show t = _ from honly]
    refine ⟨t, hexec, granted_passedTo ((hseg' g).trans (by rw [hself'])) (by rw [hportq]; exact hactive), by rw [hseg', hself']; rfl,
      by rw [hportq]; rfl, by rw [hportq]; exact (hlegsv q).2.2.2.2.1, by rw [hportq]; exact (hlegsv q).2.2.2.2.2,
      fun h hh => ?_, ?_, fun x hx => ?_, hrec.recordsSegs honly⟩
    · rw [hseg', grantedSeg_other _ _ _ hh, hother h hh]
      exact retimed_same (hl.2 h) rfl rfl
    · rw [hresets, hnone]
    · rw [hresponses]
      exact hanswered x hx
  · have hexec := exec_recovered hrun hcond hdue
    have hnote := onlyNotices_note .segRecovered none (some (.seg g)) none (BitVec.ofNat 16 ((s.seg g).attempts + 1)) s
    obtain ⟨hidle, hr, hf⟩ := recoveredBy_serves hpend (s.working.params.segs.get g).mode
    rw [sequenceEnded_unowned _ _ _ _ _ _ _ ho] at hexec
    have hrec := recorded_note .segRecovered none (some (.seg g)) none (BitVec.ofNat 16 ((s.seg g).attempts + 1)) s
    generalize note _ _ _ _ _ s = u at hexec hnote hrec
    have hself : (u.updSeg g (SegState.recoveredBy (s.working.params.segs.get g).mode)).seg g
        = (s.seg g).recoveredBy (s.working.params.segs.get g).mode := by rw [State.seg_updSeg_self, hnote.seg]
    have hdone : PortsDone (u.updSeg g (SegState.recoveredBy (s.working.params.segs.get g).mode)) := fun p => by
      obtain ⟨haw, hphase⟩ := hports p
      have hport : (u.updSeg g (SegState.recoveredBy (s.working.params.segs.get g).mode)).port p = s.port p := hnote.port p
      exact ⟨nextAnswer_of_none (by rw [hport]; exact haw), nextClaim_of_phase (by rw [hport]; exact hphase),
        acquired_of_phase (by rw [hport]; exact hphase)⟩
    rw [finish_granted_mgmt (others := []) hdone (fun h hh => .inl (by
        rw [State.seg_updSeg, if_neg hh, hnote.seg, hw, if_neg hh])) (by rw [hself]; exact hr) (by rw [hself]; exact hf)
      (by rw [hself]; exact (hw g).trans (if_pos rfl)) List.not_mem_nil, State.updSeg_updSeg] at hexec
    have hgranted : ((s.seg g).recoveredBy (s.working.params.segs.get g).mode).mgmtGranted u.working.params g []
        = { ((s.seg g).recoveredBy (s.working.params.segs.get g).mode).recoveringFrom u.working.params g (some .mgmt) with
            waiters := [] } := if_neg (by rw [hidle]; nofun)
    obtain ⟨honly, hseg, hother⟩ := retime_updSeg (s := u) (g := g)
      (k := fun c => (c.recoveredBy (s.working.params.segs.get g).mode).mgmtGranted u.working.params g []) (hnote.timersLaw hl)
      fun p => by rw [mgmtGranted_owner, hnote.seg, ho]; rfl
    rw [hnote.seg, hgranted] at hseg
    have hworking : (u.updSeg g (SegState.recoveredBy (s.working.params.segs.get g).mode)).working = u.working := rfl
    rw [hworking] at hexec
    generalize retime _ = t at hexec honly hseg hother
    refine ⟨t, hexec, by rw [hseg]; rfl, by rw [hseg]; rfl, by rw [hseg]; rfl, by rw [hseg], ?_, ?_,
      fun h hh => (hother h hh).trans (hnote.seg h), ?_⟩
    · rw [show t = _ from honly, show u = _ from hnote]
    · rw [show t = _ from honly, show u = _ from hnote]
    · rw [show t = _ from honly]
      exact hrec
  · obtain ⟨hphase, hw, -, hothers, haw, hphases, hlegs⟩ := id halone
    have hne : k ≠ g := ne_of_claims hclaims
    have hexec := exec_stopPlaced hleg
    rw [show s.bus p ((s.port p).leftLeg g) (oneSeg s g (released s g)) = s.leftBy p g from rfl,
      finish_leftBy hqp hpend halone] at hexec
    have hpassed {t : State} {f : Seg → SegState} (hf : f g = passedSegs s g q g) {n : Nat}
        (hseg : t.seg g = { f g with quiet := quietAfter n (f g) }) (hact : (t.port q).active g = true) : Granted s t q g :=
      granted_passedTo (hseg.trans (by rw [hf, passedSegs_self])) hact
    have hrest (c : SegState) {n : Nat} {h : Seg} (hg : h ≠ g) (hk : h ≠ k) :
        { nextSegs s g q k c h with quiet := quietAfter n (nextSegs s g q k c h) } = s.seg h := by
      rw [nextSegs_passed _ _ _ _ hk, passedSegs_other _ _ hg]
      exact retimed_same (hl.2 h) rfl rfl
    have hactive := active_passed hclaims
    cases hr : (s.seg k).refuses with
    | false =>
      cases hf : (s.seg k).free with
      | true =>
        rw [finish_passed_free halone hclaims hr hf] at hexec
        obtain ⟨hseg, ⟨n, hport⟩, honly⟩ := retimed_bus (s.leftBy p g) q (((s.port q).granted g).lastGranted k)
          (nextSegs s g q k ((s.seg k).grantedTo (s.working.params.segs.get k) q (slotOf s q)))
        generalize retime _ = t at hexec hseg hport honly
        refine ⟨t, hexec, fun _ _ => ⟨hpassed (nextSegs_passed _ _ _ _ hne.symm) (hseg g) ?_, ?_, by rw [hport]; rfl, fun h hg hk => ?_,
          honly.keepsNotices⟩, nofun, nofun⟩
        · rw [hport]
          exact (active_granted_other hne.symm).trans hactive
        · refine granted_passedTo (others := (s.seg k).waiters) ((hseg k).trans (by rw [nextSegs_self]; rfl)) ?_
          rw [hport]
          exact active_granted_self ((mem_filter_list _ k).mp (by
            rw [filter_claims_passed hclaims]
            exact List.mem_singleton_self k))
        · exact (hseg h).trans (hrest _ hg hk)
      | false =>
        rw [finish_passed_blocked halone hclaims hown hr hf] at hexec
        obtain ⟨hseg, ⟨n, hport⟩, honly⟩ := retimed_bus (s.leftBy p g) q ((s.port q).granted g)
          (nextSegs s g q k ((s.seg k).awaitedBy q))
        generalize retime _ = t at hexec hseg hport honly
        refine ⟨t, hexec, nofun, fun _ _ => ⟨hpassed (nextSegs_passed _ _ _ _ hne.symm) (hseg g) (by rw [hport]; exact hactive), ?_,
          by rw [hport]; exact hphase, by rw [hport]; rfl, by rw [hport]; rfl, fun h hg hk => (hseg h).trans (hrest _ hg hk),
          honly.keepsNotices⟩, nofun⟩
        rw [hseg, nextSegs_self]
        exact retimed_same (hl.2 k) rfl rfl
    | true =>
      rw [finish_passed_refused halone hclaims hown hr] at hexec
      have hrec := recorded_note .segRefused (some (.port q)) (some (.seg k)) ((s.port q).snapshot.map (·.slot)) 0#16 (s.leftBy p g)
      have hnote := onlyNotices_note .segRefused (some (.port q)) (some (.seg k)) ((s.port q).snapshot.map (·.slot)) 0#16
        (s.leftBy p g)
      generalize note _ _ _ _ _ _ = u at hexec hrec hnote
      obtain ⟨hseg, ⟨n, hport⟩, honly⟩ := retimed_bus u q ((s.port q).granted g).addressGivenUp
        (segGivenUp s.working.params ((s.port q).granted g) (passedSegs s g q))
      generalize retime _ = t at hexec hseg hport honly
      have howns (h : Seg) (hh : legActive s q h = true) : owns s q h = true := (hlegs h hh).1
      have hclosing (h : Seg) (c : Option Byte) (hh : legActive s q h = true) : (s.seg h).activity ≠ some (.closing c) :=
        (hlegs h hh).2.2 c
      obtain ⟨hidle, -⟩ := released_pending hpend
      have hpassedSeg : segGivenUp s.working.params ((s.port q).granted g) (passedSegs s g q) g
          = (passedSegs s g q g).releasedBy (s.working.params.segs.get g) (passedSegs s g q g).foreignBusy :=
        (segGivenUp_of_active hactive _ _).trans (closedBy_waitFresh (by rw [passedSegs_self]; rfl) _ _ _)
      have hinactive : ((s.port q).granted g).active k = false := by
        rw [active_granted_other hne]
        exact Bool.eq_false_iff.mpr fun e => absurd (howns k e) (by rw [hown]; nofun)
      refine ⟨t, hexec, nofun, nofun, fun _ => ⟨?_, ?_, ?_, ?_, ?_, fun h hh => ?_, hrec.recordsSegs honly⟩⟩
      · unfold ClaimRefused
        rw [hport]
        exact ⟨rfl, rfl, rfl, rfl, rfl, (segs_legsGivenUp _).trans (segs_granted g _), fun l => state_legsGivenUp⟩
      · rw [hseg, hpassedSeg]
        rfl
      · rw [hseg, hpassedSeg, passedSegs_self]
        rfl
      · rw [hseg, hpassedSeg, passedSegs_self]
        exact cond_releasedBy_passed hidle
      · rw [hseg, segGivenUp_of_inactive hinactive, passedSegs_other _ _ hne]
        exact retimed_same (hl.2 k) rfl rfl
      · have hg : h ≠ g := (hlegs h hh).2.1
        refine legGivenUp_of howns hl hclosing hh (n := u.working.params.clockLimit) ?_
        rw [hseg, segGivenUp_of_active ((active_granted_other hg).trans hh), passedSegs_other _ _ hg]

end Laws

end Sys2Proof.Machine
end

section
/-!
PROOFS. O41: a segment that comes to refuse while a claimant waits for it (R98, R99, R180).
-/
namespace Sys2Proof.Machine

/-! ### A segment that has come to refuse -/

/-- R98: a segment has come to refuse, and no record, owner or wait list has changed. -/
structure Refusing (s v : State) (g : Seg) : Prop where
  ports : v.ports = s.ports
  owns : ∀ p h, owns v p h = owns s p h
  waiters : ∀ h, (v.seg h).waiters = (s.seg h).waiters
  refuses : (v.seg g).refuses = true

namespace Refusing
variable {s v : State} {g : Seg} (h : Refusing s v g)
include h

theorem port (p : Port) : v.port p = s.port p := congrArg (PerPort.get · p) h.ports

theorem stallLaw (hl : StallLaw s) : StallLaw v := hl.of_owns h.ports h.owns

end Refusing

/-- R98: a segment that has refused its waiters. -/
def SegState.deserted (c : SegState) : SegState := { c with waiters := [] }

theorem unwait_only {c : Claimant} {g : Seg} {v : State} (hw : (v.seg g).waiters = [c]) :
    unwait c g v = v.updSeg g SegState.deserted := State.updSeg_congr (by
  rw [hw, List.filter_cons_of_neg (by simp)]
  rfl)

/-! ### A record refused (R31, R81, R98) -/

section
variable {s v : State} {q : Port} {g : Seg} (h : Refusing s v g) (halone : WaitsAlone s q g [])
include h halone

theorem Refusing.micro_port : micro v = some (failAddress q g (v.updSeg g SegState.deserted)) := by
  obtain ⟨-, hw, -, hothers, -⟩ := halone
  have hw' : (v.seg g).waiters = [.port q] := (h.waiters g).trans hw
  rw [micro_refuse hw' h.refuses fun k hk => .inl ((h.waiters k).trans (hothers k hk)), ← unwait_only hw']
  rfl

/-- R31, R81, R98: the record that waits is refused: its address phase ends, and nothing more is due. -/
theorem Refusing.finish_port : finish v
    = retime ((note .segRefused (some (.port q)) (some (.seg g)) (slotOf s q) 0#16 v).bus q (s.port q).addressGivenUp
      (segGivenUp v.working.params (s.port q) (oneSeg v g (v.seg g).deserted))) := by
  have hslot : (s.port q).snapshot.map (·.slot) = slotOf s q := rfl
  rw [finish_of_micro (h.micro_port halone), updSeg_eq_oneSeg v q, failAddress_bus, h.port, hslot]
  obtain ⟨-, -, -, hothers, haw, hphases, -⟩ := halone
  have hdone : OthersDone v q := fun r hr => by
    rw [h.port]
    exact ⟨haw r, hphases r hr⟩
  refine finish_of_uncontended (((onlyNotices_note ..).othersDone hdone).uncontended_bus (r := (s.port q).addressGivenUp) (haw q)
    (by exact nofun) fun k => (waiters_segGivenUp ..).trans ?_)
  by_cases e : k = g
  · rw [e, oneSeg_self]
    rfl
  · rw [oneSeg_other _ _ e, h.waiters, hothers k e]

/-- R36, R81, R98: what is left of the record, of the segment and of the notices. -/
theorem Refusing.refused_port : ∃ t, finish v = t ∧ ClaimRefused s t q ∧ (t.seg g).waiters = [] ∧ (t.seg g).refuses = true
    ∧ Recorded .segRefused (some (.port q)) (some (.seg g)) (slotOf s q) 0#16 v t
    ∧ ∀ k, k ≠ g → t.seg k = { segGivenUp v.working.params (s.port q) v.seg k with
        quiet := quietAfter v.working.params.clockLimit (segGivenUp v.working.params (s.port q) v.seg k) } := by
  have hrec := recorded_note .segRefused (some (.port q)) (some (.seg g)) (slotOf s q) 0#16 v
  have hnote := onlyNotices_note .segRefused (some (.port q)) (some (.seg g)) (slotOf s q) 0#16 v
  have hfin := h.finish_port halone
  generalize note _ _ _ _ _ _ = u at hfin hrec hnote
  obtain ⟨hseg, ⟨n, hport⟩, honly⟩ := retimed_bus u q (s.port q).addressGivenUp
    (segGivenUp v.working.params (s.port q) (oneSeg v g (v.seg g).deserted))
  obtain ⟨-, -, -, -, -, -, hlegs⟩ := halone
  have hinactive : (s.port q).active g = false := Bool.eq_false_iff.mpr fun e => (hlegs g e).2.1 rfl
  refine ⟨_, hfin, ?_, ?_, ?_, hrec.recordsSegs honly, fun k hk => ?_⟩
  · unfold ClaimRefused
    rw [hport]
    exact ⟨rfl, rfl, rfl, rfl, rfl, segs_legsGivenUp _, fun l => state_legsGivenUp⟩
  · rw [hseg, segGivenUp_of_inactive hinactive, oneSeg_self]
    rfl
  · rw [hseg, segGivenUp_of_inactive hinactive, oneSeg_self]
    exact h.refuses
  · have hsame : segGivenUp v.working.params (s.port q) (oneSeg v g (v.seg g).deserted) k
        = segGivenUp v.working.params (s.port q) v.seg k := by
      unfold segGivenUp
      rw [oneSeg_other _ _ hk]
    rw [hseg, hsame, hnote.working]

omit h in
/-- R36: the legs given up, where the other segments are as they were. -/
theorem WaitsAlone.legsGivenUp (hl : TimersLaw s) (hworking : v.working = s.working) (hsegs : ∀ k, k ≠ g → v.seg k = s.seg k)
    {t : State} (ht : ∀ k, k ≠ g → t.seg k = { segGivenUp v.working.params (s.port q) v.seg k with
      quiet := quietAfter v.working.params.clockLimit (segGivenUp v.working.params (s.port q) v.seg k) })
    {k : Seg} (hk : legActive s q k = true) : LegGivenUp s t k := by
  obtain ⟨-, -, -, -, -, -, hlegs⟩ := halone
  have hne := (hlegs k hk).2.1
  refine legGivenUp_of (fun k hk => (hlegs k hk).1) hl (fun k c hk => (hlegs k hk).2.2 c) hk
    (n := s.working.params.clockLimit) ?_
  rw [ht k hne, segGivenUp_of_active (r := s.port q) hk, hsegs k hne, hworking]

end

theorem Recorded.last {k : Kind} {a : Option PortPos} {b : Option SegPos} {n : Option Nat} {d : Half} {s t : State}
    (h : Recorded k a b n d s t) (hroom : s.notices.length < 32) :
    t.notices.getLast?.map Notice.told = some (k, a, b, n, d) := by
  rw [(h.1 hroom).1, List.getLast?_concat]
  rfl

/-! ### MGMT refused (R98, R180) -/

/-- R180: the answer to a SEGMENT-RESET whose claim is refused. -/
def mgmtRefusal (g : Seg) (c : SegState) : Status × List Byte :=
  if c.cond = .faulted then (.recoveryFailed, [segCode g, byteOf c.faults]) else (.segDisabled, [segCode g])

theorem refuseMgmt_eq (g : Seg) (s : State) :
    refuseMgmt g s = answerSegReset g (mgmtRefusal g (s.seg g)).1 (mgmtRefusal g (s.seg g)).2 s := by
  unfold refuseMgmt mgmtRefusal
  split <;> rfl

theorem mgmtRefusal_faulted {g : Seg} {c : SegState} (h : c.cond = .faulted) :
    mgmtRefusal g c = (.recoveryFailed, [segCode g, byteOf c.faults]) := if_pos h

theorem mgmtRefusal_other {g : Seg} {c : SegState} (h : c.cond ≠ .faulted) :
    mgmtRefusal g c = (.segDisabled, [segCode g]) := if_neg h

/-- R59: a response leaves the stall timers as they run. -/
theorem StallLaw.respond {s : State} (h : StallLaw s) (p : Port) (st : Status) (tag : Byte) (pl : List Byte) :
    StallLaw (respond p st tag pl s) := by
  intro q
  have hq := h q
  unfold stallRuns at hq ⊢
  unfold Machine.respond
  rw [State.port_updPort]
  split
  next e => subst e; exact hq
  next => exact hq

/-- R98, R180: the part as MGMT has been refused a segment, and its SEGMENT-RESET answered. -/
def mgmtRefused (r : Port) (tag : Byte) (g : Seg) (v : State) : State :=
  respond r (mgmtRefusal g (v.seg g)).1 tag (mgmtRefusal g (v.seg g)).2 { v.updSeg g SegState.deserted with segResets := [] }

theorem seg_mgmtRefused (r : Port) (tag : Byte) (g : Seg) (v : State) (k : Seg) :
    (mgmtRefused r tag g v).seg k = if k = g then (v.seg g).deserted else v.seg k := by
  refine (State.seg_updSeg v g k SegState.deserted).trans ?_
  split
  next e => subst e; rfl
  next => rfl

theorem port_mgmtRefused (r : Port) (tag : Byte) (g : Seg) (v : State) (q : Port) :
    ∃ l, (mgmtRefused r tag g v).port q = { v.port q with responses := l } := by
  unfold mgmtRefused respond
  rw [State.port_updPort]
  split
  next e => subst e; exact ⟨_, rfl⟩
  next => exact ⟨_, rfl⟩

section
variable {s v : State} {g : Seg} {r : Port} {tag : Byte} (h : Refusing s v g)
  (hw : ∀ k, (s.seg k).waiters = if k = g then [.mgmt] else [])
  (hports : ∀ q, (s.port q).addrWait = none ∧ (s.port q).phase ≠ .awaitGrant) (hl : StallLaw s)
  (hres : v.segResets = [⟨g, r, tag⟩])
include h hw hports hl hres

/-- R98, R180: MGMT refused has its SEGMENT-RESET answered, and nothing more is due. -/
theorem Refusing.refused_mgmt : ∃ segs, finish v
      = { respond r (mgmtRefusal g (v.seg g)).1 tag (mgmtRefusal g (v.seg g)).2 { v with segResets := [] } with segs := segs }
    ∧ segs.get g = { (v.seg g).deserted with quiet := quietAfter v.working.params.clockLimit (v.seg g).deserted } := by
  have hw' : (v.seg g).waiters = [.mgmt] := (h.waiters g).trans ((hw g).trans (if_pos rfl))
  have hother (k : Seg) (hk : k ≠ g) : (v.seg k).waiters = [] := (h.waiters k).trans ((hw k).trans (if_neg hk))
  have hmicro : micro v = some (mgmtRefused r tag g v) := by
    have hfind : (v.updSeg g SegState.deserted).segResets.find? (fun x => x.seg == g) = some ⟨g, r, tag⟩ := by
      show v.segResets.find? _ = _
      rw [hres]
      exact List.find?_cons_of_pos (p := fun x : SegReset => x.seg == g) (beq_self_eq_true g)
    have hnone : (v.updSeg g SegState.deserted).segResets.filter (fun x => !(x.seg == g)) = [] := by
      show v.segResets.filter _ = _
      rw [hres]
      exact List.filter_eq_nil_iff.mpr fun y hy => by rw [List.mem_singleton.mp hy]; simp
    rw [micro_refuse hw' h.refuses fun k hk => .inl (hother k hk)]
    show some (refuseMgmt g (unwait .mgmt g v)) = _
    rw [unwait_only hw', refuseMgmt_eq, answerSegReset_some _ _ hfind, hnone, State.seg_updSeg_self]
    rfl
  have hstall : StallLaw (mgmtRefused r tag g v) :=
    StallLaw.respond ((h.stallLaw hl).of_owns (t := { v.updSeg g SegState.deserted with segResets := [] }) rfl
      fun p k => owns_updSeg (k := SegState.deserted) (fun _ => rfl) p k) _ _ _ _
  have hunc : Uncontended (mgmtRefused r tag g v) := by
    refine ⟨fun k => ?_, fun q => ?_⟩
    · rw [seg_mgmtRefused]
      split
      next => rfl
      next hk => exact hother k hk
    · obtain ⟨l, hq⟩ := port_mgmtRefused r tag g v q
      rw [hq, h.port]
      exact hports q
  rw [finish_of_micro hmicro, finish_of_uncontended hunc, retime_of_stallLaw hstall]
  refine ⟨_, rfl, (seg_retime _ g).trans ?_⟩
  rw [seg_mgmtRefused, if_pos rfl]
  rfl

end

/-! ### The events that have a segment refuse (R8, R17, R99, R119) -/

/-- R119: what a third failed attempt with no owner leaves. -/
structure ThirdFailure (s v : State) (g : Seg) : Prop where
  refusing : Refusing s v g
  working : v.working = s.working
  segResets : v.segResets = s.segResets
  other : ∀ k, k ≠ g → v.seg k = s.seg k
  cond : (v.seg g).cond = .faulted
  faults : (v.seg g).faults = faultsAfter (s.seg g).faults
  room : s.notices.length ≤ 30 → v.notices.length < 32

theorem thirdFailure_attemptFailed {s : State} {g : Seg} (ho : (s.seg g).owner = none) (hatt : (s.seg g).attempts = 2)
    (seen : Lines) : ThirdFailure s (attemptFailed g (sampleLines g seen s)) g := by
  have hself : (sampleLines g seen s).seg g = { s.seg g with lines := seen } := State.seg_updSeg_self ..
  have hother (k : Seg) (hk : k ≠ g) : (sampleLines g seen s).seg k = s.seg k := (State.seg_updSeg ..).trans (if_neg hk)
  rw [attemptFailed_last (by rw [hself]; show ¬(s.seg g).attempts + 1 < 3; rw [hatt]; decide), faulted_eq,
    sequenceEnded_unowned _ _ _ _ _ _ _ (by rw [hself]; exact ho), hself]
  have hrec := recorded_note .segFaulted none (some (.seg g)) none (BitVec.ofNat 16 (faultsAfter (s.seg g).faults))
    (sampleLines g seen s)
  have hnote := onlyNotices_note .segFaulted none (some (.seg g)) none (BitVec.ofNat 16 (faultsAfter (s.seg g).faults))
    (sampleLines g seen s)
  generalize note _ _ _ _ _ _ = u at hrec hnote
  have hfault : (u.updSeg g (SegState.faultedBy (faultsAfter (s.seg g).faults))).seg g
      = SegState.faultedBy (faultsAfter (s.seg g).faults) { s.seg g with lines := seen } := by
    rw [State.seg_updSeg_self, hnote.seg, hself]
  have hrest (k : Seg) (hk : k ≠ g) : (u.updSeg g (SegState.faultedBy (faultsAfter (s.seg g).faults))).seg k = s.seg k := by
    rw [State.seg_updSeg, if_neg hk, hnote.seg, hother k hk]
  refine ⟨⟨?_, fun p k => ?_, fun k => ?_, ?_⟩, hnote.working, ?_, hrest, by rw [hfault]; rfl, by rw [hfault]; rfl, fun hroom => ?_⟩
  · show u.ports = _
    rw [show u = _ from hnote]
    rfl
  · by_cases hk : k = g
    · rw [hk, owns, hfault, owns, ho]
      rfl
    · rw [owns, hrest k hk, owns]
  · by_cases hk : k = g
    · rw [hk, hfault]
      rfl
    · rw [hrest k hk]
  · rw [hfault]
    rfl
  · show u.segResets = _
    rw [show u = _ from hnote]
    rfl
  · have hlt : s.notices.length < 32 := Nat.lt_of_le_of_lt hroom (by decide)
    show u.notices.length < 32
    rw [(hrec.1 hlt).1, List.length_append]
    exact Nat.succ_lt_succ (Nat.lt_of_le_of_lt hroom (by decide))

theorem exec_thirdFailure {s : State} {g : Seg} {c : Instr} {lines : Lines} (hrun : s.run = .running)
    (hcond : (s.seg g).cond = .recovering) (ho : (s.seg g).owner = none) (hatt : (s.seg g).attempts = 2)
    (hc : c = .clockLimitExpiry g ∨ c = .recoveryAttemptEnd g lines ∧ lines.bothHigh = false ∧ disableDue g s = false) :
    ∃ v, exec c s = .next (finish v) ∧ ThirdFailure s v g := by
  obtain rfl | ⟨rfl, hlow, hdue⟩ := hc
  · exact ⟨_, (exec_attemptEnd (lines := lines) hrun hcond (.inl ⟨rfl, rfl, rfl⟩)).2 rfl, thirdFailure_attemptFailed ho hatt _⟩
  · refine ⟨_, (exec_attemptEnd (failed := true) hrun hcond (.inr ⟨rfl, hdue, ?_, rfl⟩)).2 rfl, thirdFailure_attemptFailed ho hatt _⟩
    rw [hlow]
    rfl

theorem refuses_of_marked {c : SegState} (h : c.pendingDisable = true) : c.refuses = true := by
  unfold SegState.refuses
  rw [h, Bool.or_true]

/-- R99: SEGMENT-DISABLE marks a segment in use. -/
theorem refusing_takeOut {s u : State} {g : Seg} (hports : u.ports = s.ports) (hsegs : u.segs = s.segs)
    (hbusy : (s.seg g).cond = .owned ∨ (s.seg g).cond = .recovering) : Refusing s (u.updSeg g takeOut) g := by
  have hseg (k : Seg) : u.seg k = s.seg k := congrArg (PerSeg.get · k) hsegs
  refine ⟨hports, fun p k => ?_, fun k => ?_, ?_⟩
  · rw [owns_updSeg (fun _ => by rw [(takeOut_keeps _).1]), owns, hseg, owns]
  · rw [State.seg_updSeg]
    split
    next e => rw [e, (takeOut_keeps _).2, hseg]
    next => rw [hseg]
  · rw [State.seg_updSeg_self, hseg, takeOut_busy hbusy]
    exact refuses_of_marked rfl

/-- R8, R17, R99: a replacement whose image has a segment in use out of service marks it. -/
theorem refusing_replaceImage {s u : State} {g : Seg} {i : Image} (o : Origin) (hports : u.ports = s.ports)
    (hsegs : u.segs = s.segs) (hbusy : (s.seg g).cond = .owned ∨ (s.seg g).cond = .recovering)
    (hout : (i.params.segs.get g).service = .outOfService) : Refusing s (replaceImage i o u) g := by
  have hseg (k : Seg) : (replaceImage i o u).seg k = replaceSegment (i.params.segs.get k) (s.seg k) := by
    rw [replaceImage_seg]
    exact congrArg (fun x => replaceSegment _ (PerSeg.get x k)) hsegs
  refine ⟨hports, fun p k => ?_, fun k => ?_, ?_⟩
  · obtain ⟨howner, -⟩ := replaceSegment_keeps (i.params.segs.get k) (s.seg k)
    rw [owns, hseg, howner, owns]
  · obtain ⟨-, -, -, -, hwaiters, -⟩ := replaceSegment_keeps (i.params.segs.get k) (s.seg k)
    rw [hseg, hwaiters]
  · rw [hseg, replaceSegment_busy _ hbusy, hout]
    exact refuses_of_marked rfl

/-! ### The answers -/

theorem ports_respond {s u : State} (h : u.ports = s.ports) (p : Port) (st : Status) (tag : Byte) (pl : List Byte)
    (rest : List QEntry) : (respond p st tag pl u).ports = (answered p st tag pl rest s).ports := by
  unfold respond State.updPort answered
  rw [h]

theorem ClaimRefused.answered {s u : State} {q : Port} (h : ClaimRefused s u q) (p : Port) (st : Status) (tag : Byte)
    (pl : List Byte) : ClaimRefused s (freeExecutor (respond p st tag pl u)) q := by
  unfold ClaimRefused at h ⊢
  have hport : ∃ l, (freeExecutor (respond p st tag pl u)).port q = { u.port q with responses := l } := by
    show ∃ l, (respond p st tag pl u).port q = _
    unfold respond
    rw [State.port_updPort]
    split
    next e => subst e; exact ⟨_, rfl⟩
    next => exact ⟨_, rfl⟩
  obtain ⟨l, hl⟩ := hport
  rw [hl]
  exact h

/-- What is left of a refusal, and of the answer that may follow it. -/
theorem Refusing.after_port {s v : State} {q : Port} {g : Seg} {sn : Snapshot} (h : Refusing s v g)
    (halone : WaitsAlone s q g []) (hsn : (s.port q).snapshot = some sn) (hl : TimersLaw s)
    (hroom : s.notices.length ≤ 30 → v.notices.length < 32) {f : State → State} (hseg : ∀ t k, (f t).seg k = t.seg k)
    (hnotices : ∀ t, (f t).notices = t.notices) (hrefused : ∀ t, ClaimRefused s t q → ClaimRefused s (f t) q) :
    ClaimRefused s (f (finish v)) q ∧ ((f (finish v)).seg g).waiters = [] ∧ ((f (finish v)).seg g).refuses = true
      ∧ (v.working = s.working → (∀ k, k ≠ g → v.seg k = s.seg k) →
        ∀ k, legActive s q k = true → LegGivenUp s (f (finish v)) k)
      ∧ (s.notices.length ≤ 30 → (f (finish v)).notices.getLast?.map Notice.told
        = some (.segRefused, some (.port q), some (.seg g), some sn.slot, 0#16)) := by
  obtain ⟨t, hfin, hclaim, hwaiters, hrefuses, hrec, hrest⟩ := h.refused_port halone
  rw [hfin, hseg, hnotices]
  refine ⟨hrefused t hclaim, hwaiters, hrefuses, fun hworking hsegs k hk => ?_, fun hr => ?_⟩
  · exact halone.legsGivenUp hl hworking hsegs (fun k hk => (hseg t k).trans (hrest k hk)) hk
  · rw [hrec.last (hroom hr), slotOf, hsn]
    rfl

/-- R98, R134: a refusal before the response of the command that marked the segment. -/
theorem Refusing.after_answered {s v : State} {q : Port} {g : Seg} {sn : Snapshot} (h : Refusing s v g)
    (halone : WaitsAlone s q g []) (hsn : (s.port q).snapshot = some sn) (hl : TimersLaw s) (hnotices : v.notices = s.notices)
    (p : Port) (st : Status) (tag : Byte) (pl : List Byte) : ∃ t, freeExecutor (respond p st tag pl (finish v)) = t
      ∧ ClaimRefused s t q ∧ (t.seg g).waiters = [] ∧ (t.seg g).refuses = true
      ∧ (v.working = s.working → (∀ k, k ≠ g → v.seg k = s.seg k) → ∀ k, legActive s q k = true → LegGivenUp s t k)
      ∧ (s.notices.length ≤ 30 → t.notices.getLast?.map Notice.told
        = some (.segRefused, some (.port q), some (.seg g), some sn.slot, 0#16)) :=
  ⟨_, rfl, h.after_port (f := fun t => freeExecutor (respond p st tag pl t)) halone hsn hl
    (fun hr => by rw [hnotices]; exact Nat.lt_of_le_of_lt hr (by decide)) (fun _ _ => rfl) (fun _ => rfl)
    fun _ ht => ht.answered p st tag pl⟩

/-- R98, R180, R134: MGMT's answer before that of the command that marked the segment. -/
theorem Refusing.answered_mgmt {s v : State} {g : Seg} {r : Port} {tag : Byte} (h : Refusing s v g)
    (hw : ∀ k, (s.seg k).waiters = if k = g then [.mgmt] else [])
    (hports : ∀ q, (s.port q).addrWait = none ∧ (s.port q).phase ≠ .awaitGrant) (hl : StallLaw s)
    (hres : v.segResets = [⟨g, r, tag⟩]) (hcond : (v.seg g).cond ≠ .faulted) (hmark : (v.seg g).pendingDisable = true)
    (p : Port) (st : Status) (tag' : Byte) (pl : List Byte) : ∃ t, freeExecutor (respond p st tag' pl (finish v)) = t
      ∧ (t.seg g).pendingDisable = true ∧ (t.seg g).waiters = [] ∧ t.segResets = [] ∧ t.cmdQueue = v.cmdQueue
      ∧ t.working = v.working
      ∧ t.ports = (answered p st tag' pl [] (answered r .segDisabled tag [byteOf (segNumber g)] [] s)).ports := by
  obtain ⟨segs, hfin, hself⟩ := h.refused_mgmt hw hports hl hres
  rw [mgmtRefusal_other hcond] at hfin
  rw [hfin]
  refine ⟨_, rfl, ?_, ?_, rfl, rfl, rfl, ?_⟩
  · show (segs.get g).pendingDisable = _
    rw [hself]
    exact hmark
  · show (segs.get g).waiters = _
    rw [hself]
    rfl
  · exact ports_respond (ports_respond (by exact h.ports) ..) ..

namespace Laws

/-- Settles O41: the waiter refused at the event that has its segment refuse, a record or MGMT. -/
theorem waitersRefused : Obligations.WaitersRefused := by
  refine ⟨fun s g q sn hrun halone hsn hl hbusy hpend c p lines tag payload rest hc => ?_,
    fun s g p r tag tag' rest hrun hw hports hl hres hpend howner => ⟨fun hcond ho hatt hfaults c lines hc => ?_,
      fun hhead hbusy => ?_, fun c i payload answer hc hout hbusy => ?_⟩⟩
  · have hnotFaulted : (s.seg g).cond ≠ .faulted := by obtain h | h := hbusy <;> rw [h] <;> nofun
    obtain ⟨hc, hcond, ho, hatt⟩ | ⟨rfl, hhead⟩ | ⟨rfl, hhead, hsession⟩ | ⟨rfl, hsession, hidle, b, hhead, hvalid, hout⟩ := hc
    · obtain ⟨v, hexec, hv⟩ := exec_thirdFailure hrun hcond ho hatt hc
      obtain ⟨h1, h2, h3, h4, h5⟩ := hv.refusing.after_port halone hsn hl hv.room (f := id) (fun _ _ => rfl) (fun _ => rfl)
        fun _ h => h
      exact ⟨_, hexec, h1, h2, h3, fun _ _ => h4 hv.working hv.other, h5⟩
    · have hv := refusing_takeOut (s := s)
        (u := takeHead (.frame p .segmentDisable tag [byteOf (segNumber g)]) rest s) rfl rfl hbusy
      obtain ⟨t, ht, h1, h2, h3, h4, h5⟩ := hv.after_answered halone hsn hl rfl p .ok tag (segReport _ g)
      exact ⟨t, (exec_segmentDisable hhead hnotFaulted).trans (congrArg _ ht), h1, h2, h3,
        fun _ _ => h4 rfl fun k hk => (State.seg_updSeg ..).trans (if_neg hk), h5⟩
    · obtain ⟨e, he⟩ : ∃ e, s.session = some e := Option.ne_none_iff_exists'.mp fun e => by rw [e] at hsession; exact absurd hsession nofun
      rw [he, Option.any_some, Bool.and_eq_true, Bool.and_eq_true] at hsession
      obtain ⟨⟨howner, hvalid⟩, hout⟩ := hsession
      have hv := refusing_replaceImage (s := s) (u := committing (.frame p .commit tag payload) rest s) .edited rfl rfl hbusy
        (eq_of_beq hout)
      obtain ⟨t, ht, h1, h2, h3, -, h5⟩ := hv.after_answered halone hsn hl rfl p .ok tag []
      exact ⟨t, (exec_commit_valid hhead he (eq_of_beq howner) (Option.isNone_iff_eq_none.mp hvalid)).trans (congrArg _ ht),
        h1, h2, h3, fun h => absurd rfl h, h5⟩
    · have hv := refusing_replaceImage (s := s)
        (u := loading (.frame p .loadBank tag [bankCode b]) rest b ⟨true,
          some (s.store.banks.get b).header.generation.toNat, (s.store.records.get b).protected_⟩ s)
        (.bank b (s.store.banks.get b).header.generation.toNat) rfl rfl hbusy hout
      obtain ⟨t, ht, h1, h2, h3, -, h5⟩ := hv.after_answered halone hsn hl rfl p .ok tag
        (bankBytes b (s.store.banks.get b).header.generation.toNat)
      exact ⟨t, (exec_loadBank_valid hhead hsession hidle hvalid).trans (congrArg _ ht), h1, h2, h3,
        fun _ h => absurd rfl h, h5⟩
  · obtain ⟨v, hexec, hv⟩ := exec_thirdFailure hrun hcond ho hatt hc
    obtain ⟨segs, hfin, hself⟩ := hv.refusing.refused_mgmt hw hports hl.1 (hv.segResets.trans hres)
    rw [mgmtRefusal_faulted hv.cond, hv.faults] at hfin
    refine ⟨_, hexec, ?_⟩
    rw [hfin]
    refine ⟨?_, ?_, rfl, ?_⟩
    · show (segs.get g).cond = _
      rw [hself]
      exact hv.cond
    · show (segs.get g).waiters = _
      rw [hself]
      rfl
    · have hfaultsAfter : faultsAfter (s.seg g).faults = (s.seg g).faults + 1 := if_pos hfaults
      rw [← hfaultsAfter]
      exact ports_respond hv.refusing.ports ..
  · have hnotFaulted : (s.seg g).cond ≠ .faulted := by obtain h | h := hbusy <;> rw [h] <;> nofun
    have hv := refusing_takeOut (s := s)
      (u := takeHead (.frame p .segmentDisable tag' [byteOf (segNumber g)]) rest s) rfl rfl hbusy
    have hmarked : ((takeHead (.frame p .segmentDisable tag' [byteOf (segNumber g)]) rest s).updSeg g takeOut).seg g
        = { s.seg g with pendingDisable := true } := (State.seg_updSeg_self ..).trans (takeOut_busy hbusy)
    have hreport : segReport ((takeHead (.frame p .segmentDisable tag' [byteOf (segNumber g)]) rest s).updSeg g takeOut) g
        = [byteOf (segNumber g), condCode (s.seg g).cond, 0x01#8] := by
      unfold segReport
      rw [hmarked]
      rfl
    obtain ⟨t, ht, h1, h2, h3, h4, -, h6⟩ := hv.answered_mgmt hw hports hl.1 hres (by rw [hmarked]; exact hnotFaulted)
      (by rw [hmarked]) p .ok tag' [byteOf (segNumber g), condCode (s.seg g).cond, 0x01#8]
    rw [← hreport] at ht
    exact ⟨t, (exec_segmentDisable hhead hnotFaulted).trans (congrArg _ ht), h1, h2, h3, h4, h6⟩
  · have hnotFaulted : (s.seg g).cond ≠ .faulted := by obtain h | h := hbusy <;> rw [h] <;> nofun
    have hmarked {u : State} (o : Origin) (hsegs : u.segs = s.segs) :
        (replaceImage i o u).seg g = { s.seg g with pendingDisable := true } := by
      have hseg : u.seg g = s.seg g := congrArg (PerSeg.get · g) hsegs
      rw [replaceImage_seg, hseg, replaceSegment_busy _ hbusy, hout]
      rfl
    obtain ⟨rfl, hhead, hsession, rfl, hvalid⟩ | ⟨rfl, hsession, hidle, b, hhead, hvalid, rfl, rfl⟩ := hc
    · have hv := refusing_replaceImage (s := s) (u := committing (.frame p .commit tag' payload) rest s) .edited rfl rfl hbusy hout
      have hself := hmarked (u := committing (.frame p .commit tag' payload) rest s) .edited rfl
      obtain ⟨t, ht, h⟩ := hv.answered_mgmt hw hports hl.1 hres (by rw [hself]; exact hnotFaulted) (by rw [hself]) p .ok tag' []
      exact ⟨t, (exec_commit_valid hhead hsession rfl hvalid).trans (congrArg _ ht), h⟩
    · have hv := refusing_replaceImage (s := s)
        (u := loading (.frame p .loadBank tag' [bankCode b]) rest b ⟨true,
          some (s.store.banks.get b).header.generation.toNat, (s.store.records.get b).protected_⟩ s)
        (.bank b (s.store.banks.get b).header.generation.toNat) rfl rfl hbusy hout
      have hself := hmarked (u := loading (.frame p .loadBank tag' [bankCode b]) rest b ⟨true,
          some (s.store.banks.get b).header.generation.toNat, (s.store.records.get b).protected_⟩ s)
        (.bank b (s.store.banks.get b).header.generation.toNat) rfl
      obtain ⟨t, ht, h⟩ := hv.answered_mgmt hw hports hl.1 hres (by rw [hself]; exact hnotFaulted) (by rw [hself]) p .ok tag'
        (bankBytes b (s.store.banks.get b).header.generation.toNat)
      exact ⟨t, (exec_loadBank_valid hhead hsession hidle hvalid).trans (congrArg _ ht), h⟩

end Laws

end Sys2Proof.Machine
end

section
/-!
PROOFS. What `WaitLaw` asks of one record and of the segments (`Fits`), and the changes that keep it (R31, R93, R94).
-/
namespace Sys2Proof.Machine

/-! ### The law, port by port -/

/-- A record awaits its grants or its targets. -/
def PortState.awaits (r : PortState) : Prop := r.phase = .awaitGrant ∨ r.phase = .awaitTarget

/-- R22, R30, R59: the part of `AddressPhaseLaw` that is about one record. -/
def PortState.addressFits (r : PortState) : Prop :=
  (r.awaits → r.sclHeld = true ∧ r.stall = none ∧ r.addrWait = none ∧ r.inFlight = none ∧ r.readStage = .none)
    ∧ (r.phase = .address → r.inFlight = none ∧ r.readStage = .none ∧ (r.addrWait ≠ none → r.sclHeld = true))

/-- The part of `WaitLaw` that is about one port, but for R93's service of the wait lists. -/
structure Fits (p : Port) (r : PortState) (f : Seg → SegState) : Prop where
  waiting : ∀ g, .port p ∈ (f g).waiters → r.phase = .awaitGrant ∧ r.claims g = true
    ∧ (∀ h, r.claims h = true → segNumber g ≤ segNumber h)
    ∧ ∀ h, (f h).owner = some (.port p) → segNumber h < segNumber g
  claiming : r.phase = .awaitGrant → ∀ a, r.active a = true → ∀ g, r.claims g = true →
    ∀ h, (f h).owner = some (.port p) → segNumber h < segNumber g
  address : r.addressFits
  active : ∀ g, r.active g = true → (f g).owner = some (.port p) ∧ ∀ c, (f g).activity ≠ some (.closing c)
  addressed : ∀ g o, (f g).owner = some (.port p) → (f g).activity = some (.addressing o) → r.active g = true ∧ r.awaits

/-- Every port's part in `WaitLaw`. -/
def Fitting (s : State) : Prop := ∀ p, Fits p (s.port p) s.seg

theorem mem_claimingSegs_iff {s : State} {p : Port} {g : Seg} : g ∈ claimingSegs s p ↔ (s.port p).claims g = true :=
  mem_filter_list (s.port p).claims g

theorem mem_activeSegs_iff {s : State} {p : Port} {g : Seg} : g ∈ activeSegs s p ↔ (s.port p).active g = true :=
  mem_filter_list (s.port p).active g

theorem owns_iff {s : State} {p : Port} {g : Seg} : owns s p g = true ↔ (s.seg g).owner = some (.port p) := beq_iff_eq

theorem waitLaw_iff {s : State} : WaitLaw s ↔ WaitersServed s ∧ Fitting s := by
  constructor
  · rintro ⟨hserved, hwaits, hclaims, haddr, hlegs⟩
    refine ⟨hserved, fun p => ⟨fun g hg => ?_, fun hp a ha g hg h hh => ?_, haddr p, fun g hg => ?_, fun g o ho ha => ?_⟩⟩
    · obtain ⟨hp, hc, hlow, hown⟩ := hwaits p g hg
      exact ⟨hp, mem_claimingSegs_iff.mp hc, fun h hh => hlow h (mem_claimingSegs_iff.mpr hh),
        fun h hh => hown h (owns_iff.mpr hh)⟩
    · exact hclaims p hp (List.ne_nil_of_mem (mem_activeSegs_iff.mpr ha)) g (mem_claimingSegs_iff.mpr hg) h (owns_iff.mpr hh)
    · obtain ⟨ho, hc⟩ := (hlegs p g).1 hg
      exact ⟨owns_iff.mp ho, hc⟩
    · exact (hlegs p g).2 o (owns_iff.mpr ho) ha
  · rintro ⟨hserved, hfits⟩
    refine ⟨hserved, fun p g hg => ?_, fun p hp ha g hg h hh => ?_, fun p => (hfits p).address, fun p g =>
      ⟨fun hg => ?_, fun o ho ha => ?_⟩⟩
    · obtain ⟨hp, hc, hlow, hown⟩ := (hfits p).waiting g hg
      exact ⟨hp, mem_claimingSegs_iff.mpr hc, fun h hh => hlow h (mem_claimingSegs_iff.mp hh), fun h hh => hown h (owns_iff.mp hh)⟩
    · obtain ⟨a, ha⟩ := List.exists_mem_of_ne_nil _ ha
      exact (hfits p).claiming hp a (mem_activeSegs_iff.mp ha) g (mem_claimingSegs_iff.mp hg) h (owns_iff.mp hh)
    · obtain ⟨ho, hc⟩ := (hfits p).active g hg
      exact ⟨owns_iff.mpr ho, hc⟩
    · exact (hfits p).addressed g o (owns_iff.mp ho) ha

/-! ### What leaves a port's part as it is -/

/-- A record in which nothing changes that the law looks at. -/
structure AlikeRecord (r r' : PortState) : Prop where
  phase : r'.phase = r.phase
  active : ∀ g, r'.active g = r.active g
  claims : ∀ g, r'.claims g = r.claims g
  address : r.addressFits → r'.addressFits

/-- A segment in which nothing changes that the law looks at on behalf of one port: a leg's address goes on, and no STOP begins. -/
structure AlikeFor (p : Port) (c c' : SegState) : Prop where
  owner : c'.owner = some (.port p) ↔ c.owner = some (.port p)
  waiters : .port p ∈ c'.waiters ↔ .port p ∈ c.waiters
  closing : c.owner = some (.port p) → ∀ x, c'.activity = some (.closing x) → ∃ y, c.activity = some (.closing y)
  addressing : c.owner = some (.port p) → ∀ o, c'.activity = some (.addressing o) → ∃ o', c.activity = some (.addressing o')

namespace AlikeRecord
variable {r r' r'' : PortState}

theorem refl (r : PortState) : AlikeRecord r r := ⟨rfl, fun _ => rfl, fun _ => rfl, id⟩

theorem trans (h : AlikeRecord r r') (k : AlikeRecord r' r'') : AlikeRecord r r'' :=
  ⟨k.phase.trans h.phase, fun g => (k.active g).trans (h.active g), fun g => (k.claims g).trans (h.claims g),
    fun ha => k.address (h.address ha)⟩

/-- R59: with SCL held no stall timer starts. -/
theorem stall (r : PortState) (limit : Nat) (owning : Bool) :
    AlikeRecord r { r with stall := r.stallBy limit owning } := by
  refine ⟨rfl, fun _ => rfl, fun _ => rfl, fun h => ⟨fun ha => ?_, h.2⟩⟩
  obtain ⟨hscl, -, hrest⟩ := h.1 ha
  exact ⟨hscl, stallBy_held hscl, hrest⟩

theorem responses (r : PortState) (l : List Response) : AlikeRecord r { r with responses := l } :=
  ⟨rfl, fun _ => rfl, fun _ => rfl, id⟩

end AlikeRecord

namespace AlikeFor
variable {p : Port} {c c' c'' : SegState}

theorem refl (p : Port) (c : SegState) : AlikeFor p c c := ⟨.rfl, .rfl, fun _ x h => ⟨x, h⟩, fun _ o h => ⟨o, h⟩⟩

theorem trans (h : AlikeFor p c c') (k : AlikeFor p c' c'') : AlikeFor p c c'' := by
  refine ⟨k.owner.trans h.owner, k.waiters.trans h.waiters, fun ho x hx => ?_, fun ho x hx => ?_⟩
  · obtain ⟨y, hy⟩ := k.closing (h.owner.mpr ho) x hx
    exact h.closing ho y hy
  · obtain ⟨y, hy⟩ := k.addressing (h.owner.mpr ho) x hx
    exact h.addressing ho y hy

/-- A change of a segment that leaves its owner, its wait list and its activity. -/
theorem of_eq (ho : c'.owner = c.owner) (hw : c'.waiters = c.waiters) (ha : c'.activity = c.activity) : AlikeFor p c c' :=
  ⟨by rw [ho], by rw [hw], fun _ x h => ⟨x, ha ▸ h⟩, fun _ o h => ⟨o, ha ▸ h⟩⟩

/-- A change of a segment that the port neither owns nor comes to own. -/
theorem of_other (ho : c.owner ≠ some (.port p)) (ho' : c'.owner ≠ some (.port p))
    (hw : .port p ∈ c'.waiters ↔ .port p ∈ c.waiters) : AlikeFor p c c' :=
  ⟨iff_of_false ho' ho, hw, fun h => absurd h ho, fun h => absurd h ho⟩

/-- A leg that takes up an activity that is neither an address nor a STOP. -/
theorem of_activity (ho : c'.owner = c.owner) (hw : c'.waiters = c.waiters)
    (hc : ∀ x, c'.activity = some (.closing x) → ∃ y, c.activity = some (.closing y))
    (ha : ∀ o, c'.activity = some (.addressing o) → ∃ o', c.activity = some (.addressing o')) : AlikeFor p c c' :=
  ⟨by rw [ho], by rw [hw], fun _ => hc, fun _ => ha⟩

end AlikeFor

theorem Fits.congr {p : Port} {r r' : PortState} {f f' : Seg → SegState} (h : Fits p r f) (hr : AlikeRecord r r')
    (hf : ∀ g, AlikeFor p (f g) (f' g)) : Fits p r' f' := by
  refine ⟨fun g hg => ?_, fun hp a ha g hg k hk => ?_, hr.address h.address, fun g hg => ?_, fun g o ho ha => ?_⟩
  · obtain ⟨hp, hc, hlow, hown⟩ := h.waiting g ((hf g).waiters.mp hg)
    exact ⟨hr.phase.trans hp, (hr.claims g).trans hc, fun k hk => hlow k ((hr.claims k).symm.trans hk),
      fun k hk => hown k ((hf k).owner.mp hk)⟩
  · exact h.claiming (hr.phase.symm.trans hp) a ((hr.active a).symm.trans ha) g ((hr.claims g).symm.trans hg) k
      ((hf k).owner.mp hk)
  · obtain ⟨ho, hc⟩ := h.active g ((hr.active g).symm.trans hg)
    refine ⟨(hf g).owner.mpr ho, fun c e => ?_⟩
    obtain ⟨y, hy⟩ := (hf g).closing ho c e
    exact hc y hy
  · have ho' := (hf g).owner.mp ho
    obtain ⟨o', ho''⟩ := (hf g).addressing ho' o ha
    obtain ⟨hactive, hawaits⟩ := h.addressed g o' ho' ho''
    refine ⟨(hr.active g).trans hactive, ?_⟩
    unfold PortState.awaits at hawaits ⊢
    rw [hr.phase]
    exact hawaits

namespace Fitting
variable {s u : State} {p : Port} {r : PortState} {f : Seg → SegState}

/-- A change in which every port's part is as it was. -/
theorem congr {t : State} (h : Fitting s) (hport : ∀ q, AlikeRecord (s.port q) (t.port q))
    (hseg : ∀ q g, AlikeFor q (s.seg g) (t.seg g)) : Fitting t := fun q => (h q).congr (hport q) (hseg q)

/-- A change of one record and the segments, by the part of that record. -/
theorem bus (h : Fitting s) (hu : ∀ q, q ≠ p → u.port q = s.port q) (hown : Fits p r f)
    (hothers : ∀ q, q ≠ p → ∀ g, AlikeFor q (s.seg g) (f g)) : Fitting (u.bus p r f) := by
  intro q
  have hseg : (u.bus p r f).seg = f := funext fun g => State.bus_seg ..
  rw [hseg]
  by_cases e : q = p
  · subst e
    rw [State.bus_port_self]
    exact hown
  · rw [State.bus_port_ne _ _ _ e, hu q e]
    exact (h q).congr (.refl _) (hothers q e)

/-- A change of one segment. -/
theorem updSeg {g : Seg} {k : SegState → SegState} (h : Fitting s) (hk : ∀ q, AlikeFor q (s.seg g) (k (s.seg g))) :
    Fitting (s.updSeg g k) := by
  refine h.congr (fun q => .refl _) fun q x => ?_
  rw [State.seg_updSeg]
  split
  next e => subst e; exact hk q
  next => exact .refl ..

/-- A change of one record. -/
theorem updPort {k : PortState → PortState} (h : Fitting s) (hk : AlikeRecord (s.port p) (k (s.port p))) :
    Fitting (s.updPort p k) := by
  refine h.congr (fun q => ?_) fun q g => .refl ..
  rw [State.port_updPort]
  split
  next e => subst e; exact hk
  next => exact .refl _

theorem aside {t : State} (h : Fitting s) (ha : Aside s t) : Fitting t := by
  refine h.congr (fun q => ?_) fun q g => by rw [ha.seg]; exact .refl ..
  obtain ⟨l, hl⟩ := ha.2 q
  rw [hl]
  exact .responses ..

theorem retime (h : Fitting s) : Fitting (retime s) := by
  refine h.congr (fun q => ?_) fun q g => ?_
  · rw [port_retime_bus]
    exact .stall ..
  · rw [seg_retime]
    exact .of_eq rfl rfl rfl

end Fitting

theorem WaitersServed.retime {s : State} (h : WaitersServed s) : WaitersServed (retime s) := by
  intro g hg
  rw [seg_retime] at hg ⊢
  exact h g hg

theorem waitLaw_retime {s : State} (hs : WaitersServed s) (hf : Fitting s) : WaitLaw (retime s) :=
  waitLaw_iff.mpr ⟨hs.retime, hf.retime⟩

end Sys2Proof.Machine
end

section
/-!
PROOFS. What one event sets off keeps every port's part in `WaitLaw`, and comes to an end (R31, R39, R93 to R98).
-/
namespace Sys2Proof.Machine

/-! ### An address phase given up (R31, R36, R98) -/

theorem activity_closedBy (q : Params) (g : Seg) (x : Option Byte) (c : SegState) (o : Opening) :
    (c.closedBy q g x).activity ≠ some (.addressing o) := by
  unfold SegState.closedBy
  rcases h : c.activity with _ | ((_ | _ | _) | _ | _ | _ | _)
  case some.closing =>
    dsimp only
    rw [h]
    nofun
  all_goals nofun

theorem not_awaits_of {r : PortState} {phase : Phase} (h : r.phase = phase) (hg : phase ≠ .awaitGrant)
    (ht : phase ≠ .awaitTarget) : ¬r.awaits := by
  rintro (e | e)
  · exact hg (h.symm.trans e)
  · exact ht (h.symm.trans e)

theorem addressFits_of {r : PortState} {phase : Phase} (h : r.phase = phase) (hg : phase ≠ .awaitGrant)
    (ht : phase ≠ .awaitTarget) (ha : phase ≠ .address) : r.addressFits :=
  ⟨fun e => absurd e (not_awaits_of h hg ht), fun e => absurd (h.symm.trans e) ha⟩

section
variable {p : Port} {r : PortState} {f f₁ : Seg → SegState} (h : Fits p r f)
  (hf : ∀ g, (f₁ g).owner = (f g).owner ∧ (f₁ g).activity = (f g).activity)
include h hf

/-- R31, R36: a record whose address phase has been given up, its claim withdrawn. -/
theorem fits_addressGivenUp (hnot : ∀ g, .port p ∉ (f₁ g).waiters) (q : Params) :
    Fits p r.addressGivenUp (segGivenUp q r f₁) := by
  refine ⟨fun g hg => ?_, nofun, addressFits_of (phase := .drain) rfl nofun nofun nofun, fun g hg => ?_, fun g o ho ha => ?_⟩
  · rw [waiters_segGivenUp] at hg
    exact absurd hg (hnot g)
  · rw [active_addressGivenUp] at hg
    exact absurd hg nofun
  · by_cases hg : r.active g = true
    · rw [segGivenUp_of_active hg] at ha
      exact absurd ha (activity_closedBy _ _ _ _ _)
    · rw [segGivenUp_of_inactive (Bool.eq_false_iff.mpr hg)] at ho ha
      obtain ⟨howner, hactivity⟩ := hf g
      exact absurd (h.addressed g o (howner.symm.trans ho) (hactivity.symm.trans ha)).1 hg

/-- R33: of the other ports' segments nothing changes. -/
theorem alike_segGivenUp (q : Params) {x : Port} (hx : x ≠ p) (g : Seg)
    (hw : .port x ∈ (f₁ g).waiters ↔ .port x ∈ (f g).waiters) : AlikeFor x (f g) (segGivenUp q r f₁ g) := by
  obtain ⟨howner, hactivity⟩ := hf g
  by_cases hg : r.active g = true
  · obtain ⟨ho, -⟩ := h.active g hg
    rw [segGivenUp_of_active hg]
    refine .of_other (by rw [ho]; exact fun e => hx (by cases e; rfl)) ?_ (by rw [waiters_closedBy]; exact hw)
    exact ne_of_beq_false (owner_closedBy_ne (howner.trans ho) hx ..)
  · rw [segGivenUp_of_inactive (Bool.eq_false_iff.mpr hg)]
    exact ⟨by rw [howner], hw, fun _ y hy => ⟨y, hactivity ▸ hy⟩, fun _ o ho => ⟨o, hactivity ▸ ho⟩⟩

end

/-! ### A claim that a record may place, and its grant (R31, R94, R95) -/

/-- R31, R94: a claim that a record may place, or has placed: on its lowest CLAIMING leg's segment, above every one it owns. -/
structure ClaimFits (p : Port) (r : PortState) (f : Seg → SegState) (g : Seg) : Prop where
  phase : r.phase = .awaitGrant
  claims : r.claims g = true
  lowest : ∀ h, r.claims h = true → segNumber g ≤ segNumber h
  above : ∀ h, (f h).owner = some (.port p) → segNumber h < segNumber g

theorem Fits.claimFits {p : Port} {r : PortState} {f : Seg → SegState} (h : Fits p r f) {g : Seg}
    (hg : .port p ∈ (f g).waiters) : ClaimFits p r f g := by
  obtain ⟨hp, hc, hlow, hown⟩ := h.waiting g hg
  exact ⟨hp, hc, hlow, hown⟩

theorem segNumber_inj {g h : Seg} : segNumber g = segNumber h → g = h := by cases g <;> cases h <;> decide

/-- R31: a record waits for one segment at most. -/
theorem Fits.waiting_unique {p : Port} {r : PortState} {f : Seg → SegState} (h : Fits p r f) {g k : Seg}
    (hg : .port p ∈ (f g).waiters) (hk : .port p ∈ (f k).waiters) : k = g := by
  obtain ⟨-, hcg, hlg, -⟩ := h.waiting g hg
  obtain ⟨-, hck, hlk, -⟩ := h.waiting k hk
  exact segNumber_inj (Nat.le_antisymm (hlk g hcg) (hlg k hck))

section
variable {p : Port} {r : PortState} {f f' : Seg → SegState} {g : Seg} (h : Fits p r f) (hc : ClaimFits p r f g)
include h hc

/-- R31, R95: a record whose lowest claim has been granted. -/
theorem fits_granted (hself : (f' g).owner = some (.port p) ∧ (f' g).activity = some (.addressing .waitFresh))
    (hother : ∀ k, k ≠ g → (f' k).owner = (f k).owner ∧ (f' k).activity = (f k).activity)
    (hnot : ∀ k, .port p ∉ (f' k).waiters) : Fits p (r.granted g) f' := by
  have hactive : (r.granted g).active g = true := active_granted_self hc.claims
  refine ⟨fun k hk => absurd hk (hnot k), fun _ a _ k hk x hx => ?_, h.address, fun k hk => ?_, fun k o ho ha => ?_⟩
  · rw [claims_granted, Bool.and_eq_true, bne_iff_ne] at hk
    obtain ⟨hk, hne⟩ := hk
    have hlt : segNumber g < segNumber k := Nat.lt_of_le_of_ne (hc.lowest k hk) fun e => hne (segNumber_inj e.symm)
    by_cases e : x = g
    · rw [e]
      exact hlt
    · exact Nat.lt_trans (hc.above x ((hother x e).1.symm.trans hx)) hlt
  · by_cases e : k = g
    · rw [e, hself.2]
      exact ⟨hself.1, nofun⟩
    · rw [active_granted_other e] at hk
      rw [(hother k e).1, (hother k e).2]
      exact h.active k hk
  · by_cases e : k = g
    · rw [e]
      exact ⟨hactive, .inl hc.phase⟩
    · rw [(hother k e).1] at ho
      rw [(hother k e).2] at ha
      rw [active_granted_other e]
      exact h.addressed k o ho ha

/-- R93: a record whose claim has joined a wait list. -/
theorem fits_waiting (hsame : ∀ k, (f' k).owner = (f k).owner ∧ (f' k).activity = (f k).activity)
    (hnot : ∀ k, .port p ∈ (f' k).waiters → k = g) : Fits p r f' := by
  refine ⟨fun k hk => ?_, fun hp a ha k hk x hx => h.claiming hp a ha k hk x ((hsame x).1.symm.trans hx), h.address,
    fun k hk => ?_, fun k o ho ha => h.addressed k o ((hsame k).1.symm.trans ho) ((hsame k).2.symm.trans ha)⟩
  · obtain rfl := hnot k hk
    exact ⟨hc.phase, hc.claims, hc.lowest, fun x hx => hc.above x ((hsame x).1.symm.trans hx)⟩
  · rw [(hsame k).1, (hsame k).2]
    exact h.active k hk

end

/-! ### The steps that an event sets off -/

/-- A segment whose wait list a claimant has left. -/
def SegState.without (x : Claimant) (c : SegState) : SegState := { c with waiters := c.waiters.filter fun w => !(w == x) }

theorem mem_without {x y : Claimant} {c : SegState} : y ∈ (c.without x).waiters ↔ y ∈ c.waiters ∧ y ≠ x := by
  show y ∈ c.waiters.filter _ ↔ _
  rw [List.mem_filter, Bool.not_eq_true', beq_eq_false_iff_ne]

theorem unwait_eq (x : Claimant) (g : Seg) (s : State) (p : Port) :
    unwait x g s = s.bus p (s.port p) (oneSeg s g ((s.seg g).without x)) := updSeg_eq_oneSeg s p g (SegState.without x)

theorem oneSeg_keeps {s : State} {g : Seg} {c : SegState} (ho : c.owner = (s.seg g).owner) (ha : c.activity = (s.seg g).activity)
    (h : Seg) : (oneSeg s g c h).owner = (s.seg h).owner ∧ (oneSeg s g c h).activity = (s.seg h).activity := by
  by_cases e : h = g
  · rw [e, oneSeg_self]
    exact ⟨ho, ha⟩
  · rw [oneSeg_other _ _ e]
    exact ⟨rfl, rfl⟩

theorem mem_waiters_without {s : State} {g : Seg} {x y : Claimant} (hy : y ≠ x) (h : Seg) :
    y ∈ (oneSeg s g ((s.seg g).without x) h).waiters ↔ y ∈ (s.seg h).waiters := by
  by_cases e : h = g
  · rw [e, oneSeg_self, mem_without]
    exact and_iff_left hy
  · rw [oneSeg_other _ _ e]

theorem not_mem_waiters_without {s : State} {g : Seg} {x : Claimant} (h : ∀ k, x ∈ (s.seg k).waiters → k = g) (k : Seg) :
    x ∉ (oneSeg s g ((s.seg g).without x) k).waiters := by
  by_cases e : k = g
  · rw [e, oneSeg_self, mem_without]
    exact fun hx => hx.2 rfl
  · rw [oneSeg_other _ _ e]
    exact fun hx => e (h k hx)

theorem port_claimant_ne {p q : Port} (h : q ≠ p) : Claimant.port q ≠ .port p := fun e => h (by cases e; rfl)

theorem grant_port_bus (s : State) (g : Seg) (p : Port) : grant g (.port p) s = s.bus p ((s.port p).granted g)
    (oneSeg s g (((s.seg g).without (.port p)).grantedTo (s.working.params.segs.get g) p (slotOf s p))) := by
  show grantPort g p (unwait (.port p) g s) = _
  rw [unwait_eq, grantPort_bus]
  refine State.bus_congr _ _ rfl fun k => ?_
  rw [oneSeg_self]
  unfold oneSeg
  split <;> rfl

namespace Fitting
variable {s : State} {g : Seg} (h : Fitting s)
include h

theorem note (k : Kind) (a : Option PortPos) (b : Option SegPos) (n : Option Nat) (d : Half) : Fitting (note k a b n d s) := by
  have hnote := onlyNotices_note k a b n d s
  refine h.congr (fun q => ?_) fun q x => ?_
  · rw [hnote.port]
    exact .refl _
  · rw [hnote.seg]
    exact .refl ..

/-- R31, R98: a record refused the segment whose wait list alone it may stand in. -/
theorem refuse_port {p : Port} (hp : ∀ k, .port p ∈ (s.seg k).waiters → k = g) : Fitting (refuse g (.port p) s) := by
  have hkeeps := oneSeg_keeps (s := s) (g := g) (c := (s.seg g).without (.port p)) rfl rfl
  show Fitting (failAddress p g (unwait (.port p) g s))
  rw [unwait_eq, failAddress_bus]
  refine h.bus (fun q _ => (onlyNotices_note ..).port q) (fits_addressGivenUp (h p) hkeeps (not_mem_waiters_without hp) _)
    fun q hq k => alike_segGivenUp (h p) hkeeps _ hq k (mem_waiters_without (port_claimant_ne hq) k)

theorem unwait_mgmt : Fitting (unwait .mgmt g s) :=
  h.updSeg fun _ => ⟨.rfl, (mem_without (c := s.seg g)).trans (and_iff_left nofun), fun _ y hy => ⟨y, hy⟩,
    fun _ o ho => ⟨o, ho⟩⟩

theorem answerSegReset (status : Status) (payload : List Byte) : Fitting (answerSegReset g status payload s) := by
  refine h.congr (fun q => ?_) fun q x => ?_
  · obtain ⟨l, hl⟩ := port_answerSegReset g status payload s q
    rw [hl]
    exact .responses ..
  · rw [seg_answerSegReset]
    exact .refl ..

/-- R98, R180: MGMT refused. -/
theorem refuse_mgmt : Fitting (refuse g .mgmt s) := by
  show Fitting (refuseMgmt g (unwait .mgmt g s))
  rw [refuseMgmt_eq]
  exact h.unwait_mgmt.answerSegReset _ _

/-- R31, R95: a free segment granted to a record, whose claim it may be. -/
theorem grant_port {p : Port} (hf : (s.seg g).free = true) (hc : ClaimFits p (s.port p) s.seg g)
    (hp : ∀ k, .port p ∈ (s.seg k).waiters → k = g) : Fitting (grant g (.port p) s) := by
  have hnone := owner_of_free hf
  rw [grant_port_bus]
  refine h.bus (fun q _ => rfl) (fits_granted (h p) hc (by rw [oneSeg_self]; exact ⟨rfl, rfl⟩) (fun k hk => ?_) fun k hk => ?_)
    fun q hq k => ?_
  · rw [oneSeg_other _ _ hk]
    exact ⟨rfl, rfl⟩
  · by_cases e : k = g
    · rw [e, oneSeg_self] at hk
      exact (mem_without.mp hk).2 rfl
    · rw [oneSeg_other _ _ e] at hk
      exact e (hp k hk)
  · by_cases e : k = g
    · rw [e, oneSeg_self]
      refine .of_other (by rw [hnone]; nofun) (fun e => port_claimant_ne hq.symm (Option.some.inj e)) ?_
      exact (mem_without (c := s.seg g)).trans (and_iff_left (port_claimant_ne hq))
    · rw [oneSeg_other _ _ e]
      exact .refl ..

/-- R95, R179: a free segment granted to MGMT. -/
theorem grant_mgmt (hf : (s.seg g).free = true) : Fitting (grant g .mgmt s) := by
  have hnone : ((unwait .mgmt g s).seg g).owner = none := by
    show ((s.updSeg g (SegState.without .mgmt)).seg g).owner = _
    rw [State.seg_updSeg_self]
    exact owner_of_free hf
  have hown {k : SegState → SegState} (hk : ∀ c, (k c).owner = some .mgmt ∧ (k c).waiters = c.waiters) :
      Fitting ((unwait .mgmt g s).updSeg g k) := by
    refine h.unwait_mgmt.updSeg fun q => ?_
    obtain ⟨ho, hw⟩ := hk ((unwait .mgmt g s).seg g)
    exact .of_other (by rw [hnone]; nofun) (by rw [ho]; nofun) (by rw [hw])
  show Fitting (grantMgmt g (unwait .mgmt g s))
  unfold grantMgmt
  split
  · exact hown fun _ => ⟨rfl, rfl⟩
  · rw [beginRecovery_eq]
    exact hown fun _ => ⟨rfl, rfl⟩

/-- R93: a claim that joins a wait list. -/
theorem join_port {p : Port} (hc : ClaimFits p (s.port p) s.seg g) (hp : ∀ k, .port p ∉ (s.seg k).waiters) :
    Fitting (joinWaiters g (.port p) s) := by
  have hjoin : joinWaiters g (.port p) s
      = s.bus p (s.port p) (oneSeg s g { s.seg g with waiters := (s.seg g).waiters ++ [.port p] }) := updSeg_eq_oneSeg ..
  have hkeeps := oneSeg_keeps (s := s) (g := g) (c := { s.seg g with waiters := (s.seg g).waiters ++ [.port p] }) rfl rfl
  rw [hjoin]
  refine h.bus (fun q _ => rfl) (fits_waiting (h p) hc hkeeps fun k hk => ?_) fun q hq k => ?_
  · by_contra e
    rw [oneSeg_other _ _ e] at hk
    exact hp k hk
  · by_cases e : k = g
    · rw [e, oneSeg_self]
      refine ⟨.rfl, ?_, fun _ y hy => ⟨y, hy⟩, fun _ o ho => ⟨o, ho⟩⟩
      show Claimant.port q ∈ (s.seg g).waiters ++ [.port p] ↔ _
      rw [List.mem_append, List.mem_singleton]
      exact or_iff_left (port_claimant_ne hq)
    · rw [oneSeg_other _ _ e]
      exact .refl ..

theorem join_mgmt : Fitting (joinWaiters g .mgmt s) := by
  refine h.updSeg fun q => ⟨.rfl, ?_, fun _ y hy => ⟨y, hy⟩, fun _ o ho => ⟨o, ho⟩⟩
  show Claimant.port q ∈ (s.seg g).waiters ++ [.mgmt] ↔ _
  rw [List.mem_append, List.mem_singleton]
  exact or_iff_left nofun

/-- R31, R93: the next claim of a record that waits nowhere. -/
theorem claim_port {p : Port} (hc : ClaimFits p (s.port p) s.seg g) (hp : ∀ k, .port p ∉ (s.seg k).waiters) :
    Fitting (claim g (.port p) s) := by
  have hp' (k : Seg) (hk : .port p ∈ (s.seg k).waiters) : k = g := absurd hk (hp k)
  unfold claim
  split
  · exact h.refuse_port hp'
  · split
    next hf => exact h.grant_port hf hc hp'
    next => exact h.join_port hc hp

/-- R39: the answer of an address byte that waited. -/
theorem answer {p : Port} {w : AddrWait} (hw : (s.port p).addrWait = some w) (hown : ∀ g, (s.seg g).owner ≠ some (.port p)) :
    Fitting (answerAddress p w s) := by
  rw [answerAddress_eq]
  have hphase : ((s.port p).addressAnswered (creditFree s p) w).phase = .mgmtWrite
      ∨ ((s.port p).addressAnswered (creditFree s p) w).phase = .offBus
      ∨ ((s.port p).addressAnswered (creditFree s p) w).phase = .mgmtRead
      ∨ ((s.port p).addressAnswered (creditFree s p) w).phase = .drain := by
    cases w with
    | mgmtWrite b => cases creditFree s p <;> simp [PortState.addressAnswered]
    | mgmtRead _ | miss | denied _ | noOffset _ => simp [PortState.addressAnswered]
  refine h.bus (fun q _ => (onlyNotices_addressNoted ..).port q) ⟨fun g hg => ?_, fun hp => ?_, ?_, fun g hg => ?_,
    fun g o ho => absurd ho (hown g)⟩ fun q hq g => .refl ..
  · obtain ⟨hp, -⟩ := (h p).waiting g hg
    obtain ⟨-, -, hnone, -⟩ := (h p).address.1 (.inl hp)
    rw [hw] at hnone
    exact absurd hnone nofun
  · obtain e | e | e | e := hphase <;> exact absurd (e.symm.trans hp) nofun
  · obtain e | e | e | e := hphase <;> exact addressFits_of e nofun nofun nofun
  · rw [PortState.active_eq, legs_addressAnswered, ← PortState.active_eq] at hg
    exact (h p).active g hg

/-- R31: the end of an acquisition. -/
theorem acquired {p : Port} (hphase : (s.port p).phase = .awaitGrant) (hnone : ∀ g, (s.port p).claims g = false) :
    Fitting (s.updPort p fun r => { r with phase := .awaitTarget }) := by
  rw [State.updPort_eq_bus]
  refine h.bus (fun q _ => rfl) ⟨fun g hg => ?_, nofun, ⟨fun _ => (h p).address.1 (.inl hphase), nofun⟩, (h p).active,
    fun g o ho ha => ⟨((h p).addressed g o ho ha).1, .inr rfl⟩⟩ fun q hq g => .refl ..
  obtain ⟨-, hc, -⟩ := (h p).waiting g hg
  exact absurd (hc.symm.trans (hnone g)) nofun

end Fitting

/-- One step of what an event sets off, with what it finds. -/
inductive Micro (s : State) : State → Prop
  | refused {g : Seg} {c : Claimant} {cs : List Claimant} (hw : (s.seg g).waiters = c :: cs) : Micro s (refuse g c s)
  | granted {g : Seg} {c : Claimant} {cs : List Claimant} (hw : (s.seg g).waiters = c :: cs) (hf : (s.seg g).free = true) :
      Micro s (grant g c s)
  | answered {p : Port} {w : AddrWait} (hw : (s.port p).addrWait = some w) (hown : ∀ g, (s.seg g).owner ≠ some (.port p)) :
      Micro s (answerAddress p w s)
  | claimed {p : Port} {g : Seg} (h : nextClaim s p = some (p, g)) : Micro s (claim g (.port p) s)
  | acquired {p : Port} (hphase : (s.port p).phase = .awaitGrant) (hnone : claimingSegs s p = []) :
      Micro s (s.updPort p fun r => { r with phase := .awaitTarget })

theorem not_owner_of_isEmpty {s : State} {p : Port} (h : (ownedSegs s p).isEmpty = true) (g : Seg) :
    (s.seg g).owner ≠ some (.port p) := fun e =>
  absurd ((mem_filter_list (owns s p) g).mpr (owns_iff.mpr e)) (by
    show g ∉ ownedSegs s p
    rw [List.isEmpty_iff.mp h]
    exact List.not_mem_nil)

theorem nextRefusal_some {s : State} {x g : Seg} {c : Claimant} (h : nextRefusal s x = some (g, c)) :
    ∃ cs, (s.seg g).waiters = c :: cs := by
  unfold nextRefusal at h
  split at h
  · cases h
  next c' cs hw =>
    split at h
    · cases h
      exact ⟨cs, hw⟩
    · cases h

theorem nextGrant_some {s : State} {x g : Seg} {c : Claimant} (h : nextGrant s x = some (g, c)) :
    (∃ cs, (s.seg g).waiters = c :: cs) ∧ (s.seg g).free = true := by
  unfold nextGrant at h
  split at h
  · cases h
  next c' cs hw =>
    split at h
    next hf =>
      cases h
      exact ⟨⟨cs, hw⟩, hf⟩
    · cases h

theorem nextAnswer_some {s : State} {x p : Port} {w : AddrWait} (h : nextAnswer s x = some (p, w)) :
    (s.port p).addrWait = some w ∧ ∀ g, (s.seg g).owner ≠ some (.port p) := by
  unfold nextAnswer at h
  split at h
  · cases h
  next w' hw =>
    split at h
    next he =>
      cases h
      exact ⟨hw, not_owner_of_isEmpty he⟩
    · cases h

/-- R31, R94: the claim a record places next. -/
theorem nextClaim_some {s : State} {x p : Port} {g : Seg} (h : nextClaim s x = some (p, g)) :
    x = p ∧ (s.port p).phase = .awaitGrant ∧ waits s p = false
      ∧ ((activeSegs s p).isEmpty = false ∨ (ownedSegs s p).isEmpty = true) ∧ ∃ ks, claimingSegs s p = g :: ks := by
  unfold nextClaim at h
  split at h
  next hc =>
    obtain ⟨k, hk, hs⟩ := Option.bind_eq_some_iff.mp h
    split at hs
    · cases hs
    · cases hs
      rw [Bool.and_eq_true, Bool.and_eq_true, Bool.or_eq_true, Bool.not_eq_true', Bool.not_eq_true', beq_iff_eq] at hc
      obtain ⟨⟨hphase, hwaits⟩, hor⟩ := hc
      exact ⟨rfl, hphase, hwaits, hor, _, (List.head?_eq_some_iff.mp hk).choose_spec⟩
  · cases h

theorem micro_some {s t : State} (h : micro s = some t) : Micro s t := by
  unfold micro at h
  split at h
  next g c hr =>
    obtain ⟨x, -, hx⟩ := List.exists_of_findSome?_eq_some hr
    obtain ⟨cs, hw⟩ := nextRefusal_some hx
    cases h
    exact .refused hw
  split at h
  next g c hg =>
    obtain ⟨x, -, hx⟩ := List.exists_of_findSome?_eq_some hg
    obtain ⟨⟨cs, hw⟩, hf⟩ := nextGrant_some hx
    cases h
    exact .granted hw hf
  split at h
  next p w ha =>
    obtain ⟨x, -, hx⟩ := List.exists_of_findSome?_eq_some ha
    obtain ⟨hw, hown⟩ := nextAnswer_some hx
    cases h
    exact .answered hw hown
  split at h
  next p g hc =>
    obtain ⟨x, -, hx⟩ := List.exists_of_findSome?_eq_some hc
    obtain ⟨rfl, -⟩ := nextClaim_some hx
    cases h
    exact .claimed hx
  split at h
  next p hp =>
    have hacq := List.find?_some hp
    unfold Machine.acquired at hacq
    rw [Bool.and_eq_true, beq_iff_eq, List.isEmpty_iff] at hacq
    cases h
    exact .acquired hacq.1 hacq.2
  · cases h

theorem not_waiting {s : State} {p : Port} (h : waits s p = false) (g : Seg) : .port p ∉ (s.seg g).waiters := by
  unfold waits at h
  rw [List.any_eq_false] at h
  exact fun hw => h g (Seg.mem_list g) (List.contains_iff_mem.mpr hw)

/-- R31, R94: the claim a record places next is the lowest, above every segment it owns. -/
theorem Fits.nextClaim {s : State} {p : Port} {g : Seg} (h : Fits p (s.port p) s.seg) (hn : nextClaim s p = some (p, g)) :
    ClaimFits p (s.port p) s.seg g ∧ ∀ k, .port p ∉ (s.seg k).waiters := by
  obtain ⟨-, hphase, hwaits, hor, ks, hks⟩ := nextClaim_some hn
  rw [claimingSegs_eq] at hks
  have hg : (s.port p).claims g = true := (mem_filter_list _ g).mp (hks ▸ List.mem_cons_self ..)
  refine ⟨⟨hphase, hg, fun k hk => ?_, fun k hk => ?_⟩, not_waiting hwaits⟩
  · obtain rfl | hlt := segNumber_head hks hk
    · exact Nat.le_refl _
    · exact Nat.le_of_lt hlt
  · obtain hactive | howned := hor
    · obtain ⟨a, ha⟩ := List.exists_mem_of_ne_nil _ (List.isEmpty_eq_false_iff.mp hactive)
      exact h.claiming hphase a (mem_activeSegs_iff.mp ha) g hg k hk
    · exact absurd hk (not_owner_of_isEmpty howned k)

/-- R31, R93, R94: each step of what an event sets off keeps every port's part. -/
theorem Micro.fitting {s t : State} (hm : Micro s t) (h : Fitting s) : Fitting t := by
  have hwaiter {g : Seg} {c : Claimant} {cs : List Claimant} (hw : (s.seg g).waiters = c :: cs) : c ∈ (s.seg g).waiters :=
    hw ▸ List.mem_cons_self ..
  cases hm with
  | @refused g c cs hw =>
    cases c with
    | port p => exact h.refuse_port fun k hk => (h p).waiting_unique (hwaiter hw) hk
    | mgmt => exact h.refuse_mgmt
  | @granted g c cs hw hf =>
    cases c with
    | port p =>
      exact h.grant_port hf ((h p).claimFits (hwaiter hw)) fun k hk => (h p).waiting_unique (hwaiter hw) hk
    | mgmt => exact h.grant_mgmt hf
  | answered hw hown => exact h.answer hw hown
  | @claimed p g hn =>
    obtain ⟨hc, hnot⟩ := (h p).nextClaim hn
    exact h.claim_port hc hnot
  | @acquired p hphase hnone =>
    refine h.acquired hphase fun g => Bool.eq_false_iff.mpr fun hg => ?_
    exact absurd (mem_claimingSegs_iff.mpr hg) (by rw [hnone]; exact List.not_mem_nil)

end Sys2Proof.Machine
end

section
/-!
PROOFS. The end of an event: what it sets off keeps every port's part in `WaitLaw`, and leaves every waiter served (R31, R93 to R98).
-/
namespace Sys2Proof.Machine

theorem Fitting.settle : ∀ (n : Nat) {s : State}, Fitting s → Fitting (settle n s)
  | 0, _, h => h
  | n + 1, s, h => by
    cases hm : micro s with
    | none => rw [settle_of_none hm]; exact h
    | some t => rw [settle_step hm]; exact Fitting.settle n ((micro_some hm).fitting h)

/-- R93: with what it sets off, an event that leaves every port's part keeps the law. -/
theorem Fitting.finish {s : State} (h : Fitting s) : WaitLaw (finish s) := waitLaw_retime (waitersServed_settle s) (h.settle _)

theorem WaitLaw.fitting {s : State} (h : WaitLaw s) : Fitting s := by
  obtain ⟨-, hfits⟩ := waitLaw_iff.mp h
  exact hfits

theorem WaitLaw.served {s : State} (h : WaitLaw s) : WaitersServed s := by
  obtain ⟨hserved, -⟩ := waitLaw_iff.mp h
  exact hserved

end Sys2Proof.Machine
end

section
/-!
PROOFS. What the operations of a record in no address phase keep (R31, R33, R37, R93).
-/
namespace Sys2Proof.Machine

/-! ### What an operation upholds -/

/-- A record that neither awaits grants or targets nor is in ADDRESS: the laws of the address phase ask nothing of it. -/
def PortState.apart (r : PortState) : Prop := ¬r.awaits ∧ r.phase ≠ .address

theorem PortState.apart.of {r : PortState} {phase : Phase} (h : r.phase = phase) (hg : phase ≠ .awaitGrant)
    (ht : phase ≠ .awaitTarget) (ha : phase ≠ .address) : r.apart := ⟨not_awaits_of h hg ht, fun e => ha (h.symm.trans e)⟩

theorem PortState.apart.fits {r : PortState} (h : r.apart) : r.addressFits := by
  obtain ⟨hawaits, haddr⟩ := h
  exact ⟨fun e => absurd e hawaits, fun e => absurd e haddr⟩

/-- Every port's part in `WaitLaw`, and the service of the wait lists where the end of the event does not see to it. -/
def Upholds (served : Prop) (s : State) : Prop := (served → WaitersServed s) ∧ Fitting s

/-- What R93's service of a wait list looks at. -/
def SameClaims (c d : SegState) : Prop :=
  d.owner = c.owner ∧ d.waiters = c.waiters ∧ d.cond = c.cond ∧ d.pendingDisable = c.pendingDisable

theorem SameClaims.refl (c : SegState) : SameClaims c c := ⟨rfl, rfl, rfl, rfl⟩

theorem SameClaims.trans {c d e : SegState} (h : SameClaims c d) (k : SameClaims d e) : SameClaims c e := by
  obtain ⟨ho, hw, hc, hp⟩ := h
  obtain ⟨ho', hw', hc', hp'⟩ := k
  exact ⟨ho'.trans ho, hw'.trans hw, hc'.trans hc, hp'.trans hp⟩

theorem WaitersServed.congr {s t : State} (h : WaitersServed s) (hs : ∀ g, SameClaims (s.seg g) (t.seg g)) :
    WaitersServed t := by
  intro g hg
  obtain ⟨ho, hw, hc, hp⟩ := hs g
  unfold SegState.free SegState.refuses at hg
  rw [ho, hc, hp] at hg
  rw [hw]
  exact h g hg

/-! ### A record in no address phase -/

/-- A port that waits nowhere, whose ACTIVE legs are on segments it owns that are not CLOSING, and that has no leg ADDRESSING. -/
structure Calm (p : Port) (s : State) : Prop where
  waits : ∀ g, .port p ∉ (s.seg g).waiters
  active : ∀ g, (s.port p).active g = true → (s.seg g).owner = some (.port p) ∧ ∀ c, (s.seg g).activity ≠ some (.closing c)
  addressing : ∀ g o, (s.seg g).owner = some (.port p) → (s.seg g).activity ≠ some (.addressing o)

theorem Fits.calm {s : State} {p : Port} (h : Fits p (s.port p) s.seg) (hp : ¬(s.port p).awaits) : Calm p s :=
  ⟨fun g hg => hp (.inl (h.waiting g hg).1), h.active, fun g o ho ha => hp (h.addressed g o ho ha).2⟩

/-- R22, R30: with SCL released no address phase awaits anything. -/
theorem PortState.not_awaits_of_scl {r : PortState} (h : r.addressFits) (hscl : r.sclHeld = false) : ¬r.awaits := fun e => by
  obtain ⟨hheld, -⟩ := h.1 e
  exact absurd (hheld.symm.trans hscl) nofun

theorem Calm.fits {s : State} {p : Port} (h : Calm p s)
    (hg : (s.port p).phase = .awaitGrant → ∀ g, (s.port p).active g = false) (hr : (s.port p).addressFits) :
    Fits p (s.port p) s.seg :=
  ⟨fun g hw => absurd hw (h.waits g), fun e a ha => absurd (ha.symm.trans (hg e a)) nofun, hr, h.active,
    fun g o ho ha => absurd ha (h.addressing g o ho)⟩

/-- What is done for a record in no address phase: its legs stay out of any, and nothing the arbiter looks at changes. -/
structure Stays (p : Port) (s t : State) : Prop where
  calm : Calm p t
  others : ∀ q, q ≠ p → AlikeRecord (s.port q) (t.port q)
  claims : ∀ g, SameClaims (s.seg g) (t.seg g)
  activity : ∀ g, (s.seg g).owner ≠ some (.port p) → (t.seg g).activity = (s.seg g).activity

namespace Stays
variable {p : Port} {s t u : State} {w : Prop}

theorem refl (h : Calm p s) : Stays p s s := ⟨h, fun _ _ => .refl _, fun _ => .refl _, fun _ _ => rfl⟩

theorem owner (h : Stays p s t) (g : Seg) : (t.seg g).owner = (s.seg g).owner := by
  obtain ⟨ho, -⟩ := h.claims g
  exact ho

theorem trans (h : Stays p s t) (k : Stays p t u) : Stays p s u :=
  ⟨k.calm, fun q hq => (h.others q hq).trans (k.others q hq), fun g => (h.claims g).trans (k.claims g),
    fun g hg => (k.activity g ((h.owner g).trans_ne hg)).trans (h.activity g hg)⟩

/-- A change of the record that makes no leg ACTIVE. -/
theorem port {k : PortState → PortState} (h : Stays p s t)
    (hl : ∀ g, (k (t.port p)).active g = true → (t.port p).active g = true) : Stays p s (t.updPort p k) := by
  refine ⟨⟨h.calm.waits, fun g hg => h.calm.active g (hl g (by rwa [State.port_updPort_self] at hg)), h.calm.addressing⟩,
    fun q hq => ?_, h.claims, h.activity⟩
  rw [State.port_updPort, if_neg hq]
  exact h.others q hq

theorem fitting (h : Stays p s t) (hs : Fitting s) (hg : (t.port p).phase = .awaitGrant → ∀ g, (t.port p).active g = false)
    (hr : (t.port p).addressFits) : Fitting t := by
  intro q
  by_cases hq : q = p
  · subst hq
    exact h.calm.fits hg hr
  · refine (hs q).congr (h.others q hq) fun g => ?_
    obtain ⟨ho, hw, -⟩ := h.claims g
    refine ⟨by rw [ho], by rw [hw], fun e x hx => ?_, fun e o hx => ?_⟩
    all_goals rw [h.activity g (by rw [e]; exact fun e => hq (by cases e; rfl))] at hx; exact ⟨_, hx⟩

theorem upholds (h : Stays p s t) (hs : Upholds w s) (hg : (t.port p).phase ≠ .awaitGrant)
    (hr : (t.port p).addressFits) : Upholds w t := by
  obtain ⟨hserved, hfits⟩ := hs
  exact ⟨fun hw => (hserved hw).congr h.claims, h.fitting hfits (fun e => absurd e hg) hr⟩

theorem upholds_apart (h : Stays p s t) (hs : Upholds w s) (ha : (t.port p).apart) : Upholds w t :=
  h.upholds hs (fun e => ha.1 (.inl e)) ha.fits

end Stays

/-- What the operations of a record in no address phase do: it begins none. -/
structure Works (p : Port) (s t : State) : Prop extends Stays p s t where
  apart : (s.port p).apart → (t.port p).apart

namespace Works
variable {p : Port} {s t u : State}

theorem refl (h : Calm p s) : Works p s s := ⟨.refl h, id⟩

theorem andThen (h : Works p s t) (k : Calm p t → Works p t u) : Works p s u :=
  have k := k h.calm
  ⟨h.toStays.trans k.toStays, fun ha => k.apart (h.apart ha)⟩

theorem port {k : PortState → PortState} (h : Calm p s) (hl : ∀ g, (k (s.port p)).active g = true → (s.port p).active g = true)
    (ha : (s.port p).apart → (k (s.port p)).apart) : Works p s (s.updPort p k) :=
  ⟨(Stays.refl h).port hl, fun e => by rw [State.port_updPort_self]; exact ha e⟩

/-- A change of a segment it owns that leaves what the arbiter looks at. -/
theorem seg {g : Seg} {k : SegState → SegState} (h : Calm p s) (ho : (s.seg g).owner = some (.port p))
    (hs : SameClaims (s.seg g) (k (s.seg g))) (haddr : ∀ o, (k (s.seg g)).activity ≠ some (.addressing o))
    (hclose : (s.port p).active g = true → ∀ c, (k (s.seg g)).activity ≠ some (.closing c)) :
    Works p s (s.updSeg g k) := by
  have hclaims : ∀ x, SameClaims (s.seg x) ((s.updSeg g k).seg x) := by
    intro x
    rw [State.seg_updSeg]
    split
    next e => subst e; exact hs
    next => exact .refl _
  have hother {x : Seg} (hx : x ≠ g) : (s.updSeg g k).seg x = s.seg x := by rw [State.seg_updSeg, if_neg hx]
  refine ⟨⟨⟨fun x => ?_, fun x hx => ?_, fun x o hx => ?_⟩, fun _ _ => .refl _, hclaims, fun x hx => ?_⟩, id⟩
  all_goals obtain ⟨hxo, hxw, -⟩ := hclaims x
  · rw [hxw]
    exact h.waits x
  · obtain ⟨hown, hc⟩ := h.active x hx
    refine ⟨hxo.trans hown, ?_⟩
    by_cases e : x = g
    · subst e
      rw [State.seg_updSeg_self]
      exact hclose hx
    · rw [hother e]
      exact hc
  · by_cases e : x = g
    · subst e
      rw [State.seg_updSeg_self]
      exact haddr o
    · rw [hother e]
      exact h.addressing x o (hxo.symm.trans hx)
  · exact congrArg SegState.activity (hother fun e => hx (e ▸ ho))

/-- A change of a segment it owns that leaves its activity too. -/
theorem seg' {g : Seg} {k : SegState → SegState} (h : Calm p s) (ho : (s.seg g).owner = some (.port p))
    (hs : SameClaims (s.seg g) (k (s.seg g))) (ha : (k (s.seg g)).activity = (s.seg g).activity) : Works p s (s.updSeg g k) :=
  seg h ho hs (fun o => by rw [ha]; exact h.addressing g o ho) fun hg => by rw [ha]; exact (h.active g hg).2

theorem aside (h : Calm p s) (ha : Aside s t) : Works p s t := by
  have hrecord (q : Port) : AlikeRecord (s.port q) (t.port q) := by
    obtain ⟨l, hl⟩ := ha.2 q
    rw [hl]
    exact .responses ..
  refine ⟨⟨⟨fun g => ?_, fun g hg => ?_, fun g => ?_⟩, fun q _ => hrecord q, fun g => ?_, fun g _ => ?_⟩, fun e => ?_⟩
  · rw [ha.seg]
    exact h.waits g
  · rw [ha.seg]
    exact h.active g (((hrecord p).active g).symm.trans hg)
  · rw [ha.seg]
    exact h.addressing g
  · rw [ha.seg]
    exact .refl _
  · rw [ha.seg]
  · unfold PortState.apart PortState.awaits at *
    rwa [(hrecord p).phase]

/-- A fold over segments that the record owns. -/
theorem foldl {f : State → Seg → State}
    (hf : ∀ (t : State) (g : Seg), Calm p t → (t.seg g).owner = some (.port p) → Works p t (f t g)) :
    ∀ (l : List Seg) {s : State}, Calm p s → (∀ g ∈ l, (s.seg g).owner = some (.port p)) → Works p s (l.foldl f s)
  | [], _, h, _ => refl h
  | g :: l, _, h, ho =>
    have k := hf _ g h (ho g (List.mem_cons_self ..))
    k.andThen fun h => foldl hf l h fun x hx => (k.owner x).trans (ho x (List.mem_cons_of_mem _ hx))

/-- A fold over segments of the record's ACTIVE legs. -/
theorem foldActive {f : State → Seg → State} (h : Calm p s) {l : List Seg} (hl : ∀ g ∈ l, g ∈ activeSegs s p)
    (hf : ∀ (t : State) (g : Seg), Calm p t → (t.seg g).owner = some (.port p) → Works p t (f t g)) : Works p s (l.foldl f s) :=
  foldl hf l h fun g hg => (h.active g (mem_activeSegs_iff.mp (hl g hg))).1

end Works

/-! ### The operations -/

section
variable {p : Port} {s : State} (h : Calm p s)
include h

theorem works_notePort (k : Kind) (g : Option Seg) (n : Option Nat) (d : Half) : Works p s (notePort k p g n d s) := by
  have hnote : OnlyNotices s (notePort k p g n d s) := onlyNotices_note ..
  exact .aside h (.of_eq (by rw [hnote]) (by rw [hnote]))

theorem works_holdScl : Works p s (holdScl p s) := .port h (fun _ => id) id

theorem works_giveAck (a : Ack) : Works p s (giveAck p a s) := .port h (fun _ => id) id

theorem works_supply (b : Byte) : Works p s (supply p b s) := .port h (fun _ => id) id

theorem works_toDrain : Works p s (toDrain p s) := .port h (fun _ => id) fun _ => PortState.apart.of rfl nofun nofun nofun

theorem works_updLeg (g : Seg) {k : Leg → Leg} (hk : ∀ l, (k l).seg = l.seg ∧ ((k l).state = .active → l.state = .active)) :
    Works p s (updLeg p g k s) := by
  refine .port h (fun x hx => ?_) id
  rw [PortState.active, List.any_map] at hx
  obtain ⟨l, hl, hx⟩ := List.any_eq_true.mp hx
  refine List.any_eq_true.mpr ⟨l, hl, ?_⟩
  simp only [Function.comp_apply, Bool.and_eq_true, beq_iff_eq] at hx ⊢
  obtain ⟨hseg, hactive⟩ := hk l
  split at hx
  · exact ⟨hseg ▸ hx.1, hactive hx.2⟩
  · exact hx

section
variable {g : Seg} (ho : (s.seg g).owner = some (.port p))
include ho

theorem works_startClock : Works p s (startClock g s) := .seg' h ho (.refl _) rfl

/-- A leg takes up an activity other than ADDRESSING and CLOSING, and the clock-limit timer starts. -/
theorem works_clocked {a : Activity} (haddr : ∀ o, a ≠ .addressing o) (hclose : ∀ c, a ≠ .closing c) :
    Works p s (startClock g (s.updSeg g fun c => { c with activity := some a })) := by
  have k : Works p s (s.updSeg g fun c => { c with activity := some a }) :=
    .seg h ho (.refl _) (fun o e => haddr o (Option.some.inj e)) fun _ c e => hclose c (Option.some.inj e)
  exact k.andThen fun h => works_startClock h ((k.owner g).trans ho)

theorem works_pause : Works p s (pause g s) := .seg h ho (.refl _) nofun nofun

/-- R33: a record in no address phase closes a leg with a STOP. -/
theorem works_endLeg (check : Leg → Option Byte) : Works p s (endLeg p check g s) := by
  have hleg := works_updLeg h g (k := Leg.ended) fun _ => ⟨rfl, nofun⟩
  show Works p s (closeSegment g _ (updLeg p g Leg.ended s))
  refine hleg.andThen fun h' => ?_
  have ho' := (hleg.owner g).trans ho
  have hnot : ((updLeg p g Leg.ended s).port p).active g ≠ true := by
    rw [updLeg, State.port_updPort_self, PortState.active_eq]
    show activeIn (mapLegs (fun x => x == g) Leg.ended (s.port p).legs) g ≠ true
    rw [activeIn_ended, beq_self_eq_true, Bool.not_true, Bool.and_false]
    nofun
  rw [closeSegment_eq]
  generalize updLeg p g Leg.ended s = u at h' ho' hnot
  have hfresh : (u.seg g).activity ≠ some (.addressing .waitFresh) := h'.addressing g _ ho'
  by_cases hc : ∃ x, (u.seg g).activity = some (.closing x)
  · obtain ⟨x, hc⟩ := hc
    rw [State.updSeg_self (by unfold SegState.closedBy; rw [hc])]
    exact .refl h'
  · have hclosing := SegState.closedBy_eq_closing (q := u.working.params) (g := g) (check := (legOn s p g).bind check) hfresh
      fun x e => hc ⟨x, e⟩
    refine .seg h' ho' ?_ ?_ fun e => absurd e hnot
    · rw [hclosing]
      exact .refl _
    · rw [hclosing]
      nofun

end

theorem works_endActive (check : Leg → Option Byte) : Works p s (endActive p check s) :=
  .foldActive h (fun _ => id) fun _ _ h ho => works_endLeg h ho check

theorem works_endMarked : Works p s (endMarked p s) :=
  .foldActive h (fun _ hg => List.mem_of_mem_filter hg) fun _ _ h ho => works_endLeg h ho noCheck

theorem works_dropSnapshot : Works p s (dropSnapshot p s) := by
  have hfold : Works p s ((ownedSegs s p).foldl (fun t g => t.updSeg g fun c => { c with legSlot := none }) s) :=
    .foldl (fun _ _ h ho => .seg' h ho (.refl _) rfl) _ h fun g hg => owns_iff.mp ((mem_filter_list (owns s p) g).mp hg)
  exact hfold.andThen fun h => .port h (fun _ => id) id

theorem works_closeTransaction (check : Leg → Option Byte) :
    Works p s (closeTransaction p check s) ∧ ((closeTransaction p check s).port p).apart := by
  have hidle (u : State) : ((closeTransaction p check u).port p).apart := by
    refine PortState.apart.of (phase := .idle) ?_ nofun nofun nofun
    unfold closeTransaction
    rw [State.port_updPort_self]
  refine ⟨((works_endActive h check).andThen works_dropSnapshot).andThen fun h => .port h (fun _ => id) fun _ =>
    PortState.apart.of rfl nofun nofun nofun, hidle s⟩

theorem works_markForStop : Works p s (markForStop p s) :=
  .foldActive h (fun _ hg => List.mem_of_mem_filter hg) fun _ _ h ho =>
    (works_clocked h ho (a := .reading .nackClock) nofun nofun).andThen fun h => works_updLeg h _ fun _ => ⟨rfl, id⟩

theorem works_handOut (b : Byte) (after : AfterJoin) : Works p s (handOut p b after s) :=
  (Works.foldActive h (fun _ => id) fun _ _ h ho => works_clocked h ho (a := .writing b false) nofun nofun).andThen fun h =>
    .port (k := fun r => { r with held := none, inFlight := some ⟨b, false, false, after⟩ }) h (fun _ => id) id

theorem works_beginFetch (what : Reading) (stage : ReadStage) : Works p s (beginFetch p what stage s) :=
  (Works.foldActive h (fun _ => id) fun _ _ h ho => works_clocked h ho (a := .reading what) nofun nofun).andThen fun h =>
    .port (k := fun r => { r with readStage := stage }) h (fun _ => id) id

theorem works_countRead (b : Byte) (n : Nat) : Works p s (countRead p b n s) := .port h (fun _ => id) id

theorem works_readFill : Works p s (readFill p s) := .port h (fun _ => id) id

theorem works_refuseRead : Works p s (refuseRead p s) :=
  (((works_endActive h noCheck).andThen fun h => works_notePort h ..).andThen works_toDrain).andThen fun h => works_supply h _

theorem works_readRequest : Works p s (readRequest p s) := by
  have hheld : Works p s ((holdScl p s).updPort p fun r => { r with sdaByte := none }) :=
    (works_holdScl h).andThen fun h => .port h (fun _ => id) id
  unfold readRequest
  dsimp only
  split
  · exact hheld
  split
  · exact hheld.andThen fun h => works_beginFetch h _ _
  split
  · exact hheld.andThen works_refuseRead
  · exact hheld.andThen fun h => works_beginFetch h _ _

theorem works_nackInPlace : Works p s (nackInPlace p s) := by
  unfold nackInPlace
  split
  · split
    · exact (works_countRead h _ _).andThen works_markForStop
    · exact works_markForStop h
  all_goals exact .refl h

theorem works_readAnswer (a : Ack) : Works p s (readAnswer p a s) := by
  unfold readAnswer
  split
  · cases a with
    | ack => exact (works_countRead h _ _).andThen works_readRequest
    | nack => exact ((works_countRead h _ _).andThen works_markForStop).andThen works_readFill
  · exact works_readFill h
  all_goals exact .refl h

theorem works_frameEnd : Works p s (frameEnd p s) := by
  unfold frameEnd
  split
  · exact .refl h
  have hport : Works p s (s.updPort p fun r => { r with assembler := none }) := .port h (fun _ => id) id
  dsimp only
  split
  · exact hport
  · refine hport.andThen fun h => .aside h ?_
    unfold accept renewLease
    split
    · exact .of_eq rfl rfl
    · split
      · exact .of_eq rfl rfl
      · exact .of_eq rfl rfl

theorem works_readEnd (boundary : Bool) : Works p s (readEnd p boundary s) := by
  unfold readEnd
  split
  · exact .refl h
  · exact .port h (fun _ => id) id

theorem works_stallExpired : Works p s (stallExpired p s) :=
  (((works_notePort h ..).andThen fun h => works_endActive h noCheck).andThen works_dropSnapshot).andThen fun h =>
    .port h (fun _ => id) fun _ => PortState.apart.of rfl nofun nofun nofun

end

end Sys2Proof.Machine
end

section
/-!
PROOFS. The address byte, the conditions and the bytes upstream keep every port's part in `WaitLaw` (R22, R24, R25, R30, R37 to R39).
-/
namespace Sys2Proof.Machine

/-! ### An address byte (R25, R30, R38, R39) -/

section
variable {p : Port} {s : State}

/-- R33: a record in no address phase whose legs have been ended, whatever else of it changes. -/
theorem stays_segGivenUp {r : PortState} (h : Calm p s) (hr : ∀ g, r.active g = false) (u : PortState)
    (hu : u.active = (s.port p).active) : Stays p s (s.bus p r (segGivenUp s.working.params u s.seg)) := by
  have hended : (endActive p noCheck s).updPort p (fun _ => r) = s.bus p r (segGivenUp s.working.params u s.seg) := by
    conv_lhs => rw [← State.bus_self s p]
    rw [endActive_noCheck_bus, State.updPort_bus]
    refine State.bus_congr _ _ rfl fun g => ?_
    unfold segGivenUp
    rw [hu]
  rw [← hended]
  exact (works_endActive h noCheck).toStays.port fun g hg => absurd (hg.symm.trans (hr g)) nofun

/-- R38: a record that keeps its segments, each of them to see a repeated START. -/
theorem fits_reopened {r u : PortState} (h : Calm p s) (hu : u.active = (s.port p).active) (hr : r.active = (s.port p).active)
    (hphase : r.phase = .awaitTarget) (haddr : r.addressFits) (limit slot : Nat) :
    Fits p r (reopened limit slot u s.seg) := by
  have hseg (g : Seg) : (reopened limit slot u s.seg g).owner = (s.seg g).owner
      ∧ (reopened limit slot u s.seg g).waiters = (s.seg g).waiters := by
    unfold reopened
    split
    · exact ⟨rfl, rfl⟩
    · exact ⟨rfl, rfl⟩
  refine ⟨fun g hg => ?_, fun e => absurd (hphase.symm.trans e) nofun, haddr, fun g hg => ?_, fun g o ho ha => ?_⟩
  all_goals obtain ⟨howner, hwaiters⟩ := hseg g
  · rw [hwaiters] at hg
    exact absurd hg (h.waits g)
  · rw [hr] at hg
    rw [howner]
    refine ⟨(h.active g hg).1, fun c => ?_⟩
    unfold reopened
    rw [hu, if_pos hg]
    nofun
  · rw [howner] at ho
    refine ⟨?_, .inr hphase⟩
    rw [hr]
    by_contra hg
    unfold reopened at ha
    rw [hu, if_neg hg] at ha
    exact h.addressing g o ho ha

theorem reopened_other {q : Port} (hq : q ≠ p) {u : PortState} (h : Calm p s) (hu : u.active = (s.port p).active)
    (limit slot : Nat) (g : Seg) : AlikeFor q (s.seg g) (reopened limit slot u s.seg g) := by
  unfold reopened
  rw [hu]
  split
  next hg =>
    have hne : (s.seg g).owner ≠ some (.port q) := by
      rw [(h.active g hg).1]
      exact fun e => hq (by cases e; rfl)
    exact .of_other hne hne .rfl
  next => exact .refl ..

/-- R25: an address byte taken in ADDRESS keeps every port's part. -/
theorem Fitting.addressTaken (h : Fitting s) (hc : Calm p s) (hphase : (s.port p).phase = .address)
    (hw : (s.port p).addrWait = none) (a : Addr) (d : Dir) (found : Found) : Fitting (addressTaken p a d found s) := by
  obtain ⟨hflight, hstage, -⟩ := (h p).address.2 hphase
  have hfits (r : PortState) (hscl : r.sclHeld = true) (hstall : r.stall = none)
      (hf : r.inFlight = none) (hr : r.readStage = .none) (hwait : r.awaits → r.addrWait = none) : r.addressFits :=
    ⟨fun e => ⟨hscl, hstall, hwait e, hf, hr⟩, fun _ => ⟨hf, hr, fun _ => hscl⟩⟩
  rw [← State.bus_self s p]
  cases hd : decideFound (s.port p) a d found with
  | wait w =>
    rw [addressTaken_wait_bus _ _ _ hd]
    have hr (g : Seg) : (((s.port p).addressed a d).awaitingClose w).active g = false := by
      rw [PortState.active_eq]
      exact (activeIn_ended ..).trans (Bool.and_not_self _)
    refine (stays_segGivenUp hc hr ((s.port p).addressed a d) rfl).fitting h (fun _ g => by rw [State.bus_port_self]; exact hr g) ?_
    rw [State.bus_port_self]
    exact hfits _ rfl rfl hflight hstage fun e => absurd e (not_awaits_of (phase := .address) hphase nofun nofun)
  | routed sn =>
    rw [addressTaken_routed_bus _ _ _ _ hd]
    generalize carriedPointer (s.port p) sn = n
    by_cases hkept : Seg.list.filter (s.port p).active ≠ [] ∧ PerSeg.members sn.entry.segs = Seg.list.filter (s.port p).active
    · obtain ⟨hne, hsame⟩ := hkept
      rw [route_kept_bus _ _ _ _ (r := ((s.port p).addressed a d).carrying n) hne hsame]
      refine h.bus (fun q _ => rfl) (fits_reopened hc rfl (by exact activeIn_rebuiltLegs _) rfl ?_ _ _) fun q hq g =>
        reopened_other hq hc rfl _ _ g
      exact hfits _ rfl rfl hflight hstage fun _ => hw
    · rw [route_fresh_bus _ _ _ _ (r := ((s.port p).addressed a d).carrying n) hkept]
      have hr (g : Seg) : ((((s.port p).addressed a d).carrying n).routed s.working.params.holdLimit sn .awaitGrant
          (reroutedLegs s.working.params p sn.entry.segs (((s.port p).addressed a d).carrying n) s.seg)).active g = false :=
        activeIn_reroutedLegs g
      refine (stays_segGivenUp hc hr (((s.port p).addressed a d).carrying n) rfl).fitting h
        (fun _ g => by rw [State.bus_port_self]; exact hr g) ?_
      rw [State.bus_port_self]
      exact hfits _ rfl rfl hflight hstage fun _ => hw

theorem upholds_decideAddress {w : Prop} (h : Fitting s) (hc : Calm p s) (hphase : (s.port p).phase = .address)
    (hw : (s.port p).addrWait = none) (a : Addr) (d : Dir) (found : Found) : Upholds w (decideAddress p a d found s) :=
  ⟨fun _ => waitersServed_settle _, (h.addressTaken hc hphase hw a d found).settle _⟩

/-! ### ADDRESS begins (R23, R37) -/

theorem port_dropSnapshot (p : Port) (s : State) : (dropSnapshot p s).port p = { s.port p with snapshot := none } := by
  conv_lhs => rw [← State.bus_self s p]
  rw [dropSnapshot_bus, State.bus_port_self]

/-- R19: keeping legs makes none ACTIVE. -/
theorem activeIn_keptLegs (s : State) (p : Port) : activeIn (keptLegs s p) = (s.port p).active :=
  activeIn_keptOf p s.seg (s.port p).legs

/-- A record that begins its address phase. -/
structure Addressed (r : PortState) : Prop where
  phase : r.phase = .address
  inFlight : r.inFlight = none
  readStage : r.readStage = .none
  addrWait : r.addrWait = none

theorem Stays.upholds_addressed {s₀ : State} {w : Prop} (h : Stays p s₀ s) (hs : Upholds w s₀) (ha : Addressed (s.port p)) :
    Upholds w s := by
  obtain ⟨hphase, hflight, hstage, hw⟩ := ha
  refine h.upholds hs (by rw [hphase]; nofun)
    ⟨fun e => absurd e (not_awaits_of hphase nofun nofun), fun _ => ⟨hflight, hstage, fun e => absurd hw e⟩⟩

theorem stays_beginAddress (h : Calm p s) : Stays p s (beginAddress p s) ∧ Addressed ((beginAddress p s).port p) := by
  constructor
  · unfold beginAddress
    dsimp only
    refine ((works_endMarked h).andThen works_dropSnapshot).toStays.port fun g hg => ?_
    rw [port_dropSnapshot]
    exact congrFun (activeIn_keptLegs (endMarked p s) p) g ▸ hg
  · unfold beginAddress
    rw [State.port_updPort_self]
    exact ⟨rfl, rfl, rfl, rfl⟩

variable {s₀ : State} {w : Prop}

/-- R37: what follows a repeated START. -/
theorem upholds_toAddress (h : Stays p s₀ s) (hs : Upholds w s₀) : Upholds w (toAddress p s) := by
  obtain ⟨hbegin, haddr⟩ := stays_beginAddress h.calm
  have hupholds := (h.trans hbegin).upholds_addressed hs haddr
  unfold toAddress
  split
  · exact hupholds
  · exact upholds_decideAddress hupholds.2 hbegin.calm haddr.phase haddr.addrWait ..

theorem upholds_closeTransaction (h : Stays p s₀ s) (hs : Upholds w s₀) (check : Leg → Option Byte) :
    Upholds w (closeTransaction p check s) := by
  obtain ⟨hworks, hapart⟩ := works_closeTransaction h.calm check
  exact (h.trans hworks.toStays).upholds_apart hs hapart

theorem apart_toDrain (p : Port) (s : State) : ((toDrain p s).port p).apart := by
  refine PortState.apart.of (phase := .drain) ?_ nofun nofun nofun
  unfold toDrain
  rw [State.port_updPort_self]

theorem upholds_toDrain (h : Stays p s₀ s) (hs : Upholds w s₀) : Upholds w (toDrain p s) :=
  (h.trans (works_toDrain h.calm).toStays).upholds_apart hs (apart_toDrain p s)

/-- R42, R67, R69: a byte of data, forwarded or refused. -/
theorem upholds_submit (h : Stays p s₀ s) (hs : Upholds w s₀) (ha : (s.port p).apart) (b : Byte) (after : AfterJoin) :
    Upholds w (submit p b after s) := by
  unfold submit
  split
  · exact h.upholds_apart hs ha
  split
  · have hended : Works p s (endActive p noCheck s) := works_endActive h.calm _
    unfold refuseByte
    dsimp only
    have hnoted {k : Kind} {g : Option Seg} {n : Option Nat} {d : Half} :=
      h.trans (hended.andThen fun h => works_notePort h k g n d).toStays
    cases after with
    | repeatedStart => exact upholds_toAddress hnoted hs
    | answer => exact upholds_toDrain (hnoted.trans (works_giveAck hnoted.calm _).toStays) hs
    | hold _ => exact upholds_toDrain (hnoted.trans (works_giveAck hnoted.calm _).toStays) hs
  · have hout := works_handOut h.calm b after
    exact (h.trans hout.toStays).upholds_apart hs (hout.apart ha)

/-! ### Conditions upstream (R21, R24, R37, R57, R58) -/

theorem upholds_freshStart (hc : Calm p s) (hs : Upholds w s) : Upholds w (freshStart p s) := by
  refine Stays.upholds_addressed ((Stays.refl hc).port fun g hg => ?_) hs ?_
  · exact congrFun (activeIn_keptLegs s p) g ▸ hg
  · unfold freshStart
    rw [State.port_updPort_self]
    exact ⟨rfl, rfl, rfl, rfl⟩

theorem apart_write {r : PortState} (h : r.phase = .write) : r.apart := .of h nofun nofun nofun

theorem upholds_repeatedStart (hc : Calm p s) (hs : Upholds w s) : Upholds w (repeatedStart p s) := by
  unfold repeatedStart
  split
  next hphase =>
    unfold repeatedInWrite
    split
    · exact hs
    split
    · exact upholds_submit (.refl hc) hs (apart_write hphase) ..
    · exact upholds_toAddress (.refl hc) hs
  next => exact upholds_toAddress (works_nackInPlace hc).toStays hs
  next => exact upholds_toAddress (works_frameEnd hc).toStays hs
  next => exact upholds_toAddress (works_readEnd hc _).toStays hs
  all_goals exact upholds_toAddress (.refl hc) hs

theorem Upholds.calm (hs : Upholds w s) (hscl : (s.port p).sclHeld = false) : Calm p s :=
  (hs.2 p).calm (PortState.not_awaits_of_scl (hs.2 p).address hscl)

theorem upholds_startCondition (p : Port) (hs : Upholds w s) : Upholds w (startCondition p s) := by
  unfold startCondition
  split
  · exact hs
  next hscl =>
    have hc := hs.calm (Bool.eq_false_of_not_eq_true hscl)
    split
    · exact upholds_repeatedStart hc hs
    · exact upholds_freshStart hc hs

theorem upholds_midByteStart (hc : Calm p s) (hs : Upholds w s) : Upholds w (midByteStart p s) := by
  have hnoted {k : Kind} {g : Option Seg} {n : Option Nat} {d : Half} := works_notePort hc k g n d
  unfold midByteStart
  split
  · split
    · split
      · exact hs
      · unfold cutWriteByStart
        dsimp only
        split
        · exact upholds_toAddress (hnoted.andThen fun h => works_endActive h _).toStays hs
        · exact upholds_toAddress hnoted.toStays hs
    · exact upholds_toAddress (hnoted.andThen works_markForStop).toStays hs
    · exact upholds_toAddress (works_frameEnd hc).toStays hs
    · exact upholds_toAddress (works_readEnd hc _).toStays hs
    all_goals exact upholds_toAddress (.refl hc) hs
  · exact upholds_freshStart hc hs

theorem upholds_stopCondition (hc : Calm p s) (hs : Upholds w s) : Upholds w (stopCondition p s) := by
  unfold stopCondition
  split
  · exact hs
  · unfold stopInWrite
    split
    · unfold checkDecision
      split
      · exact upholds_closeTransaction (.refl hc) hs _
      · exact upholds_closeTransaction (works_notePort hc ..).toStays hs _
    · exact upholds_closeTransaction (.refl hc) hs _
  · exact upholds_closeTransaction (works_nackInPlace hc).toStays hs _
  · exact upholds_closeTransaction (works_frameEnd hc).toStays hs _
  · exact upholds_closeTransaction (works_readEnd hc _).toStays hs _
  all_goals exact upholds_closeTransaction (.refl hc) hs _

theorem upholds_midByteStop (hc : Calm p s) (hs : Upholds w s) : Upholds w (midByteStop p s) := by
  have hcut : Upholds w (cutByStop p s) := upholds_closeTransaction (works_notePort hc ..).toStays hs _
  unfold midByteStop
  split
  · exact hs
  · split
    · exact upholds_closeTransaction (.refl hc) hs _
    · exact hcut
  · exact hcut
  · exact upholds_closeTransaction (works_frameEnd hc).toStays hs _
  · exact upholds_closeTransaction (works_readEnd hc _).toStays hs _
  all_goals exact upholds_closeTransaction (.refl hc) hs _

/-! ### Bytes upstream (R25, R42, R49, R51) -/

theorem upholds_addressByte (p : Port) (a : Addr) (d : Dir) (hs : Upholds w s) : Upholds w (addressByte p a d s) := by
  unfold addressByte
  split
  · exact hs
  next hscl =>
    have hc := hs.calm (Bool.eq_false_of_not_eq_true hscl)
    split
    next hphase =>
      obtain ⟨-, -, hheld⟩ := (hs.2 p).address.2 hphase
      exact upholds_decideAddress hs.2 hc hphase (not_not.mp fun e => hscl (hheld e)) ..
    next =>
      split
      next hwrite =>
        have hworks : Works p s ((holdScl p s).updPort p fun r => { r with earlyAddr := some ⟨a, d, find25 s p a⟩ }) :=
          (works_holdScl hc).andThen fun h => .port h (fun _ => id) id
        exact hworks.toStays.upholds_apart hs (hworks.apart (apart_write hwrite.1))
      next => exact hs

theorem upholds_takeWriteByte (b : Byte) (hphase : (s.port p).phase = .write) (hs : Upholds w s) :
    Upholds w (takeWriteByte p b s) := by
  have hapart := apart_write hphase
  have hheld := works_holdScl ((hs.2 p).calm hapart.1)
  unfold takeWriteByte
  split
  · split
    · have hgiven : Works p s (giveAck p .ack ((holdScl p s).updPort p fun r => { r with held := some b })) :=
        (hheld.andThen fun h => .port h (fun _ => id) id).andThen fun h => works_giveAck h _
      exact hgiven.toStays.upholds_apart hs (hgiven.apart hapart)
    · exact upholds_submit hheld.toStays hs (hheld.apart hapart) ..
  · exact upholds_submit hheld.toStays hs (hheld.apart hapart) ..

/-- What a record in READ does keeps every port's part. -/
theorem upholds_inRead {t : State} (hphase : (s.port p).phase = .read) (hs : Upholds w s) (hworks : Calm p s → Works p s t) :
    Upholds w t := by
  have hapart : (s.port p).apart := .of hphase nofun nofun nofun
  have hworks := hworks ((hs.2 p).calm hapart.1)
  exact hworks.toStays.upholds_apart hs (hworks.apart hapart)

theorem upholds_stallExpired (hstall : (s.port p).stall.isSome = true) (hs : Upholds w s) : Upholds w (stallExpired p s) := by
  have hnot : ¬(s.port p).awaits := fun e => by
    obtain ⟨-, hnone, -⟩ := (hs.2 p).address.1 e
    rw [hnone] at hstall
    exact absurd hstall nofun
  refine (works_stallExpired ((hs.2 p).calm hnot)).toStays.upholds_apart hs (.of (phase := .offBus) ?_ nofun nofun nofun)
  unfold stallExpired
  rw [State.port_updPort_self]

/-! ### The joins (R80, R84) -/

/-- R84: the data join. -/
theorem upholds_joinData (p : Port) (hs : Upholds w s) : Upholds w (joinData p s) := by
  unfold joinData
  split
  · exact hs
  next f hf =>
    have hapart : (s.port p).apart := by
      refine ⟨fun e => ?_, fun e => ?_⟩
      · obtain ⟨-, -, -, hnone, -⟩ := (hs.2 p).address.1 e
        exact absurd (hf.symm.trans hnone) nofun
      · obtain ⟨hnone, -⟩ := (hs.2 p).address.2 e
        exact absurd (hf.symm.trans hnone) nofun
    have hcleared : Works p s (s.updPort p fun r => { r with inFlight := none }) :=
      .port ((hs.2 p).calm hapart.1) (fun _ => id) id
    have hacked (a : Ack) := hcleared.andThen fun h => works_giveAck h a
    split
    · dsimp only
      split
      · exact upholds_toAddress hcleared.toStays hs
      · split
        · exact upholds_toDrain (hacked _).toStays hs
        · exact (hacked _).toStays.upholds_apart hs ((hacked _).apart hapart)
      · split
        · exact upholds_toDrain (hacked _).toStays hs
        next b _ _ =>
          have hheld : Works p s (giveAck p (joinedAck f)
              ((s.updPort p fun r => { r with inFlight := none }).updPort p fun r => { r with held := some b })) :=
            (hcleared.andThen fun h => .port h (fun _ => id) id).andThen fun h => works_giveAck h _
          exact hheld.toStays.upholds_apart hs (hheld.apart hapart)
    · exact hs

/-- R80: a record whose targets have all answered is in no address phase any longer. -/
theorem Fits.calm_joined (h : Fits p (s.port p) s.seg) (hphase : (s.port p).phase = .awaitTarget)
    (hpaused : (activeSegs s p).all (isPaused s) = true) : Calm p s := by
  refine ⟨fun g hg => ?_, h.active, fun g o ho ha => ?_⟩
  · obtain ⟨hgrant, -⟩ := h.waiting g hg
    exact absurd (hphase.symm.trans hgrant) nofun
  · obtain ⟨hactive, -⟩ := h.addressed g o ho ha
    have hp : (s.seg g).activity = some .paused := eq_of_beq (List.all_eq_true.mp hpaused g (mem_activeSegs_iff.mpr hactive))
    exact absurd (ha.symm.trans hp) nofun

theorem stays_enterData (h : Calm p s) (a : Ack) : Stays p s (enterData p a s) ∧ ((enterData p a s).port p).apart := by
  constructor
  · unfold enterData giveAck
    exact ((Stays.refl h).port fun _ => id).port fun _ => id
  · unfold enterData giveAck
    rw [State.port_updPort_self, State.port_updPort_self]
    cases (s.port p).dir with
    | write => exact .of (phase := .write) rfl nofun nofun nofun
    | read => exact .of (phase := .read) rfl nofun nofun nofun

/-- R80: the address join. -/
theorem upholds_joinAddress (p : Port) (hs : Upholds w s) : Upholds w (joinAddress p s) := by
  unfold joinAddress
  split
  next hjoin =>
    obtain ⟨hphase, hpaused⟩ := hjoin
    have hc := (hs.2 p).calm_joined hphase hpaused
    have hentered (a : Ack) : Upholds w (enterData p a s) := by
      obtain ⟨hstays, hapart⟩ := stays_enterData hc a
      exact hstays.upholds_apart hs hapart
    split
    · exact upholds_toDrain (((Stays.refl hc).port fun _ => id).port fun _ => id) hs
    split
    · exact hentered _
    · exact hentered _
  next => exact hs

end

end Sys2Proof.Machine
end

section
/-!
PROOFS. What the devices, the lines and the timers of a segment bring keeps every port's part in `WaitLaw` (R33, R34, R79, R84, R96, R106 to R119).
-/
namespace Sys2Proof.Machine

/-! ### A change of one segment -/

/-- R93: a segment that serves no claim it did not serve before, its wait list as it was. -/
def Serves (c d : SegState) : Prop :=
  d.waiters = c.waiters ∧ (d.free = true ∨ d.refuses = true → c.free = true ∨ c.refuses = true)

theorem SameClaims.serves {c d : SegState} (h : SameClaims c d) : Serves c d := by
  obtain ⟨ho, hw, hc, hp⟩ := h
  refine ⟨hw, ?_⟩
  unfold SegState.free SegState.refuses
  rw [ho, hc, hp]
  exact id

theorem Serves.trans {c d e : SegState} (h : Serves c d) (k : Serves d e) : Serves c e :=
  ⟨k.1.trans h.1, fun hs => h.2 (k.2 hs)⟩

section
variable {s : State} {w : Prop}

theorem Upholds.updSeg {g : Seg} {k : SegState → SegState} (hs : Upholds w s) (hk : ∀ q, AlikeFor q (s.seg g) (k (s.seg g)))
    (hserves : Serves (s.seg g) (k (s.seg g))) : Upholds w (s.updSeg g k) := by
  obtain ⟨hserved, hfits⟩ := hs
  refine ⟨fun hw x hx => ?_, hfits.updSeg hk⟩
  rw [State.seg_updSeg] at hx ⊢
  split at hx
  next e =>
    subst e
    obtain ⟨hwaiters, hback⟩ := hserves
    rw [if_pos rfl, hwaiters]
    exact hserved hw x (hback hx)
  next e =>
    rw [if_neg e]
    exact hserved hw x hx

theorem Upholds.updPort {p : Port} {k : PortState → PortState} (hs : Upholds w s) (hk : AlikeRecord (s.port p) (k (s.port p))) :
    Upholds w (s.updPort p k) := by
  obtain ⟨hserved, hfits⟩ := hs
  exact ⟨hserved, hfits.updPort hk⟩

/-- A change of a segment that leaves its owner, its wait list, its state and its activity. -/
theorem Upholds.updSeg_eq {g : Seg} {k : SegState → SegState} (hs : Upholds w s) (hk : SameClaims (s.seg g) (k (s.seg g)))
    (ha : (k (s.seg g)).activity = (s.seg g).activity) : Upholds w (s.updSeg g k) := by
  obtain ⟨ho, hw, -⟩ := id hk
  exact hs.updSeg (fun q => .of_eq ho hw ha) hk.serves

theorem upholds_sampleLines (g : Seg) (l : Lines) (hs : Upholds w s) : Upholds w (sampleLines g l s) :=
  hs.updSeg_eq (.refl _) rfl

theorem upholds_startClock (g : Seg) (hs : Upholds w s) : Upholds w (startClock g s) := hs.updSeg_eq (.refl _) rfl

/-- A leg that was at its address and goes on with it. -/
theorem Upholds.readdressed {g : Seg} {k : SegState → SegState} (hs : Upholds w s) (hk : SameClaims (s.seg g) (k (s.seg g)))
    (hnot : ∀ x, (k (s.seg g)).activity ≠ some (.closing x)) {o : Opening} (ha : (s.seg g).activity = some (.addressing o)) :
    Upholds w (s.updSeg g k) := by
  obtain ⟨ho, hw, -⟩ := id hk
  exact hs.updSeg (fun q => .of_activity ho hw (fun x hx => absurd hx (hnot x)) fun _ _ => ⟨o, ha⟩) hk.serves

theorem upholds_pause (g : Seg) (hs : Upholds w s) : Upholds w (pause g s) :=
  hs.updSeg (fun _ => .of_activity rfl rfl nofun nofun) (SameClaims.refl _).serves

/-- A change of a record's leg that leaves where it is and its state. -/
theorem alike_mapLegs (r : PortState) (c : Seg → Bool) {k : Leg → Leg} (hk : ∀ l, (k l).seg = l.seg ∧ (k l).state = l.state) :
    AlikeRecord r (r.withLegs (mapLegs c k r.legs)) := by
  have hany (st : LegState) (g : Seg) : (mapLegs c k r.legs).any (fun l => l.seg == g && l.state == st)
      = r.legs.any fun l => l.seg == g && l.state == st := by
    unfold mapLegs
    rw [List.any_map]
    congr 1
    funext l
    obtain ⟨hseg, hstate⟩ := hk l
    simp only [Function.comp_apply]
    split
    · rw [hseg, hstate]
    · rfl
  exact ⟨rfl, hany .active, hany .claiming, id⟩

theorem upholds_updLeg (p : Port) (g : Seg) {k : Leg → Leg} (hk : ∀ l, (k l).seg = l.seg ∧ (k l).state = l.state)
    (hs : Upholds w s) : Upholds w (updLeg p g k s) := hs.updPort (alike_mapLegs (s.port p) (fun x => x == g) hk)

/-! ### A leg's address and its answer (R33, R79, R109, R116) -/

section
variable {p : Port} {g : Seg}

theorem upholds_placeAddress {o : Opening} (ha : (s.seg g).activity = some (.addressing o)) (hs : Upholds w s) (k : Leg → Byte) :
    Upholds w (placeAddress p g k s) := by
  unfold placeAddress
  split
  · exact hs
  · refine upholds_updLeg p g (fun _ => ⟨rfl, rfl⟩) (upholds_startClock g ?_)
    exact hs.readdressed (.refl _) nofun ha

theorem upholds_retryAddress {o : Opening} (ha : (s.seg g).activity = some (.addressing o)) (hs : Upholds w s) :
    Upholds w (retryAddress p g s) :=
  upholds_updLeg p g (fun _ => ⟨rfl, rfl⟩) (hs.readdressed (.refl _) nofun ha)

end

end

/-! ### A leg that leaves its record's address phase (R33, R34, R56) -/

/-- A record that has no ACTIVE leg on one segment any longer. -/
structure LegLeft (g : Seg) (r r' : PortState) : Prop where
  phase : r'.phase = r.phase
  active : ∀ k, r'.active k = (r.active k && k != g)
  claims : ∀ k, r'.claims k = true → r.claims k = true
  kept : ∀ k, k ≠ g → r.claims k = true → r'.claims k = true
  address : r.addressFits → r'.addressFits

/-- A record had no ACTIVE leg on the segment. -/
theorem LegLeft.of_inactive {g : Seg} {r : PortState} (h : r.active g = false) : LegLeft g r r := by
  refine ⟨rfl, fun k => ?_, fun _ => id, fun _ _ => id, id⟩
  by_cases e : k = g
  · rw [e, h]
    rfl
  · rw [bne_iff_ne.mpr e, Bool.and_true]

/-- R33, R34: a record whose legs on a segment have been ended or aborted. -/
theorem legLeft_mapLegs (g : Seg) (r : PortState) {k : Leg → Leg}
    (hactive : ∀ l, (k l).state ≠ .active) (hclaiming : ∀ l, (k l).state ≠ .claiming) :
    LegLeft g r (r.withLegs (mapLegs (fun x => x == g) k r.legs)) := by
  have hclaims (x : Seg) : (r.withLegs (mapLegs (fun x => x == g) k r.legs)).claims x = (r.claims x && x != g) :=
    any_mapLegs_left g x hclaiming r.legs
  refine ⟨rfl, fun x => any_mapLegs_left g x hactive r.legs, fun x hx => ?_, fun x hne hx => ?_, id⟩
  · rw [hclaims] at hx
    exact (Bool.and_eq_true_iff.mp hx).1
  · rw [hclaims, hx, bne_iff_ne.mpr hne]
    rfl

theorem Fits.not_waiting {p : Port} {r : PortState} {f : Seg → SegState} {g : Seg} (h : Fits p r f)
    (ho : (f g).owner = some (.port p)) : .port p ∉ (f g).waiters := fun hw => by
  obtain ⟨-, -, -, hown⟩ := h.waiting g hw
  exact absurd (hown g ho) (Nat.lt_irrefl _)

/-- A record that has lost its ACTIVE leg on a segment, which it does not own any longer or closes. -/
theorem Fits.left {p : Port} {r r' : PortState} {f f' : Seg → SegState} {g : Seg} (h : Fits p r f) (hr : LegLeft g r r')
    (hwait : .port p ∈ (f g).waiters → r'.claims g = true)
    (hwaiters : ∀ k, .port p ∈ (f' k).waiters ↔ .port p ∈ (f k).waiters)
    (hg : (f' g).owner = some (.port p) → (f g).owner = some (.port p) ∧ ∀ o, (f' g).activity ≠ some (.addressing o))
    (hother : ∀ k, k ≠ g → (f' k).owner = (f k).owner ∧ (f' k).activity = (f k).activity) : Fits p r' f' := by
  have howner (k : Seg) (hk : (f' k).owner = some (.port p)) : (f k).owner = some (.port p) := by
    by_cases e : k = g
    · subst e
      exact (hg hk).1
    · exact (hother k e).1.symm.trans hk
  have hactive {k : Seg} (hk : r'.active k = true) : r.active k = true ∧ k ≠ g := by
    rw [hr.active, Bool.and_eq_true, bne_iff_ne] at hk
    exact hk
  refine ⟨fun k hk => ?_, fun hp a ha k hk x hx => ?_, hr.address h.address, fun k hk => ?_, fun k o ho ha => ?_⟩
  · obtain ⟨hp, hc, hlow, hown⟩ := h.waiting k ((hwaiters k).mp hk)
    refine ⟨hr.phase.trans hp, ?_, fun x hx => hlow x (hr.claims x hx), fun x hx => hown x (howner x hx)⟩
    by_cases e : k = g
    · subst e
      exact hwait ((hwaiters k).mp hk)
    · exact hr.kept k e hc
  · exact h.claiming (hr.phase.symm.trans hp) a (hactive ha).1 k (hr.claims k hk) x (howner x hx)
  · obtain ⟨hk, hne⟩ := hactive hk
    obtain ⟨ho, ha⟩ := hother k hne
    rw [ho, ha]
    exact h.active k hk
  · by_cases e : k = g
    · subst e
      exact absurd ha ((hg ho).2 o)
    · obtain ⟨ho', ha'⟩ := hother k e
      obtain ⟨hact, hawaits⟩ := h.addressed k o (ho'.symm.trans ho) (ha'.symm.trans ha)
      refine ⟨by rw [hr.active, hact, bne_iff_ne.mpr e]; rfl, ?_⟩
      unfold PortState.awaits at hawaits ⊢
      rwa [hr.phase]

section
variable {s : State} {w : Prop} {p : Port} {g : Seg}

/-- R33: a paused leg that its record ends. -/
theorem upholds_endLeg_paused (ho : (s.seg g).owner = some (.port p)) (ha : (s.seg g).activity = some .paused)
    (hs : Upholds w s) : Upholds w (endLeg p noCheck g s) := by
  obtain ⟨hserved, hfits⟩ := hs
  have hclosed : (s.seg g).closedBy s.working.params g none = nackedSeg s.working.params.clockLimit (s.seg g) := by
    unfold SegState.closedBy
    rw [ha]
    rfl
  have hended : endLeg p noCheck g s = s.bus p ((s.port p).withLegs (mapLegs (fun x => x == g) Leg.ended (s.port p).legs))
      (oneSeg s g (nackedSeg s.working.params.clockLimit (s.seg g))) := by
    conv_lhs => rw [← State.bus_self s p]
    rw [endLeg_bus, bind_noCheck, hclosed]
    rfl
  have hclaims (k : Seg) : SameClaims (s.seg k) (oneSeg s g (nackedSeg s.working.params.clockLimit (s.seg g)) k) := by
    by_cases e : k = g
    · rw [e, oneSeg_self]
      exact .refl _
    · rw [oneSeg_other _ _ e]
      exact .refl _
  rw [hended]
  refine ⟨fun hw => (hserved hw).congr fun k => ?_, hfits.bus (fun _ _ => rfl) ?_ fun q hq k => ?_⟩
  · rw [State.bus_seg]
    exact hclaims k
  · refine (hfits p).left (legLeft_mapLegs g (s.port p) (k := Leg.ended) nofun nofun)
      (fun hw => absurd hw ((hfits p).not_waiting ho)) (fun k => ?_) (fun _ => ⟨ho, ?_⟩) fun k hk => ?_
    · obtain ⟨-, hw, -⟩ := hclaims k
      rw [hw]
    · rw [oneSeg_self]
      nofun
    · rw [oneSeg_other _ _ hk]
      exact ⟨rfl, rfl⟩
  · by_cases e : k = g
    · have hne : (s.seg g).owner ≠ some (.port q) := by
        rw [ho]
        exact fun e => hq (by cases e; rfl)
      rw [e, oneSeg_self]
      exact .of_other hne hne .rfl
    · rw [oneSeg_other _ _ e]
      exact .refl ..

theorem paused_pause (ho : (s.seg g).owner = some (.port p)) :
    ((pause g s).seg g).owner = some (.port p) ∧ ((pause g s).seg g).activity = some .paused := by
  unfold pause
  rw [State.seg_updSeg_self]
  exact ⟨ho, rfl⟩

theorem upholds_targetAnswer (ho : (s.seg g).owner = some (.port p)) (a : Ack) (hs : Upholds w s) :
    Upholds w (targetAnswer p g a s) := by
  obtain ⟨ho', hp⟩ := paused_pause ho
  cases a with
  | ack => exact upholds_joinAddress p (upholds_pause g hs)
  | nack => exact upholds_joinAddress p (upholds_endLeg_paused ho' hp (upholds_pause g hs))

theorem upholds_loseLeg (p : Port) (hs : Upholds w s) : Upholds w (loseLeg p s) := by
  refine hs.updPort ⟨rfl, fun _ => rfl, fun _ => rfl, fun h => ⟨fun e => ?_, fun e => ?_⟩⟩
  · obtain ⟨hscl, hstall, haddr, hflight, hstage⟩ := h.1 e
    exact ⟨hscl, hstall, haddr, congrArg (Option.map _) hflight, hstage⟩
  · obtain ⟨hflight, hrest⟩ := h.2 e
    exact ⟨congrArg (Option.map _) hflight, hrest⟩

theorem upholds_deviceAnswer (ho : (s.seg g).owner = some (.port p)) (a : Ack) (hs : Upholds w s) :
    Upholds w (deviceAnswer p g a s) := by
  obtain ⟨ho', hp⟩ := paused_pause ho
  cases a with
  | ack => exact upholds_joinData p (upholds_pause g hs)
  | nack => exact upholds_joinData p (upholds_loseLeg p (upholds_endLeg_paused ho' hp (upholds_pause g hs)))

/-! ### Data bytes (R46, R50, R75) -/

theorem upholds_bytePlaced (p : Port) (g : Seg) (b : Byte) (hs : Upholds w s) : Upholds w (bytePlaced p g b s) := by
  have hplaced : Upholds w (updLeg p g (fun l => { l with down := crc8 l.down b })
      (startClock g (s.updSeg g fun c => { c with activity := some (.writing b true) }))) :=
    upholds_updLeg p g (fun _ => ⟨rfl, rfl⟩) (upholds_startClock g
      (hs.updSeg (fun _ => .of_activity rfl rfl nofun nofun) (SameClaims.refl _).serves))
  unfold bytePlaced
  dsimp only
  split
  next f sn hf hsn =>
    split
    · exact hplaced
    · refine hplaced.updPort ⟨rfl, fun _ => rfl, fun _ => rfl, fun h => ⟨fun e => ?_, fun e => ?_⟩⟩
      · obtain ⟨-, -, -, hnone, -⟩ := h.1 e
        rw [updLeg, State.port_updPort_self] at hnone
        exact absurd (hf.symm.trans hnone) nofun
      · obtain ⟨hnone, -⟩ := h.2 e
        rw [updLeg, State.port_updPort_self] at hnone
        exact absurd (hf.symm.trans hnone) nofun
  next => exact hplaced

/-- R49, R50: while a byte is fetched the record is in no address phase. -/
theorem apart_of_stage {r : PortState} (h : r.addressFits) (hstage : r.readStage ≠ .none) : r.apart := by
  refine ⟨fun e => ?_, fun e => ?_⟩
  · obtain ⟨-, -, -, -, hnone⟩ := h.1 e
    exact hstage hnone
  · obtain ⟨-, hnone, -⟩ := h.2 e
    exact hstage hnone

theorem upholds_byteFetched (ho : (s.seg g).owner = some (.port p)) (hstage : (s.port p).readStage ≠ .none) (b : Byte)
    (hs : Upholds w s) : Upholds w (byteFetched p g b s) := by
  have hapart := apart_of_stage (hs.2 p).address hstage
  have hworks : Works p s (byteFetched p g b s) := by
    unfold byteFetched
    exact (((works_pause ((hs.2 p).calm hapart.1) ho).andThen fun h =>
      works_updLeg h g (k := fun l => { l with down := crc8 l.down b }) fun _ => ⟨rfl, id⟩).andThen fun h =>
      .port (k := fun r => { r with readStage := .supplying b 0 }) h (fun _ => id) id).andThen fun h => works_supply h b
  exact hworks.toStays.upholds_apart hs (hworks.apart hapart)

theorem upholds_checkFetched (ho : (s.seg g).owner = some (.port p)) (hstage : (s.port p).readStage ≠ .none) (b : Byte)
    (l : Leg) (hs : Upholds w s) : Upholds w (checkFetched p g b l s) := by
  have hapart := apart_of_stage (hs.2 p).address hstage
  have hnoted : Works p s (if b = l.down then s
      else notePort .checkDownstream p (some g) (slotOf s p) (checkDetail b l.down) s) := by
    split
    · exact .refl ((hs.2 p).calm hapart.1)
    · exact works_notePort ((hs.2 p).calm hapart.1) ..
  have hworks : Works p s (checkFetched p g b l s) := by
    unfold checkFetched
    dsimp only
    exact (((hnoted.andThen fun h => works_pause h ((hnoted.owner g).trans ho)).andThen fun h =>
      works_updLeg h g (k := fun l => { l with marked := true }) fun _ => ⟨rfl, id⟩).andThen fun h =>
      .port (k := fun r => { r with readStage := .supplyingCheck (preparedCheck l.down b (s.port p).up) }) h (fun _ => id)
        id).andThen fun h => works_supply h _
  exact hworks.toStays.upholds_apart hs (hworks.apart hapart)

end

/-! ### A segment taken from its owner (R34, R55, R56, R96, R97, R108) -/

/-- A segment that no port owns any longer, its wait list as it was. -/
structure Seized (g : Seg) (s t : State) : Prop where
  port : ∀ q, t.port q = s.port q
  owner : ∀ q, (t.seg g).owner ≠ some (.port q)
  waiters : (t.seg g).waiters = (s.seg g).waiters
  others : ∀ k, k ≠ g → t.seg k = s.seg k

theorem seized_updSeg {g : Seg} {s u : State} (hu : OnlyNotices s u) {k : SegState → SegState}
    (ho : ∀ c q, (k c).owner ≠ some (.port q)) (hw : ∀ c, (k c).waiters = c.waiters) : Seized g s (u.updSeg g k) := by
  refine ⟨hu.port, fun q => ?_, ?_, fun x hx => ?_⟩
  · rw [State.seg_updSeg_self]
    exact ho _ q
  · rw [State.seg_updSeg_self, hw, hu.seg]
  · rw [State.seg_updSeg, if_neg hx, hu.seg]

theorem seized_release (g : Seg) (foreign : Bool) {s u : State} (hu : OnlyNotices s u) : Seized g s (release g foreign u) := by
  rw [release_eq]
  exact seized_updSeg hu (fun _ _ => nofun) fun _ => rfl

theorem seized_beginRecovery (g : Seg) {s u : State} (hu : OnlyNotices s u) : Seized g s (beginRecovery g none u) := by
  rw [beginRecovery_eq]
  exact seized_updSeg hu (fun _ _ => nofun) fun _ => rfl

namespace Seized
variable {g : Seg} {s t : State}

theorem alike (h : Seized g s t) {q : Port} (ho : (s.seg g).owner ≠ some (.port q)) (k : Seg) : AlikeFor q (s.seg k) (t.seg k) := by
  by_cases e : k = g
  · subst e
    exact .of_other ho (h.owner q) (by rw [h.waiters])
  · rw [h.others k e]
    exact .refl ..

theorem mem_waiters (h : Seized g s t) (c : Claimant) (k : Seg) : c ∈ (t.seg k).waiters ↔ c ∈ (s.seg k).waiters := by
  by_cases e : k = g
  · rw [e, h.waiters]
  · rw [h.others k e]

/-- The owner's part, once it has no leg ACTIVE on the segment. -/
theorem fits (h : Seized g s t) {p : Port} {r : PortState} (hs : Fits p (s.port p) s.seg) (hr : LegLeft g (s.port p) r)
    (ho : (s.seg g).owner = some (.port p)) : Fits p r t.seg := by
  refine hs.left hr (fun hw => absurd hw (hs.not_waiting ho)) (h.mem_waiters _) (fun e => absurd e (h.owner p)) fun k hk => ?_
  rw [h.others k hk]
  exact ⟨rfl, rfl⟩

end Seized

section
variable {s t : State} {p : Port} {g : Seg}

/-- A segment taken from an owner that has lost its ACTIVE leg on it. -/
theorem Fitting.seized (h : Fitting s) (ho : (s.seg g).owner = some (.port p)) (ht : Seized g s t) {u : State}
    (hu : u.seg = t.seg) (hr : LegLeft g (s.port p) (u.port p)) (hother : ∀ q, q ≠ p → u.port q = t.port q) : Fitting u := by
  intro q
  rw [hu]
  by_cases hq : q = p
  · subst hq
    exact ht.fits (h q) hr ho
  · rw [hother q hq, ht.port]
    exact (h q).congr (.refl _) (ht.alike (by rw [ho]; exact fun e => hq (by cases e; rfl)))

theorem fitting_abortLeg (h : Fitting s) (ho : (s.seg g).owner = some (.port p)) (ht : Seized g s t) :
    Fitting (abortLeg p g t) := by
  refine h.seized ho ht (funext fun _ => rfl) ?_ fun q hq => ?_
  · unfold abortLeg updLeg
    rw [State.port_updPort_self, ht.port]
    exact legLeft_mapLegs g (s.port p) (k := Leg.aborted) nofun nofun
  · unfold abortLeg updLeg
    rw [State.port_updPort, if_neg hq]

theorem alike_leftLeg (g : Seg) (r : PortState) : AlikeRecord r (r.leftLeg g) :=
  ⟨rfl, fun k => congrFun (active_leftLeg g r) k, fun k => congrFun (claims_leftLeg g r) k, id⟩

/-- R19, R96: a leg whose STOP has been placed, or lost, leaves its record with its segment. -/
theorem fitting_dropEndedLeg (h : Fitting s) (ho : (s.seg g).owner = some (.port p)) {c : Option Byte}
    (ha : (s.seg g).activity = some (.closing c)) (ht : Seized g s t) : Fitting (dropEndedLeg p g t) := by
  have hno : (s.port p).active g = false := Bool.eq_false_iff.mpr fun e => ((h p).active g e).2 c ha
  have htaken : Fitting t :=
    h.seized ho ht rfl (by rw [ht.port]; exact .of_inactive hno) fun _ _ => rfl
  exact htaken.updPort (alike_leftLeg g (t.port p))

/-- R34, R55, R56, R80, R84: the record learns that its leg has been taken from it. -/
theorem fitting_tellAbort (h : Fitting s) (ho : (s.seg g).owner = some (.port p)) (ht : Seized g s t) :
    Fitting (tellAbort p g (s.seg g).activity t) := by
  have haborted : Upholds False (abortLeg p g t) := ⟨False.elim, fitting_abortLeg h ho ht⟩
  unfold tellAbort
  split
  next ha => exact fitting_dropEndedLeg h ho ha ht
  next => exact (upholds_joinAddress p haborted).2
  next => exact (upholds_joinData p (upholds_loseLeg p haborted)).2
  next a =>
    split
    next hphase =>
      have hphase' : ((abortLeg p g t).port p).phase = .read := by
        unfold abortLeg updLeg
        rw [State.port_updPort_self]
        exact hphase
      refine (upholds_inRead hphase' haborted fun hc => ?_).2
      unfold abortRead
      split
      · exact works_toDrain hc
      · exact (works_toDrain hc).andThen fun h => works_supply h _
      · exact (works_toDrain hc).andThen fun h => works_supply h _
    next => exact haborted.2
  next => exact haborted.2
  next => exact haborted.2

theorem fitting_linesLowAtStart (h : Fitting s) (ho : (s.seg g).owner = some (.port p)) : Fitting (linesLowAtStart p g s) :=
  fitting_tellAbort h ho (seized_beginRecovery g (onlyNotices_note ..))

theorem fitting_loseArbitration (h : Fitting s) (ho : (s.seg g).owner = some (.port p)) (d : Half) :
    Fitting (loseArbitration p g d s) := fitting_tellAbort h ho (seized_release g true (onlyNotices_note ..))

theorem fitting_clockExpired (h : Fitting s) (ho : (s.seg g).owner = some (.port p)) : Fitting (clockExpired p g s) :=
  fitting_tellAbort h ho (seized_beginRecovery g (onlyNotices_note ..))

theorem fitting_stopPlaced (h : Fitting s) (ho : (s.seg g).owner = some (.port p)) {c : Option Byte}
    (ha : (s.seg g).activity = some (.closing c)) : Fitting (release g false (dropEndedLeg p g s)) :=
  fitting_dropEndedLeg (t := release g false s) h ho ha (seized_release g false rfl)

/-! ### Segments that no port owns (R97, R114, R118, R119, R179) -/

/-- A segment that no port owns before or after. -/
theorem Fitting.unowned (h : Fitting s) (ho : ∀ q, (s.seg g).owner ≠ some (.port q)) {k : SegState → SegState}
    (ho' : ∀ q, (k (s.seg g)).owner ≠ some (.port q)) (hw : (k (s.seg g)).waiters = (s.seg g).waiters) :
    Fitting (s.updSeg g k) := h.updSeg fun q => .of_other (ho q) (ho' q) (by rw [hw])

theorem fitting_beginRecovery (h : Fitting s) (ho : ∀ q, (s.seg g).owner ≠ some (.port q)) {owner : Option Claimant}
    (hm : ∀ q, owner ≠ some (.port q)) : Fitting (beginRecovery g owner s) := by
  rw [beginRecovery_eq]
  exact h.unowned ho hm rfl

theorem fitting_foreignOver (h : Fitting s) : Fitting (foreignOver g s) := by
  unfold foreignOver
  split
  next hm => exact fitting_beginRecovery h (fun q => by rw [hm.2]; nofun) fun q => nofun
  next => exact h.updSeg fun q => .of_eq rfl rfl rfl

theorem fitting_quietLow (h : Fitting s) : Fitting (quietLow g s) := by
  unfold quietLow
  split
  next ho =>
    have hnote := onlyNotices_note .segTimeout none (some (.seg g)) none detailLinesLow s
    exact fitting_beginRecovery (h.note _ _ _ _ _) (fun q => by rw [hnote.seg, ho]; nofun) fun q => nofun
  next ho => exact fitting_linesLowAtStart h ho
  next ho => exact fitting_beginRecovery h (fun q => by rw [ho]; nofun) fun q => nofun

theorem fitting_sequenceEnded (h : Fitting s) (ho : ∀ q, (s.seg g).owner ≠ some (.port q)) (kind : Kind) (d : Half)
    {k : SegState → SegState} (hk : ∀ c, (k c).owner = none ∧ (k c).waiters = c.waiters) (status : Status)
    (payload : List Byte) : Fitting (sequenceEnded kind d k status payload g s) := by
  have hnote := onlyNotices_note kind none (some (.seg g)) none d s
  have hended : Fitting ((note kind none (some (.seg g)) none d s).updSeg g k) :=
    (h.note _ _ _ _ _).unowned (fun q => by rw [hnote.seg]; exact ho q) (fun q => by rw [(hk _).1]; nofun) (hk _).2
  unfold sequenceEnded
  split
  · exact hended.answerSegReset _ _
  · exact hended

theorem fitting_attemptFailed (h : Fitting s) (ho : ∀ q, (s.seg g).owner ≠ some (.port q)) : Fitting (attemptFailed g s) := by
  unfold attemptFailed
  split
  · refine Fitting.updSeg (h.updSeg fun q => .of_eq rfl rfl rfl) fun q => .of_eq rfl rfl rfl
  · rw [faulted_eq]
    exact fitting_sequenceEnded h ho _ _ (k := SegState.faultedBy _) (fun _ => ⟨rfl, rfl⟩) _ _

theorem fitting_attemptEnded (h : Fitting s) (ho : ∀ q, (s.seg g).owner ≠ some (.port q)) (l : Lines) :
    Fitting (attemptEnded g l s) := by
  unfold attemptEnded
  split
  · rw [recovered_eq]
    exact fitting_sequenceEnded h ho _ _ (k := SegState.recoveredBy _) (fun _ => ⟨rfl, rfl⟩) _ _
  · refine fitting_attemptFailed (h.updSeg fun q => .of_eq rfl rfl rfl) fun q => ?_
    rw [sampleLines, State.seg_updSeg_self]
    exact ho q

end

end Sys2Proof.Machine
end

section
/-!
PROOFS. O6: every command keeps the wait lists, the claims and the legs in order (R31, R93, R94).
-/
namespace Sys2Proof.Machine

/-! ### Edges and another controller on a segment (R111, R114) -/

/-- R114: a segment on which another controller's transaction may have been seen. -/
theorem serves_foreign {c d : SegState} (ho : d.owner = c.owner) (hw : d.waiters = c.waiters)
    (hp : d.pendingDisable = c.pendingDisable) (hc : d.cond = c.cond ∨ c.cond = .idle ∧ d.cond = .foreign) : Serves c d := by
  refine ⟨hw, ?_⟩
  unfold SegState.free SegState.refuses
  rw [ho, hp]
  obtain hc | ⟨hc, hd⟩ := hc
  · rw [hc]
    exact id
  · rw [hc, hd]
    exact id

theorem cond_foreign (b : Prop) [Decidable b] (c : SegCondition) :
    (if b then SegCondition.foreign else c) = c ∨ b ∧ (if b then SegCondition.foreign else c) = .foreign := by
  split
  next h => exact .inr ⟨h, rfl⟩
  next => exact .inl rfl

theorem serves_foreignSeen (c : SegState) : Serves c (foreignSeen c) := serves_foreign rfl rfl rfl (cond_foreign _ _)

theorem serves_edged (w : Wire) (high : Bool) (c : SegState) : Serves c (c.edged w high) :=
  serves_foreign rfl rfl rfl ((cond_foreign _ _).imp id fun h => ⟨h.1.2, h.2⟩)

theorem alike_sclEdge (q : Port) (high : Bool) (n : Nat) (c : SegState) : AlikeFor q c (sclEdge high n c) := by
  unfold sclEdge
  split
  · exact .of_eq rfl rfl rfl
  split
  · exact .of_activity rfl rfl nofun nofun
  all_goals exact .of_eq rfl rfl rfl

theorem sameClaims_sclEdge (high : Bool) (n : Nat) (c : SegState) : SameClaims c (sclEdge high n c) := by
  unfold sclEdge
  split
  · exact .refl _
  split
  all_goals exact .refl _

/-- R111, R114: an edge leaves what the laws of every port look at, and no claim is served by it. -/
theorem kept_lineEdge (w : Wire) (high : Bool) (n : Nat) (c : SegState) :
    (∀ q, AlikeFor q c (lineEdge w high n c)) ∧ Serves c (lineEdge w high n c) := by
  have hedged (q : Port) : AlikeFor q c { c.edged w high with newWatch := false } := .of_eq rfl rfl rfl
  cases w with
  | scl =>
    rw [lineEdge_scl]
    exact ⟨fun q => (hedged q).trans (alike_sclEdge q high n _),
      (serves_edged .scl high c).trans (sameClaims_sclEdge high n { c.edged .scl high with newWatch := false }).serves⟩
  | sda =>
    rw [lineEdge_sda]
    exact ⟨fun q => .of_eq rfl rfl rfl, serves_edged .sda high c⟩

section
variable {s : State} {w : Prop} {g : Seg}

theorem upholds_lineEdge (g : Seg) (wire : Wire) (high : Bool) (n : Nat) (hs : Upholds w s) :
    Upholds w (s.updSeg g (lineEdge wire high n)) := by
  obtain ⟨halike, hserves⟩ := kept_lineEdge wire high n (s.seg g)
  exact hs.updSeg halike hserves

theorem upholds_foreignStart (g : Seg) (k : ForeignKind) (hs : Upholds w s) : Upholds w (s.updSeg g (foreignStart k)) :=
  hs.updSeg (fun _ => .of_eq rfl rfl rfl) (serves_foreignSeen _)

/-! ### SEGMENT-ENABLE, SEGMENT-DISABLE and SEGMENT-RESET (R99, R100, R178) -/

theorem upholds_putIn (g : Seg) (q : SegParams) (hs : Upholds w s) : Upholds w (s.updSeg g (putIn q)) := by
  have hkept : (putIn q (s.seg g)).owner = (s.seg g).owner ∧ (putIn q (s.seg g)).waiters = (s.seg g).waiters
      ∧ (putIn q (s.seg g)).activity = (s.seg g).activity := by
    unfold putIn
    split
    · exact ⟨rfl, rfl, rfl⟩
    · exact ⟨rfl, rfl, rfl⟩
  obtain ⟨ho, hw, ha⟩ := hkept
  refine hs.updSeg (fun _ => .of_eq ho hw ha) ⟨hw, ?_⟩
  unfold putIn
  split
  next hd =>
    intro
    unfold SegState.refuses
    rw [hd]
    exact .inr rfl
  next =>
    rintro (hf | hr)
    · exact .inl hf
    · refine .inr ?_
      unfold SegState.refuses at hr ⊢
      rw [Bool.or_false] at hr
      rw [hr]
      rfl

theorem fitting_takeOut (h : Fitting s) (g : Seg) : Fitting (s.updSeg g takeOut) := by
  have hkept : (takeOut (s.seg g)).owner = (s.seg g).owner ∧ (takeOut (s.seg g)).waiters = (s.seg g).waiters
      ∧ (takeOut (s.seg g)).activity = (s.seg g).activity := by
    unfold takeOut
    split
    · exact ⟨rfl, rfl, rfl⟩
    · split
      · exact ⟨rfl, rfl, rfl⟩
      · exact ⟨rfl, rfl, rfl⟩
  obtain ⟨ho, hw, ha⟩ := hkept
  exact h.updSeg fun _ => .of_eq ho hw ha

/-- R93, R178: the claim of MGMT. -/
theorem fitting_claim_mgmt (h : Fitting s) (g : Seg) : Fitting (claim g .mgmt s) := by
  unfold claim
  split
  · exact h.refuse_mgmt
  · split
    next hf => exact h.grant_mgmt hf
    next => exact h.join_mgmt

/-- R17: the incoming image leaves owners, wait lists and activities. -/
theorem fitting_replaceImage (h : Fitting s) (i : Image) (o : Origin) : Fitting (replaceImage i o s) := by
  refine h.congr (fun q => ?_) fun q g => ?_
  · rw [replaceImage_port]
    exact .refl _
  · obtain ⟨howner, hactivity, -, -, hwaiters, -⟩ := replaceSegment_keeps (i.params.segs.get g) (s.seg g)
    rw [replaceImage_seg]
    exact .of_eq howner hwaiters hactivity

/-- R91: a segment that is not OWNED has no port for an owner. -/
theorem ArbiterLaw.unowned (h : ArbiterLaw s) (hc : (s.seg g).cond ≠ .owned) (q : Port) : (s.seg g).owner ≠ some (.port q) :=
  fun e => by
    obtain ⟨-, -, hport, -⟩ := h g
    exact hc (hport q e)

/-! ### A final check that a disable falls together with (R123) -/

theorem stillRecovering_of_cond (harb : ArbiterLaw s) (h : Fitting s) (hc : (s.seg g).cond = .recovering) :
    StillRecovering (s.seg g).pendingDisable g s := by
  refine ⟨hc, rfl, fun q => Bool.eq_false_iff.mpr fun e => ?_⟩
  obtain ⟨ho, -⟩ := (h q).active g e
  exact harb.unowned (by rw [hc]; nofun) q ho

/-- R97, R123: the SEGMENT-DISABLE that a final check finds due leaves the segment in its recovery. -/
theorem recovering_of_row {u : State} (h : StillRecovering (s.seg g).pendingDisable g s) (hu : Row .segmentDisable s u) :
    (u.seg g).cond = .recovering := by
  have answered {p : Port} {st : Status} {tag : Byte} {pl : List Byte} {v : State} (hv : (v.seg g).cond = .recovering) :
      ((respond p st tag pl v).seg g).cond = .recovering := hv
  cases hu with
  | same => exact h.cond
  | denied => exact h.cond
  | @body p tag payload rest v he hq hb =>
    show (v.seg g).cond = .recovering
    generalize hs : takeHead (.frame p .segmentDisable tag payload) rest s = s' at hb
    have h' : StillRecovering (s.seg g).pendingDisable g s' := by
      subst hs
      exact h.congr rfl rfl fun _ => rfl
    cases hb with
    | replied => exact answered h'.cond
    | edited => exact answered h'.cond
    | cellWriteStarted => exact h'.cond
    | @disabled _ _ x =>
      refine answered ?_
      by_cases e : x = g
      · subst e
        have hmarked : StillRecovering true x (s'.updSeg x takeOut) := by
          have hseg := State.seg_updSeg_self s' x takeOut
          rw [takeOut_busy (.inr h'.cond)] at hseg
          exact ⟨by rw [hseg]; exact h'.cond, by rw [hseg], h'.inactive⟩
        exact hmarked.finish.cond
      · exact (h'.updSeg fun e' => absurd e' e).finish.cond

end

/-! ### Every command -/

/-- R36: an address phase given up when its hold timer expires. -/
theorem fitting_holdExpired {s : State} (p : Port) (h : Fitting s) : Fitting (holdExpired p s) := by
  have hnot (g : Seg) : .port p ∉ (withdrawn s p g).waiters := fun hw => (mem_without (c := s.seg g)).mp hw |>.2 rfl
  rw [holdExpired_eq]
  refine h.bus (fun q _ => (onlyNotices_note ..).port q)
    (fits_addressGivenUp (f₁ := withdrawn s p) (h p) (fun _ => ⟨rfl, rfl⟩) hnot _) fun q hq g =>
    alike_segGivenUp (f₁ := withdrawn s p) (h p) (fun _ => ⟨rfl, rfl⟩) _ hq g ?_
  exact (mem_without (c := s.seg g)).trans (and_iff_left (port_claimant_ne hq))

theorem Upholds.waitLaw_retime {s : State} (h : Upholds True s) : WaitLaw (retime s) := Machine.waitLaw_retime (h.1 trivial) h.2

theorem Upholds.waitLaw {s : State} (h : Upholds True s) : WaitLaw s := waitLaw_iff.mpr ⟨h.1 trivial, h.2⟩

theorem WaitLaw.upholds {s : State} (h : WaitLaw s) : Upholds True s := ⟨fun _ => h.served, h.fitting⟩

/-- R59, R63, R163: an edge of upstream SCL. -/
theorem alike_edge (n : Nat) (r : PortState) : AlikeRecord r (mgmtEdge (edgeSeen (restartStall n r))) := by
  unfold edgeSeen
  split
  next b m hstage =>
    refine ⟨rfl, fun _ => rfl, fun _ => rfl, fun h => ?_⟩
    have hapart := apart_of_stage h (by rw [show r.readStage = .supplying b m from hstage]; nofun)
    exact PortState.apart.fits hapart
  all_goals
    refine ⟨rfl, fun _ => rfl, fun _ => rfl, fun h => ⟨fun e => ?_, h.2⟩⟩
    obtain ⟨hscl, hstall, hrest⟩ := h.1 e
    exact ⟨hscl, congrArg (Option.map _) hstall, hrest⟩

theorem phase_of_writeReady {r : PortState} (h : writeReady r = true) : r.phase = .write := by
  unfold writeReady at h
  rw [Bool.and_eq_true, Bool.and_eq_true] at h
  exact eq_of_beq h.1.1

/-- R31, R93, R94: an event of a bus or a timer keeps the law. -/
theorem Acts.waitLaw {c : Instr} {s t : State} (hd : ∀ u, Row .segmentDisable s u → ArbiterLaw u ∧ WaitLaw u) (ha : Acts c s t)
    (harb : ArbiterLaw s) (hl : WaitLaw s) : WaitLaw t := by
  have hs := hl.upholds
  have hf := hl.fitting
  cases ha with
  | start p => exact (upholds_startCondition p hs).waitLaw_retime
  | repeatedStart p => exact (upholds_startCondition p hs).waitLaw_retime
  | stop h => exact (upholds_stopCondition (hs.calm h) hs).waitLaw_retime
  | midByteStop h => exact (upholds_midByteStop (hs.calm h) hs).waitLaw_retime
  | midByteStart h => exact (upholds_midByteStart (hs.calm h) hs).waitLaw_retime
  | addressByte p a d => exact (upholds_addressByte p a d hs).waitLaw_retime
  | writeByte b h => exact (upholds_takeWriteByte b (phase_of_writeReady h) hs).waitLaw_retime
  | drainWrite => exact (hs.updPort ⟨rfl, fun _ => rfl, fun _ => rfl, id⟩).waitLaw
  | drainRead => exact (hs.updPort ⟨rfl, fun _ => rfl, fun _ => rfl, id⟩).waitLaw
  | mgmtWriteByte => exact (hs.updPort ⟨rfl, fun _ => rfl, fun _ => rfl, id⟩).waitLaw
  | mgmtReadAck => exact (hs.updPort ⟨rfl, fun _ => rfl, fun _ => rfl, id⟩).waitLaw
  | upstreamSclEdge p => exact (hs.updPort (alike_edge _ _)).waitLaw
  | readByteAck a h => exact (upholds_inRead h hs fun hc => works_readAnswer hc a).waitLaw_retime
  | readAddressAckEnd h => exact (upholds_inRead h hs works_readRequest).waitLaw_retime
  | holdExpired => exact (fitting_holdExpired _ hf).finish
  | stall h => exact (upholds_stallExpired h hs).waitLaw_retime
  | openPlaced ho ha => exact (upholds_placeAddress (by rw [sampleLines, State.seg_updSeg_self]; exact ha)
      (upholds_sampleLines _ _ hs) _).waitLaw_retime
  | openWaits => exact (upholds_sampleLines _ _ hs).waitLaw_retime
  | openLow ho =>
    refine (fitting_linesLowAtStart (upholds_sampleLines _ _ hs).2 ?_).finish
    rw [sampleLines, State.seg_updSeg_self]
    exact owns_iff.mp ho
  | openRepeated l ho ha => exact (upholds_placeAddress ha hs _).waitLaw_retime
  | targetAck a ho => exact (upholds_targetAnswer (owns_iff.mp ho) a hs).waitLaw_retime
  | bytePlaced => exact (upholds_bytePlaced _ _ _ hs).waitLaw
  | deviceAck a ho => exact (upholds_deviceAnswer (owns_iff.mp ho) a hs).waitLaw_retime
  | readByteFetched b ho _ hr => exact (upholds_byteFetched (owns_iff.mp ho) (by rw [hr]; nofun) b hs).waitLaw_retime
  | checkByteFetched b ho _ hr => exact (upholds_checkFetched (owns_iff.mp ho) (by rw [hr]; nofun) b _ hs).waitLaw_retime
  | stopPlaced ho ha => exact (fitting_stopPlaced hf (owns_iff.mp ho) ha).finish
  | arbRetried _ ha => exact (upholds_retryAddress ha hs).waitLaw_retime
  | arbLost d ho => exact (fitting_loseArbitration hf (owns_iff.mp ho) d).finish
  | foreignStart k => exact (upholds_foreignStart _ k hs).waitLaw_retime
  | foreignStop => exact (fitting_foreignOver (upholds_sampleLines _ _ hs).2).finish
  | clockRecovering hc => exact (fitting_attemptFailed hf (harb.unowned (by rw [hc]; nofun))).finish
  | clockExpired ho => exact (fitting_clockExpired hf (owns_iff.mp ho)).finish
  | quietHigh => exact (fitting_foreignOver (upholds_sampleLines _ _ hs).2).finish
  | quietLow => exact (fitting_quietLow (upholds_sampleLines _ _ hs).2).finish
  | @recoveryAttemptEnd g l _ u hc hu =>
    obtain ⟨harb', hl'⟩ := hd u hu
    have hc' := recovering_of_row (stillRecovering_of_cond harb hf hc) hu
    exact (fitting_attemptEnded hl'.fitting (harb'.unowned (by rw [hc']; nofun)) l).finish
  | stopEdge => exact (fitting_foreignOver (upholds_lineEdge _ _ _ _ hs).2).finish
  | otherEdge g wire high => exact (upholds_lineEdge g wire high _ hs).waitLaw_retime

/-- R31, R91, R93, R94: with the arbiter's records, the wait lists, the claims and the legs are kept by every command. -/
theorem sustained_waitLaw : Sustained fun s => ArbiterLaw s ∧ WaitLaw s where
  aside := by
    rintro s t h ⟨harb, hl⟩
    exact ⟨sustained_arbiterLaw.aside h harb, waitLaw_iff.mpr ⟨fun g => by rw [h.seg]; exact hl.served g, hl.fitting.aside h⟩⟩
  acts := by
    rintro c s t hd ha ⟨harb, hl⟩
    exact ⟨sustained_arbiterLaw.acts (fun u hu => (hd u hu).1) ha harb, ha.waitLaw hd harb hl⟩
  replaced := by
    rintro i o s t h ⟨harb, hl⟩
    exact ⟨sustained_arbiterLaw.replaced h harb, ((fitting_replaceImage hl.fitting i o).aside h).finish⟩
  segReset := by
    rintro g s hm hd hp ⟨harb, hl⟩
    refine ⟨sustained_arbiterLaw.segReset hm hd hp harb, Fitting.finish ?_⟩
    split
    next hc => exact fitting_beginRecovery hl.fitting (harb.unowned (by rw [hc]; nofun)) nofun
    next => exact fitting_claim_mgmt hl.fitting g
  disabled := by
    rintro g s hc ⟨harb, hl⟩
    exact ⟨sustained_arbiterLaw.disabled hc harb, (fitting_takeOut hl.fitting g).finish⟩
  enabled := by
    rintro g q s hc ⟨harb, hl⟩
    exact ⟨sustained_arbiterLaw.enabled hc harb, (upholds_putIn g q hl.upholds).waitLaw_retime⟩
  cleared := by
    intro s hp hg
    refine ⟨sustained_arbiterLaw.cleared hp hg, waitLaw_cleared hp fun g => ?_⟩
    obtain ⟨q, g', l, h | h⟩ := hg g
    · rw [h]
      unfold resetSegment
      dsimp only
      split
      · exact ⟨rfl, rfl⟩
      · split
        · exact ⟨rfl, rfl⟩
        · exact ⟨rfl, rfl⟩
    · rw [h]
      exact ⟨rfl, rfl⟩

namespace Laws

/-- Settles O6: every command keeps the law, by what it does to each port's part and by the end of its event. -/
theorem waitLawKept : Obligations.WaitLawKept := fun _ _ harb hl hs => (sustained_waitLaw.step hs ⟨harb, hl⟩).2

end Laws

end Sys2Proof.Machine
end
